-- ==== Sys2Proof/Word.lean ====
section
/-! DEFINITION. The sizes of R10, and the machine's words and addresses as bit vectors (spec 00_scope.md R10, R12;
20_memory.md R80).

Bit 0 of a `BitVec` is the least significant bit: the manual's bit n of a word is bit 31 - n here (00_scope.md R11). -/

namespace Sys2Proof

/-- The size parameters of R10. -/
structure Sizes where
  /-- `WORD_BITS`: the bits of a word; a byte has a quarter as many -/
  wordBits : Nat
  /-- `VA_BITS`: the bits of a virtual word address -/
  vaBits : Nat
  /-- `PAGE_BYTES` -/
  pageBytes : Nat
  /-- `VPAGES`: the virtual pages -/
  vPages : Nat
  /-- `NBLOCKS`: the register blocks, of 16 registers each -/
  nBlocks : Nat
  /-- `NLEVELS`: the interrupt levels -/
  nLevels : Nat
  /-- `MAP_ENTRY_BITS` of `setMap`: the bits of an entry in an image word (D33) -/
  mapEntryBits : Nat
  /-- `MAP_ENTRY_BITS` of `setMapWide` (D33) -/
  mapWideBits : Nat
  /-- `N_CPU`: the processors (D37) -/
  nCpu : Nat
deriving DecidableEq, Repr

/-- The values R10 takes. -/
abbrev Sizes.standard : Sizes where
  wordBits := 32
  vaBits := 17
  pageBytes := 2048
  vPages := 256
  nBlocks := 16
  nLevels := 32
  mapEntryBits := 8
  mapWideBits := 13
  nCpu := 1

/-- A table with an entry of w bits for each virtual page (R10, 20_memory.md R97). -/
abbrev PageTable (w : Nat) := Vector (BitVec w) Sizes.standard.vPages
/-- 8 bits (R10, `WORD_BITS`). -/
abbrev Byte := BitVec 8
/-- 16 bits. -/
abbrev Half := BitVec 16
/-- 32 bits. -/
abbrev Word := BitVec 32
/-- 64 bits, first word high (R12, R81). -/
abbrev Double := BitVec 64
/-- A register number within a block, and the 4-bit R field (R13, R30). -/
abbrev RegNum := BitVec 4
/-- A 17-bit virtual word address (R80). -/
abbrev WordAddr := BitVec 17
/-- An 18-bit virtual halfword address (R80, R137). -/
abbrev HalfAddr := BitVec 18
/-- A 19-bit virtual byte address (R80, R138). -/
abbrev ByteAddr := BitVec 19
/-- A 16-bit virtual doubleword address (R82, R139). -/
abbrev DoubleAddr := BitVec 16

end Sys2Proof
end

