-- ==== Sys2Proof/Syntax.lean ====
section
/-! DEFINITION. The instruction set: one constructor per row of spec/opcode_table.json (30_encoding.md R150).

A constructor keeps every bit of its word, the fields its instruction ignores too (R145: "the decoded fields keep every
bit"). -/

namespace Sys2Proof

/-- The address part of a memory-reference word (30_encoding.md R131): the indirect flag I, the index field X
(0 = no indexing) and the reference address REF. -/
structure AddrField where
  ind : Bool
  x : BitVec 3
  ref : WordAddr
deriving DecidableEq, Repr

/-- The instructions. `r` is the R field (a register, mask, count, length, delta or trap code), `a` the address part,
`v` the 20-bit value of the immediate format (R132), `f` the function of MMC and `z` its ignored bits (R134). -/
inductive Instr where
  /-- LCFI, X'02', 20-bit immediate (R214). -/
  | lcfi (r : RegNum) (v : BitVec 20)
  /-- CAL1, X'04', no effective address (R460). -/
  | cal1 (r : RegNum) (a : AddrField)
  /-- CAL2, X'05', no effective address (R460). -/
  | cal2 (r : RegNum) (a : AddrField)
  /-- CAL3, X'06', no effective address (R460). -/
  | cal3 (r : RegNum) (a : AddrField)
  /-- CAL4, X'07', no effective address (R460). -/
  | cal4 (r : RegNum) (a : AddrField)
  /-- PLW, X'08', doubleword operand (R373). -/
  | plw (r : RegNum) (a : AddrField)
  /-- PSW, X'09', doubleword operand (R372). -/
  | psw (r : RegNum) (a : AddrField)
  /-- PLM, X'0A', doubleword operand (R375). -/
  | plm (r : RegNum) (a : AddrField)
  /-- PSM, X'0B', doubleword operand (R374). -/
  | psm (r : RegNum) (a : AddrField)
  /-- LPSD, X'0E', doubleword operand (R461). -/
  | lpsd (r : RegNum) (a : AddrField)
  /-- XPSD, X'0F', doubleword operand (R462). -/
  | xpsd (r : RegNum) (a : AddrField)
  /-- AD, X'10', doubleword operand (R254). -/
  | ad (r : RegNum) (a : AddrField)
  /-- CD, X'11', doubleword operand (R271). -/
  | cd (r : RegNum) (a : AddrField)
  /-- LD, X'12', doubleword operand (R204). -/
  | ld (r : RegNum) (a : AddrField)
  /-- MSP, X'13', doubleword operand (R376). -/
  | msp (r : RegNum) (a : AddrField)
  /-- STD, X'15', doubleword operand (R218). -/
  | std (r : RegNum) (a : AddrField)
  /-- SD, X'18', doubleword operand (R257). -/
  | sd (r : RegNum) (a : AddrField)
  /-- CLM, X'19', doubleword operand (R274). -/
  | clm (r : RegNum) (a : AddrField)
  /-- LCD, X'1A', doubleword operand (R209). -/
  | lcd (r : RegNum) (a : AddrField)
  /-- LAD, X'1B', doubleword operand (R210). -/
  | lad (r : RegNum) (a : AddrField)
  /-- FSL, X'1C', doubleword operand (R401). -/
  | fsl (r : RegNum) (a : AddrField)
  /-- FAL, X'1D', doubleword operand (R400). -/
  | fal (r : RegNum) (a : AddrField)
  /-- FDL, X'1E', doubleword operand (R403). -/
  | fdl (r : RegNum) (a : AddrField)
  /-- FML, X'1F', doubleword operand (R402). -/
  | fml (r : RegNum) (a : AddrField)
  /-- AI, X'20', 20-bit immediate (R251). -/
  | ai (r : RegNum) (v : BitVec 20)
  /-- CI, X'21', 20-bit immediate (R267). -/
  | ci (r : RegNum) (v : BitVec 20)
  /-- LI, X'22', 20-bit immediate (R200). -/
  | li (r : RegNum) (v : BitVec 20)
  /-- MI, X'23', 20-bit immediate (R262). -/
  | mi (r : RegNum) (v : BitVec 20)
  /-- SF, X'24', shift control (R404). -/
  | sf (r : RegNum) (a : AddrField)
  /-- S, X'25', shift control (R303). -/
  | s (r : RegNum) (a : AddrField)
  /-- CVS, X'28', word operand (R276). -/
  | cvs (r : RegNum) (a : AddrField)
  /-- CVA, X'29', word operand (R275). -/
  | cva (r : RegNum) (a : AddrField)
  /-- LM, X'2A', word operand (R212). -/
  | lm (r : RegNum) (a : AddrField)
  /-- STM, X'2B', word operand (R220). -/
  | stm (r : RegNum) (a : AddrField)
  /-- WAIT, X'2E', no effective address (R468). -/
  | wait (r : RegNum) (a : AddrField)
  /-- LRP, X'2F', word operand (R463). -/
  | lrp (r : RegNum) (a : AddrField)
  /-- AW, X'30', word operand (R253). -/
  | aw (r : RegNum) (a : AddrField)
  /-- CW, X'31', word operand (R270). -/
  | cw (r : RegNum) (a : AddrField)
  /-- LW, X'32', word operand (R203). -/
  | lw (r : RegNum) (a : AddrField)
  /-- MTW, X'33', word operand, R is the signed delta (R261). -/
  | mtw (r : RegNum) (a : AddrField)
  /-- STW, X'35', word operand (R217). -/
  | stw (r : RegNum) (a : AddrField)
  /-- DW, X'36', word operand (R266). -/
  | dw (r : RegNum) (a : AddrField)
  /-- MW, X'37', word operand (R264). -/
  | mw (r : RegNum) (a : AddrField)
  /-- SW, X'38', word operand (R256). -/
  | sw (r : RegNum) (a : AddrField)
  /-- CLR, X'39', word operand (R273). -/
  | clr (r : RegNum) (a : AddrField)
  /-- LCW, X'3A', word operand (R207). -/
  | lcw (r : RegNum) (a : AddrField)
  /-- LAW, X'3B', word operand (R208). -/
  | law (r : RegNum) (a : AddrField)
  /-- FSS, X'3C', word operand (R397). -/
  | fss (r : RegNum) (a : AddrField)
  /-- FAS, X'3D', word operand (R396). -/
  | fas (r : RegNum) (a : AddrField)
  /-- FDS, X'3E', word operand (R399). -/
  | fds (r : RegNum) (a : AddrField)
  /-- FMS, X'3F', word operand (R398). -/
  | fms (r : RegNum) (a : AddrField)
  /-- TTBS, X'40', byte string, 20-bit displacement (R424). -/
  | ttbs (r : RegNum) (v : BitVec 20)
  /-- TBS, X'41', byte string, 20-bit displacement (R423). -/
  | tbs (r : RegNum) (v : BitVec 20)
  /-- ANLZ, X'44', word operand (R474). -/
  | anlz (r : RegNum) (a : AddrField)
  /-- CS, X'45', word operand (R272). -/
  | cs (r : RegNum) (a : AddrField)
  /-- XW, X'46', word operand (R222). -/
  | xw (r : RegNum) (a : AddrField)
  /-- STS, X'47', word operand (R219). -/
  | sts (r : RegNum) (a : AddrField)
  /-- EOR, X'48', word operand (R302). -/
  | eor (r : RegNum) (a : AddrField)
  /-- OR, X'49', word operand (R301). -/
  | or (r : RegNum) (a : AddrField)
  /-- LS, X'4A', word operand (R211). -/
  | ls (r : RegNum) (a : AddrField)
  /-- AND, X'4B', word operand (R300). -/
  | and (r : RegNum) (a : AddrField)
  /-- SIO, X'4C', unit address (R501). -/
  | sio (r : RegNum) (a : AddrField)
  /-- TIO, X'4D', unit address (R502). -/
  | tio (r : RegNum) (a : AddrField)
  /-- TDV, X'4E', unit address (R503). -/
  | tdv (r : RegNum) (a : AddrField)
  /-- HIO, X'4F', unit address (R504). -/
  | hio (r : RegNum) (a : AddrField)
  /-- AH, X'50', halfword operand (R252). -/
  | ah (r : RegNum) (a : AddrField)
  /-- CH, X'51', halfword operand (R269). -/
  | ch (r : RegNum) (a : AddrField)
  /-- LH, X'52', halfword operand (R202). -/
  | lh (r : RegNum) (a : AddrField)
  /-- MTH, X'53', halfword operand, R is the signed delta (R260). -/
  | mth (r : RegNum) (a : AddrField)
  /-- STH, X'55', halfword operand (R216). -/
  | sth (r : RegNum) (a : AddrField)
  /-- DH, X'56', halfword operand (R265). -/
  | dh (r : RegNum) (a : AddrField)
  /-- MH, X'57', halfword operand (R263). -/
  | mh (r : RegNum) (a : AddrField)
  /-- SH, X'58', halfword operand (R255). -/
  | sh (r : RegNum) (a : AddrField)
  /-- LCH, X'5A', halfword operand (R205). -/
  | lch (r : RegNum) (a : AddrField)
  /-- LAH, X'5B', halfword operand (R206). -/
  | lah (r : RegNum) (a : AddrField)
  /-- CBS, X'60', byte string, 20-bit displacement (R422). -/
  | cbs (r : RegNum) (v : BitVec 20)
  /-- MBS, X'61', byte string, 20-bit displacement (R421). -/
  | mbs (r : RegNum) (v : BitVec 20)
  /-- EBS, X'63', byte string, 20-bit displacement (R441). -/
  | ebs (r : RegNum) (v : BitVec 20)
  /-- BDR, X'64', word operand (R343). -/
  | bdr (r : RegNum) (a : AddrField)
  /-- BIR, X'65', word operand (R344). -/
  | bir (r : RegNum) (a : AddrField)
  /-- AWM, X'66', word operand (R258). -/
  | awm (r : RegNum) (a : AddrField)
  /-- EXU, X'67', word operand (R345). -/
  | exu (r : RegNum) (a : AddrField)
  /-- BCR, X'68', word operand (R340). -/
  | bcr (r : RegNum) (a : AddrField)
  /-- BCS, X'69', word operand (R341). -/
  | bcs (r : RegNum) (a : AddrField)
  /-- BAL, X'6A', word operand (R342). -/
  | bal (r : RegNum) (a : AddrField)
  /-- INT, X'6B', word operand (R473). -/
  | int (r : RegNum) (a : AddrField)
  /-- RD, X'6C', direct address (R470). -/
  | rd (r : RegNum) (a : AddrField)
  /-- WD, X'6D', direct address (R471). -/
  | wd (r : RegNum) (a : AddrField)
  /-- AIO, X'6E', unit address (R505). -/
  | aio (r : RegNum) (a : AddrField)
  /-- MMC, X'6F', no effective address (R464). -/
  | mmc (r : RegNum) (f : BitVec 3) (z : BitVec 17)
  /-- LCF, X'70', byte operand (R213). -/
  | lcf (r : RegNum) (a : AddrField)
  /-- CB, X'71', byte operand (R268). -/
  | cb (r : RegNum) (a : AddrField)
  /-- LB, X'72', byte operand (R201). -/
  | lb (r : RegNum) (a : AddrField)
  /-- MTB, X'73', byte operand, R is the signed delta (R259). -/
  | mtb (r : RegNum) (a : AddrField)
  /-- STCF, X'74', byte operand (R221). -/
  | stcf (r : RegNum) (a : AddrField)
  /-- STB, X'75', byte operand (R215). -/
  | stb (r : RegNum) (a : AddrField)
  /-- PACK, X'76', packed decimal bytes, R is their length (R439). -/
  | pack (r : RegNum) (a : AddrField)
  /-- UNPK, X'77', packed decimal bytes, R is their length (R440). -/
  | unpk (r : RegNum) (a : AddrField)
  /-- DS, X'78', packed decimal bytes, R is their length (R434). -/
  | ds (r : RegNum) (a : AddrField)
  /-- DA, X'79', packed decimal bytes, R is their length (R433). -/
  | da (r : RegNum) (a : AddrField)
  /-- DD, X'7A', packed decimal bytes, R is their length (R436). -/
  | dd (r : RegNum) (a : AddrField)
  /-- DM, X'7B', packed decimal bytes, R is their length (R435). -/
  | dm (r : RegNum) (a : AddrField)
  /-- DSA, X'7C', packed decimal bytes, R is their length (R438). -/
  | dsa (r : RegNum) (a : AddrField)
  /-- DC, X'7D', packed decimal bytes, R is their length (R437). -/
  | dc (r : RegNum) (a : AddrField)
  /-- DL, X'7E', packed decimal bytes, R is their length (R431). -/
  | dl (r : RegNum) (a : AddrField)
  /-- DST, X'7F', packed decimal bytes, R is their length (R432). -/
  | dst (r : RegNum) (a : AddrField)
deriving DecidableEq, Repr

end Sys2Proof
end

