-- ==== Sys2Proof/WellFormed.lean ====
section
/-! DEFINITION. The instructions that are not nonexistent by their word alone (30_encoding.md R143 step 1). The widths of
the fields are in their types; what is left to check is MMC's function and the shift type of a direct, unindexed S. -/

namespace Sys2Proof

/-- MMC's assigned functions: 001, 010, 100 and 101 (47_control.md R464). -/
def mmcFunctionAssigned (f : BitVec 3) : Bool :=
  f == 1#3 || f == 2#3 || f == 4#3 || f == 5#3

/-- Shift types 6 and 7 are nonexistent (42_logical_shift.md R303); the type is bits 10-8 of the address (R141). -/
def shiftTypeAssigned (ref : WordAddr) : Bool :=
  ref.extractLsb' 8 3 != 6#3 && ref.extractLsb' 8 3 != 7#3

/-- The word names an existing instruction whatever the state. -/
def Instr.wellFormed : Instr → Bool
  | .mmc _ f _ => mmcFunctionAssigned f
  | .s _ a => a.ind || a.x != 0#3 || shiftTypeAssigned a.ref
  | .lcfi .. => true
  | .cal1 .. => true
  | .cal2 .. => true
  | .cal3 .. => true
  | .cal4 .. => true
  | .plw .. => true
  | .psw .. => true
  | .plm .. => true
  | .psm .. => true
  | .lpsd .. => true
  | .xpsd .. => true
  | .ad .. => true
  | .cd .. => true
  | .ld .. => true
  | .msp .. => true
  | .std .. => true
  | .sd .. => true
  | .clm .. => true
  | .lcd .. => true
  | .lad .. => true
  | .fsl .. => true
  | .fal .. => true
  | .fdl .. => true
  | .fml .. => true
  | .ai .. => true
  | .ci .. => true
  | .li .. => true
  | .mi .. => true
  | .sf .. => true
  | .cvs .. => true
  | .cva .. => true
  | .lm .. => true
  | .stm .. => true
  | .wait .. => true
  | .lrp .. => true
  | .aw .. => true
  | .cw .. => true
  | .lw .. => true
  | .mtw .. => true
  | .stw .. => true
  | .dw .. => true
  | .mw .. => true
  | .sw .. => true
  | .clr .. => true
  | .lcw .. => true
  | .law .. => true
  | .fss .. => true
  | .fas .. => true
  | .fds .. => true
  | .fms .. => true
  | .ttbs .. => true
  | .tbs .. => true
  | .anlz .. => true
  | .cs .. => true
  | .xw .. => true
  | .sts .. => true
  | .eor .. => true
  | .or .. => true
  | .ls .. => true
  | .and .. => true
  | .sio .. => true
  | .tio .. => true
  | .tdv .. => true
  | .hio .. => true
  | .ah .. => true
  | .ch .. => true
  | .lh .. => true
  | .mth .. => true
  | .sth .. => true
  | .dh .. => true
  | .mh .. => true
  | .sh .. => true
  | .lch .. => true
  | .lah .. => true
  | .cbs .. => true
  | .mbs .. => true
  | .ebs .. => true
  | .bdr .. => true
  | .bir .. => true
  | .awm .. => true
  | .exu .. => true
  | .bcr .. => true
  | .bcs .. => true
  | .bal .. => true
  | .int .. => true
  | .rd .. => true
  | .wd .. => true
  | .aio .. => true
  | .lcf .. => true
  | .cb .. => true
  | .lb .. => true
  | .mtb .. => true
  | .stcf .. => true
  | .stb .. => true
  | .pack .. => true
  | .unpk .. => true
  | .ds .. => true
  | .da .. => true
  | .dd .. => true
  | .dm .. => true
  | .dsa .. => true
  | .dc .. => true
  | .dl .. => true
  | .dst .. => true

end Sys2Proof
end

