-- ==== Sys2Proof/Decode.lean ====
section
/-! DEFINITION. The instruction codec (30_encoding.md R130-R134, R143-R147, R150).

The decoder is total on every 32-bit word and rejects by name; the encoder writes the words from the same table. -/

namespace Sys2Proof

/-- The fields of a word in the memory-reference format (R131). -/
structure Fields where
  ind : Bool
  op : BitVec 7
  r : RegNum
  x : BitVec 3
  ref : WordAddr
deriving DecidableEq, Repr

/-- The fields of a word: I = w[31], OP = w[30:24], R = w[23:20], X = w[19:17], REF = w[16:0] (R131). -/
def decodeFields (w : Word) : Fields where
  ind := w[31]
  op := w.extractLsb' 24 7
  r := w.extractLsb' 20 4
  x := w.extractLsb' 17 3
  ref := w.extractLsb' 0 17

/-- R145: `I<<31 | OP<<24 | R<<20 | X<<17 | REF`. -/
def encodeFields (f : Fields) : Word :=
  BitVec.ofBool f.ind ++ f.op ++ f.r ++ f.x ++ f.ref

/-- R145, immediate format: `OP<<24 | R<<20 | (VALUE mod 2^20)`, bit 0 of the manual being 0. -/
def encodeImmediate (op : BitVec 7) (r : RegNum) (v : BitVec 20) : Word :=
  (0#1) ++ op ++ r ++ v

/-- The 22 unassigned opcodes (R144). -/
def unassignedOpcodes : List Nat :=
  [0x00, 0x01, 0x03, 0x0C, 0x0D, 0x14, 0x16, 0x17, 0x26, 0x27, 0x2C, 0x2D, 0x34, 0x42, 0x43, 0x54, 0x59,
   0x5C, 0x5D, 0x5E, 0x5F, 0x62]

/-- The opcodes of the immediate, byte-string and MMC formats, whose bit 0 must be 0 (R132, R134). -/
def immediateOpcodes : List Nat :=
  [0x02, 0x20, 0x21, 0x22, 0x23, 0x40, 0x41, 0x60, 0x61, 0x63, 0x6F]

/-- Why a word names no instruction. Both are the nonexistent instruction of R143 step 1. -/
inductive DecodeReject where
  /-- One of the 22 unassigned opcodes (R144). -/
  | unassignedOpcode
  /-- I = 1 on an immediate, byte-string or MMC word (R132, R134). -/
  | indirectImmediate
  /-- Fewer bytes than a word (no instruction is shorter: R130). -/
  | truncated
deriving DecidableEq, Repr

/-- A word of the immediate or byte-string format (R132): I must be 0. -/
def decodeImmediate (w : Word) (k : RegNum → BitVec 20 → Instr) : Except DecodeReject Instr :=
  if w[31] then .error .indirectImmediate
  else .ok (k (w.extractLsb' 20 4) (w.extractLsb' 0 20))

/-- A word of the memory-reference layout (R131, and R134 for CAL and WAIT, whose ignored bits are kept). -/
def decodeReference (w : Word) (k : RegNum → AddrField → Instr) : Except DecodeReject Instr :=
  .ok (k (w.extractLsb' 20 4) ⟨w[31], w.extractLsb' 17 3, w.extractLsb' 0 17⟩)

/-- An MMC word (R134): I must be 0, the X field is the function. -/
def decodeMmc (w : Word) : Except DecodeReject Instr :=
  if w[31] then .error .indirectImmediate
  else .ok (.mmc (w.extractLsb' 20 4) (w.extractLsb' 17 3) (w.extractLsb' 0 17))

/-- The decoder, by the opcode map of R150; every opcode not listed is unassigned (R144). -/
def decode (w : Word) : Except DecodeReject Instr :=
  match (w.extractLsb' 24 7).toNat with
  | 0x02 => decodeImmediate w .lcfi
  | 0x04 => decodeReference w .cal1
  | 0x05 => decodeReference w .cal2
  | 0x06 => decodeReference w .cal3
  | 0x07 => decodeReference w .cal4
  | 0x08 => decodeReference w .plw
  | 0x09 => decodeReference w .psw
  | 0x0A => decodeReference w .plm
  | 0x0B => decodeReference w .psm
  | 0x0E => decodeReference w .lpsd
  | 0x0F => decodeReference w .xpsd
  | 0x10 => decodeReference w .ad
  | 0x11 => decodeReference w .cd
  | 0x12 => decodeReference w .ld
  | 0x13 => decodeReference w .msp
  | 0x15 => decodeReference w .std
  | 0x18 => decodeReference w .sd
  | 0x19 => decodeReference w .clm
  | 0x1A => decodeReference w .lcd
  | 0x1B => decodeReference w .lad
  | 0x1C => decodeReference w .fsl
  | 0x1D => decodeReference w .fal
  | 0x1E => decodeReference w .fdl
  | 0x1F => decodeReference w .fml
  | 0x20 => decodeImmediate w .ai
  | 0x21 => decodeImmediate w .ci
  | 0x22 => decodeImmediate w .li
  | 0x23 => decodeImmediate w .mi
  | 0x24 => decodeReference w .sf
  | 0x25 => decodeReference w .s
  | 0x28 => decodeReference w .cvs
  | 0x29 => decodeReference w .cva
  | 0x2A => decodeReference w .lm
  | 0x2B => decodeReference w .stm
  | 0x2E => decodeReference w .wait
  | 0x2F => decodeReference w .lrp
  | 0x30 => decodeReference w .aw
  | 0x31 => decodeReference w .cw
  | 0x32 => decodeReference w .lw
  | 0x33 => decodeReference w .mtw
  | 0x35 => decodeReference w .stw
  | 0x36 => decodeReference w .dw
  | 0x37 => decodeReference w .mw
  | 0x38 => decodeReference w .sw
  | 0x39 => decodeReference w .clr
  | 0x3A => decodeReference w .lcw
  | 0x3B => decodeReference w .law
  | 0x3C => decodeReference w .fss
  | 0x3D => decodeReference w .fas
  | 0x3E => decodeReference w .fds
  | 0x3F => decodeReference w .fms
  | 0x40 => decodeImmediate w .ttbs
  | 0x41 => decodeImmediate w .tbs
  | 0x44 => decodeReference w .anlz
  | 0x45 => decodeReference w .cs
  | 0x46 => decodeReference w .xw
  | 0x47 => decodeReference w .sts
  | 0x48 => decodeReference w .eor
  | 0x49 => decodeReference w .or
  | 0x4A => decodeReference w .ls
  | 0x4B => decodeReference w .and
  | 0x4C => decodeReference w .sio
  | 0x4D => decodeReference w .tio
  | 0x4E => decodeReference w .tdv
  | 0x4F => decodeReference w .hio
  | 0x50 => decodeReference w .ah
  | 0x51 => decodeReference w .ch
  | 0x52 => decodeReference w .lh
  | 0x53 => decodeReference w .mth
  | 0x55 => decodeReference w .sth
  | 0x56 => decodeReference w .dh
  | 0x57 => decodeReference w .mh
  | 0x58 => decodeReference w .sh
  | 0x5A => decodeReference w .lch
  | 0x5B => decodeReference w .lah
  | 0x60 => decodeImmediate w .cbs
  | 0x61 => decodeImmediate w .mbs
  | 0x63 => decodeImmediate w .ebs
  | 0x64 => decodeReference w .bdr
  | 0x65 => decodeReference w .bir
  | 0x66 => decodeReference w .awm
  | 0x67 => decodeReference w .exu
  | 0x68 => decodeReference w .bcr
  | 0x69 => decodeReference w .bcs
  | 0x6A => decodeReference w .bal
  | 0x6B => decodeReference w .int
  | 0x6C => decodeReference w .rd
  | 0x6D => decodeReference w .wd
  | 0x6E => decodeReference w .aio
  | 0x6F => decodeMmc w
  | 0x70 => decodeReference w .lcf
  | 0x71 => decodeReference w .cb
  | 0x72 => decodeReference w .lb
  | 0x73 => decodeReference w .mtb
  | 0x74 => decodeReference w .stcf
  | 0x75 => decodeReference w .stb
  | 0x76 => decodeReference w .pack
  | 0x77 => decodeReference w .unpk
  | 0x78 => decodeReference w .ds
  | 0x79 => decodeReference w .da
  | 0x7A => decodeReference w .dd
  | 0x7B => decodeReference w .dm
  | 0x7C => decodeReference w .dsa
  | 0x7D => decodeReference w .dc
  | 0x7E => decodeReference w .dl
  | 0x7F => decodeReference w .dst
  | _ => .error .unassignedOpcode

/-- A word of the memory-reference layout with opcode `op`. -/
def encodeReference (op : BitVec 7) (r : RegNum) (a : AddrField) : Word :=
  encodeFields ⟨a.ind, op, r, a.x, a.ref⟩

/-- The encoder (R145), by the opcode map of R150. -/
def encode : Instr → Word
  | .lcfi r v => encodeImmediate 0x02#7 r v
  | .cal1 r a => encodeReference 0x04#7 r a
  | .cal2 r a => encodeReference 0x05#7 r a
  | .cal3 r a => encodeReference 0x06#7 r a
  | .cal4 r a => encodeReference 0x07#7 r a
  | .plw r a => encodeReference 0x08#7 r a
  | .psw r a => encodeReference 0x09#7 r a
  | .plm r a => encodeReference 0x0A#7 r a
  | .psm r a => encodeReference 0x0B#7 r a
  | .lpsd r a => encodeReference 0x0E#7 r a
  | .xpsd r a => encodeReference 0x0F#7 r a
  | .ad r a => encodeReference 0x10#7 r a
  | .cd r a => encodeReference 0x11#7 r a
  | .ld r a => encodeReference 0x12#7 r a
  | .msp r a => encodeReference 0x13#7 r a
  | .std r a => encodeReference 0x15#7 r a
  | .sd r a => encodeReference 0x18#7 r a
  | .clm r a => encodeReference 0x19#7 r a
  | .lcd r a => encodeReference 0x1A#7 r a
  | .lad r a => encodeReference 0x1B#7 r a
  | .fsl r a => encodeReference 0x1C#7 r a
  | .fal r a => encodeReference 0x1D#7 r a
  | .fdl r a => encodeReference 0x1E#7 r a
  | .fml r a => encodeReference 0x1F#7 r a
  | .ai r v => encodeImmediate 0x20#7 r v
  | .ci r v => encodeImmediate 0x21#7 r v
  | .li r v => encodeImmediate 0x22#7 r v
  | .mi r v => encodeImmediate 0x23#7 r v
  | .sf r a => encodeReference 0x24#7 r a
  | .s r a => encodeReference 0x25#7 r a
  | .cvs r a => encodeReference 0x28#7 r a
  | .cva r a => encodeReference 0x29#7 r a
  | .lm r a => encodeReference 0x2A#7 r a
  | .stm r a => encodeReference 0x2B#7 r a
  | .wait r a => encodeReference 0x2E#7 r a
  | .lrp r a => encodeReference 0x2F#7 r a
  | .aw r a => encodeReference 0x30#7 r a
  | .cw r a => encodeReference 0x31#7 r a
  | .lw r a => encodeReference 0x32#7 r a
  | .mtw r a => encodeReference 0x33#7 r a
  | .stw r a => encodeReference 0x35#7 r a
  | .dw r a => encodeReference 0x36#7 r a
  | .mw r a => encodeReference 0x37#7 r a
  | .sw r a => encodeReference 0x38#7 r a
  | .clr r a => encodeReference 0x39#7 r a
  | .lcw r a => encodeReference 0x3A#7 r a
  | .law r a => encodeReference 0x3B#7 r a
  | .fss r a => encodeReference 0x3C#7 r a
  | .fas r a => encodeReference 0x3D#7 r a
  | .fds r a => encodeReference 0x3E#7 r a
  | .fms r a => encodeReference 0x3F#7 r a
  | .ttbs r v => encodeImmediate 0x40#7 r v
  | .tbs r v => encodeImmediate 0x41#7 r v
  | .anlz r a => encodeReference 0x44#7 r a
  | .cs r a => encodeReference 0x45#7 r a
  | .xw r a => encodeReference 0x46#7 r a
  | .sts r a => encodeReference 0x47#7 r a
  | .eor r a => encodeReference 0x48#7 r a
  | .or r a => encodeReference 0x49#7 r a
  | .ls r a => encodeReference 0x4A#7 r a
  | .and r a => encodeReference 0x4B#7 r a
  | .sio r a => encodeReference 0x4C#7 r a
  | .tio r a => encodeReference 0x4D#7 r a
  | .tdv r a => encodeReference 0x4E#7 r a
  | .hio r a => encodeReference 0x4F#7 r a
  | .ah r a => encodeReference 0x50#7 r a
  | .ch r a => encodeReference 0x51#7 r a
  | .lh r a => encodeReference 0x52#7 r a
  | .mth r a => encodeReference 0x53#7 r a
  | .sth r a => encodeReference 0x55#7 r a
  | .dh r a => encodeReference 0x56#7 r a
  | .mh r a => encodeReference 0x57#7 r a
  | .sh r a => encodeReference 0x58#7 r a
  | .lch r a => encodeReference 0x5A#7 r a
  | .lah r a => encodeReference 0x5B#7 r a
  | .cbs r v => encodeImmediate 0x60#7 r v
  | .mbs r v => encodeImmediate 0x61#7 r v
  | .ebs r v => encodeImmediate 0x63#7 r v
  | .bdr r a => encodeReference 0x64#7 r a
  | .bir r a => encodeReference 0x65#7 r a
  | .awm r a => encodeReference 0x66#7 r a
  | .exu r a => encodeReference 0x67#7 r a
  | .bcr r a => encodeReference 0x68#7 r a
  | .bcs r a => encodeReference 0x69#7 r a
  | .bal r a => encodeReference 0x6A#7 r a
  | .int r a => encodeReference 0x6B#7 r a
  | .rd r a => encodeReference 0x6C#7 r a
  | .wd r a => encodeReference 0x6D#7 r a
  | .aio r a => encodeReference 0x6E#7 r a
  | .mmc r f z => encodeFields ⟨false, 0x6F#7, r, f, z⟩
  | .lcf r a => encodeReference 0x70#7 r a
  | .cb r a => encodeReference 0x71#7 r a
  | .lb r a => encodeReference 0x72#7 r a
  | .mtb r a => encodeReference 0x73#7 r a
  | .stcf r a => encodeReference 0x74#7 r a
  | .stb r a => encodeReference 0x75#7 r a
  | .pack r a => encodeReference 0x76#7 r a
  | .unpk r a => encodeReference 0x77#7 r a
  | .ds r a => encodeReference 0x78#7 r a
  | .da r a => encodeReference 0x79#7 r a
  | .dd r a => encodeReference 0x7A#7 r a
  | .dm r a => encodeReference 0x7B#7 r a
  | .dsa r a => encodeReference 0x7C#7 r a
  | .dc r a => encodeReference 0x7D#7 r a
  | .dl r a => encodeReference 0x7E#7 r a
  | .dst r a => encodeReference 0x7F#7 r a

/-- The four bytes of a word as memory holds them, most significant first (20_memory.md R81). -/
def wordBytes (w : Word) : List Byte :=
  [w.extractLsb' 24 8, w.extractLsb' 16 8, w.extractLsb' 8 8, w.extractLsb' 0 8]

/-- The instruction at the head of a byte sequence and the bytes after it: always one big-endian word (R81, R130). -/
def decodeBytes : List Byte → Except DecodeReject (Instr × List Byte)
  | b0 :: b1 :: b2 :: b3 :: rest =>
    match decode (b0 ++ b1 ++ b2 ++ b3) with
    | .ok i => .ok (i, rest)
    | .error e => .error e
  | _ => .error .truncated

/-- The instruction the decoder reads from the table word `w` of `nbits` bits. -/
def decodeTableWord (nbits w : Nat) : Option Instr :=
  match decodeBytes (wordBytes (BitVec.ofNat 32 (w % 2 ^ nbits))) with
  | .ok (i, _) => some i
  | .error _ => none

end Sys2Proof
end

