-- ==== Sys2Proof/Config.lean ====
section
/-! DEFINITION. What a configuration of the core fixes (spec 00_scope.md R10) and what the spec leaves to "any value"
(93_implementation_defined.md part 1).

A parameter the spec lets a configuration choose is a field of `Config`, carried unchanged by every state, so that a
statement about every state holds for every choice. A value the spec does not fix at all is an `opaque` constant:
nothing can evaluate it, and a statement that holds of the model holds whatever the value is. -/

namespace Sys2Proof

/-- The inhibit class of an interrupt level (60_exceptions.md R621, R622). -/
inductive IntClass where
  /-- inhibited by PSD.CI -/
  | counter
  /-- inhibited by PSD.II -/
  | ioPanel
  /-- inhibited by PSD.EI -/
  | external
  /-- never inhibited -/
  | none
deriving DecidableEq, Repr

/-- The operations of the I/O bridge (48_io.md R500). -/
inductive IoOp where
  | sio
  | tio
  | tdv
  | hio
  | aio
deriving DecidableEq, Repr

/-- The four operations of `FLOAT_ARITH` (45_floating.md R394). -/
inductive FloatOp where
  | add
  | sub
  | mul
  | div
deriving DecidableEq, Repr

/-- What a pattern byte of EBS asks for (46_bytestring_decimal.md R441). -/
inductive EditKind where
  | fill
  | digitSelect
  | significanceStart
  | fieldSeparation
deriving DecidableEq, Repr, Inhabited

/-- The parameters of R10, each an argument. The tables of the state have room for the sizes R10 takes, and the widths of
words and addresses and the places of fields are those of the layouts the spec states for them; within these the numbers of
`sizes` say how many pages, blocks, levels, processors and bits there are. What another value than R10's does is the model's own
(DESIGN CHOICE: notes/assumptions/36.md). `CLOCK_PERIOD` and `WAIT_REPOLL` are timing and not modelled (R10, D63). -/
structure Config where
  /-- `WORD_BITS`, `VA_BITS`, `PAGE_BYTES`, `VPAGES`, `NBLOCKS`, `NLEVELS`, `MAP_ENTRY_BITS`, `N_CPU` -/
  sizes : Sizes
  /-- `MEM_PAGES`: real pages of `PAGE_BYTES`, 1..8192 (D62). -/
  memPages : Nat
  /-- `EXU_LIMIT`: the deepest EXU nesting, at least 1 (D25). -/
  exuLimit : Nat
  /-- `WLOCK_PAGES`: real pages below this are write-lock checked (D17). -/
  wlockPages : Nat
  /-- `WK0_IS_MASTER`: write key 0 opens every lock (D16). -/
  wk0IsMaster : Bool
  /-- `REG_AS_MEMORY`: word addresses 0..15 are the current registers (D11). -/
  regAsMemory : Bool
  /-- `FLOAT_OPTION`: the floating-point instructions are installed (D31). -/
  floatOption : Bool
  /-- `FLOAT_ARITH`: 0 names the reference instance of 45_floating.md R394; every other number names one that may round an
  inexact magnitude up and may return an unnormalized word, as `Config.floatRoundsUp` and `Config.floatUnnormalized` have it
  (93 entries 7 and 8; that instances are named by numbers is a DESIGN CHOICE: notes/assumptions/13.md). -/
  floatInstance : Nat
  /-- `DECIMAL_OPTION`: the decimal instructions and EBS are installed (D32). -/
  decimalOption : Bool
  /-- `CAL_SAVED_IA`: false saves the address of the CAL itself, true the address after it (D19). -/
  calSavesNext : Bool
  /-- `STH_SETS_CC2` (D56). -/
  sthSetsCC2 : Bool
  /-- `LEVEL_CLASS`: the inhibit class of each interrupt level (D7). -/
  levelClass : Vector IntClass Sizes.standard.nLevels
  /-- `COALESCE`: the levels whose repeated posts are dropped (D8). -/
  coalesce : Vector Bool Sizes.standard.nLevels
deriving DecidableEq, Repr

/-- The class column of the table of 60_exceptions.md R621. -/
def Config.levelClassTable : Vector IntClass 32 :=
  #v[.none, .none, .counter, .counter, .counter, .counter, .none, .none,
     .counter, .counter, .counter, .counter, .ioPanel, .ioPanel, .none, .none,
     .external, .external, .external, .external, .external, .external, .external, .external,
     .external, .external, .external, .external, .external, .external, .external, .external]

/-- The coalesce column of the table of 60_exceptions.md R621: levels 0-11 and 13. -/
def Config.coalesceTable : Vector Bool 32 :=
  #v[true, true, true, true, true, true, true, true,
     true, true, true, true, false, true, false, false,
     false, false, false, false, false, false, false, false,
     false, false, false, false, false, false, false, false]

/-- The configuration of `State.reset`: the values R10 takes, and for the two OPEN parameters the memory size of the
test vectors' convention and an EXU limit of the model's own (DESIGN CHOICE, unsafe: notes/assumptions/2.md).
Statements about every state hold for every configuration. -/
def Config.standard : Config where
  sizes := Sizes.standard
  memPages := 512
  exuLimit := 100
  wlockPages := 256
  wk0IsMaster := false
  regAsMemory := true
  floatOption := true
  floatInstance := 0
  decimalOption := false
  calSavesNext := false
  sthSetsCC2 := true
  levelClass := Config.levelClassTable
  coalesce := Config.coalesceTable

/-- The bounds R10 puts on the OPEN parameters. -/
abbrev Config.Legal (c : Config) : Prop :=
  1 ≤ c.memPages ∧ c.memPages ≤ 8192 ∧ 1 ≤ c.exuLimit

/-! ## Values the spec leaves open

Each is a function of a counter the state carries (`State.freeCount`) and, where it matters, of the request. -/

/-- CC1 after an S instruction (42_logical_shift.md R303; 93 entry 3). -/
opaque Config.shiftCC1 : Nat → Bool

/-- CC1 and CC2 after a floating fault or an out-of-range SF (45_floating.md R395, R404; 93 entries 4 and 5). -/
opaque Config.floatFaultCC : Nat → BitVec 2

/-- Whether word k of an LM or STM that trapped at a later word took its new value (40_load_store.md R212, R220;
93 entry 2). -/
opaque Config.partialKept : Nat → Nat → Bool

/-- Whether the given instance of `FLOAT_ARITH`, not the reference one, rounds the magnitude of an inexact result up, by the
operation, the width, the operands, FS, FZ and FN (45_floating.md R392, R394; 93 entry 8). -/
opaque Config.floatRoundsUp : Nat → FloatOp → (n : Nat) → BitVec n → BitVec n → Bool → Bool → Bool → Bool

/-- The word the given instance of `FLOAT_ARITH`, not the reference one, proposes for an add or subtract with FN = 1, by the
operation, the width, the operands, FS and FZ, before the bound of R394 is applied (93 entry 7). -/
opaque Config.floatUnnormalized : Nat → FloatOp → (n : Nat) → BitVec n → BitVec n → Bool → Bool → BitVec n

/-- The value, in units of the smallest short fraction digit at characteristic 0, of the short word with only the sign
bit set (45_floating.md R391; 93 entry 6). -/
opaque Config.signOnlyShort : Int

/-- As `Config.signOnlyShort`, long form. -/
opaque Config.signOnlyLong : Int

/-- The characteristic an add or subtract takes for the word of width n with only the sign bit set (R391, R394). -/
opaque Config.signOnlyCharacteristic : Nat → BitVec 7

/-- What SF by the given count, not 0, makes of the short word with only the sign bit set, none if it is out of range
(45_floating.md R391, R404: that word has no stated characteristic and fraction). By the count 0 the word stays, and
this says only whether CC is that of a result written or of a range fault. -/
opaque Config.signOnlyShiftShort : Int → Option Word

/-- As `Config.signOnlyShiftShort`, long form. -/
opaque Config.signOnlyShiftLong : Int → Option Double

/-- The I/O bridge's answer (cc, status, count) to a request (48_io.md R500; 93 entry 9). -/
opaque Config.bridge : Nat → IoOp → WordAddr → Word → BitVec 4 × Word × Word

/-- The host's answer (value, cc) to a read direct (47_control.md R470; 93 entry 10). -/
opaque Config.readDirect : Nat → BitVec 16 → Word × BitVec 4

/-- The host's answer cc to a write direct (47_control.md R471; 93 entry 10). -/
opaque Config.writeDirect : Nat → BitVec 16 → Word → BitVec 4

/-- Whether a WAIT ends of its own accord in this cycle (47_control.md R468; 93 entry 11). -/
opaque Config.waitEnds : Nat → Bool

/-- The timestamp of an interrupt post (60_exceptions.md R620; 93 entry 37: observational only). -/
opaque Config.timestamp : Nat → Nat

/-- With DM = 0, whether a DM or DD length or divide fault sets CC2 (true) or CC1: R443 names the bits of an illegal
digit and of an overflow only. -/
opaque Config.decimalLengthCC2 : Nat → Bool

/-- The kind of a pattern byte of EBS: R441 names the kinds and gives no codes (46_bytestring_decimal.md). -/
opaque Config.editKind : Byte → EditKind

/-- The byte EBS edits into its destination, by the pattern bytes up to and with the one it replaces and the source
nibbles taken so far, both newest first: R441 names the edit and does not state its bytes. -/
opaque Config.editedByte : List Byte → List (BitVec 4) → Byte

/-- Whether a trap counts as a branch taken or not taken for the until-branch run modes (60_exceptions.md R661: it
"counts as the instruction's outcome"). -/
opaque Config.trapIsTaken : Bool

/-- By how much the address part of a rendered instruction is wider than the longest one needs (30_encoding.md R147:
"fixed-width"; 93 entry 40). -/
opaque Config.textWidth : Nat

/-- How far to the right of the first column that leaves room for every operation a rendered instruction's address starts
(R147, R148; 93 entry 40). -/
opaque Config.addressColumn : Nat

end Sys2Proof
end

