-- ==== Sys2Proof/Machine/State.lean ====
section
/-! DEFINITION. The state of the core: every piece of state spec/10_state.md §6 lists, the interrupt controller of
60_exceptions.md R620, run control (R58, R661, 43_branch_execute.md R346), the last instruction (R663), the clock agent's tick in progress
(R632) and six fields of the model's own (host calls, tooling reports, free-value counter, agenda, the other agents'
accesses inside a cycle, configuration). Plain data throughout. -/

namespace Sys2Proof.Machine

/-- The program status doubleword by its fields (10_state.md R36-R49). Reserved bits are no field: they read 0 and are
ignored when a PSD is installed (R50). CC1 is the most significant bit of `cc`. -/
structure Psd where
  cc : BitVec 4
  fs : Bool
  fz : Bool
  fn : Bool
  /-- false = master, true = slave (R39) -/
  ms : Bool
  mm : Bool
  dm : Bool
  am : Bool
  ia : WordAddr
  wk : BitVec 2
  ci : Bool
  ii : Bool
  ei : Bool
  ma : Bool
  ext : BitVec 6
  tsf : Byte
  rp : BitVec 4
deriving DecidableEq, Repr

/-- A trap: its vector's real word address and the condition-code bits it reports (R602). -/
structure Trap where
  vector : Nat
  cc : BitVec 4
deriving DecidableEq, Repr

/-- A trap waiting for its entry (10_state.md R53). -/
structure TrapData where
  vector : Nat
  cc : BitVec 4
  /-- true for a fault of the instruction fetch, which does not back up the instruction address -/
  fetchTrap : Bool
deriving DecidableEq, Repr

/-- The causes of the latched fatal fault (60_exceptions.md R611, R612). -/
inductive FatalCause where
  /-- the word at a trap vector is not XPSD (R607) -/
  | malformedTrapVector
  /-- the word at an interrupt vector is neither XPSD nor a counter MTx (R628) -/
  | malformedInterruptVector
  /-- a fault while the exchange computes its own address (R608) -/
  | exchangeAddress
  /-- a range or write-lock fault of the exchange's PSD store or load (R608) -/
  | exchangeAccess
  /-- a fault of a single-instruction interrupt's MTx (R629) -/
  | singleInstruction
  /-- EXU nesting beyond `EXU_LIMIT` (43_branch_execute.md R345) -/
  | exuLimit
deriving DecidableEq, Repr

/-- The latched message (R612). -/
def FatalCause.message : FatalCause → String
  | .malformedTrapVector => "malformed trap-vector instruction"
  | .malformedInterruptVector => "malformed interrupt-vector instruction"
  | .exchangeAddress => "trap during trap-vector address computation"
  | .exchangeAccess => "trap during PSD exchange"
  | .singleInstruction => "trap during a single-instruction interrupt"
  | .exuLimit => "EXU recursion limit"

/-- Who posted an interrupt (60_exceptions.md R620): a device by its address and handle (R665). -/
inductive Origin where
  | cpu
  | clock
  | device (address handle : Nat)
  | host
deriving DecidableEq, Repr

/-- An `InterruptData` record (60_exceptions.md R620). -/
structure IntEntry where
  timestamp : Nat
  level : Fin Sizes.standard.nLevels
  priority : Nat
  origin : Origin
  line : Option Nat
  char : Option Byte
deriving DecidableEq, Repr

/-- The interrupt controller (60_exceptions.md R620): per level armed, enabled, active and an observational fire
counter, and one queue in (level, priority, posting) order. -/
structure IntCtl where
  armed : Vector Bool Sizes.standard.nLevels
  enabled : Vector Bool Sizes.standard.nLevels
  active : Vector Bool Sizes.standard.nLevels
  fireCount : Vector Nat Sizes.standard.nLevels
  queue : List IntEntry
deriving DecidableEq, Repr

/-- How long the CPU runs once started (60_exceptions.md R661). -/
inductive RunMode where
  | free
  | steps (n : Nat)
  | untilBranchTaken
  | untilBranchNotTaken
deriving DecidableEq, Repr

/-- A service of the host that the core called (60_exceptions.md R665), in the model's own record of them. -/
inductive HostCall where
  | bridge (op : IoOp) (unit : WordAddr) (cmd : Word)
  | readDirect (da : BitVec 16)
  | writeDirect (da : BitVec 16) (v : Word)
  /-- the thread-exit notification, which the host observes as "CPU halted" (R612) -/
  | threadExit
  /-- a message to the diagnostic log sink -/
  | log (message : String)
deriving DecidableEq, Repr

/-- An access width of a device or of host tooling (20_memory.md R84, R94). -/
inductive Width where
  | byte
  | half
  | word
  | double
deriving DecidableEq, Repr

/-- The addresses of host tooling's accesses (20_memory.md R94). -/
inductive Space where
  | real
  | mapped
deriving DecidableEq, Repr

/-- What host tooling is told of one of its memory accesses (20_memory.md R94). -/
inductive ToolReport where
  /-- the value loaded, zero-extended -/
  | loaded (v : Double)
  | stored
  /-- "a fault is reported to the host" -/
  | fault
deriving DecidableEq, Repr

/-- How far the clock agent is with a tick of counter k + 1 (60_exceptions.md R632): its accesses to the vector word and to
the cell are in different pages, and anything may fall between them (20_memory.md R111). -/
inductive ClockPhase where
  /-- no tick in progress -/
  | idle
  /-- the tick is not skipped: the vector word is read next -/
  | vector (k : Fin 4)
  /-- the vector names the cell: it is counted by `delta` next -/
  | cell (k : Fin 4) (width : Width) (ref : WordAddr) (delta : Double)
  /-- the count gave zero: PSD.CI is looked at next -/
  | zero (k : Fin 4)
  /-- the level is posted next -/
  | post (level : Fin Sizes.standard.nLevels)
deriving DecidableEq, Repr

/-- What another agent may do at any moment, between two accesses of one CPU cycle too (20_memory.md R93, R111,
60_exceptions.md R660, 70_reset_and_hazards.md R711): a memory access or a post. A device's load changes no state and is
not listed. Acts stand in the order in which they take effect; for accesses to different pages that need not be the order in
which the agent issues them (R110, R111; notes/assumptions/4.md). -/
inductive AgentAccess where
  /-- the clock agent's next act: with a tick in progress it goes on with that, else it begins one of counter k + 1
  (60_exceptions.md R632) -/
  | clockAct (k : Fin 4)
  /-- the posting API (R625, R665) -/
  | post (level : Fin Sizes.standard.nLevels) (priority : Nat) (origin : Origin) (line : Option Nat) (char : Option Byte)
  /-- a device's store at a real address, counted in units of the width (48_io.md R506) -/
  | deviceStore (width : Width) (index : Nat) (v : Double)
  /-- a device's `AtomicModify` at a real address (48_io.md R506, 20_memory.md R91); with `post`, also the
  clock agent's where its count takes effect before its read of the vector's page (R111; notes/assumptions/4.md) -/
  | deviceModify (width : Width) (index : Nat) (delta : Double)
  /-- tooling's load and store at a real or mapped address, counted in units of the width (20_memory.md R94) -/
  | toolLoad (space : Space) (width : Width) (index : Nat)
  | toolStore (space : Space) (width : Width) (index : Nat) (v : Double)
deriving DecidableEq, Repr

/-- What happens next at a cycle boundary (60_exceptions.md R660): the CPU's turn, or one event of the clock agent, of a
device, or of the host. -/
inductive AgentEvent where
  /-- A cycle of processor `cpu`, counted from 0 (20_memory.md R108). Element k of `between` is what the other agents do before
  the cycle's access k (from 0); what no access is left for happens at the end of the cycle. -/
  | cpuCycle (cpu : Nat) (between : List (List AgentAccess))
  /-- one access or post of another agent -/
  | access (a : AgentAccess)
  /-- host level control (R626) -/
  | arm (level : Fin Sizes.standard.nLevels)
  | disarm (level : Fin Sizes.standard.nLevels)
  | enable (level : Fin Sizes.standard.nLevels)
  | disable (level : Fin Sizes.standard.nLevels)
  /-- tooling's write of a map entry, an access code or the write lock of a real page (20_memory.md R106) -/
  | setMapEntry (page : BitVec 8) (v : BitVec Sizes.standard.mapWideBits)
  | setAccessCode (page : BitVec 8) (v : BitVec 2)
  | setWriteLock (page : Nat) (v : BitVec 2)
  /-- the host's control access to the PSD (70_reset_and_hazards.md R702) -/
  | setPsd (p : Psd)
  /-- the host's control of interrupt suppression (R660) -/
  | setIntSuppress (n : Nat)
  /-- the core writes a message to the diagnostic log sink; when, and what, the spec does not say (R665;
  notes/assumptions/39.md) -/
  | log (message : String)
  /-- run control (R661) -/
  | start (mode : RunMode)
  | stop
  /-- the external reset (70_reset_and_hazards.md R700) -/
  | reset
  /-- power-off (R664) -/
  | powerOff
deriving DecidableEq, Repr

/-- Real memory: (byte address, byte) pairs, addresses strictly rising, no entry equal to what an unlisted address
reads as (20_memory.md R83). -/
abbrev Memory := List Host.Cell

/-- The machine. Its tables have room for the sizes R10 takes (00_scope.md R10, `Config.sizes`). -/
structure State where
  /-- the current PSD (R36) -/
  psd : Psd
  /-- 16 blocks of 16 registers: register i of block b is entry 16 b + i (R30) -/
  regs : Vector Word (Sizes.standard.nBlocks * 16)
  /-- real memory (20_memory.md R83) -/
  mem : Memory
  /-- write locks of real pages 0..255 (20_memory.md R88) -/
  locks : Vector (BitVec 2) 256
  /-- write locks of real pages 256 and above by page, where `WLOCK_PAGES` has any; a page not listed has lock 0 (R88) -/
  highLocks : List (Nat × BitVec 2)
  /-- the map: a real page number per virtual page (20_memory.md R95) -/
  map : PageTable Sizes.standard.mapWideBits
  /-- access codes per virtual page (20_memory.md R96) -/
  acc : PageTable 2
  /-- the interrupt controller (60_exceptions.md R620) -/
  ic : IntCtl
  /-- the clock agent's tick in progress (60_exceptions.md R632) -/
  clock : ClockPhase
  /-- R53 -/
  trapPending : Option TrapData
  /-- R54 -/
  fatal : Option FatalCause
  /-- R55 -/
  waiting : Bool
  /-- R56 -/
  intSuppress : Nat
  /-- R57 -/
  exuDepth : Nat
  /-- R58 -/
  running : Bool
  /-- 60_exceptions.md R661 -/
  runMode : RunMode
  /-- the branch outcome of the current instruction, none if it is no branch (43_branch_execute.md R346) -/
  branchOutcome : Option Bool
  /-- the word fetched last, for the status snapshot (60_exceptions.md R663) -/
  lastInstr : Word
  /-- the model's own: the calls made to the host, newest first (60_exceptions.md R665) -/
  hostCalls : List HostCall
  /-- the model's own: what host tooling was told of its memory accesses, newest first (20_memory.md R94) -/
  toolReports : List ToolReport
  /-- the model's own: how many free values have been drawn -/
  freeCount : Nat
  /-- the model's own: the turns to come; when it is empty the CPU moves (60_exceptions.md R660) -/
  agenda : List AgentEvent
  /-- the model's own: what the other agents do inside the current CPU cycle, one batch before each of the CPU's accesses
  to come; empty between cycles (R660) -/
  between : List (List AgentAccess)
  /-- the model's own: the construction parameters (00_scope.md R10) -/
  config : Config
deriving DecidableEq, Repr

/-- The status snapshot (60_exceptions.md R663): the PSD, the last instruction, the fault flag and its message. Its
counters are observational and left out (10_state.md R59), its breakpoint information with the breakpoints (00_scope.md
R9). -/
structure Snapshot where
  psd : Psd
  lastInstr : Word
  fault : Bool
  message : Option String
deriving DecidableEq, Repr

/-- Why a run stops for good. -/
inductive Fault where
  /-- Raised by the power-off event (60_exceptions.md R664): "no agent acts and the state is gone". Safe: the spec's
  own end of a machine. -/
  | poweredOff
deriving DecidableEq, Repr

/-- Why an instruction has no meaning. -/
inductive Refusal where
  /-- Raised by an arm of `exec` whose instruction has no meaning yet. Safe: nothing is claimed of it. No arm is
  left so. -/
  | notModelled (mnemonic : String)
deriving DecidableEq, Repr

/-- The reset PSD: every field 0, master and unmapped (70_reset_and_hazards.md R700). -/
def Psd.reset : Psd where
  cc := 0
  fs := false
  fz := false
  fn := false
  ms := false
  mm := false
  dm := false
  am := false
  ia := 0
  wk := 0
  ci := false
  ii := false
  ei := false
  ma := false
  ext := 0
  tsf := 0
  rp := 0

/-- Every level disarmed, disabled and inactive, with an empty queue (R700). The spec gives the fire counters no reset
value (10_state.md R59, 60_exceptions.md R620; 93 entry 37): 0 at power-on and at every reset is the model's own
(DESIGN CHOICE, notes/assumptions/29.md). -/
def IntCtl.reset : IntCtl where
  armed := Vector.replicate Sizes.standard.nLevels false
  enabled := Vector.replicate Sizes.standard.nLevels false
  active := Vector.replicate Sizes.standard.nLevels false
  fireCount := Vector.replicate Sizes.standard.nLevels 0
  queue := []

/-- The machine of configuration `c` after power-on and reset (70_reset_and_hazards.md R700, R701; 10_state.md R62).
The registers and real memory, which the spec leaves a draw, hold zeros (DESIGN CHOICE, unsafe: notes/assumptions/1.md);
the last instruction is 0 (DESIGN CHOICE: notes/assumptions/37.md) and no tick of the clock agent is in progress (DESIGN
CHOICE: notes/assumptions/4.md). -/
def State.resetWith (c : Config) : State where
  psd := Psd.reset
  regs := Vector.replicate (Sizes.standard.nBlocks * 16) 0
  mem := []
  locks := Vector.replicate 256 0
  highLocks := []
  map := Vector.replicate Sizes.standard.vPages 0
  acc := Vector.replicate Sizes.standard.vPages 0
  ic := IntCtl.reset
  clock := .idle
  trapPending := none
  fatal := none
  waiting := false
  intSuppress := 0
  exuDepth := 0
  running := false
  runMode := .free
  branchOutcome := none
  lastInstr := 0
  hostCalls := []
  toolReports := []
  freeCount := 0
  agenda := []
  between := []
  config := c

/-- The machine right after reset, in the standard configuration. -/
def State.reset : State := State.resetWith Config.standard

end Sys2Proof.Machine
end

