-- ==== Sys2Proof/Machine/Memory.lean ====
section
/-! DEFINITION. Real memory, the write locks and the accesses at real addresses (spec 20_memory.md R81-R94). -/

namespace Sys2Proof.Machine

/-! ## Real memory -/

/-- What an unlisted address reads as. The spec leaves real memory after power-on a draw (R62); zero is the model's
own (DESIGN CHOICE, unsafe: notes/assumptions/1.md). -/
def Memory.blank : Byte := 0#8

/-- One byte of real memory. -/
def Memory.read : Memory → Nat → Byte
  | [], _ => Memory.blank
  | c :: m, a => if c.1 = a then c.2 else Memory.read m a

/-- Write one byte, keeping the canonical form. -/
def Memory.write : Memory → Nat → Byte → Memory
  | [], a, v => if v = Memory.blank then [] else [(a, v)]
  | c :: m, a, v =>
    if a < c.1 then (if v = Memory.blank then c :: m else (a, v) :: c :: m)
    else if a = c.1 then (if v = Memory.blank then m else (a, v) :: m)
    else c :: Memory.write m a v

/-- The addresses of a memory rise strictly from `lo` on, and no entry is blank. -/
def Memory.wfFrom : Nat → Memory → Bool
  | _, [] => true
  | lo, c :: m => decide (lo ≤ c.1) && decide (c.2 ≠ Memory.blank) && Memory.wfFrom (c.1 + 1) m

/-- The canonical form: addresses strictly rising, no entry equal to what an unlisted address reads as. -/
def Memory.wf (m : Memory) : Bool := Memory.wfFrom 0 m

/-- Big-endian halfword at byte address a (R81). -/
def Memory.readHalf (m : Memory) (a : Nat) : Half := m.read a ++ m.read (a + 1)
/-- Big-endian word at byte address a (R81). -/
def Memory.readWord (m : Memory) (a : Nat) : Word := m.readHalf a ++ m.readHalf (a + 2)
/-- Big-endian doubleword at byte address a (R81). -/
def Memory.readDouble (m : Memory) (a : Nat) : Double := m.readWord a ++ m.readWord (a + 4)

/-- Store a halfword big-endian. -/
def Memory.writeHalf (m : Memory) (a : Nat) (v : Half) : Memory :=
  (m.write a (v.extractLsb' 8 8)).write (a + 1) (v.extractLsb' 0 8)
/-- Store a word big-endian. -/
def Memory.writeWord (m : Memory) (a : Nat) (v : Word) : Memory :=
  (m.writeHalf a (v.extractLsb' 16 16)).writeHalf (a + 2) (v.extractLsb' 0 16)
/-- Store a doubleword big-endian. -/
def Memory.writeDouble (m : Memory) (a : Nat) (v : Double) : Memory :=
  (m.writeWord a (v.extractLsb' 32 32)).writeWord (a + 4) (v.extractLsb' 0 32)

/-- The value of the cell of a width at real byte address ra, zero-extended. -/
def Memory.valueAt (m : Memory) (width : Width) (ra : Nat) : Double :=
  match width with
  | .byte => (m.read ra).setWidth 64
  | .half => (m.readHalf ra).setWidth 64
  | .word => (m.readWord ra).setWidth 64
  | .double => m.readDouble ra

/-- The words of a page: `PAGE_BYTES` in a whole number of doublewords (R80, R82). -/
def State.pageWords (s : State) : Nat := 2 * (s.config.sizes.pageBytes / (s.config.sizes.wordBits / 4))

/-- The bytes of a page (R80). -/
def State.pageBytes (s : State) : Nat := 4 * s.pageWords

/-- The size of real memory in bytes (R83): `MEM_PAGES` pages. -/
def State.memBytes (s : State) : Nat := s.config.memPages * s.pageBytes

/-- Replace real memory. -/
def State.setMem (s : State) (m : Memory) : State := { s with mem := m }

/-! ## Write locks -/

/-- The write lock of real page p (R88). -/
def State.lockOf (s : State) (p : Nat) : BitVec 2 :=
  if h : p < 256 then s.locks[p] else (s.highLocks.lookup p).getD 0#2

/-- Set the write lock of real page p; a page of `WLOCK_PAGES` or above has none (R88). -/
def State.setLock (s : State) (p : Nat) (v : BitVec 2) : State :=
  if s.config.wlockPages ≤ p then s
  else if h : p < 256 then { s with locks := s.locks.set p v }
  else { s with highLocks := (p, v) :: s.highLocks.filter fun e => e.1 != p }

/-- `WriteAllowed(p)` (R89). -/
def State.writeAllowed (s : State) (p : Nat) : Bool :=
  decide (s.config.wlockPages ≤ p) || s.lockOf p == 0#2 || s.lockOf p == s.psd.wk ||
  (s.config.wk0IsMaster && s.psd.wk == 0#2)

/-! ## Real accesses (no translation, no registers: R94, R607, R608, R632) -/

/-- The bytes of a width. -/
def Width.bytes : Width → Nat
  | .byte => 1
  | .half => 2
  | .word => 4
  | .double => 8

/-- `RealRead(4 * rw, 4)`, none where the address does not exist (R84, R86). -/
def State.realWord (s : State) (rw : Nat) : Option Word :=
  if 4 * rw < s.memBytes then some (s.mem.readWord (4 * rw)) else none

/-- Store the low bytes of `v` at real byte address ra. -/
def State.realStore (s : State) (width : Width) (ra : Nat) (v : Double) : State :=
  match width with
  | .byte => s.setMem (s.mem.write ra (v.extractLsb' 0 8))
  | .half => s.setMem (s.mem.writeHalf ra (v.extractLsb' 0 16))
  | .word => s.setMem (s.mem.writeWord ra (v.extractLsb' 0 32))
  | .double => s.setMem (s.mem.writeDouble ra v)

/-- `AtomicModify` at real byte address ra (R91), for the clock agent, devices and count-pulse interrupts: the state
with the sum stored, and whether the sum is zero. It is defined for n in 1, 2, 4; a doubleword is left alone. -/
def State.realModify (s : State) (width : Width) (ra : Nat) (delta : Double) : State × Bool :=
  match width with
  | .byte =>
    let r := s.mem.read ra + delta.extractLsb' 0 8
    (s.setMem (s.mem.write ra r), r == 0#8)
  | .half =>
    let r := s.mem.readHalf ra + delta.extractLsb' 0 16
    (s.setMem (s.mem.writeHalf ra r), r == 0#16)
  | .word =>
    let r := s.mem.readWord ra + delta.extractLsb' 0 32
    (s.setMem (s.mem.writeWord ra r), r == 0#32)
  | .double => (s, false)

end Sys2Proof.Machine
end

