-- ==== Sys2Proof/Machine/Agents.lean ====
section
/-! DEFINITION. The interrupt controller's queue and levels (spec 60_exceptions.md R620-R627), the clock agent (R632) and
the other agents' accesses, which may fall between any two accesses of the CPU (20_memory.md R93, R94, R111, 48_io.md
R506, 60_exceptions.md R660, 70_reset_and_hazards.md R711). -/

namespace Sys2Proof.Machine

/-! ## The interrupt controller -/

/-- The queue order (R620): level ascending, then priority ascending. -/
def IntEntry.precedes (e f : IntEntry) : Bool :=
  decide (e.level < f.level) || (e.level == f.level && decide (e.priority < f.priority))

/-- Append an entry in (level, priority, FIFO) order (R625). -/
def insertEntry (e : IntEntry) : List IntEntry → List IntEntry
  | [] => [e]
  | f :: q => if e.precedes f then e :: f :: q else f :: insertEntry e q

/-- Level L is waiting: the queue holds an entry of it (R620). -/
def IntCtl.isWaiting (ic : IntCtl) (L : Fin Sizes.standard.nLevels) : Bool :=
  ic.queue.any fun e => e.level == L

/-- The lowest-numbered active level (R624, R627). -/
def IntCtl.highestActive (ic : IntCtl) : Option (Fin Sizes.standard.nLevels) :=
  (List.finRange Sizes.standard.nLevels).find? fun L => ic.active[L]

/-- `post` (R625) with its timestamp given: dropped if the level is none of the `NLEVELS` or is disarmed, or coalesced with
the active or waiting level; none when dropped. -/
def IntCtl.post? (ic : IntCtl) (c : Config) (e : IntEntry) : Option IntCtl :=
  if decide (c.sizes.nLevels ≤ e.level.val) || !ic.armed[e.level] then none
  else if c.coalesce[e.level] && (ic.active[e.level] || ic.isWaiting e.level) then none
  else some { ic with queue := insertEntry e ic.queue }

/-- `arm(L)` (R626). -/
def IntCtl.arm (ic : IntCtl) (L : Fin Sizes.standard.nLevels) : IntCtl :=
  { ic with armed := ic.armed.set L true }

/-- `disarm(L)` (R626): the active flag and the queued entries of L go too. -/
def IntCtl.disarm (ic : IntCtl) (L : Fin Sizes.standard.nLevels) : IntCtl :=
  { ic with
    armed := ic.armed.set L false
    active := ic.active.set L false
    queue := ic.queue.filter fun e => e.level != L }

/-- `enable(L)` (R626). -/
def IntCtl.enable (ic : IntCtl) (L : Fin Sizes.standard.nLevels) : IntCtl :=
  { ic with enabled := ic.enabled.set L true }

/-- `disable(L)` (R626). -/
def IntCtl.disable (ic : IntCtl) (L : Fin Sizes.standard.nLevels) : IntCtl :=
  { ic with enabled := ic.enabled.set L false }

/-- Level L is no longer being serviced; the entry it serviced was removed from the queue when it became active. -/
def IntCtl.deactivate (ic : IntCtl) (L : Fin Sizes.standard.nLevels) : IntCtl :=
  { ic with active := ic.active.set L false }

/-- `clearHighestActive(armAfter)` (R627). -/
def IntCtl.clearHighestActive (ic : IntCtl) (armAfter : Bool) : IntCtl :=
  match ic.highestActive with
  | none => ic
  | some h => if armAfter then (ic.deactivate h).arm h else (ic.deactivate h).disarm h

/-- `post(L, priority, origin, payload)` (R625), stamped with a time the spec does not fix. -/
def State.post (s : State) (L : Fin Sizes.standard.nLevels) (priority : Nat) (origin : Origin) (line : Option Nat)
    (char : Option Byte) : State :=
  match s.ic.post? s.config ⟨Config.timestamp s.freeCount, L, priority, origin, line, char⟩ with
  | none => s
  | some ic => { s with ic := ic, freeCount := s.freeCount + 1 }

/-- Replace the controller. -/
def State.setIc (s : State) (ic : IntCtl) : State := { s with ic := ic }

/-- The width of an MTx opcode: MTB X'73', MTH X'53', MTW X'33'. -/
def mtxWidth (op : BitVec 7) : Option Width :=
  if op = 0x73#7 then some .byte
  else if op = 0x53#7 then some .half
  else if op = 0x33#7 then some .word
  else none

/-- The count-pulse levels (R628). -/
def isCountPulse (L : Fin Sizes.standard.nLevels) : Bool := decide (2 ≤ L.val ∧ L.val ≤ 5)

/-- The counter-zero level of the count-pulse level L = k + 1: 8 + k - 1 (R629). -/
def zeroLevel (L : Fin Sizes.standard.nLevels) : Fin Sizes.standard.nLevels := L + 6

/-! ## The clock agent -/

/-- The real byte address of the cell of a direct, unindexed MTx (R632). -/
def cellOf (width : Width) (ref : WordAddr) : Nat :=
  match width with
  | .byte => ref.toNat
  | .half => 2 * ref.toNat
  | _ => 4 * ref.toNat

/-- The count-pulse level of counter k + 1 (R632). -/
def pulseLevel (k : Fin 4) : Fin Sizes.standard.nLevels := k.castLE (by decide) + 2

/-- The clock agent goes on to the given phase. -/
def State.setClock (s : State) (p : ClockPhase) : State := { s with clock := p }

/-- A tick of counter k + 1 begins, unless it is skipped (R632, R612). -/
def State.clockBegin (s : State) (k : Fin 4) : State :=
  if s.fatal.isSome || !s.running then s
  else if !(s.ic.armed[pulseLevel k] && s.ic.enabled[pulseLevel k]) then s
  else s.setClock (.vector k)

/-- What a tick of counter k + 1 does with the word at its vector (R632): a direct, unindexed MTx of nonzero delta names the
cell to count; with any other word the pulse level is posted. -/
def clockPlan (k : Fin 4) (w : Word) : ClockPhase :=
  match mtxWidth (decodeFields w).op with
  | none => .post (pulseLevel k)
  | some width =>
    if (decodeFields w).ind || (decodeFields w).x != 0#3 || (decodeFields w).r == 0#4 then .post (pulseLevel k)
    else .cell k width (decodeFields w).ref ((decodeFields w).r.signExtend 64)

/-- The agent reads the word at the vector of counter k + 1's pulse level (R632). -/
def State.clockVector (s : State) (k : Fin 4) : State :=
  s.setClock (((s.realWord (0x50 + (pulseLevel k).val)).map (clockPlan k)).getD .idle)

/-- The agent counts the cell by `delta`, with no write-lock check (R632). Where the cell does not exist the tick ends
(DESIGN CHOICE: notes/assumptions/35.md). -/
def State.clockCount (s : State) (k : Fin 4) (width : Width) (ra : Nat) (delta : Double) : State :=
  if s.memBytes ≤ ra then s.setClock .idle
  else (s.realModify width ra delta).1.setClock (if (s.realModify width ra delta).2 then .zero k else .idle)

/-- The clock agent's next act (R632); k is the counter of the tick that begins when none is in progress. -/
def State.clockAct (s : State) (k : Fin 4) : State :=
  match s.clock with
  | .idle => s.clockBegin k
  | .vector j => s.clockVector j
  | .cell j width ref delta => s.clockCount j width (cellOf width ref) delta
  | .zero j => s.setClock (if s.psd.ci then .idle else .post (zeroLevel (pulseLevel j)))
  | .post level => (s.post level 0 .clock none none).setClock .idle

/-! ## Devices -/

/-- A device's store at a real address counted in units of the width (48_io.md R506): no write-lock check; out of range
it has no effect. -/
def State.deviceStore (s : State) (width : Width) (index : Nat) (v : Double) : State :=
  if s.memBytes < width.bytes * (index + 1) then s else s.realStore width (width.bytes * index) v

/-- A device's `AtomicModify` (48_io.md R506); out of range it has no effect. -/
def State.deviceModify (s : State) (width : Width) (index : Nat) (delta : Double) : State :=
  if s.memBytes < width.bytes * (index + 1) then s else (s.realModify width (width.bytes * index) delta).1

/-! ## Host tooling -/

/-- The real byte address of a virtual one through the map; none beyond the `VA_BITS` of an address or the `VPAGES` virtual
pages (20_memory.md R80, R98). -/
def State.mapByte (s : State) (va : Nat) : Option Nat :=
  if va / 4 < 2 ^ s.config.sizes.vaBits ∧ va / s.pageBytes < s.config.sizes.vPages then
    s.map[va / s.pageBytes]?.map fun p => p.toNat * s.pageBytes + va % s.pageBytes
  else none

/-- The real byte address of a cell that tooling names, counted in units of the width; none where no such cell exists
(R94). A mapped address goes through the map with no access-code check (notes/assumptions/32.md). -/
def State.toolByte (s : State) (space : Space) (width : Width) (index : Nat) : Option Nat :=
  (match space with
    | .real => some (width.bytes * index)
    | .mapped => s.mapByte (width.bytes * index)).bind fun ra =>
      if ra + width.bytes ≤ s.memBytes then some ra else none

/-- What tooling is told (R94). -/
def State.report (s : State) (x : ToolReport) : State := { s with toolReports := x :: s.toolReports }

/-- A load by tooling (R94): it changes nothing, raises no trap, and its value or the fault is reported. -/
def State.toolLoad (s : State) (space : Space) (width : Width) (index : Nat) : State :=
  match s.toolByte space width index with
  | none => s.report .fault
  | some ra => s.report (.loaded (s.mem.valueAt width ra))

/-- A store by tooling (R94): no write-lock check and no trap; a fault stores nothing and is reported. -/
def State.toolStore (s : State) (space : Space) (width : Width) (index : Nat) (v : Double) : State :=
  match s.toolByte space width index with
  | none => s.report .fault
  | some ra => (s.realStore width ra v).report .stored

/-! ## Between the CPU's accesses -/

/-- One act of another agent: an access, a post, or a step of the clock agent's tick. -/
def State.agentAccess (s : State) : AgentAccess → State
  | .clockAct k => s.clockAct k
  | .post level priority origin line char => s.post level priority origin line char
  | .deviceStore width index v => s.deviceStore width index v
  | .deviceModify width index delta => s.deviceModify width index delta
  | .toolLoad space width index => s.toolLoad space width index
  | .toolStore space width index v => s.toolStore space width index v

/-- What the other agents do before the CPU's next access in this cycle: the first batch of `State.between`. Every
access of the CPU is made on the state this answers, and the access itself is one atomic step (20_memory.md R85, R91,
R109, R110). -/
def State.others (s : State) : State :=
  match s.between with
  | [] => s
  | b :: rest => b.foldl State.agentAccess { s with between := rest }

/-- The end of the CPU's accesses in this cycle: what is left of `State.between` happens. -/
def State.settle (s : State) : State :=
  s.between.flatten.foldl State.agentAccess { s with between := [] }

end Sys2Proof.Machine
end

