-- ==== Sys2Proof/Machine/Flags.lean ====
section
/-! DEFINITION. Condition codes and the integer arithmetic they come from (spec 00_scope.md R17, 10_state.md R61,
41_fixed_arith.md R250). CC1 is bit 3 of the 4-bit value, CC4 bit 0; a pair CC3 CC4 is a 2-bit value. -/

namespace Sys2Proof.Machine

/-- R17 `ccsign`: CC3 CC4 from the sign of a value. -/
def ccSign {n : Nat} (v : BitVec n) : BitVec 2 :=
  if v = 0 then 0b00#2 else if v.msb then 0b10#2 else 0b01#2

/-- R17 `ccucmp`: CC3 CC4 of an unsigned comparison. -/
def ccUcmp {n : Nat} (a b : BitVec n) : BitVec 2 :=
  if a = b then 0b00#2 else if b.toNat < a.toNat then 0b01#2 else 0b10#2

/-- R17 `ccscmp`: CC3 CC4 of a signed comparison. -/
def ccScmp {n : Nat} (a b : BitVec n) : BitVec 2 :=
  if a = b then 0b00#2 else if b.toInt < a.toInt then 0b01#2 else 0b10#2

/-- `ccsign` of an exact integer (R431, R433: of a decimal value). -/
def ccSignInt (v : Int) : BitVec 2 :=
  if v = 0 then 0b00#2 else if v < 0 then 0b10#2 else 0b01#2

/-- CC3 CC4 as 0 0 for a zero value and 0 1 otherwise (41_fixed_arith.md R259: the byte is unsigned). -/
def ccNonzero {n : Nat} (v : BitVec n) : BitVec 2 :=
  if v = 0 then 0b00#2 else 0b01#2

/-- The tuple (c1, c2, CC3 CC4). -/
def ccOf (c1 c2 : Bool) (p : BitVec 2) : BitVec 4 :=
  BitVec.ofBool c1 ++ BitVec.ofBool c2 ++ p

/-- CC1 of a condition code. -/
abbrev cc1 (cc : BitVec 4) : Bool := cc[3]
/-- CC2 of a condition code. -/
abbrev cc2 (cc : BitVec 4) : Bool := cc[2]
/-- CC3 CC4 of a condition code. -/
def cc34 (cc : BitVec 4) : BitVec 2 := cc.extractLsb' 0 2

/-- `CC <- cc` (R15). -/
def State.setCC (s : State) (cc : BitVec 4) : State :=
  { s with psd := { s.psd with cc := cc } }

/-- `CC <- (-, -, p)`. -/
def State.setCC34 (s : State) (p : BitVec 2) : State :=
  s.setCC (ccOf (cc1 s.psd.cc) (cc2 s.psd.cc) p)

/-- `CC <- (-, c2, p)`. -/
def State.setCC234 (s : State) (c2 : Bool) (p : BitVec 2) : State :=
  s.setCC (ccOf (cc1 s.psd.cc) c2 p)

/-- `CC <- (c1, -, p)`. -/
def State.setCC134 (s : State) (c1 : Bool) (p : BitVec 2) : State :=
  s.setCC (ccOf c1 (cc2 s.psd.cc) p)

/-- `CC1 <- c`. -/
def State.setCC1 (s : State) (c : Bool) : State :=
  s.setCC (ccOf c (cc2 s.psd.cc) (cc34 s.psd.cc))

/-- `CC2 <- c`. -/
def State.setCC2 (s : State) (c : Bool) : State :=
  s.setCC (ccOf (cc1 s.psd.cc) c (cc34 s.psd.cc))

/-- `CC <- (c1, c2, -, -)`. -/
def State.setCC12 (s : State) (c1 c2 : Bool) : State :=
  s.setCC (ccOf c1 c2 (cc34 s.psd.cc))

/-- `CC <- (-, -, -, c)`. -/
def State.setCC4 (s : State) (c : Bool) : State :=
  s.setCC (s.psd.cc.extractLsb' 1 3 ++ BitVec.ofBool c)

/-- A sum or difference with its carry out and signed overflow (R250). -/
structure Sum (n : Nat) where
  value : BitVec n
  carry : Bool
  ov : Bool
deriving DecidableEq, Repr

/-- R250 `Add`. -/
def addN {n : Nat} (a b : BitVec n) : Sum n where
  value := a + b
  carry := decide (2 ^ n ≤ a.toNat + b.toNat)
  ov := (a.msb == b.msb) && ((a + b).msb != a.msb)

/-- R250 `Sub`: the carry is that of a + ~b + 1, so 1 means no borrow. -/
def subN {n : Nat} (a b : BitVec n) : Sum n where
  value := a - b
  carry := decide (b.toNat ≤ a.toNat)
  ov := (a.msb != b.msb) && ((a - b).msb != a.msb)

/-- R250 `ArithCC`. -/
def arithCC {n : Nat} (r : Sum n) : BitVec 4 :=
  ccOf r.carry r.ov (ccSign r.value)

end Sys2Proof.Machine
end

