-- ==== Sys2Proof/Machine/Ops.lean ====
section
/-! DEFINITION. The named operations over registers, virtual memory and the PSD, and taking an exception. Every access of
the CPU first lets the other agents act (`State.others`).

Spec: 00_scope.md R13-R15, 10_state.md R30-R52, 20_memory.md R80-R106, 60_exceptions.md R600-R612. -/

namespace Sys2Proof.Machine

/-- What an instruction answers. -/
abbrev Out := Host.Outcome State Fault Refusal

/-! ## Traps and the fatal fault -/

/-- Nonexistent instruction: X'40', CC1 (R602). -/
def trapNonexistent : Trap := ⟨0x40, 0b1000#4⟩
/-- Nonexistent memory address: X'40', CC2 (R86, R602). -/
def trapNoMemory : Trap := ⟨0x40, 0b0100#4⟩
/-- Privileged instruction in slave mode: X'40', CC3 (R602, R640). -/
def trapPrivileged : Trap := ⟨0x40, 0b0010#4⟩
/-- Memory protection violation: X'40', CC4 (R89, R98, R602). -/
def trapProtection : Trap := ⟨0x40, 0b0001#4⟩
/-- Unimplemented instruction: X'41' (R602). -/
def trapUnimplemented : Trap := ⟨0x41, 0#4⟩
/-- Push-down stack limit, space: X'42', CC1 (R371, R602). -/
def trapStackSpace : Trap := ⟨0x42, 0b1000#4⟩
/-- Push-down stack limit, words: X'42', CC2 (R371, R602). -/
def trapStackWords : Trap := ⟨0x42, 0b0100#4⟩
/-- Fixed-point overflow: X'43' (R602). -/
def trapOverflow : Trap := ⟨0x43, 0#4⟩
/-- Floating-point fault: X'44' (R602). -/
def trapFloating : Trap := ⟨0x44, 0#4⟩
/-- Decimal fault: X'45' (R443, R602). -/
def trapDecimal : Trap := ⟨0x45, 0#4⟩
/-- CAL1..CAL4: X'48'..X'4B', the trap CC being the R field (R460, R602). -/
def trapCal (k : Nat) (r : RegNum) : Trap := ⟨0x48 + (k - 1), r⟩

/-- `raise Trap(v, cc)` in an instruction (R15, R606): the trap waits for its entry at the next cycle. -/
def State.raise (s : State) (t : Trap) : State :=
  { s with trapPending := some ⟨t.vector, t.cc, false⟩ }

/-- `raise Fatal(msg)` (R612): the fault is latched, the CPU halts, and the host is notified (R665). -/
def State.raiseFatal (s : State) (c : FatalCause) : State :=
  { s with fatal := some c, running := false, hostCalls := .threadExit :: s.hostCalls }

/-- What an access of the CPU answers: a value, or a trap, with the state the other agents' accesses before it, and its
own effect, leave. -/
inductive Res (α : Type) where
  | ok (v : α) (t : State)
  | trap (x : Trap) (t : State)

/-- Go on with the value and the state reached, or keep the trap. -/
def Res.andThen {α β : Type} (x : Res α) (k : α → State → Res β) : Res β :=
  match x with
  | .ok v t => k v t
  | .trap e t => .trap e t

/-- Go on with the value and the state reached, or end the instruction with the trap (R605). -/
def orTrap {α : Type} (x : Res α) (k : α → State → Out) : Out :=
  match x with
  | .ok v t => k v t
  | .trap e t => .next (t.raise e)

/-- End the instruction with the trap found before any effect, or go on (R605). -/
def orRaise (s : State) (x : Option Trap) (k : Out) : Out :=
  match x with
  | none => k
  | some e => .next (s.raise e)

/-- The check of a privileged opcode (R143 step 2, R640). -/
def privileged (s : State) (k : Out) : Out :=
  if s.psd.ms then .next (s.raise trapPrivileged) else k

/-- A floating opcode needs its option (R143 step 3). -/
def needsFloat (s : State) (k : Out) : Out :=
  if s.config.floatOption then k else .next (s.raise trapUnimplemented)

/-- A decimal opcode or EBS needs its option (R143 step 3, R442). -/
def needsDecimal (s : State) (k : Out) : Out :=
  if s.config.decimalOption then k else .next (s.raise trapUnimplemented)

/-- R250: the fixed-point overflow trap, taken after the result and CC are written. -/
def State.overflowTrap (s : State) (ov : Bool) : State :=
  if ov && s.psd.am then s.raise trapOverflow else s

/-- One free value is drawn. -/
def State.draw (s : State) : State := { s with freeCount := s.freeCount + 1 }

/-! ## Registers -/

/-- `x[i]`: register i of the current block (R13, R31). -/
def State.reg (s : State) (i : RegNum) : Word :=
  s.regs[(s.psd.rp ++ i).toNat]

/-- `x[i] <- v` (R13). -/
def State.setReg (s : State) (i : RegNum) (v : Word) : State :=
  { s with regs := s.regs.set (s.psd.rp ++ i).toNat v }

/-- Ru1 = R | 1 (R13). -/
def ru1 (r : RegNum) : RegNum := r ||| 1#4

/-- The doubleword register operand (x[R], x[Ru1]) (R33). -/
def State.pair (s : State) (r : RegNum) : Double :=
  s.reg r ++ s.reg (ru1 r)

/-- A doubleword result: high word first, low word second, so an odd R ends holding the low word (R33). -/
def State.setPair (s : State) (r : RegNum) (d : Double) : State :=
  (s.setReg r (d.extractLsb' 32 32)).setReg (ru1 r) (d.extractLsb' 0 32)

/-! ## The program status doubleword -/

/-- `encode(fields)` (R36, R51): reserved bits 0. -/
def Psd.encode (p : Psd) : Double :=
  p.cc ++ 0#1 ++ BitVec.ofBool p.fs ++ BitVec.ofBool p.fz ++ BitVec.ofBool p.fn ++
  BitVec.ofBool p.ms ++ BitVec.ofBool p.mm ++ BitVec.ofBool p.dm ++ BitVec.ofBool p.am ++
  0#3 ++ p.ia ++ 0#2 ++ p.wk ++ 0#1 ++ BitVec.ofBool p.ci ++ BitVec.ofBool p.ii ++ BitVec.ofBool p.ei ++
  BitVec.ofBool p.ma ++ 0#1 ++ p.ext ++ p.tsf ++ p.rp ++ 0#4

/-- `decode(dw)` (R36, R50, R51): reserved bits ignored. -/
def Psd.decode (d : Double) : Psd where
  cc := d.extractLsb' 60 4
  fs := d[58]
  fz := d[57]
  fn := d[56]
  ms := d[55]
  mm := d[54]
  dm := d[53]
  am := d[52]
  ia := d.extractLsb' 32 17
  wk := d.extractLsb' 28 2
  ci := d[26]
  ii := d[25]
  ei := d[24]
  ma := d[23]
  ext := d.extractLsb' 16 6
  tsf := d.extractLsb' 8 8
  rp := d.extractLsb' 4 4

/-- The register block a register pointer selects, modulo `NBLOCKS` (R31). -/
def blockOf (z : Sizes) (rp : BitVec 4) : BitVec 4 := BitVec.ofNat 4 (rp.toNat % z.nBlocks)

/-- `install(n, loadRP)` (47_control.md R461): every field from n, the register pointer only with `loadRP`. -/
def Psd.install (z : Sizes) (old n : Psd) (loadRP : Bool) : Psd :=
  { n with rp := if loadRP then blockOf z n.rp else old.rp }

/-- `pc <- target` (R15). -/
def State.setPc (s : State) (t : WordAddr) : State :=
  { s with psd := { s.psd with ia := t } }

/-! ## Virtual accesses -/

/-- The access mode of a CPU reference (R97, R103). -/
inductive Access where
  | write
  | read
  | execute
deriving DecidableEq, Repr

/-- R97: ord(write) = 0, ord(read) = 1, ord(execute) = 2. -/
def Access.ord : Access → Nat
  | .write => 0
  | .read => 1
  | .execute => 2

/-- Where a virtual word address leads: a register of the current block (R99) or a real word. -/
inductive Place where
  | reg (i : RegNum)
  | real (rw : Nat)
deriving DecidableEq, Repr

/-- A virtual word address modulo 2^`VA_BITS` (R80). -/
def State.virtualWord (s : State) (vw : WordAddr) : Nat := vw.toNat % 2 ^ s.config.sizes.vaBits

/-- The virtual page of a word address, modulo `VPAGES` (R80, R98). -/
def State.pageOf (s : State) (vw : WordAddr) : Fin Sizes.standard.vPages :=
  ⟨s.virtualWord vw / s.pageWords % s.config.sizes.vPages % Sizes.standard.vPages, Nat.mod_lt _ (by decide)⟩

/-- `mapWord(vw, mode, isMaster)` (R98). -/
def State.mapWord (s : State) (vw : WordAddr) (mode : Access) : Except Trap Nat :=
  if s.psd.ms && decide (mode.ord < (s.acc[s.pageOf vw]).toNat) then .error trapProtection
  else .ok ((s.map[s.pageOf vw]).toNat * s.pageWords + s.virtualWord vw % s.pageWords)

/-- The real word address of a virtual one, before the range check (R98, R101, R102). -/
def State.translate (s : State) (vw : WordAddr) (mode : Access) : Except Trap Nat :=
  if s.psd.mm then s.mapWord vw mode
  else if s.psd.ma && vw[16] then .ok (s.psd.ext ++ vw.extractLsb' 0 16).toNat
  else .ok (s.virtualWord vw)

/-- Whether an address denotes a register of the current block (R99). -/
def State.isRegister (s : State) (vw : WordAddr) : Bool :=
  s.config.regAsMemory && decide (vw.toNat < 16)

/-- Translation and every check of one access to the word `vw`, in the order of R100: access code, range, write
lock. -/
def State.resolve (s : State) (vw : WordAddr) (mode : Access) : Except Trap Place :=
  if s.isRegister vw then .ok (.reg (vw.extractLsb' 0 4))
  else
    match s.translate vw mode with
    | .error t => .error t
    | .ok rw =>
      if s.memBytes ≤ 4 * rw then .error trapNoMemory
      else if decide (mode = .write) && !s.writeAllowed (rw / s.pageWords) then .error trapProtection
      else .ok (.real rw)

/-- Byte k of a word, byte 0 being the most significant (R81). -/
def wordByte (w : Word) (k : BitVec 2) : Byte :=
  match k.toNat with
  | 0 => w.extractLsb' 24 8
  | 1 => w.extractLsb' 16 8
  | 2 => w.extractLsb' 8 8
  | _ => w.extractLsb' 0 8

/-- Replace byte k of a word. -/
def setWordByte (w : Word) (k : BitVec 2) (b : Byte) : Word :=
  match k.toNat with
  | 0 => b ++ w.extractLsb' 0 24
  | 1 => w.extractLsb' 24 8 ++ b ++ w.extractLsb' 0 16
  | 2 => w.extractLsb' 16 16 ++ b ++ w.extractLsb' 0 8
  | _ => w.extractLsb' 8 24 ++ b

/-- Halfword k of a word, halfword 0 being the most significant (R81). -/
def wordHalf (w : Word) (k : BitVec 1) : Half :=
  if k = 0#1 then w.extractLsb' 16 16 else w.extractLsb' 0 16

/-- Replace halfword k of a word. -/
def setWordHalf (w : Word) (k : BitVec 1) (h : Half) : Word :=
  if k = 0#1 then h ++ w.extractLsb' 0 16 else w.extractLsb' 16 16 ++ h

/-- The byte k of the word at a place. -/
def State.loadByte (s : State) (p : Place) (k : BitVec 2) : Byte :=
  match p with
  | .reg i => wordByte (s.reg i) k
  | .real rw => s.mem.read (4 * rw + k.toNat)

/-- The halfword k of the word at a place. -/
def State.loadHalf (s : State) (p : Place) (k : BitVec 1) : Half :=
  match p with
  | .reg i => wordHalf (s.reg i) k
  | .real rw => s.mem.readHalf (4 * rw + 2 * k.toNat)

/-- The word at a place. -/
def State.loadWord (s : State) (p : Place) : Word :=
  match p with
  | .reg i => s.reg i
  | .real rw => s.mem.readWord (4 * rw)

/-- The doubleword whose first word is at a place. -/
def State.loadDouble (s : State) (p : Place) : Double :=
  match p with
  | .reg i => s.reg i ++ s.reg (i + 1#4)
  | .real rw => s.mem.readDouble (4 * rw)

/-- Store a byte into the word at a place. -/
def State.storeByte (s : State) (p : Place) (k : BitVec 2) (v : Byte) : State :=
  match p with
  | .reg i => s.setReg i (setWordByte (s.reg i) k v)
  | .real rw => s.setMem (s.mem.write (4 * rw + k.toNat) v)

/-- Store a halfword into the word at a place. -/
def State.storeHalf (s : State) (p : Place) (k : BitVec 1) (v : Half) : State :=
  match p with
  | .reg i => s.setReg i (setWordHalf (s.reg i) k v)
  | .real rw => s.setMem (s.mem.writeHalf (4 * rw + 2 * k.toNat) v)

/-- Store a word at a place. -/
def State.storeWord (s : State) (p : Place) (v : Word) : State :=
  match p with
  | .reg i => s.setReg i v
  | .real rw => s.setMem (s.mem.writeWord (4 * rw) v)

/-- Store a doubleword, its high word at the place and its low word after it. -/
def State.storeDouble (s : State) (p : Place) (v : Double) : State :=
  match p with
  | .reg i => (s.setReg i (v.extractLsb' 32 32)).setReg (i + 1#4) (v.extractLsb' 0 32)
  | .real rw => s.setMem (s.mem.writeDouble (4 * rw) v)

/-- One access to the word `vw`: the other agents act, then translation and checks, then the access, as one atomic
step (R100, R109, R110). -/
def State.access {α : Type} (s : State) (vw : WordAddr) (mode : Access) (k : State → Place → Res α) : Res α :=
  match s.others.resolve vw mode with
  | .ok p => k s.others p
  | .error e => .trap e s.others

/-- `MemRead(a, 1, mode)` (R14, R100). -/
def State.readByte (s : State) (a : ByteAddr) (mode : Access) : Res Byte :=
  s.access (a.extractLsb' 2 17) mode fun t p => .ok (t.loadByte p (a.extractLsb' 0 2)) t

/-- `MemRead(2 * h, 2, mode)`. -/
def State.readHalf (s : State) (h : HalfAddr) (mode : Access) : Res Half :=
  s.access (h.extractLsb' 1 17) mode fun t p => .ok (t.loadHalf p (h.extractLsb' 0 1)) t

/-- `MemRead(4 * w, 4, mode)`. -/
def State.readWord (s : State) (w : WordAddr) (mode : Access) : Res Word :=
  s.access w mode fun t p => .ok (t.loadWord p) t

/-- `MemRead(8 * d, 8, mode)`. -/
def State.readDouble (s : State) (d : DoubleAddr) (mode : Access) : Res Double :=
  s.access (d ++ 0#1) mode fun t p => .ok (t.loadDouble p) t

/-- `MemWrite(a, 1, v)`. -/
def State.writeByte (s : State) (a : ByteAddr) (v : Byte) : Res Unit :=
  s.access (a.extractLsb' 2 17) .write fun t p => .ok () (t.storeByte p (a.extractLsb' 0 2) v)

/-- `MemWrite(2 * h, 2, v)`. -/
def State.writeHalf (s : State) (h : HalfAddr) (v : Half) : Res Unit :=
  s.access (h.extractLsb' 1 17) .write fun t p => .ok () (t.storeHalf p (h.extractLsb' 0 1) v)

/-- `MemWrite(4 * w, 4, v)`. -/
def State.writeWord (s : State) (w : WordAddr) (v : Word) : Res Unit :=
  s.access w .write fun t p => .ok () (t.storeWord p v)

/-- `MemWrite(8 * d, 8, v)`. -/
def State.writeDouble (s : State) (d : DoubleAddr) (v : Double) : Res Unit :=
  s.access (d ++ 0#1) .write fun t p => .ok () (t.storeDouble p v)

/-- `AtomicModify` of a byte at a virtual address (R91, R100): the byte is unsigned, so overflow is 0. -/
def State.modifyByte (s : State) (a : ByteAddr) (delta : Byte) : Res (Sum 8) :=
  s.access (a.extractLsb' 2 17) .write fun t p =>
    let r := { addN (t.loadByte p (a.extractLsb' 0 2)) delta with ov := false }
    .ok r (t.storeByte p (a.extractLsb' 0 2) r.value)

/-- `AtomicModify` of a halfword at a virtual address (R91, R100). -/
def State.modifyHalf (s : State) (h : HalfAddr) (delta : Half) : Res (Sum 16) :=
  s.access (h.extractLsb' 1 17) .write fun t p =>
    let r := addN (t.loadHalf p (h.extractLsb' 0 1)) delta
    .ok r (t.storeHalf p (h.extractLsb' 0 1) r.value)

/-- `AtomicModify` of a word at a virtual address (R91, R100). -/
def State.modifyWord (s : State) (w : WordAddr) (delta : Word) : Res (Sum 32) :=
  s.access w .write fun t p =>
    let r := addN (t.loadWord p) delta
    .ok r (t.storeWord p r.value)

/-- `exchangeRawWord` at a virtual address (R92, R100): the old word. -/
def State.exchangeWord (s : State) (w : WordAddr) (v : Word) : Res Word :=
  s.access w .write fun t p => .ok (t.loadWord p) (t.storeWord p v)

/-! ## Checks before an instruction that writes more than once

No access changes what `State.resolve` answers, so these find the first trap such an instruction meets; the instruction
then ends with it before it has any effect (60_exceptions.md R605). -/

/-- The trap of an access to the word `vw`. -/
def State.faultAt (s : State) (vw : WordAddr) (mode : Access) : Option Trap :=
  match s.resolve vw mode with
  | .ok _ => none
  | .error e => some e

/-- The first trap of accesses to `n` words from `a` up. -/
def State.faultWords (s : State) (mode : Access) : Nat → WordAddr → Option Trap
  | 0, _ => none
  | n + 1, a => (s.faultAt a mode).or (s.faultWords mode n (a + 1#17))

/-- The first trap of accesses to `n` bytes from `a` up. -/
def State.faultBytes (s : State) (mode : Access) : Nat → ByteAddr → Option Trap
  | 0, _ => none
  | n + 1, a => (s.faultAt (a.extractLsb' 2 17) mode).or (s.faultBytes mode n (a + 1#19))

/-! ## Taking an exception (R606-R609) and returning from one (R461, R610) -/

/-- Installing the new PSD of an exchange: CC is the new PSD's OR the trap's, and with R bit 10 the trap CC is added
to the new IA (R462, R608). `r` is the XPSD's R field. -/
def State.installExchange (s : State) (n : Psd) (r : RegNum) (cc : BitVec 4) : State :=
  { s with psd :=
      { Psd.install s.config.sizes s.psd n r[3] with
        cc := n.cc ||| cc
        ia := if r[1] then n.ia + cc.setWidth 17 else n.ia } }

/-- The doubleword address of a vector's XPSD, computed without translation, and the state after its accesses; none
where the indirect word does not exist (R608). -/
def State.exchangeAddress (s : State) (f : Fields) : Option DoubleAddr × State :=
  let index : Word := if f.x = 0#3 then 0#32 else s.reg (f.x.setWidth 4)
  let address (ref : WordAddr) : DoubleAddr := (ref + (index <<< 1).setWidth 17).extractLsb' 1 16
  if f.ind then ((s.others.realWord f.ref.toNat).map fun w => address (w.extractLsb' 0 17), s.others)
  else (some (address f.ref), s)

/-- The shared "exchange program status doubleword" operation of trap and interrupt entry (R608): `w` is the vector's
XPSD word, `cc` the trap condition code, `sIA` the instruction address saved. -/
def State.exchange (s : State) (w : Word) (cc : BitVec 4) (sIA : WordAddr) : State :=
  match s.exchangeAddress (decodeFields w) with
  | (none, t) => t.raiseFatal .exchangeAddress
  | (some ea, t) =>
    let ra := 8 * ea.toNat
    if decide (t.memBytes < ra + 16) || !t.writeAllowed (ra / t.pageBytes) then t.raiseFatal .exchangeAccess
    else
      let stored := t.others.setMem (t.others.mem.writeDouble ra (Psd.encode { t.psd with ia := sIA }))
      let loaded := stored.others
      loaded.installExchange (Psd.decode (loaded.mem.readDouble (ra + 8))) (decodeFields w).r cc

/-- The instruction address a trap saves (R606): the fetch address for a fetch trap, else one back, to the trapping
instruction; for CAL as `CAL_SAVED_IA` says (R460). -/
def State.savedIA (s : State) (t : TrapData) : WordAddr :=
  if t.fetchTrap || (s.config.calSavesNext && decide (0x48 ≤ t.vector ∧ t.vector ≤ 0x4B)) then s.psd.ia
  else s.psd.ia - 1#17

/-- Trap entry (R607): the vector word is read at its real address and must be XPSD. -/
def State.trapEntry (s : State) (v : Nat) (cc : BitVec 4) (sIA : WordAddr) : State :=
  let t := s.others
  match t.realWord v with
  | none => t.raiseFatal .malformedTrapVector
  | some w =>
    if (decodeFields w).op = 0x0F#7 then t.exchange w cc sIA
    else t.raiseFatal .malformedTrapVector

/-- R601 step 1: a pending trap is consumed and entered; the entry ends a WAIT unless it is fatal. -/
def State.takeTrap (s : State) (t : TrapData) : State :=
  let e := ({ s with trapPending := none }).trapEntry t.vector t.cc (s.savedIA t)
  if e.fatal.isSome then e else { e with waiting := false }

/-- Installing the PSD an LPSD loads (R461), the return from a trap or interrupt (R610). -/
def State.loadPsd (s : State) (n : Psd) (loadRP : Bool) : State :=
  { s with psd := Psd.install s.config.sizes s.psd n loadRP }

end Sys2Proof.Machine
end

