-- ==== Sys2Proof/Machine/Operands.lean ====
section
/-! DEFINITION. Effective addresses and operands (spec 30_encoding.md R132-R142, R151; 00_scope.md R16). -/

namespace Sys2Proof.Machine

/-- The index value: X = 0 means no indexing (R32, R136). -/
def State.index (s : State) (x : BitVec 3) : Word :=
  if x = 0#3 then 0#32 else s.reg (x.setWidth 4)

/-- The reference after one level of indirection (R135). -/
def State.refOf (s : State) (a : AddrField) : Res WordAddr :=
  if a.ind then (s.readWord a.ref .read).andThen fun w t => .ok (w.extractLsb' 0 17) t else .ok a.ref s

/-- `EWA` (R136), modulo 2^17. -/
def State.effWord (s : State) (a : AddrField) : Res WordAddr :=
  (s.refOf a).andThen fun ref t => .ok (ref + (t.index a.x).setWidth 17) t

/-- `EHA` (R137), modulo 2^18; the index counts halfwords. -/
def State.effHalf (s : State) (a : AddrField) : Res HalfAddr :=
  (s.refOf a).andThen fun ref t => .ok ((ref ++ 0#1) + (t.index a.x).setWidth 18) t

/-- `EBA` (R138), modulo 2^19; the index counts bytes. -/
def State.effByte (s : State) (a : AddrField) : Res ByteAddr :=
  (s.refOf a).andThen fun ref t => .ok ((ref ++ 0#2) + (t.index a.x).setWidth 19) t

/-- `EDA` (R139): the index counts doublewords and the low bit is ignored. -/
def State.effDouble (s : State) (a : AddrField) : Res DoubleAddr :=
  (s.refOf a).andThen fun ref t => .ok ((ref + (t.index a.x <<< 1).setWidth 17).extractLsb' 1 16) t

/-- The immediate operand (R140). -/
def immediate (v : BitVec 20) : Word := v.signExtend 32

/-- The signed increment of the modify-and-test instructions (R133). -/
def deltaOf (r : RegNum) : Word := r.signExtend 32

/-- The shift control of S and SF (R141): the count, and the type in address bits 10-8. -/
def shiftCount (ea : WordAddr) : Int := (ea.extractLsb' 0 7).toInt
/-- The shift type of S (R141). -/
def shiftType (ea : WordAddr) : Nat := (ea.extractLsb' 8 3).toNat

/-- Go on with the operand word `EW` (R16) and the state reached. -/
def withWord (s : State) (a : AddrField) (k : Word → State → Out) : Out :=
  orTrap (s.effWord a) fun ea t => orTrap (t.readWord ea .read) k

/-- Go on with the operand halfword `EH` and the state reached. -/
def withHalf (s : State) (a : AddrField) (k : Half → State → Out) : Out :=
  orTrap (s.effHalf a) fun ea t => orTrap (t.readHalf ea .read) k

/-- Go on with the operand byte `EB` and the state reached. -/
def withByte (s : State) (a : AddrField) (k : Byte → State → Out) : Out :=
  orTrap (s.effByte a) fun ea t => orTrap (t.readByte ea .read) k

/-- Go on with the operand doubleword `ED` and the state reached. -/
def withDouble (s : State) (a : AddrField) (k : Double → State → Out) : Out :=
  orTrap (s.effDouble a) fun ea t => orTrap (t.readDouble ea .read) k

/-- The count of LM, STM, PSM and PLM: CC, with 0 meaning 16 (R61). -/
def ccCount (cc : BitVec 4) : Nat := if cc = 0#4 then 16 else cc.toNat

/-- Read `n` words from `ea` up into registers r, r + 1, … (modulo 16), in order, each read after the previous register is
written (R212, R375). -/
def loadWords : Nat → RegNum → WordAddr → State → Res Unit
  | 0, _, _, s => .ok () s
  | n + 1, r, ea, s =>
    (s.readWord ea .read).andThen fun w t => loadWords n (r + 1#4) (ea + 1#17) (t.setReg r w)

end Sys2Proof.Machine
end

