-- ==== Sys2Proof/Machine/Branch.lean ====
section
/-! DEFINITION. Branch instructions (spec 43_branch_execute.md R340-R344, R346). EXU is in Execute.lean. -/

namespace Sys2Proof.Machine

/-- Record the branch outcome (R346) and branch if taken. When an instruction runs, pc already holds the address of
the next one (R601). -/
def State.branchIf (s : State) (taken : Bool) (t : WordAddr) : State :=
  { (if taken then s.setPc t else s) with branchOutcome := some taken }

/-- BCR (R340): the effective address is computed whether or not it branches (D27). -/
def execBcr (r : RegNum) (a : AddrField) (s : State) : Out :=
  orTrap (s.effWord a) fun t s => .next (s.branchIf (r &&& s.psd.cc == 0#4) t)

/-- BCS (R341). -/
def execBcs (r : RegNum) (a : AddrField) (s : State) : Out :=
  orTrap (s.effWord a) fun t s => .next (s.branchIf (r &&& s.psd.cc != 0#4) t)

/-- BAL (R342): the link is pc, the address of the next instruction. -/
def execBal (r : RegNum) (a : AddrField) (s : State) : Out :=
  orTrap (s.effWord a) fun t s => .next ((s.setReg r (s.psd.ia.setWidth 32)).branchIf true t)

/-- BDR (R343). -/
def execBdr (r : RegNum) (a : AddrField) (s : State) : Out :=
  orTrap (s.effWord a) fun t s =>
    .next ((s.setReg r (s.reg r - 1#32)).branchIf (decide (0 < (s.reg r - 1#32).toInt)) t)

/-- BIR (R344). -/
def execBir (r : RegNum) (a : AddrField) (s : State) : Out :=
  orTrap (s.effWord a) fun t s =>
    .next ((s.setReg r (s.reg r + 1#32)).branchIf (decide ((s.reg r + 1#32).toInt < 0)) t)

end Sys2Proof.Machine
end

