-- ==== Sys2Proof/Machine/ByteString.lean ====
section
/-! DEFINITION. Byte-string instructions of the basic set (spec 46_bytestring_decimal.md R420-R424).

Bytes are moved one at a time. After each the progress is in the registers, so a memory trap leaves the bytes done and
the registers describing the rest (R420, R605); CC is written only at the end (notes/assumptions/14.md). -/

namespace Sys2Proof.Machine

/-- The source field x[R][18:0], 0 for R = 0 (R420); the source address is this plus the displacement. -/
def State.stringSource (s : State) (r : RegNum) : ByteAddr :=
  if r = 0#4 then 0#19 else (s.reg r).extractLsb' 0 19

/-- The TTBS mask x[R][31:24], 0 for R = 0 (R420). -/
def State.stringMask (s : State) (r : RegNum) : Byte :=
  if r = 0#4 then 0#8 else (s.reg r).extractLsb' 24 8

/-- The count x[Ru1][31:24] (R420). -/
def State.stringCount (s : State) (r : RegNum) : Nat := ((s.reg (ru1 r)).extractLsb' 24 8).toNat

/-- The destination address x[Ru1][18:0] (R420). -/
def State.stringDest (s : State) (r : RegNum) : ByteAddr := (s.reg (ru1 r)).extractLsb' 0 19

/-- The displacement as a byte address, modulo 2^19 (R132, R420). -/
def stringDisp (v : BitVec 20) : ByteAddr := (v.signExtend 32).setWidth 19

/-- Write the source field back (MBS, CBS), for R not 0; the other bits stay. -/
def State.putSource (s : State) (r : RegNum) (src : ByteAddr) : State :=
  if r = 0#4 then s else s.setReg r ((s.reg r).extractLsb' 19 13 ++ src)

/-- Write the count and destination fields back to Ru1; the other bits stay. -/
def State.putDest (s : State) (r : RegNum) (count : Nat) (dst : ByteAddr) : State :=
  s.setReg (ru1 r) (BitVec.ofNat 8 count ++ (s.reg (ru1 r)).extractLsb' 19 5 ++ dst)

/-- MBS with `n` bytes to go; `src` is the source field, `disp` the displacement. -/
def moveBytes (r : RegNum) (disp : ByteAddr) : Nat → ByteAddr → ByteAddr → State → Out
  | 0, _, _, s => .next s
  | n + 1, src, dst, s =>
    orTrap (s.readByte (src + disp) .read) fun b s =>
      orTrap (s.writeByte dst b) fun _ s =>
        moveBytes r disp n (src + 1#19) (dst + 1#19)
          ((s.putSource r (src + 1#19)).putDest r n (dst + 1#19))

/-- MBS (R421). -/
def execMbs (r : RegNum) (v : BitVec 20) (s : State) : Out :=
  moveBytes r (stringDisp v) (s.stringCount r) (s.stringSource r) (s.stringDest r) s

/-- CBS with `n` bytes to go. -/
def compareBytes (r : RegNum) (disp : ByteAddr) : Nat → ByteAddr → ByteAddr → State → Out
  | 0, _, _, s => .next (s.setCC34 0b00#2)
  | n + 1, src, dst, s =>
    orTrap (s.readByte (src + disp) .read) fun x s =>
      orTrap (s.readByte dst .read) fun y s =>
        if x = y then
          compareBytes r disp n (src + 1#19) (dst + 1#19)
            ((s.putSource r (src + 1#19)).putDest r n (dst + 1#19))
        else .next (s.setCC34 (ccUcmp x y))

/-- CBS (R422): the registers stay at an unequal pair. -/
def execCbs (r : RegNum) (v : BitVec 20) (s : State) : Out :=
  compareBytes r (stringDisp v) (s.stringCount r) (s.stringSource r) (s.stringDest r) s

/-- TBS with `n` bytes to go; the table address does not advance. -/
def translateBytes (r : RegNum) (table : ByteAddr) : Nat → ByteAddr → State → Out
  | 0, _, s => .next s
  | n + 1, dst, s =>
    orTrap (s.readByte dst .read) fun b s =>
      orTrap (s.readByte (table + b.setWidth 19) .read) fun x s =>
        orTrap (s.writeByte dst x) fun _ s =>
          translateBytes r table n (dst + 1#19) (s.putDest r n (dst + 1#19))

/-- TBS (R423). -/
def execTbs (r : RegNum) (v : BitVec 20) (s : State) : Out :=
  translateBytes r (s.stringSource r + stringDisp v) (s.stringCount r) (s.stringDest r) s

/-- TTBS's stop: the masked table byte to x[R][31:24] for R not 0, and CC4 set. -/
def State.testStop (s : State) (r : RegNum) (m : Byte) : State :=
  (if r = 0#4 then s else s.setReg r (m ++ (s.reg r).extractLsb' 0 24)).setCC4 true

/-- TTBS with `n` bytes to go. -/
def testBytes (r : RegNum) (table : ByteAddr) (mask : Byte) : Nat → ByteAddr → State → Out
  | 0, _, s => .next (s.setCC4 false)
  | n + 1, dst, s =>
    orTrap (s.readByte dst .read) fun b s =>
      orTrap (s.readByte (table + b.setWidth 19) .read) fun x s =>
        if x &&& mask = 0#8 then testBytes r table mask n (dst + 1#19) (s.putDest r n (dst + 1#19))
        else .next (s.testStop r (x &&& mask))

/-- TTBS (R424): the destination string is not modified. -/
def execTtbs (r : RegNum) (v : BitVec 20) (s : State) : Out :=
  testBytes r (s.stringSource r + stringDisp v) (s.stringMask r) (s.stringCount r) (s.stringDest r) s

end Sys2Proof.Machine
end

