-- ==== Sys2Proof/Machine/Decimal.lean ====
section
/-! DEFINITION. Decimal instructions and EBS (spec 46_bytestring_decimal.md R430-R443).

With the option absent each takes the unimplemented-instruction trap before any address is computed (R442). With it, a
field is read byte by byte and then the decimal conditions are examined. With DM = 0 such a condition sets CC1 or CC2 and
nothing is stored (R443); with DM = 1 it is a trap, and a fault of the stores comes before it (60_exceptions.md R604: memory
accesses before the instruction's own conditions; D45). -/

namespace Sys2Proof.Machine

/-! ## Packed and zoned digits (R430, R439) -/

/-- The length L of a field: the R field, 0 meaning 16 (R430). -/
def decimalLength (r : RegNum) : Nat := if r = 0#4 then 16 else r.toNat

/-- The two nibbles of each byte, in order. -/
def nibbles (bs : List Byte) : List (BitVec 4) :=
  bs.flatMap fun b => [b.extractLsb' 4 4, b.extractLsb' 0 4]

/-- The value of a digit sequence; none if a digit is above 9. -/
def digitsValue : List (BitVec 4) → Nat → Option Nat
  | [], n => some n
  | d :: ds, n => if 9 < d.toNat then none else digitsValue ds (10 * n + d.toNat)

/-- The minus signs X'B' and X'D' (R430). -/
def signNegative (g : BitVec 4) : Bool := g == 0xB#4 || g == 0xD#4

/-- The value of digits and a sign nibble; none if a digit is above 9 or the sign below X'A' (R430). -/
def signedValue (ds : List (BitVec 4)) (g : BitVec 4) : Option Int :=
  if g.toNat < 10 then none
  else (digitsValue ds 0).map fun n => if signNegative g then -(n : Int) else n

/-- The value of a packed field: the last nibble is the sign (R430). -/
def packedValue (bs : List Byte) : Option Int :=
  signedValue (nibbles bs).dropLast ((nibbles bs).getLastD 0#4)

/-- The `k` low decimal digits of `n` as nibbles, the least significant lowest. -/
def packDigits : Nat → Nat → BitVec 124
  | 0, _ => 0
  | k + 1, n => (packDigits k (n / 10) <<< 4) ||| BitVec.ofNat 124 (n % 10)

/-- The sign nibble of a result: X'C' plus, X'D' minus (R430). R430 gives none for a zero result: X'C' is the model's
choice, for a zero remainder of a negative dividend too (DESIGN CHOICE: notes/assumptions/21.md). -/
def resultSign (v : Int) : BitVec 4 := if v < 0 then 0xD#4 else 0xC#4

/-- The packed form of 31 digits and a sign. -/
def packed31 (v : Int) : BitVec 128 := packDigits 31 v.natAbs ++ resultSign v

/-- The packed form of 15 digits and a sign. -/
def packed15 (v : Int) : BitVec 64 := (packDigits 15 v.natAbs).extractLsb' 0 60 ++ resultSign v

/-- The 16 bytes of the accumulator, most significant first. -/
def accBytes (v : BitVec 128) : List Byte :=
  (List.range 16).map fun k => v.extractLsb' (8 * (15 - k)) 8

/-- Bytes, most significant first, right-aligned in 128 bits. -/
def bytesValue (bs : List Byte) : BitVec 128 :=
  bs.foldl (fun v b => (v <<< 8) ||| b.setWidth 128) 0

/-! ## The accumulator and fields -/

/-- The accumulator x12, x13, x14, x15 (R35, R430). -/
def State.decAcc (s : State) : BitVec 128 :=
  s.reg 12#4 ++ s.reg 13#4 ++ s.reg 14#4 ++ s.reg 15#4

/-- Write the accumulator. -/
def State.setDecAcc (s : State) (v : BitVec 128) : State :=
  (((s.setReg 12#4 (v.extractLsb' 96 32)).setReg 13#4 (v.extractLsb' 64 32)).setReg 14#4
    (v.extractLsb' 32 32)).setReg 15#4 (v.extractLsb' 0 32)

/-- The value of the accumulator; none if it holds an illegal digit. -/
def State.accValue (s : State) : Option Int := packedValue (accBytes s.decAcc)

/-- Read `n` bytes from virtual byte address `a` up. -/
def readField : Nat → ByteAddr → State → Res (List Byte)
  | 0, _, s => .ok [] s
  | n + 1, a, s =>
    (s.readByte a .read).andThen fun b t => (readField n (a + 1#19) t).andThen fun bs u => .ok (b :: bs) u

/-- Write bytes from virtual byte address `a` up. -/
def writeBytes : List Byte → ByteAddr → State → Res Unit
  | [], _, s => .ok () s
  | b :: bs, a, s => (s.writeByte a b).andThen fun _ t => writeBytes bs (a + 1#19) t

/-- The end of an instruction that stores a field, `stores` being the first fault of its stores: they are all checked before
the first one is made (60_exceptions.md R605). -/
def writeField (s : State) (stores : Option Trap) (bs : List Byte) (a : ByteAddr) : Out :=
  orRaise s stores (orTrap (writeBytes bs a s) fun _ s => .next s)

/-! ## Decimal faults (R443) -/

/-- The decimal faults of R443. -/
inductive DecimalFault where
  | illegalDigit
  | overflow
  /-- a DM or DD length fault, or a DD divide fault -/
  | lengthOrDivide
deriving DecidableEq, Repr

/-- R443: with DM = 1 the trap X'45' and nothing changed; with DM = 0 only CC1 or CC2 is set. -/
def State.decimalFault (s : State) (f : DecimalFault) : State :=
  if s.psd.dm then s.raise trapDecimal
  else
    match f with
    | .illegalDigit => s.setCC1 true
    | .overflow => s.setCC2 true
    | .lengthOrDivide =>
      if Config.decimalLengthCC2 s.freeCount then s.draw.setCC2 true else s.draw.setCC1 true

/-- The end by a decimal fault, `stores` being the first fault of the stores the instruction is to make. With DM = 0 nothing
is stored; with DM = 1 a fault of the stores comes before the trap (60_exceptions.md R604, D45). -/
def endDecimal (s : State) (stores : Option Trap) (f : DecimalFault) : Out :=
  if s.psd.dm then orRaise s stores (.next (s.decimalFault f)) else .next (s.decimalFault f)

/-- Go on with a decimal value, or take the illegal-digit fault. -/
def orIllegal (s : State) (stores : Option Trap) (v : Option Int) (k : Int → Out) : Out :=
  match v with
  | some n => k n
  | none => endDecimal s stores .illegalDigit

/-- Go on with the bytes of the L-byte field at EBA (R138, R430). -/
def withField (s : State) (a : AddrField) (n : Nat) (k : ByteAddr → List Byte → State → Out) : Out :=
  orTrap (s.effByte a) fun ea s => orTrap (readField n ea s) (k ea)

/-- Go on with the values of the accumulator and of the L-byte field at EBA. -/
def withDecimals (r : RegNum) (a : AddrField) (s : State) (k : Int → Int → State → Out) : Out :=
  withField s a (decimalLength r) fun _ bs s =>
    orIllegal s none s.accValue fun x => orIllegal s none (packedValue bs) fun y => k x y s

/-- The accumulator is to hold `v`: more than 31 digits is an overflow; else CC3 CC4 are its sign (R433). -/
def State.decimalResult (s : State) (v : Int) : State :=
  if 10 ^ 31 ≤ v.natAbs then s.decimalFault .overflow
  else (s.setDecAcc (packed31 v)).setCC34 (ccSignInt v)

/-! ## The instructions -/

/-- DL (R431): the field is copied, its sign nibble too. -/
def execDl (r : RegNum) (a : AddrField) (s : State) : Out :=
  needsDecimal s (withField s a (decimalLength r) fun _ bs s =>
    orIllegal s none (packedValue bs) fun v =>
      .next ((s.setDecAcc (bytesValue bs)).setCC34 (ccSignInt v)))

/-- DST (R432): a nonzero digit that the field has no room for is an overflow. -/
def execDst (r : RegNum) (a : AddrField) (s : State) : Out :=
  needsDecimal s (orTrap (s.effByte a) fun ea s =>
    let stores := s.faultBytes .write (decimalLength r) ea
    orIllegal s stores s.accValue fun v =>
      if 10 ^ (2 * decimalLength r - 1) ≤ v.natAbs then endDecimal s stores .overflow
      else writeField s stores ((accBytes s.decAcc).drop (16 - decimalLength r)) ea)

/-- DA (R433). -/
def execDa (r : RegNum) (a : AddrField) (s : State) : Out :=
  needsDecimal s (withDecimals r a s fun x y s => .next (s.decimalResult (x + y)))

/-- DS (R434). -/
def execDs (r : RegNum) (a : AddrField) (s : State) : Out :=
  needsDecimal s (withDecimals r a s fun x y s => .next (s.decimalResult (x - y)))

/-- DM (R435): L at most 8 and an accumulator of at most 16 digits. -/
def execDm (r : RegNum) (a : AddrField) (s : State) : Out :=
  needsDecimal s (withDecimals r a s fun x y s =>
    if 8 < decimalLength r ∨ 10 ^ 16 ≤ x.natAbs then .next (s.decimalFault .lengthOrDivide)
    else .next (s.decimalResult (x * y)))

/-- DD (R436): L at most 8, a nonzero divisor and a quotient of at most 15 digits; the remainder has the dividend's
sign; CC is not written. -/
def execDd (r : RegNum) (a : AddrField) (s : State) : Out :=
  needsDecimal s (withDecimals r a s fun x y s =>
    if 8 < decimalLength r ∨ y = 0 ∨ 10 ^ 15 ≤ (x.tdiv y).natAbs then .next (s.decimalFault .lengthOrDivide)
    else .next (s.setDecAcc (packed15 (x.tmod y) ++ packed15 (x.tdiv y))))

/-- DC (R437). -/
def execDc (r : RegNum) (a : AddrField) (s : State) : Out :=
  needsDecimal s (withDecimals r a s fun x y s => .next (s.setCC34 (ccSignInt (x - y))))

/-- The 31 digits shifted by `count` digit places, positive left, zero-filled (R438). -/
def shiftDigits (count : Int) (ds : BitVec 124) : BitVec 124 :=
  if 0 ≤ count then ds <<< (4 * count.natAbs) else ds >>> (4 * count.natAbs)

/-- Nonzero digits are lost on the left by a left shift. -/
def digitsLost (count : Int) (ds : BitVec 124) : Bool :=
  decide (0 < count) && shiftDigits (-count) (shiftDigits count ds) != ds

/-- DSA (R438): EWA is a shift control; the sign nibble is kept. -/
def execDsa (_r : RegNum) (a : AddrField) (s : State) : Out :=
  needsDecimal s (orTrap (s.effWord a) fun ea s =>
    orIllegal s none s.accValue fun _ =>
      let ds := s.decAcc.extractLsb' 4 124
      .next ((s.setDecAcc (shiftDigits (shiftCount ea) ds ++ s.decAcc.extractLsb' 0 4)).setCC2
        (digitsLost (shiftCount ea) ds)))

/-- The packed bytes of digit and sign nibbles taken two by two. -/
def packNibbles : List (BitVec 4) → List Byte
  | x :: y :: rest => (x ++ y) :: packNibbles rest
  | _ => []

/-- The digit nibbles of a zoned string, then the zone of its last byte, the sign (R439). -/
def zonedNibbles (bs : List Byte) : List (BitVec 4) :=
  bs.map (fun b => b.extractLsb' 0 4) ++ [(bs.getLastD 0#8).extractLsb' 4 4]

/-- PACK (R439): the 2L - 1 zoned bytes at EBA are all read, then the L packed bytes are written there (DEDUCED:
notes/assumptions/23.md). -/
def execPack (r : RegNum) (a : AddrField) (s : State) : Out :=
  needsDecimal s (withField s a (2 * decimalLength r - 1) fun ea bs s =>
    let stores := s.faultBytes .write (decimalLength r) ea
    orIllegal s stores (packedValue (packNibbles (zonedNibbles bs))) fun _ =>
      writeField s stores (packNibbles (zonedNibbles bs)) ea)

/-- The zoned bytes of digits and a sign: zone X'F', the last byte's zone the sign (R440). -/
def zoneDigits (g : BitVec 4) : List (BitVec 4) → List Byte
  | [] => []
  | [d] => [g ++ d]
  | d :: ds => (0xF#4 ++ d) :: zoneDigits g ds

/-- UNPK (R440): the L packed bytes at EBA are all read, then the 2L - 1 zoned bytes are written. R440 names no place for
them: that they go to EBA, over the field, is the model's own (DESIGN CHOICE: notes/assumptions/23.md). -/
def execUnpk (r : RegNum) (a : AddrField) (s : State) : Out :=
  needsDecimal s (withField s a (decimalLength r) fun ea bs s =>
    let stores := s.faultBytes .write (2 * decimalLength r - 1) ea
    orIllegal s stores (packedValue bs) fun _ =>
      writeField s stores (zoneDigits ((nibbles bs).getLastD 0#4) (nibbles bs).dropLast) ea)

/-! ## EBS (R441)

R441 names the pattern bytes and the edit; their codes, the edited bytes and how the source is walked are not stated
(notes/assumptions/24.md). -/

/-- How far an edit has come: the next source byte's address, the low nibble of the source byte last read if it is still
to be taken, the pattern bytes read and the nibbles taken (newest first), and of the current field whether its sign is
minus and whether it has a nonzero digit. -/
structure Edit where
  src : ByteAddr
  low : Option (BitVec 4)
  pattern : List Byte
  taken : List (BitVec 4)
  negative : Bool
  nonzero : Bool
deriving DecidableEq, Repr

/-- The start of an edit from source address `src`. -/
def editStart (src : ByteAddr) : Edit := ⟨src, none, [], [], false, false⟩

/-- Take digit `d`, `low` being what is left of its source byte: a low nibble above 9 is the field's sign and ends the
byte. -/
def Edit.digit (e : Edit) (d : BitVec 4) (low : Option (BitVec 4)) : Edit :=
  let e := { e with taken := d :: e.taken, nonzero := e.nonzero || d != 0#4, low := low }
  match low with
  | none => e
  | some g =>
    if 9 < g.toNat then { e with low := none, taken := g :: e.taken, negative := signNegative g } else e

/-- The next source digit: the low nibble kept from the last source byte, else the high nibble of the next one. None for
an illegal digit (R430, R443). -/
def editDigit (e : Edit) (s : State) : Res (Option Edit) :=
  match e.low with
  | some d => .ok (some (e.digit d none)) s
  | none =>
    (s.readByte e.src .read).andThen fun b t =>
      if 9 < (b.extractLsb' 4 4).toNat then .ok none t
      else .ok (some ({ e with src := e.src + 1#19 }.digit (b.extractLsb' 4 4) (some (b.extractLsb' 0 4)))) t

/-- One pattern byte: a digit-select or significance-start byte takes a source digit, a field-separation byte starts a
new field. -/
def editPattern (e : Edit) (p : Byte) (s : State) : Res (Option Edit) :=
  let e := { e with pattern := p :: e.pattern }
  match Config.editKind p with
  | .fill => .ok (some e) s
  | .digitSelect => editDigit e s
  | .significanceStart => editDigit e s
  | .fieldSeparation => .ok (some { e with negative := false, nonzero := false }) s

/-- How the reading of the strings ended. -/
inductive EditEnd where
  | done
  | illegalDigit
  | trapped (x : Trap)
deriving DecidableEq, Repr

/-- Read `n` pattern bytes from `dst` up and the source digits they take: the edited bytes, how the edit stands and how
it ended. -/
def editScan : Nat → ByteAddr → Edit → State → List Byte × Edit × EditEnd × State
  | 0, _, e, s => ([], e, .done, s)
  | n + 1, dst, e, s =>
    match (s.readByte dst .read).andThen fun p t => editPattern e p t with
    | .trap x t => ([], e, .trapped x, t)
    | .ok none t => ([], e, .illegalDigit, t)
    | .ok (some f) t =>
      let rest := editScan n (dst + 1#19) f t
      (Config.editedByte f.pattern f.taken :: rest.1, rest.2)

/-- Write edited bytes from `dst` up, `n` being the count; after each the progress goes to Ru1 (R420). -/
def editWrite (r : RegNum) : List Byte → Nat → ByteAddr → State → Res Unit
  | [], _, _, s => .ok () s
  | b :: bs, n, dst, s =>
    (s.writeByte dst b).andThen fun _ t =>
      editWrite r bs (n - 1) (dst + 1#19) (t.putDest r (n - 1) (dst + 1#19))

/-- CC3 CC4 of EBS: the sign and zero-ness of the last field, as R431 gives those of a decimal value. -/
def Edit.cc (e : Edit) : BitVec 2 := if e.nonzero then (if e.negative then 0b10#2 else 0b01#2) else 0b00#2

/-- EBS (R441): the strings are read, and with no illegal digit the edited bytes are written, a memory trap leaving the
bytes before it done (R420); the source field is not advanced (R420). An illegal digit at a byte is its fault; with DM = 1,
where it is a trap, the trap of a store to that byte or to one before it comes first (60_exceptions.md R604). -/
def execEbs (r : RegNum) (v : BitVec 20) (s : State) : Out :=
  needsDecimal s
    (match editScan (s.stringCount r) (s.stringDest r) (editStart (s.stringSource r + stringDisp v)) s with
     | (bs, _, .illegalDigit, t) =>
       match if t.psd.dm then t.faultBytes .write (bs.length + 1) (t.stringDest r) else none with
       | none => .next (t.decimalFault .illegalDigit)
       | some x => orTrap (editWrite r bs (t.stringCount r) (t.stringDest r) t) fun _ u => .next (u.raise x)
     | (bs, e, .done, t) =>
       orTrap (editWrite r bs (t.stringCount r) (t.stringDest r) t) fun _ u => .next (u.setCC34 e.cc)
     | (bs, _, .trapped x, t) =>
       orTrap (editWrite r bs (t.stringCount r) (t.stringDest r) t) fun _ u => .next (u.raise x))

end Sys2Proof.Machine
end

