-- ==== Sys2Proof/Machine/LoadStore.lean ====
section
/-! DEFINITION. Load and store instructions (spec 40_load_store.md R200-R222). -/

namespace Sys2Proof.Machine

/-- Load a word result and set CC3 CC4 from its sign. -/
def State.loadResult (s : State) (r : RegNum) (v : Word) : State :=
  (s.setReg r v).setCC34 (ccSign v)

/-- Load a word result with its overflow in CC2, then the overflow trap (R207, R208, D20). -/
def State.loadResultOv (s : State) (r : RegNum) (v : Word) (ov : Bool) : State :=
  ((s.setReg r v).setCC234 ov (ccSign v)).overflowTrap ov

/-- As `State.loadResultOv` for a doubleword (R209, R210). -/
def State.loadPairOv (s : State) (r : RegNum) (v : Double) (ov : Bool) : State :=
  ((s.setPair r v).setCC234 ov (ccSign v)).overflowTrap ov

/-- LI (R200). -/
def execLi (r : RegNum) (v : BitVec 20) (s : State) : Out :=
  .next (s.loadResult r (immediate v))

/-- LB (R201): the byte is unsigned. -/
def execLb (r : RegNum) (a : AddrField) (s : State) : Out :=
  withByte s a fun b s => .next (s.loadResult r (b.setWidth 32))

/-- LH (R202). -/
def execLh (r : RegNum) (a : AddrField) (s : State) : Out :=
  withHalf s a fun h s => .next (s.loadResult r (h.signExtend 32))

/-- LW (R203). -/
def execLw (r : RegNum) (a : AddrField) (s : State) : Out :=
  withWord s a fun w s => .next (s.loadResult r w)

/-- LD (R204): CC from all 64 bits. -/
def execLd (r : RegNum) (a : AddrField) (s : State) : Out :=
  withDouble s a fun d s => .next ((s.setPair r d).setCC34 (ccSign d))

/-- LCH (R205). -/
def execLch (r : RegNum) (a : AddrField) (s : State) : Out :=
  withHalf s a fun h s => .next (s.loadResult r (-(h.signExtend 32)))

/-- The absolute value modulo 2^N of R206, R208 and R210. -/
def absN {n : Nat} (v : BitVec n) : BitVec n := if v.msb then -v else v

/-- LAH (R206). -/
def execLah (r : RegNum) (a : AddrField) (s : State) : Out :=
  withHalf s a fun h s => .next (s.loadResult r (absN (h.signExtend 32)))

/-- LCW (R207). -/
def execLcw (r : RegNum) (a : AddrField) (s : State) : Out :=
  withWord s a fun w s => .next (s.loadResultOv r (-w) (w == 0x80000000#32))

/-- LAW (R208). -/
def execLaw (r : RegNum) (a : AddrField) (s : State) : Out :=
  withWord s a fun w s => .next (s.loadResultOv r (absN w) (w == 0x80000000#32))

/-- LCD (R209). -/
def execLcd (r : RegNum) (a : AddrField) (s : State) : Out :=
  withDouble s a fun d s => .next (s.loadPairOv r (-d) (d == 0x8000000000000000#64))

/-- LAD (R210). -/
def execLad (r : RegNum) (a : AddrField) (s : State) : Out :=
  withDouble s a fun d s => .next (s.loadPairOv r (absN d) (d == 0x8000000000000000#64))

/-- The bits of `new` where the mask is 1 and of `old` elsewhere (R211, R219). -/
def select (mask new old : Word) : Word := (new &&& mask) ||| (old &&& ~~~mask)

/-- LS (R211): the mask is x[Ru1]. -/
def execLs (r : RegNum) (a : AddrField) (s : State) : Out :=
  withWord s a fun w s => .next (s.loadResult r (select (s.reg (ru1 r)) w (s.reg r)))

/-- Registers r to r + n - 1 (modulo 16) of an LM from `s` that trapped: each is as `t` has it, or, where the free values
`keep` say no, as it was in `s` (R212, D28). -/
def State.unloadWords (s : State) (keep : Nat → Bool) (r : RegNum) : Nat → State → State
  | 0, t => t
  | n + 1, t =>
    s.unloadWords keep r n (if keep n then t else t.setReg (r + BitVec.ofNat 4 n) (s.reg (r + BitVec.ofNat 4 n)))

/-- LM (R212). Where it traps, each register loaded before holds the value that the same LM would have given it, or its
old one, as a free value says (D28, notes/assumptions/16.md). -/
def execLm (r : RegNum) (a : AddrField) (s : State) : Out :=
  orTrap (s.effWord a) fun ea s =>
    match loadWords (ccCount s.psd.cc) r ea s with
    | .ok _ t => .next t
    | .trap x t =>
      .next ((s.unloadWords (Config.partialKept t.freeCount) r (ccCount s.psd.cc) t.draw).raise x)

/-- The CC and floating-mode part of LCF and LCFI (R213, R214): R bit 10 (value 2) loads CC from bits 0-3 of the byte,
R bit 11 (value 1) loads FS FZ FN from bits 5-7. -/
def State.loadControls (s : State) (r : RegNum) (b : Byte) : State :=
  { s with psd :=
      { s.psd with
        cc := if r[1] then b.extractLsb' 4 4 else s.psd.cc
        fs := if r[0] then b[2] else s.psd.fs
        fz := if r[0] then b[1] else s.psd.fz
        fn := if r[0] then b[0] else s.psd.fn } }

/-- LCF (R213). -/
def execLcf (r : RegNum) (a : AddrField) (s : State) : Out :=
  withByte s a fun b s => .next (s.loadControls r b)

/-- LCFI (R214): the byte is instruction bits 24-31. -/
def execLcfi (r : RegNum) (v : BitVec 20) (s : State) : Out :=
  .next (s.loadControls r (v.extractLsb' 0 8))

/-- STB (R215). -/
def execStb (r : RegNum) (a : AddrField) (s : State) : Out :=
  orTrap (s.effByte a) fun ea s =>
    orTrap (s.writeByte ea ((s.reg r).extractLsb' 0 8)) fun _ s => .next s

/-- STH (R216): CC2 says that the register, after the store, does not fit a signed halfword, if `STH_SETS_CC2`. -/
def execSth (r : RegNum) (a : AddrField) (s : State) : Out :=
  orTrap (s.effHalf a) fun ea s =>
    orTrap (s.writeHalf ea ((s.reg r).extractLsb' 0 16)) fun _ s =>
      .next (if s.config.sthSetsCC2 then
          s.setCC2 (s.reg r != ((s.reg r).extractLsb' 0 16).signExtend 32)
        else s)

/-- STW (R217). -/
def execStw (r : RegNum) (a : AddrField) (s : State) : Out :=
  orTrap (s.effWord a) fun ea s =>
    orTrap (s.writeWord ea (s.reg r)) fun _ s => .next s

/-- STD (R218): an odd R stores x[R] in both words. -/
def execStd (r : RegNum) (a : AddrField) (s : State) : Out :=
  orTrap (s.effDouble a) fun ea s =>
    orTrap (s.writeDouble ea (s.pair r)) fun _ s => .next s

/-- STS (R219): a read, then a separate write (20_memory.md R93). -/
def execSts (r : RegNum) (a : AddrField) (s : State) : Out :=
  orTrap (s.effWord a) fun ea s =>
    orTrap (s.readWord ea .read) fun old s =>
      orTrap (s.writeWord ea (select (s.reg (ru1 r)) (s.reg r) old)) fun _ s => .next s

/-- Store `n` registers r, r + 1, … (modulo 16) from `ea` on, in order (R220); `keep k` says whether word k, counted
from the given one, is stored. The values are those of `all`, in which every word is stored: word k is what it would be if
all before it were, for a store may go to a register. -/
def storeWords (keep : Nat → Bool) : Nat → Nat → RegNum → WordAddr → State → State → Res Unit
  | 0, _, _, _, _, s => .ok () s
  | n + 1, k, r, ea, all, s =>
    (s.access ea .write fun t p => .ok p (if keep k then t.storeWord p (all.reg r) else t)).andThen fun p t =>
      storeWords keep n (k + 1) (r + 1#4) (ea + 1#17) (all.storeWord p (all.reg r)) t

/-- STM (R220). Where it will trap, one free value is drawn first, and each word before the one that traps is stored or
left, as that value says (D28, notes/assumptions/16.md). -/
def execStm (r : RegNum) (a : AddrField) (s : State) : Out :=
  orTrap (s.effWord a) fun ea s =>
    let n := ccCount s.psd.cc
    if (s.faultWords .write n ea).isNone then orTrap (storeWords (fun _ => true) n 0 r ea s s) fun _ s => .next s
    else orTrap (storeWords (Config.partialKept s.freeCount) n 0 r ea s s.draw) fun _ s => .next s

/-- The byte STCF stores (R221): CC, 0, FS FZ FN. -/
def Psd.controlByte (p : Psd) : Byte :=
  p.cc ++ 0#1 ++ BitVec.ofBool p.fs ++ BitVec.ofBool p.fz ++ BitVec.ofBool p.fn

/-- STCF (R221): the R field is ignored. -/
def execStcf (_r : RegNum) (a : AddrField) (s : State) : Out :=
  orTrap (s.effByte a) fun ea s =>
    orTrap (s.writeByte ea s.psd.controlByte) fun _ s => .next s

/-- XW (R222): one atomic swap, checked as a write. -/
def execXw (r : RegNum) (a : AddrField) (s : State) : Out :=
  orTrap (s.effWord a) fun ea s =>
    orTrap (s.exchangeWord ea (s.reg r)) fun old s => .next (s.loadResult r old)

end Sys2Proof.Machine
end

