-- ==== Sys2Proof/Machine/FixedArith.lean ====
section
/-! DEFINITION. Fixed-point arithmetic, modify-and-test, compare and convert instructions
(spec 41_fixed_arith.md R250-R276). -/

namespace Sys2Proof.Machine

/-- A word sum to R with `ArithCC` and the overflow trap (R250). -/
def State.arithResult (s : State) (r : RegNum) (x : Sum 32) : State :=
  ((s.setReg r x.value).setCC (arithCC x)).overflowTrap x.ov

/-- A doubleword sum to the pair R (R250, R254). -/
def State.arithPair (s : State) (r : RegNum) (x : Sum 64) : State :=
  ((s.setPair r x.value).setCC (arithCC x)).overflowTrap x.ov

/-- AI (R251). -/
def execAi (r : RegNum) (v : BitVec 20) (s : State) : Out :=
  .next (s.arithResult r (addN (s.reg r) (immediate v)))

/-- AH (R252). -/
def execAh (r : RegNum) (a : AddrField) (s : State) : Out :=
  withHalf s a fun h s => .next (s.arithResult r (addN (s.reg r) (h.signExtend 32)))

/-- AW (R253). -/
def execAw (r : RegNum) (a : AddrField) (s : State) : Out :=
  withWord s a fun w s => .next (s.arithResult r (addN (s.reg r) w))

/-- AD (R254). -/
def execAd (r : RegNum) (a : AddrField) (s : State) : Out :=
  withDouble s a fun d s => .next (s.arithPair r (addN (s.pair r) d))

/-- SH (R255). -/
def execSh (r : RegNum) (a : AddrField) (s : State) : Out :=
  withHalf s a fun h s => .next (s.arithResult r (subN (s.reg r) (h.signExtend 32)))

/-- SW (R256). -/
def execSw (r : RegNum) (a : AddrField) (s : State) : Out :=
  withWord s a fun w s => .next (s.arithResult r (subN (s.reg r) w))

/-- SD (R257). -/
def execSd (r : RegNum) (a : AddrField) (s : State) : Out :=
  withDouble s a fun d s => .next (s.arithPair r (subN (s.pair r) d))

/-- AWM (R258): the atomic add to memory; x[R] is unchanged unless it is the cell. -/
def execAwm (r : RegNum) (a : AddrField) (s : State) : Out :=
  orTrap (s.effWord a) fun ea s =>
    orTrap (s.modifyWord ea (s.reg r)) fun x s =>
      .next ((s.setCC (arithCC x)).overflowTrap x.ov)

/-- MTB (R259): a zero delta only tests. -/
def execMtb (r : RegNum) (a : AddrField) (s : State) : Out :=
  orTrap (s.effByte a) fun ea s =>
    if r = 0#4 then
      orTrap (s.readByte ea .read) fun b s => .next (s.setCC (ccOf false false (ccNonzero b)))
    else
      orTrap (s.modifyByte ea ((deltaOf r).setWidth 8)) fun x s =>
        .next (s.setCC (ccOf x.carry false (ccNonzero x.value)))

/-- MTH (R260). -/
def execMth (r : RegNum) (a : AddrField) (s : State) : Out :=
  orTrap (s.effHalf a) fun ea s =>
    if r = 0#4 then
      orTrap (s.readHalf ea .read) fun h s => .next (s.setCC (ccOf false false (ccSign h)))
    else
      orTrap (s.modifyHalf ea ((deltaOf r).setWidth 16)) fun x s =>
        .next ((s.setCC (arithCC x)).overflowTrap x.ov)

/-- MTW (R261). -/
def execMtw (r : RegNum) (a : AddrField) (s : State) : Out :=
  orTrap (s.effWord a) fun ea s =>
    if r = 0#4 then
      orTrap (s.readWord ea .read) fun w s => .next (s.setCC (ccOf false false (ccSign w)))
    else
      orTrap (s.modifyWord ea (deltaOf r)) fun x s =>
        .next ((s.setCC (arithCC x)).overflowTrap x.ov)

/-- The exact product of two words as 64 bits. -/
def product (x y : Word) : Double := BitVec.ofInt 64 (x.toInt * y.toInt)

/-- R262: the product to the pair (even R) or its low word to R (odd R); CC2 says it does not fit 32 bits. -/
def State.multiplyResult (s : State) (r : RegNum) (p : Double) : State :=
  (if r[0] then s.setReg r (p.extractLsb' 0 32) else s.setPair r p).setCC234
    (p != (p.extractLsb' 0 32).signExtend 64) (ccSign p)

/-- MI (R262): the multiplicand is x[Ru1]. -/
def execMi (r : RegNum) (v : BitVec 20) (s : State) : Out :=
  .next (s.multiplyResult r (product (s.reg (ru1 r)) (immediate v)))

/-- MH (R263): the low halves' product to Ru1. -/
def execMh (r : RegNum) (a : AddrField) (s : State) : Out :=
  withHalf s a fun h s =>
    let p := (product (((s.reg r).extractLsb' 0 16).signExtend 32) (h.signExtend 32)).extractLsb' 0 32
    .next ((s.setReg (ru1 r) p).setCC34 (ccSign p))

/-- MW (R264). -/
def execMw (r : RegNum) (a : AddrField) (s : State) : Out :=
  withWord s a fun w s => .next (s.multiplyResult r (product (s.reg (ru1 r)) w))

/-- A division overflows: a zero divisor, or a quotient outside 32 bits (R265, R266). -/
def divideOverflows (n d : Int) : Bool :=
  d == 0 || decide (n.tdiv d < -2147483648) || decide (2147483647 < n.tdiv d)

/-- A division's overflow: CC2 and the trap, nothing else (R265, R266). -/
def State.divideOverflow (s : State) : State := (s.setCC2 true).overflowTrap true

/-- DH (R265). -/
def execDh (r : RegNum) (a : AddrField) (s : State) : Out :=
  withHalf s a fun h s =>
    let n := (s.reg r).toInt
    let d := h.toInt
    if divideOverflows n d then .next s.divideOverflow
    else
      let q : Word := BitVec.ofInt 32 (n.tdiv d)
      .next ((s.setReg r q).setCC234 false (ccSign q))

/-- DW (R266): a 64-bit dividend for even R, x[R] for odd R; the remainder has the dividend's sign. -/
def execDw (r : RegNum) (a : AddrField) (s : State) : Out :=
  withWord s a fun w s =>
    let n := if r[0] then (s.reg r).toInt else (s.pair r).toInt
    let d := w.toInt
    if divideOverflows n d then .next s.divideOverflow
    else
      let q : Word := BitVec.ofInt 32 (n.tdiv d)
      let m : Word := BitVec.ofInt 32 (n.tmod d)
      .next ((if r[0] then s.setReg r q else (s.setReg r m).setReg (ru1 r) q).setCC234 false (ccSign q))

/-- A comparison with the AND test in CC2 (R267-R270). -/
def State.compareResult (s : State) {n : Nat} (x y : BitVec n) (p : BitVec 2) : State :=
  s.setCC234 (x &&& y != 0) p

/-- CI (R267). -/
def execCi (r : RegNum) (v : BitVec 20) (s : State) : Out :=
  .next (s.compareResult (s.reg r) (immediate v) (ccScmp (s.reg r) (immediate v)))

/-- CB (R268): unsigned. -/
def execCb (r : RegNum) (a : AddrField) (s : State) : Out :=
  withByte s a fun b s =>
    .next (s.compareResult ((s.reg r).extractLsb' 0 8) b (ccUcmp ((s.reg r).extractLsb' 0 8) b))

/-- CH (R269). -/
def execCh (r : RegNum) (a : AddrField) (s : State) : Out :=
  withHalf s a fun h s =>
    .next (s.compareResult (s.reg r) (h.signExtend 32) (ccScmp (s.reg r) (h.signExtend 32)))

/-- CW (R270). -/
def execCw (r : RegNum) (a : AddrField) (s : State) : Out :=
  withWord s a fun w s => .next (s.compareResult (s.reg r) w (ccScmp (s.reg r) w))

/-- CD (R271). -/
def execCd (r : RegNum) (a : AddrField) (s : State) : Out :=
  withDouble s a fun d s => .next (s.setCC34 (ccScmp (s.pair r) d))

/-- CS (R272): under the mask x[Ru1], unsigned. -/
def execCs (r : RegNum) (a : AddrField) (s : State) : Out :=
  withWord s a fun w s =>
    .next (s.setCC34 (ccUcmp (s.reg r &&& s.reg (ru1 r)) (w &&& s.reg (ru1 r))))

/-- CLR (R273): Ru1 in CC1 CC2, R in CC3 CC4. -/
def execClr (r : RegNum) (a : AddrField) (s : State) : Out :=
  withWord s a fun w s => .next (s.setCC (ccScmp (s.reg (ru1 r)) w ++ ccScmp (s.reg r) w))

/-- CLM (R274): the second limit in CC1 CC2, the first in CC3 CC4. -/
def execClm (r : RegNum) (a : AddrField) (s : State) : Out :=
  withDouble s a fun d s =>
    .next (s.setCC (ccScmp (s.reg r) (d.extractLsb' 0 32) ++ ccScmp (s.reg r) (d.extractLsb' 32 32)))

/-- The table sum of CVA (R275) over the `n` low bits of `v` still to look at, the table word of the highest of them
being at `ea`; `c` is the OR of the carries so far. -/
def convertAdd (v : Word) : Nat → WordAddr → Word → Bool → State → Res (Word × Bool)
  | 0, _, sum, c, s => .ok (sum, c) s
  | n + 1, ea, sum, c, s =>
    if v.getLsbD n then
      (s.readWord ea .read).andThen fun w t => convertAdd v n (ea + 1#17) (sum + w) (c || (addN sum w).carry) t
    else convertAdd v n (ea + 1#17) sum c s

/-- CVA (R275). -/
def execCva (r : RegNum) (a : AddrField) (s : State) : Out :=
  orTrap (s.effWord a) fun ea s =>
    orTrap (convertAdd (s.reg (ru1 r)) 32 ea 0#32 false s) fun x s =>
      .next ((s.setReg r x.1).setCC134 x.2 (ccSign x.1))

/-- The successive subtractions of CVS (R276): `n` result bits still to find, the table word of the highest at `ea`. -/
def convertSub : Nat → WordAddr → Word → Word → State → Res (Word × Word)
  | 0, _, rem, res, s => .ok (rem, res) s
  | n + 1, ea, rem, res, s =>
    (s.readWord ea .read).andThen fun w t =>
      if w.toNat ≤ rem.toNat then convertSub n (ea + 1#17) (rem - w) (res ||| (1#32 <<< n)) t
      else convertSub n (ea + 1#17) rem res t

/-- CVS (R276): the remainder to Ru1, then the result to R. -/
def execCvs (r : RegNum) (a : AddrField) (s : State) : Out :=
  orTrap (s.effWord a) fun ea s =>
    orTrap (convertSub 32 ea (s.reg (ru1 r)) 0#32 s) fun x s =>
      .next (((s.setReg (ru1 r) x.1).setReg r x.2).setCC34 (ccSign x.2))

end Sys2Proof.Machine
end

