-- ==== Sys2Proof/Machine/FloatArith.lean ====
section
/-! DEFINITION. The hexadecimal floating arithmetic `FLOAT_ARITH` (spec 45_floating.md R390-R394), computed exactly.

A number of width N has d = (N - 8) / 4 fraction digits. Its value is held as an integer count of quanta, the quantum
being the least fraction unit at characteristic 0, 16^(-64-d): a fraction F at characteristic c is F * 16^c quanta. A
magnitude that need not be a whole count is held by its whole part, which is all that truncation and the characteristic
need. -/

namespace Sys2Proof.Machine

/-- Powers of 16, as shifts. -/
def pow16 (k : Nat) : Nat := 1 <<< (4 * k)

/-- The fraction digits of width n: 6 short, 14 long (R390). -/
def fracDigits (n : Nat) : Nat := (n - 8) / 4

/-- The word of the absolute value (R390). -/
def floatAbs {n : Nat} (v : BitVec n) : BitVec n := if v.msb then -v else v

/-- The characteristic: the 7 bits under the sign of the absolute value's word; free for the word with only the sign
bit set, whose absolute value has none (R391). -/
def characteristic {n : Nat} (v : BitVec n) : Nat :=
  if v = BitVec.intMin n then (Config.signOnlyCharacteristic n).toNat
  else ((floatAbs v).extractLsb' (n - 8) 7).toNat

/-- The fraction of the absolute value's word, as an integer. -/
def fraction {n : Nat} (v : BitVec n) : Nat := ((floatAbs v).extractLsb' 0 (n - 8)).toNat

/-- The value of the word with only the sign bit set: implementation-defined (R391, 93 entry 6). -/
def signOnlyValue (n : Nat) : Int := if n = 32 then Config.signOnlyShort else Config.signOnlyLong

/-- `value(v)` in quanta (R391). -/
def floatValue {n : Nat} (v : BitVec n) : Int :=
  if v = 0 then 0
  else if v = BitVec.intMin n then signOnlyValue n
  else
    let m := (fraction v * pow16 (characteristic v) : Nat)
    if v.msb then -(m : Int) else m

/-- The answers of `FLOAT_ARITH` (R394). -/
inductive FloatResult (n : Nat) where
  | ok (w : BitVec n)
  | sig (w : BitVec n)
  | overflow
  | underflow
  | divzero
deriving DecidableEq, Repr

/-- The hexadecimal digits of a positive integer. -/
def hexDigits (m : Nat) : Nat := Nat.log2 m / 4 + 1

/-- The encoding of a magnitude (R392). -/
inductive Encoded where
  /-- a characteristic and a truncated normalized fraction -/
  | number (c f : Nat)
  | overflow
  | underflow
deriving DecidableEq, Repr

/-- The number of characteristic c and fraction f with one added to its last digit. -/
def roundUp (d c f : Nat) : Encoded :=
  if f + 1 < pow16 d then .number c (f + 1) else if 127 < c + 1 then .overflow else .number (c + 1) (pow16 (d - 1))

/-- R392 for a nonzero magnitude whose whole part is `q` quanta, `rest` saying that it is more than that: normalized, the
fraction truncated to d digits, or with `up` rounded up if it is not exact. -/
def encodeMagnitude (d q : Nat) (rest up : Bool) : Encoded :=
  if q < pow16 (d - 1) then .underflow
  else
    let c := hexDigits q - d
    if 127 < c then .overflow
    else if up && (rest || decide (q % pow16 c ≠ 0)) then roundUp d c (q / pow16 c)
    else .number c (q / pow16 c)

/-- The word of sign, characteristic and fraction (R392): a negative number is the two's complement. -/
def floatWord (n : Nat) (neg : Bool) (c f : Nat) : BitVec n :=
  let m := BitVec.ofNat n (c * 2 ^ (n - 8) + f)
  if neg then -m else m

/-- An exact result other than zero: its sign, the whole part of its magnitude in quanta, and whether the magnitude is
more than that. -/
structure Exact where
  neg : Bool
  whole : Nat
  rest : Bool
deriving DecidableEq, Repr

/-- The quotient of two magnitudes as an `Exact`. -/
def exactQuotient (neg : Bool) (m k : Nat) : Exact := ⟨neg, m / k, decide (m % k ≠ 0)⟩

/-- The exact result; none where it is zero (R394). The divisor's value is not zero. -/
def exactResult (d : Nat) (op : FloatOp) (x y : Int) : Option Exact :=
  match op with
  | .add => if x + y = 0 then none else some ⟨decide (x + y < 0), (x + y).natAbs, false⟩
  | .sub => if x - y = 0 then none else some ⟨decide (x - y < 0), (x - y).natAbs, false⟩
  | .mul =>
    if x * y = 0 then none
    else some (exactQuotient (decide (x * y < 0)) (x.natAbs * y.natAbs) (pow16 (64 + d)))
  | .div =>
    if x = 0 then none
    else some (exactQuotient (decide (x < 0) != decide (y < 0)) (x.natAbs * pow16 (64 + d)) y.natAbs)

/-- Add and subtract (R393, R394). -/
def isSum : FloatOp → Bool
  | .add => true
  | .sub => true
  | _ => false

/-- The word an add or subtract returns with FN = 1 (R394): the reference instance proposes none and returns the normalized
word `w`; another may return any word whose value is the exact result truncated to the precision of the operand with the
larger characteristic, but not the word with only the sign bit set, which no operation produces (R391). A proposed word
that is none of them gives `w`. -/
def unnormalizedWord {n : Nat} (proposed : Option (BitVec n)) (w : BitVec n) (neg : Bool) (q cmax : Nat) : BitVec n :=
  let t := (q / pow16 cmax * pow16 cmax : Nat)
  match proposed with
  | none => w
  | some p => if p ≠ BitVec.intMin n ∧ floatValue p = (if neg then -(t : Int) else t) then p else w

/-- `FLOAT_ARITH(op, N, a, b, FS, FZ, FN)` (R394): the reference instance with `up` false and no word proposed for FN = 1;
another instance may round an inexact magnitude up and propose a word (notes/assumptions/12.md, 13.md). -/
def floatArith {n : Nat} (op : FloatOp) (a b : BitVec n) (fs fz fn up : Bool) (proposed : Option (BitVec n)) :
    FloatResult n :=
  let d := fracDigits n
  if op = .div ∧ floatValue b = 0 then .divzero
  else
    match exactResult d op (floatValue a) (floatValue b) with
    | none => .ok 0
    | some x =>
      match encodeMagnitude d x.whole x.rest up with
      | .overflow => .overflow
      | .underflow => if fz then .underflow else .ok 0
      | .number c f =>
        let cmax := max (characteristic a) (characteristic b)
        let w := floatWord n x.neg c f
        let r := if isSum op && fn then unnormalizedWord proposed w x.neg x.whole cmax else w
        if isSum op && fs && decide (characteristic r + 2 < cmax) then .sig r else .ok r

/-- What SF does to an operand (R404). -/
inductive ShiftedFloat (n : Nat) where
  | word (w : BitVec n)
  /-- the characteristic left 0..127: the operand is unchanged -/
  | outOfRange
deriving DecidableEq, Repr

/-- The left shift of R404: up to k digits while the first fraction digit is 0. -/
def shiftFractionLeft (n : Nat) : Nat → Int → Nat → Int × Nat
  | 0, c, f => (c, f)
  | k + 1, c, f =>
    if f < pow16 (fracDigits n - 1) then shiftFractionLeft n k (c - 1) (f * 16) else (c, f)

/-- R404: the operand's absolute value shifted by `count` digits, the sign restored. A right shift that empties the
fraction gives the true zero. Two points the rule leaves open (DEDUCED: notes/assumptions/38.md): one that also takes the
characteristic above 127 leaves the operand unchanged, since the pseudocode tests the range before it writes; and a right
shift of a word that is not 0 but has no fraction digit left to lose (X'45000000') also gives the true zero, not the higher
characteristic of the pseudocode. -/
def shiftFloat {n : Nat} (count : Int) (v : BitVec n) : ShiftedFloat n :=
  if v = 0 then .word 0
  else
    let cf : Int × Nat :=
      if 0 < count then shiftFractionLeft n count.natAbs (characteristic v) (fraction v)
      else (characteristic v + count.natAbs, fraction v / pow16 count.natAbs)
    if cf.1 < 0 ∨ 127 < cf.1 then .outOfRange
    else if count < 0 ∧ cf.2 = 0 then .word 0
    else .word (floatWord n v.msb cf.1.toNat cf.2)

end Sys2Proof.Machine
end

