-- ==== Sys2Proof/Machine/Floating.lean ====
section
/-! DEFINITION. Floating-point instructions (spec 45_floating.md R395-R404). -/

namespace Sys2Proof.Machine

/-- A floating fault (R395): CC1 CC2 take free values, CC3 CC4 stay, and the trap is X'44'. -/
def State.floatFault (s : State) : State :=
  let bits := Config.floatFaultCC s.freeCount
  (s.draw.setCC12 bits[1] bits[0]).raise trapFloating

/-- A result written: CC = (0, 0, ccsign) (R395). -/
def State.floatDone {n : Nat} (s : State) (w : BitVec n) : State :=
  s.setCC (ccOf false false (ccSign w))

/-- R395 for a short destination. -/
def State.applyShort (s : State) (r : RegNum) : FloatResult 32 → State
  | .ok w => (s.setReg r w).floatDone w
  | .sig w => ((s.setReg r w).floatDone w).raise trapFloating
  | .overflow => s.floatFault
  | .underflow => s.floatFault
  | .divzero => s.floatFault

/-- R395 for a long destination. -/
def State.applyLong (s : State) (r : RegNum) : FloatResult 64 → State
  | .ok w => (s.setPair r w).floatDone w
  | .sig w => ((s.setPair r w).floatDone w).raise trapFloating
  | .overflow => s.floatFault
  | .underflow => s.floatFault
  | .divzero => s.floatFault

/-- `FLOAT_ARITH` as the configuration has it, in the float modes of the PSD (R393, R394): the reference instance, or the
one its number names. -/
def State.floatArithOf (s : State) (op : FloatOp) {n : Nat} (x y : BitVec n) : FloatResult n :=
  let p := s.psd
  let k := s.config.floatInstance
  if k = 0 then floatArith op x y p.fs p.fz p.fn false none
  else floatArith op x y p.fs p.fz p.fn (Config.floatRoundsUp k op n x y p.fs p.fz p.fn)
    (some (Config.floatUnnormalized k op n x y p.fs p.fz))

/-- A short operation of x[R] and EW (R396-R399). -/
def floatShort (op : FloatOp) (r : RegNum) (a : AddrField) (s : State) : Out :=
  needsFloat s (withWord s a fun w s => .next (s.applyShort r (s.floatArithOf op (s.reg r) w)))

/-- A long operation of the pair and ED (R400-R403). -/
def floatLong (op : FloatOp) (r : RegNum) (a : AddrField) (s : State) : Out :=
  needsFloat s (withDouble s a fun d s => .next (s.applyLong r (s.floatArithOf op (s.pair r) d)))

/-- FAS (R396). -/
def execFas (r : RegNum) (a : AddrField) (s : State) : Out := floatShort .add r a s
/-- FSS (R397). -/
def execFss (r : RegNum) (a : AddrField) (s : State) : Out := floatShort .sub r a s
/-- FMS (R398). -/
def execFms (r : RegNum) (a : AddrField) (s : State) : Out := floatShort .mul r a s
/-- FDS (R399). -/
def execFds (r : RegNum) (a : AddrField) (s : State) : Out := floatShort .div r a s
/-- FAL (R400). -/
def execFal (r : RegNum) (a : AddrField) (s : State) : Out := floatLong .add r a s
/-- FSL (R401). -/
def execFsl (r : RegNum) (a : AddrField) (s : State) : Out := floatLong .sub r a s
/-- FML (R402). -/
def execFml (r : RegNum) (a : AddrField) (s : State) : Out := floatLong .mul r a s
/-- FDL (R403). -/
def execFdl (r : RegNum) (a : AddrField) (s : State) : Out := floatLong .div r a s

/-- SF out of range (R404): CC1 CC2 take free values, nothing else changes and nothing traps. -/
def State.shiftOutOfRange (s : State) : State :=
  let bits := Config.floatFaultCC s.freeCount
  s.draw.setCC12 bits[1] bits[0]

/-- R404 on a word of width n: for the word with only the sign bit set the outcome is the free one given, but by the
count 0, which shifts nothing, the word stays. -/
def shiftFloatOr {n : Nat} (count : Int) (v : BitVec n) (signOnly : Option (BitVec n)) : ShiftedFloat n :=
  if v = BitVec.intMin n then
    match signOnly with
    | some w => .word (if count = 0 then v else w)
    | none => .outOfRange
  else shiftFloat count v

/-- SF (R404): short on x[R], or with EWA[8] long on the pair. -/
def execSf (r : RegNum) (a : AddrField) (s : State) : Out :=
  needsFloat s (orTrap (s.effWord a) fun ea s =>
    if ea[8] then
      match shiftFloatOr (shiftCount ea) (s.pair r) (Config.signOnlyShiftLong (shiftCount ea)) with
      | .word w => .next ((s.setPair r w).floatDone w)
      | .outOfRange => .next s.shiftOutOfRange
    else
      match shiftFloatOr (shiftCount ea) (s.reg r) (Config.signOnlyShiftShort (shiftCount ea)) with
      | .word w => .next ((s.setReg r w).floatDone w)
      | .outOfRange => .next s.shiftOutOfRange)

end Sys2Proof.Machine
end

