-- ==== Sys2Proof/Machine/Interrupts.lean ====
section
/-! DEFINITION. Taking interrupts and controlling the levels (spec 60_exceptions.md R622-R629, 47_control.md R472). The
controller's queue and the clock agent are in Agents.lean. -/

namespace Sys2Proof.Machine

/-- `inhibited(L)` on the live PSD (R622). -/
def State.inhibited (s : State) (L : Fin Sizes.standard.nLevels) : Bool :=
  match s.config.levelClass[L] with
  | .counter => s.psd.ci
  | .ioPanel => s.psd.ii
  | .external => s.psd.ei
  | .none => false

/-- An entry the scan may take: its level is enabled and not inhibited (R624). -/
def State.takeable (s : State) (e : IntEntry) : Bool :=
  s.ic.enabled[e.level] && !s.inhibited e.level

/-- `newActive()` (R624): the level that becomes active, and the controller with its entry taken out. -/
def State.newActive (s : State) : Option (Fin Sizes.standard.nLevels × IntCtl) :=
  match s.ic.queue.find? s.takeable with
  | none => none
  | some e =>
    if (s.ic.highestActive.map fun h => decide (h ≤ e.level)).getD false then none
    else some (e.level,
      { s.ic with
        queue := s.ic.queue.eraseP s.takeable
        active := s.ic.active.set e.level true
        fireCount := s.ic.fireCount.set e.level (s.ic.fireCount[e.level] + 1) })

/-- R601 step 2: the poll happens with no suppression and unless all three classes are inhibited. -/
def State.poll (s : State) : Option (Fin Sizes.standard.nLevels × IntCtl) :=
  if s.intSuppress = 0 && !(s.psd.ci && s.psd.ii && s.psd.ei) then s.newActive else none

/-- The real byte address of an MTx cell, computed without translation (R629), and the state after its accesses:
indirection reads a real word, and the index counts units of the width; none where the indirect word does not exist. -/
def State.realCell (s : State) (f : Fields) (width : Width) : Option Nat × State :=
  let address (ref : WordAddr) : Nat :=
    match width with
    | .byte => ((ref ++ 0#2) + (s.index f.x).setWidth 19).toNat
    | .half => 2 * ((ref ++ 0#1) + (s.index f.x).setWidth 18).toNat
    | _ => 4 * (ref + (s.index f.x).setWidth 17).toNat
  if f.ind then ((s.others.realWord f.ref.toNat).map fun w => address (w.extractLsb' 0 17), s.others)
  else (some (address f.ref), s)

/-- Whether the cell of a width at real byte address ra holds zero. -/
def State.realCellZero (s : State) (width : Width) (ra : Nat) : Bool :=
  match width with
  | .byte => s.mem.read ra == 0#8
  | .half => s.mem.readHalf ra == 0#16
  | .word => s.mem.readWord ra == 0#32
  | .double => s.mem.readDouble ra == 0#64

/-- The end of a single-instruction interrupt (R629): the level is cleared and stays armed, and a zero result posts the
counter-zero level. -/
def State.countDone (s : State) (L : Fin Sizes.standard.nLevels) (zero : Bool) : State :=
  let t := s.setIc (s.ic.deactivate L)
  if zero then t.post (zeroLevel L) 0 .cpu none none else t

/-- A single-instruction interrupt (R629): the MTx at the vector runs once on real memory, changing neither PSD nor
pc. A fault is fatal. -/
def State.singleInstruction (s : State) (L : Fin Sizes.standard.nLevels) (w : Word) (width : Width) : State :=
  match s.realCell (decodeFields w) width with
  | (none, t) => t.raiseFatal .singleInstruction
  | (some ra, t) =>
    if t.memBytes ≤ ra then t.raiseFatal .singleInstruction
    else if (decodeFields w).r = 0#4 then t.others.countDone L (t.others.realCellZero width ra)
    else if !t.writeAllowed (ra / t.pageBytes) then t.raiseFatal .singleInstruction
    else
      let (u, zero) := t.others.realModify width ra ((decodeFields w).r.signExtend 64)
      u.countDone L zero

/-- `interruptEntry(L)` (R628): XPSD at the vector X'50' + L exchanges with the next instruction's address and no
trap CC; an MTx at a count-pulse level runs as a single instruction. -/
def State.interruptEntry (s : State) (L : Fin Sizes.standard.nLevels) : State :=
  let t := s.others
  match t.realWord (0x50 + L.val) with
  | none => t.raiseFatal .malformedInterruptVector
  | some w =>
    if (decodeFields w).op = 0x0F#7 then t.exchange w 0#4 t.psd.ia
    else
      match mtxWidth (decodeFields w).op with
      | some width =>
        if isCountPulse L then t.singleInstruction L w width else t.raiseFatal .malformedInterruptVector
      | none => t.raiseFatal .malformedInterruptVector

/-- R601 step 2: the polled level's controller is installed and the interrupt entered; the entry ends a WAIT unless
it is fatal. -/
def State.takeInterrupt (s : State) (L : Fin Sizes.standard.nLevels) (ic : IntCtl) : State :=
  let e := (s.setIc ic).interruptEntry L
  if e.fatal.isSome then e else { e with waiting := false }

/-- The level a bit of WD's selection mask names: manual bit 16 + k of the register selects level 16 g + k (R472). -/
def wdSelects (v : Word) (g : BitVec 4) (L : Fin Sizes.standard.nLevels) : Bool :=
  decide (L.val / 16 = g.toNat) && v.getLsbD (15 - L.val % 16)

/-- One level under a WD interrupt-control function (R472): `sel` says the mask selects it. -/
def State.wdLevel (s : State) (fn : BitVec 3) (sel : Bool) (L : Fin Sizes.standard.nLevels) : State :=
  if sel then
    match fn.toNat with
    | 1 => s.setIc (s.ic.disarm L)
    | 2 => s.setIc ((s.ic.arm L).enable L)
    | 3 => s.setIc ((s.ic.arm L).disable L)
    | 4 => s.setIc (s.ic.enable L)
    | 5 => s.setIc (s.ic.disable L)
    | 6 => s.setIc (s.ic.enable L)
    | 7 => s.post L 0 .cpu none none
    | _ => s
  else if fn = 6#3 then s.setIc (s.ic.disable L)
  else s

/-- The levels of a WD group among the `NLEVELS`, in order; groups 2 and up name none (R472). -/
def wdGroup (z : Sizes) (g : BitVec 4) : List (Fin Sizes.standard.nLevels) :=
  (List.finRange Sizes.standard.nLevels).filter fun L => decide (L.val < z.nLevels ∧ L.val / 16 = g.toNat)

/-- WD interrupt control (R472): function da[10:8], group da[3:0], mask v[15:0]. -/
def State.interruptControl (s : State) (da : BitVec 16) (v : Word) : State :=
  (wdGroup s.config.sizes (da.extractLsb' 0 4)).foldl
    (fun t L => t.wdLevel (da.extractLsb' 8 3) (wdSelects v (da.extractLsb' 0 4) L) L) s

end Sys2Proof.Machine
end

