-- ==== Sys2Proof/Machine/Control.lean ====
section
/-! DEFINITION. Control instructions: CAL, the PSD, the register pointer, memory control, WAIT, direct I/O, INT and ANLZ
(spec 47_control.md R460-R474). EXU is in Execute.lean. -/

namespace Sys2Proof.Machine

/-! ## Calls and the PSD -/

/-- CAL1 (R460): the trap CC is the R field. -/
def execCal1 (r : RegNum) (_a : AddrField) (s : State) : Out := .next (s.raise (trapCal 1 r))
/-- CAL2 (R460). -/
def execCal2 (r : RegNum) (_a : AddrField) (s : State) : Out := .next (s.raise (trapCal 2 r))
/-- CAL3 (R460). -/
def execCal3 (r : RegNum) (_a : AddrField) (s : State) : Out := .next (s.raise (trapCal 3 r))
/-- CAL4 (R460). -/
def execCal4 (r : RegNum) (_a : AddrField) (s : State) : Out := .next (s.raise (trapCal 4 r))

/-- LPSD (R461): R bit 10 (value 2) clears the highest active level, R bit 11 (value 1) leaves it armed, R bit 8
(value 8) loads RP. -/
def execLpsd (r : RegNum) (a : AddrField) (s : State) : Out :=
  privileged s (withDouble s a fun d s =>
    .next ((if r[1] then s.setIc (s.ic.clearHighestActive r[0]) else s).loadPsd (Psd.decode d) r[3]))

/-- XPSD as an instruction (R462): the store and the load are both checked before either has an effect, and the trap
CC is 0. -/
def execXpsd (r : RegNum) (a : AddrField) (s : State) : Out :=
  privileged s (orTrap (s.effDouble a) fun ea s =>
    orRaise s ((s.faultAt (ea ++ 0#1) .write).or (s.faultAt ((ea + 1#16) ++ 0#1) .read))
      (orTrap (s.writeDouble ea (Psd.encode s.psd)) fun _ s =>
        orTrap (s.readDouble (ea + 1#16) .read) fun n s =>
          .next (s.installExchange (Psd.decode n) r 0#4)))

/-- LRP (R463): RP from EW[7:4]; the R field is not examined. -/
def execLrp (_r : RegNum) (a : AddrField) (s : State) : Out :=
  privileged s (withWord s a fun w s =>
    .next { s with psd := { s.psd with rp := blockOf s.config.sizes (w.extractLsb' 4 4) } })

/-! ## Memory control -/

/-- Read `n` image words from word address `a` up (R464). -/
def readImage : Nat → WordAddr → State → Res (List Word)
  | 0, _, s => .ok [] s
  | n + 1, a, s =>
    (s.readWord a .read).andThen fun w t => (readImage n (a + 1#17) t).andThen fun ws u => .ok (w :: ws) u

/-- Set the entry of page p. -/
def setPage {w : Nat} (t : PageTable w) (p : Byte) (v : BitVec w) : PageTable w :=
  t.set p.toNat v p.isLt

/-- Entries for consecutive pages from p on, modulo `VPAGES` (R464). -/
def setPages {w : Nat} (z : Sizes) (t : PageTable w) (p : Byte) : List (BitVec w) → PageTable w
  | [] => t
  | v :: vs => setPages z (setPage t p v) (BitVec.ofNat 8 ((p.toNat + 1) % z.vPages)) vs

/-- The map entries of an image word, `MAP_ENTRY_BITS` each, first page in the high bits (R106, R465). -/
def imageMap (z : Sizes) (w : Word) : List (BitVec 13) :=
  (List.range (z.wordBits / z.mapEntryBits)).map fun j =>
    (w.extractLsb' (z.wordBits - z.mapEntryBits * (j + 1)) z.mapEntryBits).setWidth 13

/-- The two wide map entries of an image word, each at the low end of a halfword (R106, R469). -/
def imageMapWide (z : Sizes) (w : Word) : List (BitVec 13) :=
  [(w.extractLsb' (z.wordBits / 2) z.mapWideBits).setWidth 13, (w.extractLsb' 0 z.mapWideBits).setWidth 13]

/-- The 2-bit codes of an image word, first page in the high bits (R90, R466, R467). -/
def imageCodes (z : Sizes) (w : Word) : List (BitVec 2) :=
  (List.range (z.wordBits / 2)).map fun j => w.extractLsb' (z.wordBits - 2 * (j + 1)) 2

/-- The pages one image word of a function covers (R464). -/
def mmcPages (z : Sizes) (f : BitVec 3) : Nat :=
  if f = 4#3 then z.wordBits / z.mapEntryBits else if f = 5#3 then 2 else z.wordBits / 2

/-- Apply the image to the table of the function from page p on (R465-R467, R469). -/
def State.applyImage (s : State) (f : BitVec 3) (p : Byte) (img : List Word) : State :=
  if f = 1#3 then { s with acc := setPages s.config.sizes s.acc p (img.flatMap (imageCodes s.config.sizes)) }
  else if f = 2#3 then { s with locks := setPages s.config.sizes s.locks p (img.flatMap (imageCodes s.config.sizes)) }
  else if f = 4#3 then { s with map := setPages s.config.sizes s.map p (img.flatMap (imageMap s.config.sizes)) }
  else { s with map := setPages s.config.sizes s.map p (img.flatMap (imageMapWide s.config.sizes)) }

/-- The count of image words: x[Ru1][31:24], 0 meaning 256 (R464). -/
def State.mmcCount (s : State) (r : RegNum) : Nat :=
  let c := (s.reg (ru1 r)).extractLsb' 24 8
  if c = 0#8 then 256 else c.toNat

/-- The start page x[Ru1][16:9] (R464). -/
def State.mmcPage (s : State) (r : RegNum) : Byte := (s.reg (ru1 r)).extractLsb' 9 8

/-- The register updates of R464, in order: the image address, then the count and the page. -/
def State.mmcAdvance (s : State) (r : RegNum) (ia : WordAddr) (page : Byte) : State :=
  let t := s.setReg r ((s.reg r).extractLsb' 17 15 ++ ia)
  t.setReg (ru1 r) (0#8 ++ (t.reg (ru1 r)).extractLsb' 17 7 ++ page ++ (t.reg (ru1 r)).extractLsb' 0 9)

/-- MMC (R464): an unassigned function is nonexistent before the privilege check (R143); all image words are read
before any entry is written. -/
def execMmc (r : RegNum) (f : BitVec 3) (_z : BitVec 17) (s : State) : Out :=
  if mmcFunctionAssigned f then
    privileged s
      (let n := s.mmcCount r
       let ia : WordAddr := (s.reg r).extractLsb' 0 17
       orTrap (readImage n ia s) fun img s =>
         .next ((s.applyImage f (s.mmcPage r) img).mmcAdvance r (ia + BitVec.ofNat 17 n)
           (BitVec.ofNat 8 (((s.mmcPage r).toNat + n * mmcPages s.config.sizes f) % s.config.sizes.vPages))))
  else .next (s.raise trapNonexistent)

/-- WAIT (R468): the CPU waits; no effective address is computed. -/
def execWait (_r : RegNum) (_a : AddrField) (s : State) : Out :=
  privileged s (.next { s with waiting := true })

/-! ## Direct input/output -/

/-- Record a request made of the host and draw the next free value (60_exceptions.md R665). -/
def State.callHost (s : State) (c : HostCall) : State :=
  { s with hostCalls := c :: s.hostCalls, freeCount := s.freeCount + 1 }

/-- RD (R470): the value and CC are the host's; R = 0 discards the value. -/
def execRd (r : RegNum) (a : AddrField) (s : State) : Out :=
  privileged s (orTrap (s.effWord a) fun ea s =>
    let da := ea.extractLsb' 0 16
    let ans := Config.readDirect s.freeCount da
    let t := s.callHost (.readDirect da)
    .next ((if r = 0#4 then t else t.setReg r ans.1).setCC ans.2))

/-- WD (R471, R472): direct addresses X'1000'-X'1FFF' control the interrupt levels, the others go to the host. -/
def execWd (r : RegNum) (a : AddrField) (s : State) : Out :=
  privileged s (orTrap (s.effWord a) fun ea s =>
    let da := ea.extractLsb' 0 16
    let v := if r = 0#4 then 0#32 else s.reg r
    if da.extractLsb' 12 4 = 1#4 then .next (s.interruptControl da v)
    else .next ((s.callHost (.writeDirect da v)).setCC (Config.writeDirect s.freeCount da v)))

/-! ## INT and ANLZ -/

/-- INT (R473). -/
def execInt (r : RegNum) (a : AddrField) (s : State) : Out :=
  withWord s a fun w s =>
    .next (((s.setReg r ((w.extractLsb' 16 12).setWidth 32)).setReg (ru1 r)
      ((w.extractLsb' 0 16).setWidth 32)).setCC (w.extractLsb' 28 4))

/-- The classes of ANLZ (R474). -/
inductive AnalyzeClass where
  | byte
  /-- immediate, byte-string and control-function formats -/
  | noAddress
  | half
  | word
  | double
deriving DecidableEq, Repr

/-- The class of an opcode by the format column of R151: decimal opcodes are byte class, shift, I/O, direct and
unassigned opcodes word class. -/
def analyzeClass (op : BitVec 7) : AnalyzeClass :=
  match op.toNat with
  | 0x02 | 0x20 | 0x21 | 0x22 | 0x23 => .noAddress
  | 0x04 | 0x05 | 0x06 | 0x07 | 0x2E | 0x6F => .noAddress
  | 0x40 | 0x41 | 0x60 | 0x61 | 0x63 => .noAddress
  | 0x08 | 0x09 | 0x0A | 0x0B | 0x0E | 0x0F => .double
  | 0x10 | 0x11 | 0x12 | 0x13 | 0x15 | 0x18 | 0x19 | 0x1A | 0x1B | 0x1C | 0x1D | 0x1E | 0x1F => .double
  | 0x50 | 0x51 | 0x52 | 0x53 | 0x55 | 0x56 | 0x57 | 0x58 | 0x5A | 0x5B => .half
  | 0x70 | 0x71 | 0x72 | 0x73 | 0x74 | 0x75 | 0x76 | 0x77 => .byte
  | 0x78 | 0x79 | 0x7A | 0x7B | 0x7C | 0x7D | 0x7E | 0x7F => .byte
  | _ => .word

/-- CC1 CC2 CC3 of a class (R474). -/
def AnalyzeClass.code : AnalyzeClass → BitVec 3
  | .byte => 0b000#3
  | .noAddress => 0b001#3
  | .half => 0b010#3
  | .word => 0b100#3
  | .double => 0b110#3

/-- The effective address of the analyzed word in the unit of its class, none if it has none (R474). -/
def State.analyzedAddress (s : State) (c : AnalyzeClass) (a : AddrField) : Res (Option Word) :=
  match c with
  | .byte => (s.effByte a).andThen fun ea t => .ok (some (ea.setWidth 32)) t
  | .noAddress => .ok none s
  | .half => (s.effHalf a).andThen fun ea t => .ok (some (ea.setWidth 32)) t
  | .word => (s.effWord a).andThen fun ea t => .ok (some (ea.setWidth 32)) t
  | .double => (s.effDouble a).andThen fun ea t => .ok (some (ea.setWidth 32)) t

/-- ANLZ (R474): the subject word is not executed. -/
def execAnlz (r : RegNum) (a : AddrField) (s : State) : Out :=
  withWord s a fun w s =>
    let f := decodeFields w
    let c := analyzeClass f.op
    orTrap (s.analyzedAddress c ⟨f.ind, f.x, f.ref⟩) fun addr s =>
      let t := s.setCC (c.code ++ BitVec.ofBool f.ind)
      match addr with
      | none => .next t
      | some v => .next (t.setReg r v)

end Sys2Proof.Machine
end

