-- ==== Sys2Proof/Machine/InputOutput.lean ====
section
/-! DEFINITION. Input/output instructions (spec 48_io.md R500-R505). Each asks the I/O bridge once; what it answers is a
free value. -/

namespace Sys2Proof.Machine

/-- The register and CC results of R500; with R odd x[R] ends holding the count. -/
def State.ioResult (s : State) (r : RegNum) (ans : BitVec 4 × Word × Word) : State :=
  (if r = 0#4 then s else (s.setReg r ans.2.1).setReg (ru1 r) ans.2.2).setCC ans.1

/-- One call of the bridge (R500): the unit is EWA, the command pointer x[0]. -/
def callBridge (op : IoOp) (r : RegNum) (a : AddrField) (s : State) : Out :=
  privileged s (orTrap (s.effWord a) fun unit s =>
    .next ((s.callHost (.bridge op unit (s.reg 0#4))).ioResult r
      (Config.bridge s.freeCount op unit (s.reg 0#4))))

/-- SIO (R501). -/
def execSio (r : RegNum) (a : AddrField) (s : State) : Out := callBridge .sio r a s
/-- TIO (R502). -/
def execTio (r : RegNum) (a : AddrField) (s : State) : Out := callBridge .tio r a s
/-- TDV (R503). -/
def execTdv (r : RegNum) (a : AddrField) (s : State) : Out := callBridge .tdv r a s
/-- HIO (R504). -/
def execHio (r : RegNum) (a : AddrField) (s : State) : Out := callBridge .hio r a s
/-- AIO (R505): the interrupt controller is not changed. -/
def execAio (r : RegNum) (a : AddrField) (s : State) : Out := callBridge .aio r a s

end Sys2Proof.Machine
end

