-- ==== Sys2Proof/Machine/LogicalShift.lean ====
section
/-! DEFINITION. Logical and shift instructions (spec 42_logical_shift.md R300-R304). -/

namespace Sys2Proof.Machine

/-- AND (R300). -/
def execAnd (r : RegNum) (a : AddrField) (s : State) : Out :=
  withWord s a fun w s => .next (s.loadResult r (s.reg r &&& w))

/-- OR (R301). -/
def execOr (r : RegNum) (a : AddrField) (s : State) : Out :=
  withWord s a fun w s => .next (s.loadResult r (s.reg r ||| w))

/-- EOR (R302). -/
def execEor (r : RegNum) (a : AddrField) (s : State) : Out :=
  withWord s a fun w s => .next (s.loadResult r (s.reg r ^^^ w))

/-- The shifted operand of R303: `kind` 0 logical, 1 circular, 2 arithmetic; a positive count shifts left. -/
def shifted {n : Nat} (kind : Nat) (count : Int) (v : BitVec n) : BitVec n :=
  let k := count.natAbs
  if 0 ≤ count then (if kind = 1 then v.rotateLeft (k % n) else v <<< k)
  else
    match kind with
    | 0 => v >>> k
    | 1 => v.rotateRight (k % n)
    | _ => v.sshiftRight k

/-- R303 `ov`: an arithmetic left shift by k > 0 whose k + 1 most significant bits are not all equal; for k >= N, a
nonzero operand. The bits are all equal exactly when the arithmetic shift right by N - 1 - k is 0 or all ones. -/
def shiftOverflow {n : Nat} (count : Int) (v : BitVec n) : Bool :=
  let k := count.natAbs
  if count ≤ 0 then false
  else if n ≤ k then v != 0
  else
    let top := v.sshiftRight (n - 1 - k)
    top != 0 && top != BitVec.allOnes n

/-- S (R303). CC1 is a free value; CC3 CC4 are unchanged; types 6 and 7 are nonexistent. -/
def execS (r : RegNum) (a : AddrField) (s : State) : Out :=
  orTrap (s.effWord a) fun ea s =>
    let count := shiftCount ea
    let kind := shiftType ea / 2
    if shiftType ea = 6 ∨ shiftType ea = 7 then .next (s.raise trapNonexistent)
    else
      if shiftType ea % 2 = 0 then
        .next ((s.draw.setReg r (shifted kind count (s.reg r))).setCC12 (Config.shiftCC1 s.freeCount)
          (kind == 2 && shiftOverflow count (s.reg r)))
      else
        .next ((s.draw.setPair r (shifted kind count (s.pair r))).setCC12 (Config.shiftCC1 s.freeCount)
          (kind == 2 && shiftOverflow count (s.pair r)))

end Sys2Proof.Machine
end

