-- ==== Sys2Proof/Machine/Stack.lean ====
section
/-! DEFINITION. Push-down stack instructions (spec 44_stack.md R370-R376). -/

namespace Sys2Proof.Machine

/-- The stack pointer doubleword (R370): `pre` is the 15 bits ignored on read and preserved on write. -/
structure StackPointer where
  pre : BitVec 15
  tsa : WordAddr
  ts : Bool
  space : BitVec 15
  tw : Bool
  words : BitVec 15
deriving DecidableEq, Repr

/-- Reading the fields of R370. -/
def spdDecode (d : Double) : StackPointer where
  pre := d.extractLsb' 49 15
  tsa := d.extractLsb' 32 17
  ts := d[31]
  space := d.extractLsb' 16 15
  tw := d[15]
  words := d.extractLsb' 0 15

/-- Writing them back. -/
def spdEncode (p : StackPointer) : Double :=
  p.pre ++ p.tsa ++ BitVec.ofBool p.ts ++ p.space ++ BitVec.ofBool p.tw ++ p.words

/-- R371 `spaceFail` for a change of n words (positive: push). -/
def spaceFail (p : StackPointer) (n : Int) : Bool :=
  decide ((0 < n ∧ (p.space.toNat : Int) < n) ∨ (n < 0 ∧ 32767 < (p.space.toNat : Int) + n.natAbs))

/-- R371 `wordFail`. -/
def wordFail (p : StackPointer) (n : Int) : Bool :=
  decide ((n < 0 ∧ (p.words.toNat : Int) < n.natAbs) ∨ (0 < n ∧ 32767 < (p.words.toNat : Int) + n))

/-- The limit check (R371) and what follows it, `fault` being the first fault of the accesses the instruction is to make. The
space limit is checked first. A limit whose inhibit bit is set ends the instruction: CC1 or CC2 is set and no access is made
(R371, D30). Otherwise the accesses are all checked before anything changes, and a fault of one of them comes before the
trap of the limit (60_exceptions.md R604, R605, D45). -/
def stackLimit (s : State) (p : StackPointer) (n : Int) (fault : Option Trap) (k : Out) : Out :=
  if spaceFail p n then
    if p.ts then .next (s.setCC1 true) else orRaise s fault (.next (s.raise trapStackSpace))
  else if wordFail p n then
    if p.tw then .next (s.setCC2 true) else orRaise s fault (.next (s.raise trapStackWords))
  else orRaise s fault k

/-- The stack pointer after n words are pushed (n > 0) or pulled (n < 0). -/
def spdMove (p : StackPointer) (n : Int) : StackPointer :=
  { p with
    tsa := p.tsa + BitVec.ofInt 17 n
    space := p.space - BitVec.ofInt 15 n
    words := p.words + BitVec.ofInt 15 n }

/-- The CC of success (R371): (0, 0, SPACE' = 0, WORDS' = 0). -/
def spdCC (p : StackPointer) : BitVec 4 :=
  0#2 ++ BitVec.ofBool (p.space == 0#15) ++ BitVec.ofBool (p.words == 0#15)

/-- Push the `n` registers r, r + 1, … at `top` + 1 and up, in order (R374). -/
def pushWords : Nat → RegNum → WordAddr → State → Res Unit
  | 0, _, _, s => .ok () s
  | n + 1, r, top, s =>
    (s.writeWord (top + 1#17) (s.reg r)).andThen fun _ t => pushWords n (r + 1#4) (top + 1#17) t

/-- Write the stack pointer moved by n words and set CC (R371), the end of a stack instruction. -/
def movePointer (s : State) (ea : DoubleAddr) (p : StackPointer) (n : Int) (k : State → State) : Out :=
  orTrap (s.writeDouble ea (spdEncode (spdMove p n))) fun _ s => .next ((k s).setCC (spdCC (spdMove p n)))

/-- Push `n` registers on the stack whose pointer is at `ea` (R371, R372, R374). -/
def pushStack (s : State) (ea : DoubleAddr) (r : RegNum) (n : Nat) : Out :=
  orTrap (s.readDouble ea .read) fun d s =>
    let p := spdDecode d
    stackLimit s p n ((s.faultWords .write n (p.tsa + 1#17)).or (s.faultAt (ea ++ 0#1) .write))
      (orTrap (pushWords n r p.tsa s) fun _ s => movePointer s ea p n fun s => s)

/-- PSW (R372). -/
def execPsw (r : RegNum) (a : AddrField) (s : State) : Out :=
  orTrap (s.effDouble a) fun ea s => pushStack s ea r 1

/-- PSM (R374): the count is CC before it is rewritten. -/
def execPsm (r : RegNum) (a : AddrField) (s : State) : Out :=
  orTrap (s.effDouble a) fun ea s => pushStack s ea r (ccCount s.psd.cc)

/-- PLW (R373): after the checks of R371 the word is read, the pointer written, then the register. -/
def execPlw (r : RegNum) (a : AddrField) (s : State) : Out :=
  orTrap (s.effDouble a) fun ea s =>
    orTrap (s.readDouble ea .read) fun d s =>
      let p := spdDecode d
      stackLimit s p (-1) ((s.faultAt p.tsa .read).or (s.faultAt (ea ++ 0#1) .write))
        (orTrap (s.readWord p.tsa .read) fun v s => movePointer s ea p (-1) fun s => s.setReg r v)

/-- PLM (R375): after the checks of R371 the registers are loaded from the lowest stack word up, then the pointer is
written. -/
def execPlm (r : RegNum) (a : AddrField) (s : State) : Out :=
  orTrap (s.effDouble a) fun ea s =>
    orTrap (s.readDouble ea .read) fun d s =>
      let p := spdDecode d
      let n := ccCount s.psd.cc
      let low := p.tsa - BitVec.ofNat 17 n + 1#17
      stackLimit s p (-(n : Int)) ((s.faultWords .read n low).or (s.faultAt (ea ++ 0#1) .write))
        (orTrap (loadWords n r low s) fun _ s => movePointer s ea p (-(n : Int)) fun s => s)

/-- MSP (R376): a zero modifier writes nothing and sets CC from the counts. -/
def execMsp (r : RegNum) (a : AddrField) (s : State) : Out :=
  orTrap (s.effDouble a) fun ea s =>
    orTrap (s.readDouble ea .read) fun d s =>
      let p := spdDecode d
      let m := ((s.reg r).extractLsb' 0 16).toInt
      if m = 0 then .next (s.setCC (spdCC p))
      else stackLimit s p m (s.faultAt (ea ++ 0#1) .write) (movePointer s ea p m fun s => s)

end Sys2Proof.Machine
end

