-- ==== Sys2Proof/Machine/Execute.lean ====
section
/-! DEFINITION. EXU (spec 43_branch_execute.md R345). The subject is executed by the meanings of every instruction; a
subject that is itself EXU recurses. -/

namespace Sys2Proof.Machine

/-- The meaning of an instruction, with the meaning of EXU given. -/
def execWith (exu : RegNum → AddrField → State → Out) (i : Instr) (s : State) : Out :=
  match i with
  | .lcfi r v => execLcfi r v s
  | .cal1 r a => execCal1 r a s
  | .cal2 r a => execCal2 r a s
  | .cal3 r a => execCal3 r a s
  | .cal4 r a => execCal4 r a s
  | .plw r a => execPlw r a s
  | .psw r a => execPsw r a s
  | .plm r a => execPlm r a s
  | .psm r a => execPsm r a s
  | .lpsd r a => execLpsd r a s
  | .xpsd r a => execXpsd r a s
  | .ad r a => execAd r a s
  | .cd r a => execCd r a s
  | .ld r a => execLd r a s
  | .msp r a => execMsp r a s
  | .std r a => execStd r a s
  | .sd r a => execSd r a s
  | .clm r a => execClm r a s
  | .lcd r a => execLcd r a s
  | .lad r a => execLad r a s
  | .fsl r a => execFsl r a s
  | .fal r a => execFal r a s
  | .fdl r a => execFdl r a s
  | .fml r a => execFml r a s
  | .ai r v => execAi r v s
  | .ci r v => execCi r v s
  | .li r v => execLi r v s
  | .mi r v => execMi r v s
  | .sf r a => execSf r a s
  | .s r a => execS r a s
  | .cvs r a => execCvs r a s
  | .cva r a => execCva r a s
  | .lm r a => execLm r a s
  | .stm r a => execStm r a s
  | .wait r a => execWait r a s
  | .lrp r a => execLrp r a s
  | .aw r a => execAw r a s
  | .cw r a => execCw r a s
  | .lw r a => execLw r a s
  | .mtw r a => execMtw r a s
  | .stw r a => execStw r a s
  | .dw r a => execDw r a s
  | .mw r a => execMw r a s
  | .sw r a => execSw r a s
  | .clr r a => execClr r a s
  | .lcw r a => execLcw r a s
  | .law r a => execLaw r a s
  | .fss r a => execFss r a s
  | .fas r a => execFas r a s
  | .fds r a => execFds r a s
  | .fms r a => execFms r a s
  | .ttbs r v => execTtbs r v s
  | .tbs r v => execTbs r v s
  | .anlz r a => execAnlz r a s
  | .cs r a => execCs r a s
  | .xw r a => execXw r a s
  | .sts r a => execSts r a s
  | .eor r a => execEor r a s
  | .or r a => execOr r a s
  | .ls r a => execLs r a s
  | .and r a => execAnd r a s
  | .sio r a => execSio r a s
  | .tio r a => execTio r a s
  | .tdv r a => execTdv r a s
  | .hio r a => execHio r a s
  | .ah r a => execAh r a s
  | .ch r a => execCh r a s
  | .lh r a => execLh r a s
  | .mth r a => execMth r a s
  | .sth r a => execSth r a s
  | .dh r a => execDh r a s
  | .mh r a => execMh r a s
  | .sh r a => execSh r a s
  | .lch r a => execLch r a s
  | .lah r a => execLah r a s
  | .cbs r v => execCbs r v s
  | .mbs r v => execMbs r v s
  | .ebs r v => execEbs r v s
  | .bdr r a => execBdr r a s
  | .bir r a => execBir r a s
  | .awm r a => execAwm r a s
  | .exu r a => exu r a s
  | .bcr r a => execBcr r a s
  | .bcs r a => execBcs r a s
  | .bal r a => execBal r a s
  | .int r a => execInt r a s
  | .rd r a => execRd r a s
  | .wd r a => execWd r a s
  | .aio r a => execAio r a s
  | .mmc r f z => execMmc r f z s
  | .lcf r a => execLcf r a s
  | .cb r a => execCb r a s
  | .lb r a => execLb r a s
  | .mtb r a => execMtb r a s
  | .stcf r a => execStcf r a s
  | .stb r a => execStb r a s
  | .pack r a => execPack r a s
  | .unpk r a => execUnpk r a s
  | .ds r a => execDs r a s
  | .da r a => execDa r a s
  | .dd r a => execDd r a s
  | .dm r a => execDm r a s
  | .dsa r a => execDsa r a s
  | .dc r a => execDc r a s
  | .dl r a => execDl r a s
  | .dst r a => execDst r a s

/-- EXU and the EXUs among its subjects, `fuel` being how many more nestings `EXU_LIMIT` leaves. The subject word is
read with mode execute and runs as if fetched, pc unchanged; nesting beyond the limit is fatal. -/
def execSubjects : Nat → AddrField → State → Out
  | 0, a, s =>
    orTrap (s.effWord a) fun ea s =>
      orTrap (s.readWord ea .execute) fun _ s =>
        .next (({ s with exuDepth := s.exuDepth + 1 }).raiseFatal .exuLimit)
  | fuel + 1, a, s =>
    orTrap (s.effWord a) fun ea s =>
      orTrap (s.readWord ea .execute) fun w s =>
        match decode w with
        | .error _ => .next (({ s with exuDepth := s.exuDepth + 1 }).raise trapNonexistent)
        | .ok i =>
          execWith (fun _ b t => execSubjects fuel b t) i { s with exuDepth := s.exuDepth + 1 }

/-- EXU (R345): the R field is ignored. -/
def execExu (_r : RegNum) (a : AddrField) (s : State) : Out :=
  execSubjects (s.config.exuLimit - s.exuDepth) a s

end Sys2Proof.Machine
end

