-- ==== Sys2Proof/Machine/Dispatch.lean ====
section
/-! DEFINITION. The dispatch: one arm per instruction of the opcode table (spec 30_encoding.md R150). -/

namespace Sys2Proof.Machine

def exec (i : Instr) (s : State) : Host.Outcome State Fault Refusal :=
  match i with
  | .lcfi r v => Sys2Proof.Machine.execLcfi r v s
  | .cal1 r a => Sys2Proof.Machine.execCal1 r a s
  | .cal2 r a => Sys2Proof.Machine.execCal2 r a s
  | .cal3 r a => Sys2Proof.Machine.execCal3 r a s
  | .cal4 r a => Sys2Proof.Machine.execCal4 r a s
  | .plw r a => Sys2Proof.Machine.execPlw r a s
  | .psw r a => Sys2Proof.Machine.execPsw r a s
  | .plm r a => Sys2Proof.Machine.execPlm r a s
  | .psm r a => Sys2Proof.Machine.execPsm r a s
  | .lpsd r a => Sys2Proof.Machine.execLpsd r a s
  | .xpsd r a => Sys2Proof.Machine.execXpsd r a s
  | .ad r a => Sys2Proof.Machine.execAd r a s
  | .cd r a => Sys2Proof.Machine.execCd r a s
  | .ld r a => Sys2Proof.Machine.execLd r a s
  | .msp r a => Sys2Proof.Machine.execMsp r a s
  | .std r a => Sys2Proof.Machine.execStd r a s
  | .sd r a => Sys2Proof.Machine.execSd r a s
  | .clm r a => Sys2Proof.Machine.execClm r a s
  | .lcd r a => Sys2Proof.Machine.execLcd r a s
  | .lad r a => Sys2Proof.Machine.execLad r a s
  | .fsl r a => Sys2Proof.Machine.execFsl r a s
  | .fal r a => Sys2Proof.Machine.execFal r a s
  | .fdl r a => Sys2Proof.Machine.execFdl r a s
  | .fml r a => Sys2Proof.Machine.execFml r a s
  | .ai r v => Sys2Proof.Machine.execAi r v s
  | .ci r v => Sys2Proof.Machine.execCi r v s
  | .li r v => Sys2Proof.Machine.execLi r v s
  | .mi r v => Sys2Proof.Machine.execMi r v s
  | .sf r a => Sys2Proof.Machine.execSf r a s
  | .s r a => Sys2Proof.Machine.execS r a s
  | .cvs r a => Sys2Proof.Machine.execCvs r a s
  | .cva r a => Sys2Proof.Machine.execCva r a s
  | .lm r a => Sys2Proof.Machine.execLm r a s
  | .stm r a => Sys2Proof.Machine.execStm r a s
  | .wait r a => Sys2Proof.Machine.execWait r a s
  | .lrp r a => Sys2Proof.Machine.execLrp r a s
  | .aw r a => Sys2Proof.Machine.execAw r a s
  | .cw r a => Sys2Proof.Machine.execCw r a s
  | .lw r a => Sys2Proof.Machine.execLw r a s
  | .mtw r a => Sys2Proof.Machine.execMtw r a s
  | .stw r a => Sys2Proof.Machine.execStw r a s
  | .dw r a => Sys2Proof.Machine.execDw r a s
  | .mw r a => Sys2Proof.Machine.execMw r a s
  | .sw r a => Sys2Proof.Machine.execSw r a s
  | .clr r a => Sys2Proof.Machine.execClr r a s
  | .lcw r a => Sys2Proof.Machine.execLcw r a s
  | .law r a => Sys2Proof.Machine.execLaw r a s
  | .fss r a => Sys2Proof.Machine.execFss r a s
  | .fas r a => Sys2Proof.Machine.execFas r a s
  | .fds r a => Sys2Proof.Machine.execFds r a s
  | .fms r a => Sys2Proof.Machine.execFms r a s
  | .ttbs r v => Sys2Proof.Machine.execTtbs r v s
  | .tbs r v => Sys2Proof.Machine.execTbs r v s
  | .anlz r a => Sys2Proof.Machine.execAnlz r a s
  | .cs r a => Sys2Proof.Machine.execCs r a s
  | .xw r a => Sys2Proof.Machine.execXw r a s
  | .sts r a => Sys2Proof.Machine.execSts r a s
  | .eor r a => Sys2Proof.Machine.execEor r a s
  | .or r a => Sys2Proof.Machine.execOr r a s
  | .ls r a => Sys2Proof.Machine.execLs r a s
  | .and r a => Sys2Proof.Machine.execAnd r a s
  | .sio r a => Sys2Proof.Machine.execSio r a s
  | .tio r a => Sys2Proof.Machine.execTio r a s
  | .tdv r a => Sys2Proof.Machine.execTdv r a s
  | .hio r a => Sys2Proof.Machine.execHio r a s
  | .ah r a => Sys2Proof.Machine.execAh r a s
  | .ch r a => Sys2Proof.Machine.execCh r a s
  | .lh r a => Sys2Proof.Machine.execLh r a s
  | .mth r a => Sys2Proof.Machine.execMth r a s
  | .sth r a => Sys2Proof.Machine.execSth r a s
  | .dh r a => Sys2Proof.Machine.execDh r a s
  | .mh r a => Sys2Proof.Machine.execMh r a s
  | .sh r a => Sys2Proof.Machine.execSh r a s
  | .lch r a => Sys2Proof.Machine.execLch r a s
  | .lah r a => Sys2Proof.Machine.execLah r a s
  | .cbs r v => Sys2Proof.Machine.execCbs r v s
  | .mbs r v => Sys2Proof.Machine.execMbs r v s
  | .ebs r v => Sys2Proof.Machine.execEbs r v s
  | .bdr r a => Sys2Proof.Machine.execBdr r a s
  | .bir r a => Sys2Proof.Machine.execBir r a s
  | .awm r a => Sys2Proof.Machine.execAwm r a s
  | .exu r a => Sys2Proof.Machine.execExu r a s
  | .bcr r a => Sys2Proof.Machine.execBcr r a s
  | .bcs r a => Sys2Proof.Machine.execBcs r a s
  | .bal r a => Sys2Proof.Machine.execBal r a s
  | .int r a => Sys2Proof.Machine.execInt r a s
  | .rd r a => Sys2Proof.Machine.execRd r a s
  | .wd r a => Sys2Proof.Machine.execWd r a s
  | .aio r a => Sys2Proof.Machine.execAio r a s
  | .mmc r f z => Sys2Proof.Machine.execMmc r f z s
  | .lcf r a => Sys2Proof.Machine.execLcf r a s
  | .cb r a => Sys2Proof.Machine.execCb r a s
  | .lb r a => Sys2Proof.Machine.execLb r a s
  | .mtb r a => Sys2Proof.Machine.execMtb r a s
  | .stcf r a => Sys2Proof.Machine.execStcf r a s
  | .stb r a => Sys2Proof.Machine.execStb r a s
  | .pack r a => Sys2Proof.Machine.execPack r a s
  | .unpk r a => Sys2Proof.Machine.execUnpk r a s
  | .ds r a => Sys2Proof.Machine.execDs r a s
  | .da r a => Sys2Proof.Machine.execDa r a s
  | .dd r a => Sys2Proof.Machine.execDd r a s
  | .dm r a => Sys2Proof.Machine.execDm r a s
  | .dsa r a => Sys2Proof.Machine.execDsa r a s
  | .dc r a => Sys2Proof.Machine.execDc r a s
  | .dl r a => Sys2Proof.Machine.execDl r a s
  | .dst r a => Sys2Proof.Machine.execDst r a s

end Sys2Proof.Machine
end

