-- ==== Sys2Proof/Machine/Cycle.lean ====
section
/-! DEFINITION. The CPU cycle (spec 60_exceptions.md R601), run control (R661), the status snapshot (R663) and the events
between cycles (R660-R665, 20_memory.md R106, 70_reset_and_hazards.md R700-R702). -/

namespace Sys2Proof.Machine

/-! ## The CPU cycle -/

/-- Execute a fetched word (R601 step 4): a word that decodes to nothing is a nonexistent instruction. -/
def State.executeWord (s : State) (w : Word) : Out :=
  match decode w with
  | .error _ => .next (s.raise trapNonexistent)
  | .ok i => exec i s

/-- The outcome of the current instruction for the until-branch modes (R661): a trap it raised counts as one, taken or
not as a free value says (notes/assumptions/9.md); else its branch outcome. -/
def State.outcome (s : State) : Option Bool :=
  if s.trapPending.isSome then some Config.trapIsTaken else s.branchOutcome

/-- The step-mode check after an instruction (R601 step 5, R661). -/
def State.stepMode (s : State) : State :=
  match s.runMode with
  | .free => s
  | .steps n => { s with runMode := .steps (n - 1), running := s.running && decide (1 < n) }
  | .untilBranchTaken => { s with running := s.running && !(s.outcome == some true) }
  | .untilBranchNotTaken => { s with running := s.running && !(s.outcome == some false) }

/-- The end of a cycle that executed an instruction: the other agents' accesses left over, then the EXU depth is 0
between instructions (10_state.md R57). -/
def State.finish (s : State) : State := ({ s.settle with exuDepth := 0 }).stepMode

/-- The start of a cycle: no EXU nesting (R601) and no branch outcome yet (43_branch_execute.md R346). -/
def State.beginCycle (s : State) : State := { s with exuDepth := 0, branchOutcome := none }

/-- The word `w` has been fetched: it is the last instruction (R663) and pc advances modulo 2^17 (R601 step 3). -/
def State.advance (s : State) (w : Word) : State :=
  { s with lastInstr := w, psd := { s.psd with ia := s.psd.ia + 1#17 } }

/-- R601 steps 3-5: fetch the word at pc with mode execute, advance pc, execute, check the step mode. A fetch fault
leaves pc. -/
def State.fetchExecute (s : State) : Out :=
  match s.readWord s.psd.ia .execute with
  | .trap e t => .next ({ t with trapPending := some ⟨e.vector, e.cc, true⟩ }).settle
  | .ok w t =>
    match (t.advance w).executeWord w with
    | .next u => .next u.finish
    | .fault f => .fault f
    | .refused f => .refused f

/-- A cycle of a waiting CPU (R601 step 2a): whether the WAIT ends of its own accord is free (47_control.md R468). -/
def State.waitCycle (s : State) : State :=
  { s with freeCount := s.freeCount + 1, waiting := !Config.waitEnds s.freeCount }

/-- One CPU cycle (R601). While fatal or stopped no cycle happens. -/
def State.cycle (s : State) : Out :=
  if s.fatal.isSome || !s.running then .next s.settle
  else
    match s.beginCycle.trapPending with
    | some t => .next (s.beginCycle.takeTrap t).settle
    | none =>
      match s.beginCycle.poll with
      | some (L, ic) => .next (s.beginCycle.takeInterrupt L ic).settle
      | none => if s.waiting then .next s.beginCycle.waitCycle.settle else s.beginCycle.fetchExecute

/-! ## The other agents -/

/-- start (R661): the CPU runs in the given mode and a WAIT ends; a step count of 0 runs nothing. -/
def State.start (s : State) (m : RunMode) : State :=
  { s with running := !(m == .steps 0), runMode := m, waiting := false }

/-- Reset (70_reset_and_hazards.md R700): registers and real memory keep their contents, and a tick of the clock agent that
has begun goes on, for R700 names nothing of that agent (DEDUCED: notes/assumptions/4.md). -/
def State.resetKeeping (s : State) : State :=
  { State.resetWith s.config with
    regs := s.regs
    mem := s.mem
    clock := s.clock
    hostCalls := s.hostCalls
    toolReports := s.toolReports
    freeCount := s.freeCount
    agenda := s.agenda }

/-- The host's control access to the PSD (R702), before it starts the CPU: while the CPU runs no other agent writes
the PSD (10_state.md R52). -/
def State.hostPsd (s : State) (p : Psd) : State := if s.running then s else { s with psd := p }

/-- Reading the status snapshot (R663). -/
def State.snapshot (s : State) : Snapshot where
  psd := s.psd
  lastInstr := s.lastInstr
  fault := s.fatal.isSome
  message := s.fatal.map FatalCause.message

/-- One event. -/
def State.event (s : State) : AgentEvent → Out
  | .cpuCycle cpu between => if cpu < s.config.sizes.nCpu then ({ s with between := between }).cycle else .next s
  | .access a => .next (s.agentAccess a)
  | .arm level => .next (s.setIc (s.ic.arm level))
  | .disarm level => .next (s.setIc (s.ic.disarm level))
  | .enable level => .next (s.setIc (s.ic.enable level))
  | .disable level => .next (s.setIc (s.ic.disable level))
  | .setMapEntry page v => .next { s with map := setPage s.map page v }
  | .setAccessCode page v => .next { s with acc := setPage s.acc page v }
  | .setWriteLock page v => .next (s.setLock page v)
  | .setPsd p => .next (s.hostPsd p)
  | .setIntSuppress n => .next { s with intSuppress := n }
  | .log m => .next { s with hostCalls := .log m :: s.hostCalls }
  | .start m => .next (s.start m)
  | .stop => .next { s with running := false }
  | .reset => .next s.resetKeeping
  | .powerOff => .fault .poweredOff

/-- The next event on the agenda; with none left, a CPU cycle (R660: host actions interleave with CPU cycles). -/
def State.turn (s : State) : Out :=
  match s.agenda with
  | [] => s.cycle
  | e :: rest => ({ s with agenda := rest }).event e

/-! ## Placing an instruction -/

/-- The machine made ready to run what it fetches next: started, with nothing pending and no event first. -/
def State.readyToFetch (s : State) : State :=
  let t := { s with
    running := true, fatal := none, trapPending := none, waiting := false, agenda := [], between := [] }
  if t.poll.isSome then { t with intSuppress := 1 } else t

/-- A word stored where the next fetch reads it; if that address cannot be fetched, at address 0 unmapped. -/
def State.placeWord (s : State) (w : Word) : State :=
  match s.resolve s.psd.ia .execute with
  | .ok p => s.storeWord p w
  | .error _ =>
    let t := { s with psd := { s.psd with mm := false, ia := 0#17 } }
    match t.resolve 0#17 .execute with
    | .ok p => t.storeWord p w
    | .error _ => t

end Sys2Proof.Machine
end

