-- ==== Sys2Proof/Machine/Step.lean ====
section
/-! DEFINITION. The step of the machine: one event of an agent or one CPU cycle (spec 60_exceptions.md R601, R660). -/

namespace Sys2Proof.Machine

/-- One step: the next agent event, or a CPU cycle when none waits. -/
def step (s : State) : Host.Outcome State Fault Refusal := s.turn

/-- `s` with the table word `w` of `nbits` bits stored where the next step fetches, and the machine running. It stands
for the host's tooling store and start (70_reset_and_hazards.md R702; notes/assumptions/3.md). -/
def State.withFetchWord (s : State) (nbits w : Nat) : State :=
  s.readyToFetch.placeWord (BitVec.ofNat 32 (w % 2 ^ nbits))

end Sys2Proof.Machine
end

