-- ==== Sys2Proof/Machine/Text.lean ====
section
/-! DEFINITION. The text form of instructions: parse and render (spec 30_encoding.md R147-R149). Both are pure and no step
uses them. What the spec leaves open of the text is in notes/assumptions/31.md. -/

namespace Sys2Proof.Machine

/-- A text. -/
abbrev Text := List Char

/-! ## Mnemonics -/

/-- The mnemonic of each assigned opcode (R150). -/
def mnemonicTable : List (BitVec 7 × Text) :=
  [(0x02, ['L', 'C', 'F', 'I']), (0x04, ['C', 'A', 'L', '1']), (0x05, ['C', 'A', 'L', '2']),
   (0x06, ['C', 'A', 'L', '3']), (0x07, ['C', 'A', 'L', '4']), (0x08, ['P', 'L', 'W']),
   (0x09, ['P', 'S', 'W']), (0x0A, ['P', 'L', 'M']), (0x0B, ['P', 'S', 'M']), (0x0E, ['L', 'P', 'S', 'D']),
   (0x0F, ['X', 'P', 'S', 'D']), (0x10, ['A', 'D']), (0x11, ['C', 'D']), (0x12, ['L', 'D']),
   (0x13, ['M', 'S', 'P']), (0x15, ['S', 'T', 'D']), (0x18, ['S', 'D']), (0x19, ['C', 'L', 'M']),
   (0x1A, ['L', 'C', 'D']), (0x1B, ['L', 'A', 'D']), (0x1C, ['F', 'S', 'L']), (0x1D, ['F', 'A', 'L']),
   (0x1E, ['F', 'D', 'L']), (0x1F, ['F', 'M', 'L']), (0x20, ['A', 'I']), (0x21, ['C', 'I']),
   (0x22, ['L', 'I']), (0x23, ['M', 'I']), (0x24, ['S', 'F']), (0x25, ['S']), (0x28, ['C', 'V', 'S']),
   (0x29, ['C', 'V', 'A']), (0x2A, ['L', 'M']), (0x2B, ['S', 'T', 'M']), (0x2E, ['W', 'A', 'I', 'T']),
   (0x2F, ['L', 'R', 'P']), (0x30, ['A', 'W']), (0x31, ['C', 'W']), (0x32, ['L', 'W']),
   (0x33, ['M', 'T', 'W']), (0x35, ['S', 'T', 'W']), (0x36, ['D', 'W']), (0x37, ['M', 'W']),
   (0x38, ['S', 'W']), (0x39, ['C', 'L', 'R']), (0x3A, ['L', 'C', 'W']), (0x3B, ['L', 'A', 'W'])] ++
  [(0x3C, ['F', 'S', 'S']), (0x3D, ['F', 'A', 'S']), (0x3E, ['F', 'D', 'S']), (0x3F, ['F', 'M', 'S']),
   (0x40, ['T', 'T', 'B', 'S']), (0x41, ['T', 'B', 'S']), (0x44, ['A', 'N', 'L', 'Z']), (0x45, ['C', 'S']),
   (0x46, ['X', 'W']), (0x47, ['S', 'T', 'S']), (0x48, ['E', 'O', 'R']), (0x49, ['O', 'R']),
   (0x4A, ['L', 'S']), (0x4B, ['A', 'N', 'D']), (0x4C, ['S', 'I', 'O']), (0x4D, ['T', 'I', 'O']),
   (0x4E, ['T', 'D', 'V']), (0x4F, ['H', 'I', 'O']), (0x50, ['A', 'H']), (0x51, ['C', 'H']),
   (0x52, ['L', 'H']), (0x53, ['M', 'T', 'H']), (0x55, ['S', 'T', 'H']), (0x56, ['D', 'H']),
   (0x57, ['M', 'H']), (0x58, ['S', 'H']), (0x5A, ['L', 'C', 'H']), (0x5B, ['L', 'A', 'H']),
   (0x60, ['C', 'B', 'S']), (0x61, ['M', 'B', 'S']), (0x63, ['E', 'B', 'S']), (0x64, ['B', 'D', 'R']),
   (0x65, ['B', 'I', 'R']), (0x66, ['A', 'W', 'M']), (0x67, ['E', 'X', 'U']), (0x68, ['B', 'C', 'R']),
   (0x69, ['B', 'C', 'S']), (0x6A, ['B', 'A', 'L']), (0x6B, ['I', 'N', 'T']), (0x6C, ['R', 'D']),
   (0x6D, ['W', 'D']), (0x6E, ['A', 'I', 'O']), (0x6F, ['M', 'M', 'C']), (0x70, ['L', 'C', 'F']),
   (0x71, ['C', 'B']), (0x72, ['L', 'B']), (0x73, ['M', 'T', 'B']), (0x74, ['S', 'T', 'C', 'F'])] ++
  [(0x75, ['S', 'T', 'B']), (0x76, ['P', 'A', 'C', 'K']), (0x77, ['U', 'N', 'P', 'K']), (0x78, ['D', 'S']),
   (0x79, ['D', 'A']), (0x7A, ['D', 'D']), (0x7B, ['D', 'M']), (0x7C, ['D', 'S', 'A']), (0x7D, ['D', 'C']),
   (0x7E, ['D', 'L']), (0x7F, ['D', 'S', 'T'])]

/-- The extended branch mnemonics, with the opcode and the mask they stand for (R149). -/
def branchTable : List (Text × BitVec 7 × RegNum) :=
  [(['B'], 0x68#7, 0#4), (['N', 'O', 'P'], 0x69#7, 0#4), (['B', 'E'], 0x68#7, 3#4),
   (['B', 'E', 'Z'], 0x68#7, 3#4), (['B', 'N', 'E'], 0x69#7, 3#4), (['B', 'N', 'E', 'Z'], 0x69#7, 3#4),
   (['B', 'G'], 0x69#7, 1#4), (['B', 'G', 'Z'], 0x69#7, 1#4), (['B', 'L', 'E'], 0x68#7, 1#4),
   (['B', 'L', 'E', 'Z'], 0x68#7, 1#4), (['B', 'L'], 0x69#7, 2#4), (['B', 'L', 'Z'], 0x69#7, 2#4),
   (['B', 'G', 'E'], 0x68#7, 2#4), (['B', 'G', 'E', 'Z'], 0x68#7, 2#4), (['B', 'O', 'V'], 0x69#7, 4#4),
   (['B', 'N', 'O', 'V'], 0x68#7, 4#4), (['B', 'C'], 0x69#7, 8#4), (['B', 'N', 'C'], 0x68#7, 8#4)]

/-- The mnemonic of an opcode; empty for an unassigned one. -/
def mnemonicOf (op : BitVec 7) : Text := ((mnemonicTable.find? fun e => e.1 == op).map Prod.snd).getD []

/-- The opcode of a mnemonic. -/
def opcodeOf (m : Text) : Option (BitVec 7) := (mnemonicTable.find? fun e => e.2 == m).map Prod.fst

/-- What follows a mnemonic (R148). -/
inductive TextForm where
  /-- a register and an address -/
  | reference
  /-- a signed delta and an address -/
  | modify
  /-- a register and a value -/
  | immediate
deriving DecidableEq, Repr

/-- The text form of an opcode: MMC, which has an address part with the function in place of the index (R134), is written
as a reference. -/
def textForm (op : BitVec 7) : TextForm :=
  if op = 0x6F#7 then .reference
  else if immediateOpcodes.contains op.toNat then .immediate
  else if op = 0x33#7 ∨ op = 0x53#7 ∨ op = 0x73#7 then .modify
  else .reference

/-! ## Numbers -/

/-- The apostrophe of a hexadecimal constant. -/
def quoteChar : Char := Char.ofNat 39

/-- The value of a digit 0-9 or A-F. -/
def digitOf (c : Char) : Option Nat :=
  if 48 ≤ c.toNat ∧ c.toNat ≤ 57 then some (c.toNat - 48)
  else if 65 ≤ c.toNat ∧ c.toNat ≤ 70 then some (c.toNat - 55)
  else none

/-- The value of digits of a base after the value `n`. -/
def digitsOf (base : Nat) : Text → Nat → Option Nat
  | [], n => some n
  | c :: cs, n =>
    match digitOf c with
    | some d => if d < base then digitsOf base cs (base * n + d) else none
    | none => none

/-- An unsigned number: decimal digits, or a hexadecimal constant X'..' (R148). -/
def unsignedOf (t : Text) : Option Nat :=
  match t with
  | [] => none
  | [c] => digitsOf 10 [c] 0
  | c :: q :: cs =>
    if c = 'X' ∧ q = quoteChar then
      if 2 ≤ cs.length ∧ cs.getLast? = some quoteChar then digitsOf 16 cs.dropLast 0 else none
    else digitsOf 10 (c :: q :: cs) 0

/-- A number, a minus sign before it or not. -/
def numberOf (t : Text) : Option Int :=
  match t with
  | [] => none
  | c :: cs =>
    if c = '-' then (unsignedOf cs).map fun n => -(n : Int) else (unsignedOf (c :: cs)).map fun n => (n : Int)

/-- A number from `lo` to `hi`. -/
def numberIn (lo hi : Int) (t : Text) : Option Int := (numberOf t).filter fun v => decide (lo ≤ v ∧ v ≤ hi)

/-! ## Parsing -/

/-- The parts of a text between separators. -/
def splitAtChar (sep : Char) : Text → List Text
  | [] => [[]]
  | c :: cs =>
    if c = sep then [] :: splitAtChar sep cs
    else
      match splitAtChar sep cs with
      | [] => [[c]]
      | p :: ps => (c :: p) :: ps

/-- The fields of a line: what stands between blanks. -/
def textFields (t : Text) : List Text := (splitAtChar ' ' t).filter fun f => !f.isEmpty

/-- `[*]address[,X]` (R148). -/
def parseAddress (t : Text) : Option AddrField :=
  let ind := t.head? == some '*'
  match splitAtChar ',' (if ind then t.tail else t) with
  | [ref] => (numberIn 0 131071 ref).map fun v => ⟨ind, 0#3, BitVec.ofInt 17 v⟩
  | [ref, x] =>
    (numberIn 0 131071 ref).bind fun v =>
      (numberIn 0 7 x).map fun x => ⟨ind, BitVec.ofInt 3 x, BitVec.ofInt 17 v⟩
  | _ => none

/-- The R field: a register, or the delta of a modify-and-test instruction. -/
def parseRegister (form : TextForm) (t : Text) : Option RegNum :=
  ((match form with
    | .modify => numberIn (-8) 7 t
    | .reference => numberIn 0 15 t
    | .immediate => numberIn 0 15 t)).map fun v => BitVec.ofInt 4 v

/-- The instruction of an opcode, an R field and the text of its address or value, by the encoder and the decoder. -/
def assemble (op : BitVec 7) (r : RegNum) (arg : Text) : Option Instr :=
  ((match textForm op with
    | .immediate => (numberIn (-524288) 1048575 arg).map fun v => encodeImmediate op r (BitVec.ofInt 20 v)
    | .reference => (parseAddress arg).map fun (a : AddrField) => encodeFields ⟨a.ind, op, r, a.x, a.ref⟩
    | .modify => (parseAddress arg).map fun (a : AddrField) => encodeFields ⟨a.ind, op, r, a.x, a.ref⟩)).bind
    fun w => (decode w).toOption

/-- The instruction of an operation field `MNEMONIC[,R]` (R148), or an extended branch mnemonic (R149), and of the text of
its address or value. -/
def parseOperation (op arg : Text) : Option Instr :=
  match splitAtChar ',' op with
  | [m] =>
    match opcodeOf m with
    | some o => assemble o 0#4 arg
    | none => (branchTable.find? fun e => e.1 == m).bind fun e => assemble e.2.1 e.2.2 arg
  | [m, r] => (opcodeOf m).bind fun o => (parseRegister (textForm o) r).bind fun r => assemble o r arg
  | _ => none

/-- The operations that may stand without an address part: NOP, which R149 lists without one, and CAL1 to CAL4 and WAIT,
whose address is ignored (R134) and whose text R148 does not give (DESIGN CHOICE: notes/assumptions/31.md). -/
def standsAlone (op : Text) : Bool :=
  [['N', 'O', 'P'], ['C', 'A', 'L', '1'], ['C', 'A', 'L', '2'], ['C', 'A', 'L', '3'], ['C', 'A', 'L', '4'],
    ['W', 'A', 'I', 'T']].contains ((splitAtChar ',' op).headD [])

/-- The fields of an instruction without a label. An address part left out is 0. -/
def parseInstruction (fields : List Text) : Option Instr :=
  match fields with
  | [op] => if standsAlone op then parseOperation op ['0'] else none
  | [op, arg] => parseOperation op arg
  | _ => none

/-- A label: a capital letter, then capital letters and digits. -/
def isLabel (t : Text) : Bool :=
  (t.head?.map Char.isUpper).getD false && t.all fun c => c.isUpper || c.isDigit

/-- `parse(text)` (R147, R148): the instruction, or none where the text is malformed. A first field that begins no
instruction is the label. -/
def parse (t : Text) : Option Instr :=
  match textFields t with
  | [] => none
  | f :: rest =>
    match parseInstruction (f :: rest) with
    | some i => some i
    | none => if isLabel f then parseInstruction rest else none

/-! ## Rendering -/

/-- A digit as a character. -/
def digitChar (d : Nat) : Char := if d < 10 then Char.ofNat (48 + d) else Char.ofNat (55 + d)

/-- A hexadecimal constant of five digits. -/
def hexText (v : BitVec 20) : Text :=
  'X' :: quoteChar ::
    ([16, 12, 8, 4, 0].map fun k => digitChar (v.extractLsb' k 4).toNat) ++ [quoteChar]

/-- A number below 20 in decimal. -/
def decimalText (n : Nat) : Text := if n < 10 then [digitChar n] else ['1', digitChar (n - 10)]

/-- The R field as text. -/
def registerText (form : TextForm) (r : RegNum) : Text :=
  match form with
  | .modify => if r.msb then '-' :: decimalText (16 - r.toNat) else decimalText r.toNat
  | .reference => decimalText r.toNat
  | .immediate => decimalText r.toNat

/-- `[*]address[,X]` as text. -/
def addressText (f : Fields) : Text :=
  (if f.ind then ['*'] else []) ++ hexText (f.ref.setWidth 20) ++
    (if f.x = 0#3 then [] else [',', digitChar f.x.toNat])

/-- Text filled with blanks up to a width. -/
def padText (width : Nat) (t : Text) : Text := t ++ List.replicate (width - t.length) ' '

/-- `render(instruction)` (R147): the operation, and from a fixed column on the address or value, in a fixed width. The
column and the width are not given (93 entry 40); both hold the longest text. -/
def render (i : Instr) : Text :=
  let f := decodeFields (encode i)
  let form := textForm f.op
  padText (8 + Config.addressColumn) (mnemonicOf f.op ++ ',' :: registerText form f.r) ++
    padText (11 + Config.textWidth)
      (match form with
       | .immediate => hexText ((encode i).extractLsb' 0 20)
       | .reference => addressText f
       | .modify => addressText f)

end Sys2Proof.Machine
end

