-- ==== Sys2Proof/Safety.lean ====
section
/-! DEFINITION. The terms statements are made in: what an instruction leaves unchanged, and the invariant of the machine
(spec 10_state.md R53-R58, 20_memory.md R83, 60_exceptions.md R620, R625, R626). -/

namespace Sys2Proof.Machine

/-! ## What changes -/

/-- Register i of block b, whichever block is current (10_state.md R30). -/
def State.blockReg (s : State) (b i : BitVec 4) : Word := s.regs[(b ++ i).toNat]

/-- Every register of every block keeps its value, but for the listed ones of the block current in `s`. -/
def State.RegsKept (s t : State) (written : List RegNum) : Prop :=
  ∀ b i : BitVec 4, (b = s.psd.rp → i ∉ written) → t.blockReg b i = s.blockReg b i

/-- Every byte of real memory keeps its value. -/
def State.MemKept (s t : State) : Prop := ∀ a : Nat, t.mem.read a = s.mem.read a

/-- Every byte of real memory outside lo, …, lo + n - 1 keeps its value. -/
def State.MemKeptBut (s t : State) (lo n : Nat) : Prop :=
  ∀ a : Nat, a < lo ∨ lo + n ≤ a → t.mem.read a = s.mem.read a

/-- Everything but registers, memory, CC and the pending trap is unchanged, the pc too. -/
def State.RestKept (s t : State) : Prop :=
  t = { s with
    regs := t.regs
    mem := t.mem
    trapPending := t.trapPending
    psd := { s.psd with cc := t.psd.cc } }

/-- The frame of an instruction that stores nothing: only the listed registers, CC (to `cc`) and the pending trap (to
`trap`) may differ. -/
def State.Writes (s t : State) (written : List RegNum) (cc : BitVec 4) (trap : Option TrapData) : Prop :=
  s.RegsKept t written ∧ s.MemKept t ∧ t.psd.cc = cc ∧ t.trapPending = trap ∧ s.RestKept t

/-- The machine stopped for good by the fatal fault x: the fault latched, the CPU halted (60_exceptions.md R612) and the host
told so (R665). -/
def State.Halted (s : State) (x : FatalCause) : State :=
  { s with fatal := some x, running := false, hostCalls := .threadExit :: s.hostCalls }

/-- Nothing but the `n` bytes from byte `off` of the word at place p on has changed in registers and memory. For a
register place the caller says which bytes of the register change; the frame is the whole register (and, for n = 8, the
next one). -/
def State.KeptOutside (s t : State) (p : Place) (off n : Nat) : Prop :=
  match p with
  | .reg i => s.RegsKept t (if n = 8 then [i, i + 1#4] else [i]) ∧ s.MemKept t
  | .real rw => s.RegsKept t [] ∧ s.MemKeptBut t (4 * rw + off) n

/-- The frame of an instruction that stores at place p, with CC and the pending trap as given. -/
def State.Stores (s t : State) (p : Place) (off n : Nat) (cc : BitVec 4) (trap : Option TrapData) : Prop :=
  s.KeptOutside t p off n ∧ t.psd.cc = cc ∧ t.trapPending = trap ∧ s.RestKept t

/-- Byte `b` of real memory is one of the first `n` at place p. -/
def Place.Covers (p : Place) (n b : Nat) : Prop :=
  match p with
  | .reg _ => False
  | .real rw => 4 * rw ≤ b ∧ b < 4 * rw + n

/-- Register `i` of the current block is (for n = 8, or the next one is) the place p. -/
def Place.IsReg (p : Place) (n : Nat) (i : RegNum) : Prop :=
  match p with
  | .reg j => i = j ∨ (n = 8 ∧ i = j + 1#4)
  | .real _ => False

/-- The frame of an instruction that may change the registers `reg` of the current block and the bytes `byte` of real
memory, with CC and the pending trap as given. -/
def State.Changes (s t : State) (reg : RegNum → Prop) (byte : Nat → Prop) (cc : BitVec 4) (trap : Option TrapData) :
    Prop :=
  (∀ b i : BitVec 4, (b = s.psd.rp → ¬reg i) → t.blockReg b i = s.blockReg b i) ∧
  (∀ a : Nat, ¬byte a → t.mem.read a = s.mem.read a) ∧ t.psd.cc = cc ∧ t.trapPending = trap ∧ s.RestKept t

/-- The word at place p is neither word of the doubleword at place q. -/
def Place.Disjoint (p q : Place) : Prop :=
  match p, q with
  | .reg i, .reg j => i ≠ j ∧ i ≠ j + 1#4
  | .real x, .real y => x ≠ y ∧ x ≠ y + 1
  | .reg _, .real _ => True
  | .real _, .reg _ => True

/-- The doubleword at place q is d, but for the registers `except`, which something else wrote later. -/
def State.HoldsDouble (t : State) (q : Place) (d : Double) (except : RegNum → Prop) : Prop :=
  match q with
  | .reg j => (¬except j → t.reg j = d.extractLsb' 32 32) ∧ (¬except (j + 1#4) → t.reg (j + 1#4) = d.extractLsb' 0 32)
  | .real rw => t.mem.readDouble (4 * rw) = d

/-- Virtual byte address va may be accessed and is byte ra of real memory. -/
def State.RealByte (s : State) (va : ByteAddr) (mode : Access) (ra : Nat) : Prop :=
  ∃ rw, s.resolve (va.extractLsb' 2 17) mode = .ok (.real rw) ∧ ra = 4 * rw + (va.extractLsb' 0 2).toNat

/-- The byte of virtual memory at va as `s` holds it, without an access of the CPU. -/
def State.peekByte (s : State) (va : ByteAddr) : Option Byte :=
  match s.resolve (va.extractLsb' 2 17) .read with
  | .ok p => some (s.loadByte p (va.extractLsb' 0 2))
  | .error _ => none

/-- The frame of an instruction that stores a field of `len` bytes at virtual byte address ea and changes nothing else,
CC and the pending trap included; bytes of registers outside the field stay too (20_memory.md R99). -/
def State.StoresField (s t : State) (ea : ByteAddr) (len : Nat) : Prop :=
  (∀ va : ByteAddr, s.isRegister (va.extractLsb' 2 17) = true → (∀ k, k < len → va ≠ ea + BitVec.ofNat 19 k) →
    t.peekByte va = s.peekByte va) ∧
  s.Changes t (fun i => ∃ k, k < len ∧ s.resolve ((ea + BitVec.ofNat 19 k).extractLsb' 2 17) .write = .ok (.reg i))
    (fun b => ∃ k, k < len ∧ s.RealByte (ea + BitVec.ofNat 19 k) .write b) s.psd.cc s.trapPending

/-- The stack pointer after n words are pushed (n > 0) or pulled (n < 0), within its limits (44_stack.md R371). -/
def StackPointer.Moved (p q : StackPointer) (n : Int) : Prop :=
  q.tsa = p.tsa + BitVec.ofInt 17 n ∧ (q.space.toNat : Int) = p.space.toNat - n ∧
  (q.words.toNat : Int) = p.words.toNat + n ∧ q.pre = p.pre ∧ q.ts = p.ts ∧ q.tw = p.tw

/-- A change of n words would take the space count out of its 15 bits (44_stack.md R371). -/
abbrev StackPointer.SpaceLimit (p : StackPointer) (n : Int) : Prop :=
  ¬(0 ≤ (p.space.toNat : Int) - n ∧ (p.space.toNat : Int) - n ≤ 32767)

/-- A change of n words would take the word count out of its 15 bits (44_stack.md R371). -/
abbrev StackPointer.WordLimit (p : StackPointer) (n : Int) : Prop :=
  ¬(0 ≤ (p.words.toNat : Int) + n ∧ (p.words.toNat : Int) + n ≤ 32767)

/-- The limit that a change of n words meets, the space limit first, has its inhibit bit set (44_stack.md R371). -/
abbrev StackPointer.Inhibited (p : StackPointer) (n : Int) : Prop :=
  p.SpaceLimit n ∧ p.ts = true ∨ ¬p.SpaceLimit n ∧ p.WordLimit n ∧ p.tw = true

/-- CC after a stack instruction: 0 0, no space left, no words left (R371). -/
def StackPointer.CC (p : StackPointer) : BitVec 4 :=
  ccOf false false (BitVec.ofBool (decide (p.space.toNat = 0)) ++ BitVec.ofBool (decide (p.words.toNat = 0)))

/-- w is v shifted by `count` places, left if positive (42_logical_shift.md R303): kind 0 logical, 1 circular, 2
arithmetic. -/
def ShiftsTo {n : Nat} (kind : Nat) (count : Int) (v w : BitVec n) : Prop :=
  if kind = 1 then ∀ j : Nat, j < n → w.getLsbD (((j : Int) + count) % n).toNat = v.getLsbD j
  else if 0 ≤ count then w.toNat = v.toNat * 2 ^ count.toNat % 2 ^ n
  else if kind = 0 then w.toNat = v.toNat / 2 ^ count.natAbs
  else w.toInt = v.toInt / 2 ^ count.natAbs

/-- c and f are the characteristic and the fraction of v shifted by `count` hexadecimal digits (45_floating.md R404): a
left shift stops at the first digit that is not 0. -/
def FloatShiftsTo {n : Nat} (count : Int) (v : BitVec n) (c : Int) (f : Nat) : Prop :=
  if 0 < count then
    ∃ k : Nat, (k : Int) ≤ count ∧ c = (characteristic v : Int) - k ∧ f = fraction v * 16 ^ k ∧
      ((k : Int) = count ∨ 16 ^ (fracDigits n - 1) ≤ f) ∧ ∀ j, j < k → fraction v * 16 ^ j < 16 ^ (fracDigits n - 1)
  else c = (characteristic v : Int) + count.natAbs ∧ f = fraction v / 16 ^ count.natAbs

/-- The trap of a fixed-point overflow: pending if `ov` and AM = 1 (41_fixed_arith.md R250), else as before. -/
def State.overflowPending (s : State) (ov : Bool) : Option TrapData :=
  if ov ∧ s.psd.am then some ⟨0x43, 0#4, false⟩ else s.trapPending

/-! ## The other agents and operands -/

/-- Only what the other agents may change inside a cycle differs: real memory, the interrupt controller, the clock agent's
tick and the model's own records of it (60_exceptions.md R660). -/
def State.OthersOnly (s t : State) : Prop :=
  t = { s with
    mem := t.mem
    ic := t.ic
    clock := t.clock
    freeCount := t.freeCount
    toolReports := t.toolReports
    between := t.between }

/-- The byte operand is readable and is `v`, and `u` is the machine after the other agents' accesses up to that one
(00_scope.md R16, 60_exceptions.md R660); `u` is `s` where `s.between` is empty. -/
def State.ByteOperand (s : State) (a : AddrField) (v : Byte) (u : State) : Prop :=
  ∃ ea t, s.effByte a = .ok ea t ∧ t.readByte ea .read = .ok v u
/-- The halfword operand is readable and is `v`. -/
def State.HalfOperand (s : State) (a : AddrField) (v : Half) (u : State) : Prop :=
  ∃ ea t, s.effHalf a = .ok ea t ∧ t.readHalf ea .read = .ok v u
/-- The word operand is readable and is `v`. -/
def State.WordOperand (s : State) (a : AddrField) (v : Word) (u : State) : Prop :=
  ∃ ea t, s.effWord a = .ok ea t ∧ t.readWord ea .read = .ok v u
/-- The doubleword operand is readable and is `v`. -/
def State.DoubleOperand (s : State) (a : AddrField) (v : Double) (u : State) : Prop :=
  ∃ ea t, s.effDouble a = .ok ea t ∧ t.readDouble ea .read = .ok v u

/-- The byte operand may be stored to: its address, its place, and the machine when the store comes. -/
def State.ByteTarget (s : State) (a : AddrField) (ea : ByteAddr) (p : Place) (u : State) : Prop :=
  ∃ v, s.effByte a = .ok ea v ∧ u = v.others ∧ u.mem.wf = true ∧ u.resolve (ea.extractLsb' 2 17) .write = .ok p
/-- The halfword operand may be stored to. -/
def State.HalfTarget (s : State) (a : AddrField) (ea : HalfAddr) (p : Place) (u : State) : Prop :=
  ∃ v, s.effHalf a = .ok ea v ∧ u = v.others ∧ u.mem.wf = true ∧ u.resolve (ea.extractLsb' 1 17) .write = .ok p
/-- The word operand may be stored to. -/
def State.WordTarget (s : State) (a : AddrField) (ea : WordAddr) (p : Place) (u : State) : Prop :=
  ∃ v, s.effWord a = .ok ea v ∧ u = v.others ∧ u.mem.wf = true ∧ u.resolve ea .write = .ok p
/-- The doubleword operand may be stored to. -/
def State.DoubleTarget (s : State) (a : AddrField) (ea : DoubleAddr) (p : Place) (u : State) : Prop :=
  ∃ v, s.effDouble a = .ok ea v ∧ u = v.others ∧ u.mem.wf = true ∧ u.resolve (ea ++ 0#1) .write = .ok p

/-! ## Accesses that trap -/

/-- The machine with the trap x of an instruction waiting for its entry. -/
def State.Pending (u : State) (x : Trap) : State := { u with trapPending := some ⟨x.vector, x.cc, false⟩ }

/-- Computing the address of the byte operand, or then the access to it, traps with x; `u` is the machine at that
access. -/
def State.ByteTraps (s : State) (a : AddrField) (m : Access) (x : Trap) (u : State) : Prop :=
  s.effByte a = .trap x u ∨ ∃ ea v, s.effByte a = .ok ea v ∧ v.resolve (ea.extractLsb' 2 17) m = .error x ∧ u = v.others
/-- The same of the halfword operand. -/
def State.HalfTraps (s : State) (a : AddrField) (m : Access) (x : Trap) (u : State) : Prop :=
  s.effHalf a = .trap x u ∨ ∃ ea v, s.effHalf a = .ok ea v ∧ v.resolve (ea.extractLsb' 1 17) m = .error x ∧ u = v.others
/-- The same of the word operand. -/
def State.WordTraps (s : State) (a : AddrField) (m : Access) (x : Trap) (u : State) : Prop :=
  s.effWord a = .trap x u ∨ ∃ ea v, s.effWord a = .ok ea v ∧ v.resolve ea m = .error x ∧ u = v.others
/-- The same of the doubleword operand. -/
def State.DoubleTraps (s : State) (a : AddrField) (m : Access) (x : Trap) (u : State) : Prop :=
  s.effDouble a = .trap x u ∨ ∃ ea v, s.effDouble a = .ok ea v ∧ v.resolve (ea ++ 0#1) m = .error x ∧ u = v.others

/-- Of accesses to the words f 0, …, f (n - 1), those that `made` says are made, the first that traps does so with x. -/
def State.FirstFault (s : State) (n : Nat) (made : Nat → Prop) (f : Nat → WordAddr) (m : Access) (x : Trap) : Prop :=
  ∃ k, k < n ∧ made k ∧ s.resolve (f k) m = .error x ∧ ∀ j, j < k → made j → ∃ p, s.resolve (f j) m = .ok p

/-- The sign nibble of a decimal result that is not 0: X'C' plus, X'D' minus (46_bytestring_decimal.md R430). -/
def SignNibble (v : Int) (g : BitVec 4) : Prop := (0 < v → g = 0xC#4) ∧ (v < 0 → g = 0xD#4)

/-! ## Real cells and the exchange -/

/-- The cell of a width at real byte address ra holds the low bits of v. -/
def Memory.Holds (m : Memory) (width : Width) (ra : Nat) (v : Double) : Prop :=
  match width with
  | .byte => m.read ra = v.extractLsb' 0 8
  | .half => m.readHalf ra = v.extractLsb' 0 16
  | .word => m.readWord ra = v.extractLsb' 0 32
  | .double => m.readDouble ra = v

/-- `ref` is the reference of a vector's instruction: its own, or that of the real word it names (60_exceptions.md R608,
R629). -/
def State.RefAt (s : State) (f : Fields) (ref : WordAddr) : Prop :=
  f.ind = false ∧ ref = f.ref ∨
  f.ind = true ∧ 4 * f.ref.toNat < s.config.memPages * 2048 ∧ ref = (s.mem.readWord (4 * f.ref.toNat)).extractLsb' 0 17

/-- The index value of a vector's instruction. -/
def State.indexAt (s : State) (f : Fields) : Nat := if f.x = 0#3 then 0 else (s.reg (f.x.setWidth 4)).toNat

/-- The vector's XPSD exchanges at real doubleword a (R608). -/
def State.ExchangeAt (s : State) (f : Fields) (a : Nat) : Prop :=
  ∃ ref, s.RefAt f ref ∧ a = (ref.toNat + 2 * s.indexAt f) % 2 ^ 17 / 2

/-- The vector's MTx counts the cell at real byte address ra (R629). -/
def State.CellAt (s : State) (f : Fields) (width : Width) (ra : Nat) : Prop :=
  ∃ ref, s.RefAt f ref ∧
    match width with
    | .byte => ra = (4 * ref.toNat + s.indexAt f) % 2 ^ 19
    | .half => ra = 2 * ((2 * ref.toNat + s.indexAt f) % 2 ^ 18)
    | .word => ra = 4 * ((ref.toNat + s.indexAt f) % 2 ^ 17)
    | .double => False

/-- From s to t the PSD was exchanged at real doubleword a by an XPSD of fields f (R608): the old one stored with the
instruction address sIA, the new one installed with the condition code cc, and nothing else changed. -/
def State.Exchanges (s t : State) (f : Fields) (sIA : WordAddr) (cc : BitVec 4) (a : Nat) : Prop :=
  let n := Psd.decode (s.mem.readDouble (8 * a + 8))
  t = { s with
    mem := t.mem
    psd := { n with
      cc := n.cc ||| cc
      ia := if f.r[1] then n.ia + cc.setWidth 17 else n.ia
      rp := if f.r[3] then n.rp else s.psd.rp } } ∧
  t.mem.readDouble (8 * a) = Psd.encode { s.psd with ia := sIA } ∧ s.MemKeptBut t (8 * a) 8

/-! ## The invariant -/

/-- Real memory is canonical and within `MEM_PAGES` pages (R83). -/
def State.MemoryInv (s : State) : Prop :=
  s.mem.wf = true ∧ ∀ c ∈ s.mem, c.1 < s.memBytes

/-- The queue is in (level, priority) order (R620). -/
def IntCtl.Sorted (ic : IntCtl) : Prop := ic.queue.Pairwise fun e f => f.precedes e = false

/-- How often a level stands in the queue. -/
def IntCtl.waitingCount (ic : IntCtl) (L : Fin 32) : Nat := ic.queue.countP fun e => e.level == L

/-- Queued and active levels are armed (R625, R626), and a coalescing level has at most one entry, and none while it is
active (R625). -/
def IntCtl.Consistent (ic : IntCtl) (c : Config) : Prop :=
  (∀ e ∈ ic.queue, ic.armed[e.level] = true) ∧
  (∀ L : Fin 32, ic.active[L] = true → ic.armed[L] = true) ∧
  (∀ L : Fin 32, c.coalesce[L] = true → ic.waitingCount L ≤ 1 ∧ (ic.active[L] = true → ic.waitingCount L = 0))

/-- The invariant every step keeps. -/
def State.Inv (s : State) : Prop :=
  s.MemoryInv ∧ s.ic.Sorted ∧ s.ic.Consistent s.config ∧ s.exuDepth = 0 ∧ s.between = []

/-- A step that does not stop the machine. -/
def State.Goes (s : State) : Prop := ∃ t, step s = .next t

end Sys2Proof.Machine
end

