-- ==== Sys2Proof/Certificates/Slice0/Obligations.lean ====
section
/-! DEFINITION. The statements for the provers. Each says in its docstring which rules of spec/ it formalises.

Frames are those of Safety.lean: `s.Writes t l cc trap` says that from `s` to `t` only the registers `l` of the current
block, CC (to `cc`) and the pending trap (to `trap`) may differ and that every byte of memory reads as before;
`s.Stores t p off n cc trap` says the same but for the `n` bytes from byte `off` of the word at place `p`. A place is a
register or a real word, computed by `State.resolve`, as the instructions compute it. A statement that names a size by its
number holds of the machines of the sizes R10 takes, `s.config.sizes = Sizes.standard`. -/

open Sys2Proof Sys2Proof.Machine

/-! ## Immediate operands -/

/-- LI, AI, CI, MI and LCFI (R200, R251, R267, R262, R214): results, condition codes, overflow trap and frame. -/
def Obligations.ImmediateInstructions : Prop :=
  ∀ (s : State) (r : RegNum) (v : BitVec 20),
    (∃ t, exec (.li r v) s = .next t ∧ t.reg r = v.signExtend 32 ∧
      s.Writes t [r] (ccOf (cc1 s.psd.cc) (cc2 s.psd.cc) (ccSign (v.signExtend 32))) s.trapPending) ∧
    (∃ t, exec (.ai r v) s = .next t ∧ t.reg r = s.reg r + v.signExtend 32 ∧
      s.Writes t [r] (arithCC (addN (s.reg r) (v.signExtend 32)))
        (s.overflowPending (addN (s.reg r) (v.signExtend 32)).ov)) ∧
    (∃ t, exec (.ci r v) s = .next t ∧
      s.Writes t [] (ccOf (cc1 s.psd.cc) (s.reg r &&& v.signExtend 32 != 0#32) (ccScmp (s.reg r) (v.signExtend 32)))
        s.trapPending) ∧
    (∃ t, ∃ p : Double, exec (.mi r v) s = .next t ∧ p.toInt = (s.reg (ru1 r)).toInt * v.toInt ∧
      (r[0] = false → t.reg r = p.extractLsb' 32 32) ∧ t.reg (ru1 r) = p.extractLsb' 0 32 ∧
      s.Writes t [r, ru1 r] (ccOf (cc1 s.psd.cc) (p != (p.extractLsb' 0 32).signExtend 64) (ccSign p)) s.trapPending) ∧
    exec (.lcfi r v) s = .next { s with
      psd := { s.psd with
        cc := if r[1] then v.extractLsb' 4 4 else s.psd.cc
        fs := if r[0] then v[2] else s.psd.fs
        fz := if r[0] then v[1] else s.psd.fz
        fn := if r[0] then v[0] else s.psd.fn } }

/-! ## Byte, halfword, word and doubleword operands -/

/-- LB, CB and LCF (R201, R268, R213) on a readable byte operand `b`; CB compares the low byte x[R][7:0] of the register. -/
def Obligations.ByteOperandInstructions : Prop :=
  ∀ (s : State) (r : RegNum) (a : AddrField) (b : Byte) (u : State), s.ByteOperand a b u →
    (∃ t, exec (.lb r a) s = .next t ∧ t.reg r = b.setWidth 32 ∧
      u.Writes t [r] (ccOf (cc1 u.psd.cc) (cc2 u.psd.cc) (ccNonzero b)) u.trapPending) ∧
    (∃ t, exec (.cb r a) s = .next t ∧
      u.Writes t [] (ccOf (cc1 u.psd.cc) ((u.reg r).extractLsb' 0 8 &&& b != 0#8) (ccUcmp ((u.reg r).extractLsb' 0 8) b))
        u.trapPending) ∧
    exec (.lcf r a) s = .next { u with
      psd := { u.psd with
        cc := if r[1] then b.extractLsb' 4 4 else u.psd.cc
        fs := if r[0] then b[2] else u.psd.fs
        fz := if r[0] then b[1] else u.psd.fz
        fn := if r[0] then b[0] else u.psd.fn } }

/-- LH, LCH, LAH, CH, AH, SH and MH (R202, R205, R206, R269, R252, R255, R263) on a readable halfword operand `h`. -/
def Obligations.HalfwordInstructions : Prop :=
  ∀ (s : State) (r : RegNum) (a : AddrField) (h : Half) (u : State), s.HalfOperand a h u →
    (∃ t, exec (.lh r a) s = .next t ∧ (t.reg r).toInt = h.toInt ∧
      u.Writes t [r] (ccOf (cc1 u.psd.cc) (cc2 u.psd.cc) (ccSignInt h.toInt)) u.trapPending) ∧
    (∃ t, exec (.lch r a) s = .next t ∧ (t.reg r).toInt = -h.toInt ∧
      u.Writes t [r] (ccOf (cc1 u.psd.cc) (cc2 u.psd.cc) (ccSignInt (-h.toInt))) u.trapPending) ∧
    (∃ t, exec (.lah r a) s = .next t ∧ (t.reg r).toInt = h.toInt.natAbs ∧
      u.Writes t [r] (ccOf (cc1 u.psd.cc) (cc2 u.psd.cc) (ccSignInt h.toInt.natAbs)) u.trapPending) ∧
    (∃ t, exec (.ch r a) s = .next t ∧
      u.Writes t [] (ccOf (cc1 u.psd.cc) (u.reg r &&& h.signExtend 32 != 0#32)
        (ccSignInt ((u.reg r).toInt - h.toInt))) u.trapPending) ∧
    (∃ t, exec (.ah r a) s = .next t ∧ t.reg r = u.reg r + h.signExtend 32 ∧
      u.Writes t [r] (arithCC (addN (u.reg r) (h.signExtend 32)))
        (u.overflowPending (addN (u.reg r) (h.signExtend 32)).ov)) ∧
    (∃ t, exec (.sh r a) s = .next t ∧ t.reg r = u.reg r - h.signExtend 32 ∧
      u.Writes t [r] (arithCC (subN (u.reg r) (h.signExtend 32)))
        (u.overflowPending (subN (u.reg r) (h.signExtend 32)).ov)) ∧
    (∃ t, exec (.mh r a) s = .next t ∧
      (t.reg (ru1 r)).toInt = ((u.reg r).extractLsb' 0 16).toInt * h.toInt ∧
      u.Writes t [ru1 r] (ccOf (cc1 u.psd.cc) (cc2 u.psd.cc)
        (ccSignInt (((u.reg r).extractLsb' 0 16).toInt * h.toInt))) u.trapPending)

/-- LW, LS, AND, OR and EOR (R203, R211, R300, R301, R302) on a readable word operand `w`. -/
def Obligations.WordLoadsAndLogical : Prop :=
  ∀ (s : State) (r : RegNum) (a : AddrField) (w : Word) (u : State), s.WordOperand a w u →
    (∃ t, exec (.lw r a) s = .next t ∧ t.reg r = w ∧
      u.Writes t [r] (ccOf (cc1 u.psd.cc) (cc2 u.psd.cc) (ccSign w)) u.trapPending) ∧
    (∃ t, exec (.ls r a) s = .next t ∧
      (∀ k, k < 32 → (t.reg r).getLsbD k =
        if (u.reg (ru1 r)).getLsbD k then w.getLsbD k else (u.reg r).getLsbD k) ∧
      u.Writes t [r] (ccOf (cc1 u.psd.cc) (cc2 u.psd.cc) (ccSign (t.reg r))) u.trapPending) ∧
    (∃ t, exec (.and r a) s = .next t ∧ t.reg r = u.reg r &&& w ∧
      u.Writes t [r] (ccOf (cc1 u.psd.cc) (cc2 u.psd.cc) (ccSign (u.reg r &&& w))) u.trapPending) ∧
    (∃ t, exec (.or r a) s = .next t ∧ t.reg r = u.reg r ||| w ∧
      u.Writes t [r] (ccOf (cc1 u.psd.cc) (cc2 u.psd.cc) (ccSign (u.reg r ||| w))) u.trapPending) ∧
    (∃ t, exec (.eor r a) s = .next t ∧ t.reg r = u.reg r ^^^ w ∧
      u.Writes t [r] (ccOf (cc1 u.psd.cc) (cc2 u.psd.cc) (ccSign (u.reg r ^^^ w))) u.trapPending) ∧
    (∃ t, exec (.lcw r a) s = .next t ∧ t.reg r = 0#32 - w ∧
      u.Writes t [r] (ccOf (cc1 u.psd.cc) (w == 0x80000000#32) (ccSign (0#32 - w)))
        (u.overflowPending (w == 0x80000000#32))) ∧
    (∃ t, exec (.law r a) s = .next t ∧ t.reg r = (if w.toInt < 0 then 0#32 - w else w) ∧
      u.Writes t [r] (ccOf (cc1 u.psd.cc) (w == 0x80000000#32) (ccSign (if w.toInt < 0 then 0#32 - w else w)))
        (u.overflowPending (w == 0x80000000#32)))

/-- AW, SW, MW, CW, CS and CLR (R253, R256, R264, R270, R272, R273) on a readable word operand `w`; the compares change
no register. -/
def Obligations.WordArithmeticAndCompares : Prop :=
  ∀ (s : State) (r : RegNum) (a : AddrField) (w : Word) (u : State), s.WordOperand a w u →
    (∃ t, exec (.aw r a) s = .next t ∧ t.reg r = u.reg r + w ∧
      u.Writes t [r] (arithCC (addN (u.reg r) w)) (u.overflowPending (addN (u.reg r) w).ov)) ∧
    (∃ t, exec (.sw r a) s = .next t ∧ t.reg r = u.reg r - w ∧
      u.Writes t [r] (arithCC (subN (u.reg r) w)) (u.overflowPending (subN (u.reg r) w).ov)) ∧
    (∃ t, ∃ p : Double, exec (.mw r a) s = .next t ∧ p.toInt = (u.reg (ru1 r)).toInt * w.toInt ∧
      (r[0] = false → t.reg r = p.extractLsb' 32 32) ∧ t.reg (ru1 r) = p.extractLsb' 0 32 ∧
      u.Writes t [r, ru1 r] (ccOf (cc1 u.psd.cc) (p != (p.extractLsb' 0 32).signExtend 64) (ccSign p)) u.trapPending) ∧
    (∃ t, exec (.cw r a) s = .next t ∧
      u.Writes t [] (ccOf (cc1 u.psd.cc) (u.reg r &&& w != 0#32) (ccSignInt ((u.reg r).toInt - w.toInt)))
        u.trapPending) ∧
    (∃ t, exec (.cs r a) s = .next t ∧
      u.Writes t [] (ccOf (cc1 u.psd.cc) (cc2 u.psd.cc)
        (ccSignInt (((u.reg r &&& u.reg (ru1 r)).toNat : Int) - (w &&& u.reg (ru1 r)).toNat))) u.trapPending) ∧
    (∃ t, exec (.clr r a) s = .next t ∧
      u.Writes t [] (ccSignInt ((u.reg (ru1 r)).toInt - w.toInt) ++ ccSignInt ((u.reg r).toInt - w.toInt))
        u.trapPending)

/-- LD, LCD, LAD, AD, SD, CD and CLM (R204, R209, R210, R254, R257, R271, R274, R33) on a readable doubleword operand
`d`. A doubleword result goes high word first, low word second, so an odd R ends holding the low word. -/
def Obligations.DoublewordInstructions : Prop :=
  ∀ (s : State) (r : RegNum) (a : AddrField) (d : Double) (u : State), s.DoubleOperand a d u →
    (∃ t, exec (.ld r a) s = .next t ∧
      (r[0] = false → t.reg r = d.extractLsb' 32 32) ∧ t.reg (ru1 r) = d.extractLsb' 0 32 ∧
      u.Writes t [r, ru1 r] (ccOf (cc1 u.psd.cc) (cc2 u.psd.cc) (ccSign d)) u.trapPending) ∧
    (∃ t, exec (.lcd r a) s = .next t ∧
      (r[0] = false → t.reg r = (0#64 - d).extractLsb' 32 32) ∧ t.reg (ru1 r) = (0#64 - d).extractLsb' 0 32 ∧
      u.Writes t [r, ru1 r] (ccOf (cc1 u.psd.cc) (d == 0x8000000000000000#64) (ccSign (0#64 - d)))
        (u.overflowPending (d == 0x8000000000000000#64))) ∧
    (∃ t, ∃ v : Double, exec (.lad r a) s = .next t ∧ v = (if d.toInt < 0 then 0#64 - d else d) ∧
      (r[0] = false → t.reg r = v.extractLsb' 32 32) ∧ t.reg (ru1 r) = v.extractLsb' 0 32 ∧
      u.Writes t [r, ru1 r] (ccOf (cc1 u.psd.cc) (d == 0x8000000000000000#64) (ccSign v))
        (u.overflowPending (d == 0x8000000000000000#64))) ∧
    (∃ t, ∃ v : Double, exec (.ad r a) s = .next t ∧ v = (u.reg r ++ u.reg (ru1 r)) + d ∧
      (r[0] = false → t.reg r = v.extractLsb' 32 32) ∧ t.reg (ru1 r) = v.extractLsb' 0 32 ∧
      u.Writes t [r, ru1 r] (arithCC (addN (u.reg r ++ u.reg (ru1 r)) d))
        (u.overflowPending (addN (u.reg r ++ u.reg (ru1 r)) d).ov)) ∧
    (∃ t, ∃ v : Double, exec (.sd r a) s = .next t ∧ v = (u.reg r ++ u.reg (ru1 r)) - d ∧
      (r[0] = false → t.reg r = v.extractLsb' 32 32) ∧ t.reg (ru1 r) = v.extractLsb' 0 32 ∧
      u.Writes t [r, ru1 r] (arithCC (subN (u.reg r ++ u.reg (ru1 r)) d))
        (u.overflowPending (subN (u.reg r ++ u.reg (ru1 r)) d).ov)) ∧
    (∃ t, exec (.cd r a) s = .next t ∧
      u.Writes t [] (ccOf (cc1 u.psd.cc) (cc2 u.psd.cc) (ccSignInt ((u.reg r ++ u.reg (ru1 r)).toInt - d.toInt)))
        u.trapPending) ∧
    (∃ t, exec (.clm r a) s = .next t ∧
      u.Writes t [] (ccSignInt ((u.reg r).toInt - (d.extractLsb' 0 32).toInt) ++
        ccSignInt ((u.reg r).toInt - (d.extractLsb' 32 32).toInt)) u.trapPending)

/-- R250: what `Add` and `Sub` and their condition code are, for every width, in exact integers: the wrapped result, the
carry out of the unsigned sum (for a difference, no borrow), and the signed overflow. -/
def Obligations.SumsAndCarries : Prop :=
  ∀ (n : Nat) (a b : BitVec (n + 1)),
    ((addN a b).value.toNat = (a.toNat + b.toNat) % 2 ^ (n + 1) ∧
      ((addN a b).carry = true ↔ 2 ^ (n + 1) ≤ a.toNat + b.toNat) ∧
      ((addN a b).ov = true ↔ a.toInt + b.toInt < -2 ^ n ∨ 2 ^ n ≤ a.toInt + b.toInt)) ∧
    ((subN a b).value.toNat = (a.toNat + (2 ^ (n + 1) - b.toNat)) % 2 ^ (n + 1) ∧
      ((subN a b).carry = true ↔ b.toNat ≤ a.toNat) ∧
      ((subN a b).ov = true ↔ a.toInt - b.toInt < -2 ^ n ∨ 2 ^ n ≤ a.toInt - b.toInt)) ∧
    (∀ x : Sum (n + 1), (cc1 (arithCC x) = x.carry) ∧ (cc2 (arithCC x) = x.ov) ∧ cc34 (arithCC x) = ccSign x.value)

/-- R17: the condition-code helpers. -/
def Obligations.ConditionCodeHelpers : Prop :=
  ∀ (n : Nat) (a b : BitVec n),
    (ccSign a = if a.toInt = 0 then 0b00#2 else if 0 < a.toInt then 0b01#2 else 0b10#2) ∧
    (ccUcmp a b = if a.toNat = b.toNat then 0b00#2 else if b.toNat < a.toNat then 0b01#2 else 0b10#2) ∧
    (ccScmp a b = if a.toInt = b.toInt then 0b00#2 else if b.toInt < a.toInt then 0b01#2 else 0b10#2)

/-- DH and DW (R265, R266): the truncated quotient and, for DW with an even R, the remainder with the dividend's sign; a
zero divisor or a quotient outside 32 bits sets CC2, changes no register, and traps if AM = 1. -/
def Obligations.Division : Prop :=
  (∀ (s : State) (r : RegNum) (a : AddrField) (h : Half) (u : State), s.HalfOperand a h u →
    ∃ t, exec (.dh r a) s = .next t ∧
      (if h.toInt = 0 ∨ (u.reg r).toInt.tdiv h.toInt < -2 ^ 31 ∨ 2 ^ 31 ≤ (u.reg r).toInt.tdiv h.toInt then
        u.Writes t [] (ccOf (cc1 u.psd.cc) true (cc34 u.psd.cc)) (u.overflowPending true)
      else
        (t.reg r).toInt = (u.reg r).toInt.tdiv h.toInt ∧
        u.Writes t [r] (ccOf (cc1 u.psd.cc) false (ccSignInt ((u.reg r).toInt.tdiv h.toInt))) u.trapPending)) ∧
  (∀ (s : State) (r : RegNum) (a : AddrField) (w : Word) (n : Int) (u : State), s.WordOperand a w u →
    n = (if r[0] then (u.reg r).toInt else (u.reg r ++ u.reg (ru1 r)).toInt) →
    ∃ t, exec (.dw r a) s = .next t ∧
      (if w.toInt = 0 ∨ n.tdiv w.toInt < -2 ^ 31 ∨ 2 ^ 31 ≤ n.tdiv w.toInt then
        u.Writes t [] (ccOf (cc1 u.psd.cc) true (cc34 u.psd.cc)) (u.overflowPending true)
      else
        (t.reg (ru1 r)).toInt = n.tdiv w.toInt ∧ (r[0] = false → (t.reg r).toInt = n.tmod w.toInt) ∧
        u.Writes t [r, ru1 r] (ccOf (cc1 u.psd.cc) false (ccSignInt (n.tdiv w.toInt))) u.trapPending))

/-! ## Stores and read-modify-writes -/

/-- STB, STH, STW, STD, STS and STCF (R215-R219, R221): the bytes stored at the place of the operand, and nothing else but
STH's CC2, which looks at the register after the store. STS reads its word and writes it in two accesses, between which
other agents may act (R93). -/
def Obligations.StoreInstructions : Prop :=
  (∀ (s : State) (r : RegNum) (a : AddrField) (ea : ByteAddr) (p : Place) (u : State), s.ByteTarget a ea p u →
    (∃ t, exec (.stb r a) s = .next t ∧ t.loadByte p (ea.extractLsb' 0 2) = (u.reg r).extractLsb' 0 8 ∧
      (∀ k, k ≠ ea.extractLsb' 0 2 → t.loadByte p k = u.loadByte p k) ∧
      u.Stores t p (ea.extractLsb' 0 2).toNat 1 u.psd.cc u.trapPending) ∧
    (∃ t, exec (.stcf r a) s = .next t ∧
      t.loadByte p (ea.extractLsb' 0 2) = u.psd.cc ++ 0#1 ++ BitVec.ofBool u.psd.fs ++ BitVec.ofBool u.psd.fz ++
        BitVec.ofBool u.psd.fn ∧
      (∀ k, k ≠ ea.extractLsb' 0 2 → t.loadByte p k = u.loadByte p k) ∧
      u.Stores t p (ea.extractLsb' 0 2).toNat 1 u.psd.cc u.trapPending)) ∧
  (∀ (s : State) (r : RegNum) (a : AddrField) (ea : HalfAddr) (p : Place) (u : State), s.HalfTarget a ea p u →
    ∃ t, exec (.sth r a) s = .next t ∧ t.loadHalf p (ea.extractLsb' 0 1) = (u.reg r).extractLsb' 0 16 ∧
      (∀ k, k ≠ ea.extractLsb' 0 1 → t.loadHalf p k = u.loadHalf p k) ∧
      u.Stores t p (2 * (ea.extractLsb' 0 1).toNat) 2
        (if u.config.sthSetsCC2 then
          ccOf (cc1 u.psd.cc) (t.reg r != ((t.reg r).extractLsb' 0 16).signExtend 32) (cc34 u.psd.cc)
        else u.psd.cc) u.trapPending) ∧
  (∀ (s : State) (r : RegNum) (a : AddrField) (ea : WordAddr) (p : Place) (u : State), s.WordTarget a ea p u →
    ∃ t, exec (.stw r a) s = .next t ∧ t.loadWord p = u.reg r ∧ u.Stores t p 0 4 u.psd.cc u.trapPending) ∧
  (∀ (s : State) (r : RegNum) (a : AddrField) (ea : WordAddr) (old : Word) (p : Place) (x v u : State),
    s.effWord a = .ok ea x → x.readWord ea .read = .ok old v → u = v.others → u.mem.wf = true →
    u.resolve ea .write = .ok p →
    ∃ t, exec (.sts r a) s = .next t ∧
      (∀ k, k < 32 → (t.loadWord p).getLsbD k =
        if (u.reg (ru1 r)).getLsbD k then (u.reg r).getLsbD k else old.getLsbD k) ∧
      u.Stores t p 0 4 u.psd.cc u.trapPending) ∧
  (∀ (s : State) (r : RegNum) (a : AddrField) (ea : DoubleAddr) (p : Place) (u : State), s.DoubleTarget a ea p u →
    ∃ t, exec (.std r a) s = .next t ∧ t.loadDouble p = u.reg r ++ u.reg (ru1 r) ∧
      u.Stores t p 0 8 u.psd.cc u.trapPending)

/-- AWM, XW, MTB, MTH and MTW (R258, R222, R259-R261): one read-modify-write of the cell at the place of the operand, on
what the other agents left there. An XW between two registers swaps them. A modify-and-test with a zero delta is a test that
writes nothing; with another delta the cell changes by the signed delta. -/
def Obligations.AtomicInstructions : Prop :=
  (∀ (s : State) (r : RegNum) (a : AddrField) (ea : WordAddr) (p : Place) (u : State), s.WordTarget a ea p u →
    (∃ t, exec (.awm r a) s = .next t ∧ t.loadWord p = u.loadWord p + u.reg r ∧
      u.Stores t p 0 4 (arithCC (addN (u.loadWord p) (u.reg r)))
        (u.overflowPending (addN (u.loadWord p) (u.reg r)).ov)) ∧
    (∃ t, exec (.xw r a) s = .next t ∧ t.reg r = u.loadWord p ∧ t.loadWord p = u.reg r ∧
      u.Changes t (fun i => i = r ∨ p.IsReg 4 i) (p.Covers 4)
        (ccOf (cc1 u.psd.cc) (cc2 u.psd.cc) (ccSign (u.loadWord p))) u.trapPending) ∧
    (r ≠ 0#4 → ∃ t, exec (.mtw r a) s = .next t ∧ t.loadWord p = u.loadWord p + r.signExtend 32 ∧
      u.Stores t p 0 4 (arithCC (addN (u.loadWord p) (r.signExtend 32)))
        (u.overflowPending (addN (u.loadWord p) (r.signExtend 32)).ov))) ∧
  (∀ (s : State) (r : RegNum) (a : AddrField) (ea : ByteAddr) (p : Place) (u : State) (b : Byte), r ≠ 0#4 →
    s.ByteTarget a ea p u → b = u.loadByte p (ea.extractLsb' 0 2) →
    ∃ t, exec (.mtb r a) s = .next t ∧
      ((t.loadByte p (ea.extractLsb' 0 2)).toNat : Int) = ((b.toNat : Int) + r.toInt) % 256 ∧
      (∀ k, k ≠ ea.extractLsb' 0 2 → t.loadByte p k = u.loadByte p k) ∧
      u.Stores t p (ea.extractLsb' 0 2).toNat 1
        (ccOf (decide (256 ≤ b.toNat + (r.signExtend 8).toNat)) false
          (ccNonzero (t.loadByte p (ea.extractLsb' 0 2)))) u.trapPending) ∧
  (∀ (s : State) (r : RegNum) (a : AddrField) (ea : HalfAddr) (p : Place) (u : State) (h : Half), r ≠ 0#4 →
    s.HalfTarget a ea p u → h = u.loadHalf p (ea.extractLsb' 0 1) →
    ∃ t, exec (.mth r a) s = .next t ∧ t.loadHalf p (ea.extractLsb' 0 1) = h + r.signExtend 16 ∧
      (∀ k, k ≠ ea.extractLsb' 0 1 → t.loadHalf p k = u.loadHalf p k) ∧
      u.Stores t p (2 * (ea.extractLsb' 0 1).toNat) 2 (arithCC (addN h (r.signExtend 16)))
        (u.overflowPending (addN h (r.signExtend 16)).ov)) ∧
  (∀ (s : State) (a : AddrField) (u : State),
    (∀ b, s.ByteOperand a b u → ∃ t, exec (.mtb 0#4 a) s = .next t ∧
      u.Writes t [] (ccOf false false (ccNonzero b)) u.trapPending) ∧
    (∀ h, s.HalfOperand a h u → ∃ t, exec (.mth 0#4 a) s = .next t ∧
      u.Writes t [] (ccOf false false (ccSign h)) u.trapPending) ∧
    (∀ w, s.WordOperand a w u → ∃ t, exec (.mtw 0#4 a) s = .next t ∧
      u.Writes t [] (ccOf false false (ccSign w)) u.trapPending))

/-! ## Multiple transfers and conversions -/

/-- LM and STM (R212, R220, R605, R61) of n = CC words (16 for CC = 0), no other agent acting between the accesses (see
`Obligations.Interference`). A word that is a register holds what an earlier transfer of the same instruction left there;
where two of STM's words are one real word, the later store stands. Where word k traps, the trap is pending, each register
or word before it is old or new, new being what the same transfers leave there where all are done, and nothing else has
changed; the free value drawn is not compared (notes/assumptions/16.md). -/
def Obligations.MultipleTransfers : Prop :=
  (∀ (s : State) (r : RegNum) (a : AddrField) (ea : WordAddr) (n : Nat) (p : Nat → Place), s.between = [] →
    s.effWord a = .ok ea s →
    n = (if s.psd.cc = 0#4 then 16 else s.psd.cc.toNat) →
    (∀ k, k < n → s.resolve (ea + BitVec.ofNat 17 k) .read = .ok (p k)) →
    ∃ t, exec (.lm r a) s = .next t ∧
      (∀ k, k < n → t.reg (r + BitVec.ofNat 4 k) =
        match p k with
        | .real rw => s.mem.readWord (4 * rw)
        | .reg j => if (j - r).toNat < k then t.reg j else s.reg j) ∧
      s.Changes t (fun i => (i - r).toNat < n) (fun _ => False) s.psd.cc s.trapPending) ∧
  (∀ (s : State) (r : RegNum) (a : AddrField) (ea : WordAddr) (n : Nat) (p : Nat → Place), s.between = [] →
    s.mem.wf = true → s.effWord a = .ok ea s → n = (if s.psd.cc = 0#4 then 16 else s.psd.cc.toNat) →
    (∀ k, k < n → s.resolve (ea + BitVec.ofNat 17 k) .write = .ok (p k)) →
    ∃ t, ∃ v : Nat → Word, exec (.stm r a) s = .next t ∧
      (∀ k, k < n → (∀ m, m < k → p m ≠ .reg (r + BitVec.ofNat 4 k)) → v k = s.reg (r + BitVec.ofNat 4 k)) ∧
      (∀ k m, k < n → m < k → p m = .reg (r + BitVec.ofNat 4 k) → v k = v m) ∧
      (∀ k, k < n → (∀ m, k < m → m < n → p m ≠ p k) → t.loadWord (p k) = v k) ∧
      s.Changes t (fun i => ∃ k, k < n ∧ p k = .reg i) (fun b => ∃ k, k < n ∧ (p k).Covers 4 b) s.psd.cc
        s.trapPending) ∧
  (∀ (s : State) (r : RegNum) (a : AddrField) (ea : WordAddr) (n k : Nat) (p : Nat → Place) (x : Trap), s.between = [] →
    s.effWord a = .ok ea s → n = (if s.psd.cc = 0#4 then 16 else s.psd.cc.toNat) → k < n →
    (∀ j, j < k → s.resolve (ea + BitVec.ofNat 17 j) .read = .ok (p j)) →
    s.resolve (ea + BitVec.ofNat 17 k) .read = .error x →
    ∃ t, ∃ v : Nat → Word, exec (.lm r a) s = .next t ∧
      (∀ j, j < k → v j =
        match p j with
        | .real rw => s.mem.readWord (4 * rw)
        | .reg i => if (i - r).toNat < j then v (i - r).toNat else s.reg i) ∧
      (∀ j, j < k → t.reg (r + BitVec.ofNat 4 j) = s.reg (r + BitVec.ofNat 4 j) ∨ t.reg (r + BitVec.ofNat 4 j) = v j) ∧
      s.Changes { t with freeCount := s.freeCount } (fun i => (i - r).toNat < k) (fun _ => False) s.psd.cc
        (some ⟨x.vector, x.cc, false⟩)) ∧
  (∀ (s : State) (r : RegNum) (a : AddrField) (ea : WordAddr) (n k : Nat) (p : Nat → Place) (x : Trap), s.between = [] →
    s.mem.wf = true → s.effWord a = .ok ea s → n = (if s.psd.cc = 0#4 then 16 else s.psd.cc.toNat) → k < n →
    (∀ j, j < k → s.resolve (ea + BitVec.ofNat 17 j) .write = .ok (p j)) →
    s.resolve (ea + BitVec.ofNat 17 k) .write = .error x →
    ∃ t, ∃ v : Nat → Word, exec (.stm r a) s = .next t ∧
      (∀ j, j < k → (∀ m, m < j → p m ≠ .reg (r + BitVec.ofNat 4 j)) → v j = s.reg (r + BitVec.ofNat 4 j)) ∧
      (∀ j m, j < k → m < j → p m = .reg (r + BitVec.ofNat 4 j) → v j = v m) ∧
      (∀ j, j < k → t.loadWord (p j) = s.loadWord (p j) ∨ ∃ m, m < k ∧ p m = p j ∧ t.loadWord (p j) = v m) ∧
      s.Changes { t with freeCount := s.freeCount } (fun i => ∃ j, j < k ∧ p j = .reg i)
        (fun b => ∃ j, j < k ∧ (p j).Covers 4 b) s.psd.cc (some ⟨x.vector, x.cc, false⟩))

/-- CVA and CVS (R275, R276). CVA adds the table words of the 1 bits of Ru1, CC1 saying that the exact sum does not fit 32
bits; CVS subtracts each table word that fits, `rem i` being what is left before word i. -/
def Obligations.Conversions : Prop :=
  (∀ (s : State) (r : RegNum) (a : AddrField) (ea : WordAddr) (w : Nat → Word) (total : Nat),
    s.between = [] → s.effWord a = .ok ea s →
    (∀ i, i < 32 → (s.reg (ru1 r)).getLsbD (31 - i) = true →
      s.readWord (ea + BitVec.ofNat 17 i) .read = .ok (w i) s) →
    total = ((List.range 32).map fun i => if (s.reg (ru1 r)).getLsbD (31 - i) then (w i).toNat else 0).sum →
    ∃ t, exec (.cva r a) s = .next t ∧ (t.reg r).toNat = total % 2 ^ 32 ∧
      s.Writes t [r] (ccOf (decide (2 ^ 32 ≤ total)) (cc2 s.psd.cc) (ccSign (t.reg r))) s.trapPending) ∧
  (∀ (s : State) (r : RegNum) (a : AddrField) (ea : WordAddr) (w : Nat → Word) (rem : Nat → Nat),
    s.between = [] → s.effWord a = .ok ea s → (∀ i, i < 32 → s.readWord (ea + BitVec.ofNat 17 i) .read = .ok (w i) s) →
    rem 0 = (s.reg (ru1 r)).toNat →
    (∀ i, i < 32 → rem (i + 1) = if (w i).toNat ≤ rem i then rem i - (w i).toNat else rem i) →
    ∃ t, exec (.cvs r a) s = .next t ∧
      (∀ i, i < 32 → (t.reg r).getLsbD (31 - i) = decide ((w i).toNat ≤ rem i)) ∧
      (r[0] = false → (t.reg (ru1 r)).toNat = rem 32) ∧
      s.Writes t [r, ru1 r] (ccOf (cc1 s.psd.cc) (cc2 s.psd.cc) (ccSign (t.reg r))) s.trapPending)

/-! ## Shifts, branches and EXU -/

/-- S (R303, R141): types 0, 2, 4 shift x[R], types 1, 3, 5 the pair; CC2 says that an arithmetic left shift does not fit;
CC1 is any value and draws one free value; types 6 and 7 are nonexistent. -/
def Obligations.Shift : Prop :=
  ∀ (s : State) (r : RegNum) (a : AddrField) (ea : WordAddr) (count : Int) (type : Nat) (u : State),
    s.effWord a = .ok ea u →
    count = (ea.extractLsb' 0 7).toInt → type = (ea.extractLsb' 8 3).toNat →
    (type = 0 ∨ type = 2 ∨ type = 4 →
      ∃ t, ∃ c ov : Bool, exec (.s r a) s = .next t ∧ ShiftsTo (type / 2) count (u.reg r) (t.reg r) ∧
        (ov = true ↔ type = 4 ∧ 0 < count ∧ ((u.reg r).toInt * 2 ^ count.toNat < -2 ^ 31 ∨
          2 ^ 31 ≤ (u.reg r).toInt * 2 ^ count.toNat)) ∧
        u.Writes { t with freeCount := u.freeCount } [r] (ccOf c ov (cc34 u.psd.cc)) u.trapPending) ∧
    (type = 1 ∨ type = 3 ∨ type = 5 →
      ∃ t, ∃ w : Double, ∃ c ov : Bool, exec (.s r a) s = .next t ∧
        ShiftsTo (type / 2) count (u.reg r ++ u.reg (ru1 r)) w ∧
        (r[0] = false → t.reg r = w.extractLsb' 32 32) ∧ t.reg (ru1 r) = w.extractLsb' 0 32 ∧
        (ov = true ↔ type = 5 ∧ 0 < count ∧ ((u.reg r ++ u.reg (ru1 r)).toInt * 2 ^ count.toNat < -2 ^ 63 ∨
          2 ^ 63 ≤ (u.reg r ++ u.reg (ru1 r)).toInt * 2 ^ count.toNat)) ∧
        u.Writes { t with freeCount := u.freeCount } [r, ru1 r] (ccOf c ov (cc34 u.psd.cc)) u.trapPending) ∧
    (type = 6 ∨ type = 7 → exec (.s r a) s = .next { u with trapPending := some ⟨0x40, 0b1000#4, false⟩ })

/-- BCR, BCS, BAL, BDR and BIR (R340-R344, R346): the target, the link and the counts, and nothing else but the branch
outcome. In `exec` the pc already is the address of the next instruction. -/
def Obligations.Branches : Prop :=
  ∀ (s : State) (r : RegNum) (a : AddrField) (t : WordAddr) (v : State), s.effWord a = .ok t v →
    exec (.bcr r a) s = .next { v with
      psd := { v.psd with ia := if r &&& v.psd.cc = 0#4 then t else v.psd.ia }
      branchOutcome := some (decide (r &&& v.psd.cc = 0#4)) } ∧
    exec (.bcs r a) s = .next { v with
      psd := { v.psd with ia := if r &&& v.psd.cc = 0#4 then v.psd.ia else t }
      branchOutcome := some (decide (r &&& v.psd.cc ≠ 0#4)) } ∧
    (∃ u, exec (.bal r a) s = .next u ∧ (u.reg r).toNat = v.psd.ia.toNat ∧ u.psd.ia = t ∧
      u.branchOutcome = some true ∧
      v.Writes { u with psd := { u.psd with ia := v.psd.ia }, branchOutcome := v.branchOutcome } [r] v.psd.cc
        v.trapPending) ∧
    (∃ u, exec (.bdr r a) s = .next u ∧ u.reg r = v.reg r - 1#32 ∧
      u.psd.ia = (if 0 < (u.reg r).toInt then t else v.psd.ia) ∧
      u.branchOutcome = some (decide (0 < (u.reg r).toInt)) ∧
      v.Writes { u with psd := { u.psd with ia := v.psd.ia }, branchOutcome := v.branchOutcome } [r] v.psd.cc
        v.trapPending) ∧
    (∃ u, exec (.bir r a) s = .next u ∧ u.reg r = v.reg r + 1#32 ∧
      u.psd.ia = (if (u.reg r).toInt < 0 then t else v.psd.ia) ∧
      u.branchOutcome = some (decide ((u.reg r).toInt < 0)) ∧
      v.Writes { u with psd := { u.psd with ia := v.psd.ia }, branchOutcome := v.branchOutcome } [r] v.psd.cc
        v.trapPending)

/-- EXU (R345): the subject word, read with mode execute, does what it would have done fetched, one level deeper; a word
that decodes to nothing is a nonexistent instruction; beyond `EXU_LIMIT` the machine stops. -/
def Obligations.Execute : Prop :=
  ∀ (s : State) (r : RegNum) (a : AddrField) (ea : WordAddr) (w : Word) (x u : State), s.effWord a = .ok ea x →
    x.readWord ea .execute = .ok w u →
    (∀ i, u.exuDepth < u.config.exuLimit → decode w = .ok i →
      ∃ t, exec (.exu r a) s = .next t ∧ exec i { u with exuDepth := u.exuDepth + 1 } = .next t) ∧
    (∀ q v, u.exuDepth < u.config.exuLimit → decode w = .ok (.li q v) →
      ∃ t, exec (.exu r a) s = .next t ∧ t.reg q = v.signExtend 32 ∧ t.exuDepth = u.exuDepth + 1 ∧
        u.Writes { t with exuDepth := u.exuDepth } [q]
          (ccOf (cc1 u.psd.cc) (cc2 u.psd.cc) (ccSign (v.signExtend 32))) u.trapPending) ∧
    (∀ e, u.exuDepth < u.config.exuLimit → decode w = .error e →
      exec (.exu r a) s =
        .next { u with exuDepth := u.exuDepth + 1, trapPending := some ⟨0x40, 0b1000#4, false⟩ }) ∧
    (u.config.exuLimit ≤ u.exuDepth →
      exec (.exu r a) s = .next (({ u with exuDepth := u.exuDepth + 1 } : State).Halted .exuLimit))

/-! ## Push-down stacks -/

/-- PSW and PSM (R372, R374, R371) within the limits, when every stack word and the stack pointer may be accessed and no other
agent acts between the accesses: the
words go above the top, the pointer moves up and CC tells of its counts. A stack word keeps its value unless a later
store of the instruction reuses its place. -/
def Obligations.StackPush : Prop :=
  ∀ (s : State) (r : RegNum) (a : AddrField) (ea : DoubleAddr) (q : Place) (sp : StackPointer) (i : Instr) (n : Nat)
    (p : Nat → Place), s.between = [] → s.mem.wf = true → s.effDouble a = .ok ea s →
    s.resolve (ea ++ 0#1) .read = .ok q → s.resolve (ea ++ 0#1) .write = .ok q → sp = spdDecode (s.loadDouble q) →
    (i = .psw r a ∧ n = 1 ∨ i = .psm r a ∧ n = (if s.psd.cc = 0#4 then 16 else s.psd.cc.toNat)) →
    n ≤ sp.space.toNat → sp.words.toNat + n ≤ 32767 →
    (∀ k, k < n → s.resolve (sp.tsa + 1#17 + BitVec.ofNat 17 k) .write = .ok (p k)) →
    ∃ t, ∃ sp' : StackPointer, ∃ v : Nat → Word, exec i s = .next t ∧ sp.Moved sp' n ∧
      t.HoldsDouble q (spdEncode sp') (fun _ => False) ∧
      (∀ k, k < n → (∀ m, m < k → p m ≠ .reg (r + BitVec.ofNat 4 k)) → v k = s.reg (r + BitVec.ofNat 4 k)) ∧
      (∀ k m, k < n → m < k → p m = .reg (r + BitVec.ofNat 4 k) → v k = v m) ∧
      (∀ k, k < n → (p k).Disjoint q → (∀ m, k < m → m < n → p m ≠ p k) → t.loadWord (p k) = v k) ∧
      s.Changes t (fun j => q.IsReg 8 j ∨ ∃ k, k < n ∧ p k = .reg j)
        (fun b => q.Covers 8 b ∨ ∃ k, k < n ∧ (p k).Covers 4 b) sp'.CC s.trapPending

/-- PLW and PLM (R373, R375, R371) within the limits, when every stack word and the stack pointer may be accessed and no other
agent acts between the accesses. PLW
writes the pointer before its register; PLM loads its registers, each after the one before, then writes the pointer. -/
def Obligations.StackPull : Prop :=
  (∀ (s : State) (r : RegNum) (a : AddrField) (ea : DoubleAddr) (q : Place) (sp : StackPointer) (v : Word),
    s.between = [] → s.mem.wf = true → s.effDouble a = .ok ea s →
    s.resolve (ea ++ 0#1) .read = .ok q → s.resolve (ea ++ 0#1) .write = .ok q → sp = spdDecode (s.loadDouble q) →
    1 ≤ sp.words.toNat → sp.space.toNat + 1 ≤ 32767 → s.readWord sp.tsa .read = .ok v s →
    ∃ t, ∃ sp' : StackPointer, exec (.plw r a) s = .next t ∧ sp.Moved sp' (-1) ∧ t.reg r = v ∧
      t.HoldsDouble q (spdEncode sp') (· = r) ∧
      s.Changes t (fun j => j = r ∨ q.IsReg 8 j) (q.Covers 8) sp'.CC s.trapPending) ∧
  (∀ (s : State) (r : RegNum) (a : AddrField) (ea : DoubleAddr) (q : Place) (sp : StackPointer) (n : Nat)
    (p : Nat → Place), s.between = [] → s.mem.wf = true → s.effDouble a = .ok ea s →
    s.resolve (ea ++ 0#1) .read = .ok q → s.resolve (ea ++ 0#1) .write = .ok q → sp = spdDecode (s.loadDouble q) →
    n = (if s.psd.cc = 0#4 then 16 else s.psd.cc.toNat) →
    n ≤ sp.words.toNat → sp.space.toNat + n ≤ 32767 →
    (∀ k, k < n → s.resolve (sp.tsa - BitVec.ofNat 17 n + 1#17 + BitVec.ofNat 17 k) .read = .ok (p k)) →
    ∃ t, ∃ sp' : StackPointer, ∃ v : Nat → Word, exec (.plm r a) s = .next t ∧ sp.Moved sp' (-(n : Int)) ∧
      t.HoldsDouble q (spdEncode sp') (fun _ => False) ∧
      (∀ k, k < n → v k =
        match p k with
        | .real rw => s.mem.readWord (4 * rw)
        | .reg j => if (j - r).toNat < k then v (j - r).toNat else s.reg j) ∧
      (∀ k, k < n → ¬q.IsReg 8 (r + BitVec.ofNat 4 k) → t.reg (r + BitVec.ofNat 4 k) = v k) ∧
      s.Changes t (fun j => (j - r).toNat < n ∨ q.IsReg 8 j) (q.Covers 8) sp'.CC s.trapPending)

/-- MSP (R376): the pointer moves by the signed low half of x[R]; a zero modifier only sets CC. -/
def Obligations.ModifyStackPointer : Prop :=
  ∀ (s : State) (r : RegNum) (a : AddrField) (ea : DoubleAddr) (q : Place) (sp : StackPointer) (m : Int),
    s.between = [] → s.mem.wf = true → s.effDouble a = .ok ea s → s.resolve (ea ++ 0#1) .read = .ok q →
    sp = spdDecode (s.loadDouble q) → m = ((s.reg r).extractLsb' 0 16).toInt →
    (m = 0 → ∃ t, exec (.msp r a) s = .next t ∧ s.Writes t [] sp.CC s.trapPending) ∧
    (m ≠ 0 → s.resolve (ea ++ 0#1) .write = .ok q →
      0 ≤ (sp.space.toNat : Int) - m → (sp.space.toNat : Int) - m ≤ 32767 →
      0 ≤ (sp.words.toNat : Int) + m → (sp.words.toNat : Int) + m ≤ 32767 →
      ∃ t, ∃ sp' : StackPointer, exec (.msp r a) s = .next t ∧ sp.Moved sp' m ∧
        t.HoldsDouble q (spdEncode sp') (fun _ => False) ∧
        s.Changes t (q.IsReg 8) (q.Covers 8) sp'.CC s.trapPending)

/-- The stack pointer doubleword by its bits (R370): bits 63-49 ignored and preserved, TSA 48-32, TS 31, SPACE 30-16, TW 15,
WORDS 14-0. And the stack limits (R371), for a change of n words: the space limit first, then the word limit. With its
inhibit bit set a limit sets its CC bit and nothing else happens, whatever the stack words and the pointer's write would meet:
no access is made. Otherwise it traps and changes nothing, where every stack word and the pointer's write may be accessed (R604:
a memory trap comes first, see `Obligations.PreciseTraps`). -/
def Obligations.StackLimits : Prop :=
  (∀ d : Double,
    (spdDecode d).pre.toNat = d.toNat / 2 ^ 49 ∧ (spdDecode d).tsa.toNat = d.toNat / 2 ^ 32 % 2 ^ 17 ∧
    (spdDecode d).ts = d.getLsbD 31 ∧ (spdDecode d).space.toNat = d.toNat / 2 ^ 16 % 2 ^ 15 ∧
    (spdDecode d).tw = d.getLsbD 15 ∧ (spdDecode d).words.toNat = d.toNat % 2 ^ 15 ∧ spdEncode (spdDecode d) = d) ∧
  (∀ p : StackPointer, (spdEncode p).toNat = p.pre.toNat * 2 ^ 49 + p.tsa.toNat * 2 ^ 32 + p.ts.toNat * 2 ^ 31 +
    p.space.toNat * 2 ^ 16 + p.tw.toNat * 2 ^ 15 + p.words.toNat) ∧
  ∀ (s : State) (r : RegNum) (a : AddrField) (ea : DoubleAddr) (d : Double) (sp : StackPointer) (i : Instr) (n : Int)
    (v u : State), s.effDouble a = .ok ea v → v.readDouble ea .read = .ok d u → sp = spdDecode d →
    (i = .psw r a ∧ n = 1 ∨ i = .psm r a ∧ n = (if u.psd.cc = 0#4 then 16 else (u.psd.cc.toNat : Int)) ∨
      i = .plw r a ∧ n = -1 ∨ i = .plm r a ∧ n = -(if u.psd.cc = 0#4 then 16 else (u.psd.cc.toNat : Int)) ∨
      i = .msp r a ∧ n = ((u.reg r).extractLsb' 0 16).toInt ∧ n ≠ 0) →
    (sp.SpaceLimit n → sp.ts = true → exec i s = .next { u with psd := { u.psd with cc := u.psd.cc ||| 0b1000#4 } }) ∧
    (¬sp.SpaceLimit n → sp.WordLimit n → sp.tw = true →
      exec i s = .next { u with psd := { u.psd with cc := u.psd.cc ||| 0b0100#4 } }) ∧
    (∀ q : Place, u.resolve (ea ++ 0#1) .write = .ok q →
      (i = .psw r a ∨ i = .psm r a → ∀ k : Nat, (k : Int) < n →
        ∃ p, u.resolve (sp.tsa + 1#17 + BitVec.ofNat 17 k) .write = .ok p) →
      (i = .plw r a ∨ i = .plm r a → ∀ k : Nat, (k : Int) < -n →
        ∃ p, u.resolve (sp.tsa + BitVec.ofInt 17 n + 1#17 + BitVec.ofNat 17 k) .read = .ok p) →
      (sp.SpaceLimit n → sp.ts = false → exec i s = .next { u with trapPending := some ⟨0x42, 0b1000#4, false⟩ }) ∧
      (¬sp.SpaceLimit n → sp.WordLimit n → sp.tw = false →
        exec i s = .next { u with trapPending := some ⟨0x42, 0b0100#4, false⟩ }))

/-! ## Floating point -/

/-- FAS, FSS, FMS, FDS and FAL, FSL, FML, FDL (R395-R403, R143, R602). With the option installed: what each does with its
`FLOAT_ARITH` result (whose value is `Obligations.FloatResults`). `F` is the configuration's `FLOAT_ARITH` by its number, the
operation, the operands and FS, FZ, FN: whether it rounds an inexact result up, and the word it proposes with FN = 1; number
0 is the reference one of R394, which does neither. That `FLOAT_ARITH`s are numbered, and what another may do, is the
model's (notes/assumptions/12.md, 13.md). A fault leaves CC1 and CC2 any value and the free value drawn is not compared.
Without the option the trap X'41' is pending and nothing else changes. -/
def Obligations.FloatInstructions : Prop :=
  (∃ F : Nat → FloatOp → (n : Nat) → BitVec n → BitVec n → Bool → Bool → Bool → Bool × Option (BitVec n),
    (∀ op n x y fs fz fn, F 0 op n x y fs fz fn = (false, none)) ∧
    (∀ (s : State) (r : RegNum) (a : AddrField) (w : Word) (u : State) (i : Instr) (op : FloatOp)
      (f : Bool × Option Word) (res : FloatResult 32),
      s.config.floatOption = true → s.WordOperand a w u →
      (i, op) ∈ [(Instr.fas r a, FloatOp.add), (.fss r a, .sub), (.fms r a, .mul), (.fds r a, .div)] →
      f = F s.config.floatInstance op 32 (u.reg r) w u.psd.fs u.psd.fz u.psd.fn →
      res = floatArith op (u.reg r) w u.psd.fs u.psd.fz u.psd.fn f.1 f.2 →
      ∃ t, exec i s = .next t ∧
        (∀ v, res = .ok v → t.reg r = v ∧ u.Writes t [r] (ccOf false false (ccSign v)) u.trapPending) ∧
        (∀ v, res = .sig v → t.reg r = v ∧
          u.Writes t [r] (ccOf false false (ccSign v)) (some ⟨0x44, 0#4, false⟩)) ∧
        (res = .overflow ∨ res = .underflow ∨ res = .divzero → ∃ c1 c2 : Bool,
          u.Writes { t with freeCount := u.freeCount } [] (ccOf c1 c2 (cc34 u.psd.cc)) (some ⟨0x44, 0#4, false⟩))) ∧
    (∀ (s : State) (r : RegNum) (a : AddrField) (d : Double) (u : State) (i : Instr) (op : FloatOp)
      (f : Bool × Option Double) (res : FloatResult 64),
      s.config.floatOption = true → s.DoubleOperand a d u →
      (i, op) ∈ [(Instr.fal r a, FloatOp.add), (.fsl r a, .sub), (.fml r a, .mul), (.fdl r a, .div)] →
      f = F s.config.floatInstance op 64 (u.reg r ++ u.reg (ru1 r)) d u.psd.fs u.psd.fz u.psd.fn →
      res = floatArith op (u.reg r ++ u.reg (ru1 r)) d u.psd.fs u.psd.fz u.psd.fn f.1 f.2 →
      ∃ t, exec i s = .next t ∧
        (∀ v, res = .ok v →
          (r[0] = false → t.reg r = v.extractLsb' 32 32) ∧ t.reg (ru1 r) = v.extractLsb' 0 32 ∧
          u.Writes t [r, ru1 r] (ccOf false false (ccSign v)) u.trapPending) ∧
        (∀ v, res = .sig v →
          (r[0] = false → t.reg r = v.extractLsb' 32 32) ∧ t.reg (ru1 r) = v.extractLsb' 0 32 ∧
          u.Writes t [r, ru1 r] (ccOf false false (ccSign v)) (some ⟨0x44, 0#4, false⟩)) ∧
        (res = .overflow ∨ res = .underflow ∨ res = .divzero → ∃ c1 c2 : Bool,
          u.Writes { t with freeCount := u.freeCount } [] (ccOf c1 c2 (cc34 u.psd.cc)) (some ⟨0x44, 0#4, false⟩)))) ∧
  (∀ (s : State) (r : RegNum) (a : AddrField) (i : Instr), s.config.floatOption = false →
    i ∈ [Instr.fas r a, .fss r a, .fms r a, .fds r a, .fal r a, .fsl r a, .fml r a, .fdl r a] →
    exec i s = .next { s with trapPending := some ⟨0x41, 0#4, false⟩ })

/-- `FLOAT_ARITH` (R391, R392, R394) for short and long numbers. The exact result is `num / den` in units of the smallest
fraction digit at characteristic 0, in which `floatValue` counts. Division by zero, the true zero, overflow and underflow are
as stated; otherwise the normalized fraction f of the exact result truncated toward zero, at a characteristic c in range, is
what the reference instance (`up` = false, nothing proposed) returns, and with `up` an inexact result has one more in its last
digit (which may overflow). The word has the exact result's sign and is marked `sig` exactly when FS = 1 and an add or
subtract shifted more than two digits left. With FN = 1 an add or subtract to which a word is proposed returns that word, if
its value is the exact result truncated at the larger characteristic and it is not the word with only the sign bit set, and
otherwise the normalized word. That overflow, underflow and significance with FN = 1 are
judged on these words is the model's (notes/assumptions/12.md), and so are the value and the characteristic of a sign-only
operand (notes/assumptions/15.md) and the rounding of an instance that does not truncate (notes/assumptions/13.md). -/
def Obligations.FloatResults : Prop :=
  ∀ (n d : Nat) (op : FloatOp) (a b : BitVec n) (proposed : Option (BitVec n)) (fs fz fn up : Bool) (x y num : Int)
    (den : Nat) (res : FloatResult n),
    (n = 32 ∧ d = 6 ∨ n = 64 ∧ d = 14) → x = floatValue a → y = floatValue b →
    (op = .add → num = x + y ∧ den = 1) → (op = .sub → num = x - y ∧ den = 1) →
    (op = .mul → num = x * y ∧ den = 16 ^ (64 + d)) →
    (op = .div → num = (if y < 0 then -x else x) * 16 ^ (64 + d) ∧ den = y.natAbs) →
    res = floatArith op a b fs fz fn up proposed →
    (op = .div ∧ y = 0 → res = .divzero) ∧
    (¬(op = .div ∧ y = 0) →
      (num = 0 → res = .ok 0) ∧
      (den * 16 ^ (127 + d) ≤ num.natAbs → res = .overflow) ∧
      (num ≠ 0 → num.natAbs < den * 16 ^ (d - 1) → res = if fz then .underflow else .ok 0) ∧
      (den * 16 ^ (d - 1) ≤ num.natAbs → num.natAbs < den * 16 ^ (127 + d) →
        ∃ c f c' f' : Nat, c ≤ 127 ∧ 16 ^ (d - 1) ≤ f ∧ f < 16 ^ d ∧
          den * (f * 16 ^ c) ≤ num.natAbs ∧ num.natAbs < den * ((f + 1) * 16 ^ c) ∧
          (up = false ∨ num.natAbs = den * (f * 16 ^ c) → c' = c ∧ f' = f) ∧
          (up = true → num.natAbs ≠ den * (f * 16 ^ c) →
            16 ^ (d - 1) ≤ f' ∧ f' < 16 ^ d ∧ f' * 16 ^ c' = (f + 1) * 16 ^ c) ∧
          (127 < c' → res = .overflow) ∧
          (c' ≤ 127 → ∃ (w v : BitVec n) (m : Nat),
            floatValue w = (if num < 0 then -((f' * 16 ^ c' : Nat) : Int) else (f' * 16 ^ c' : Nat)) ∧
            characteristic w = c' ∧ m = max (characteristic a) (characteristic b) ∧
            w ≠ BitVec.intMin n ∧ (¬((op = .add ∨ op = .sub) ∧ fn = true) ∨ proposed = none → v = w) ∧
            (∀ p, (op = .add ∨ op = .sub) ∧ fn = true → proposed = some p →
              v = if p ≠ BitVec.intMin n ∧ floatValue p = (if num < 0 then -((num.natAbs / 16 ^ m * 16 ^ m : Nat) : Int)
                else (num.natAbs / 16 ^ m * 16 ^ m : Nat)) then p else w) ∧
            res = if (op = .add ∨ op = .sub) ∧ fs = true ∧ characteristic v + 2 < m then .sig v else .ok v)))

/-- SF (R404, R143, R602) for short (`EWA[8]` = 0) and long operands: characteristic and fraction of the shifted number, the
true zero for an emptied fraction, and CC1 CC2 alone when the characteristic leaves its range. That the range comes first
where the fraction is emptied too, and that a word whose fraction already was 0 becomes the true zero by a right shift, is
the model's (notes/assumptions/38.md). What becomes of the word with only the sign bit set the spec leaves open (R391), but
by the count 0 it stays. Without the option the trap X'41' is pending and nothing else changes. -/
def Obligations.ShiftFloating : Prop :=
  (∀ (s : State) (r : RegNum) (a : AddrField), s.config.floatOption = false →
    exec (.sf r a) s = .next { s with trapPending := some ⟨0x41, 0#4, false⟩ }) ∧
  (∀ (s : State) (r : RegNum) (a : AddrField) (ea : WordAddr) (count : Int) (v : Word) (u : State),
    s.config.floatOption = true →
    s.effWord a = .ok ea u → ea[8] = false → count = (ea.extractLsb' 0 7).toInt → v = u.reg r →
    (v = 0x80000000#32 → ∃ t, ∃ cc : BitVec 4, exec (.sf r a) s = .next t ∧ (count = 0 → t.reg r = v) ∧
      u.Writes { t with freeCount := u.freeCount } [r] cc u.trapPending) ∧
    (v = 0#32 → ∃ t, exec (.sf r a) s = .next t ∧ u.Writes t [] 0#4 u.trapPending) ∧
    (∀ (c : Int) (f : Nat), v ≠ 0#32 → v ≠ 0x80000000#32 → FloatShiftsTo count v c f →
      (0 ≤ c ∧ c ≤ 127 → ∃ t, exec (.sf r a) s = .next t ∧
        t.reg r = (if count < 0 ∧ f = 0 then 0#32
          else if v.toInt < 0 then 0#32 - BitVec.ofNat 32 (c.toNat * 2 ^ 24 + f)
          else BitVec.ofNat 32 (c.toNat * 2 ^ 24 + f)) ∧
        u.Writes t [r] (ccOf false false (ccSign (t.reg r))) u.trapPending) ∧
      (c < 0 ∨ 127 < c → ∃ t, ∃ c1 c2 : Bool, exec (.sf r a) s = .next t ∧
        u.Writes { t with freeCount := u.freeCount } [] (ccOf c1 c2 (cc34 u.psd.cc)) u.trapPending))) ∧
  (∀ (s : State) (r : RegNum) (a : AddrField) (ea : WordAddr) (count : Int) (v : Double) (u : State),
    s.config.floatOption = true → s.effWord a = .ok ea u → ea[8] = true → count = (ea.extractLsb' 0 7).toInt →
    v = u.reg r ++ u.reg (ru1 r) →
    (v = 0x8000000000000000#64 → ∃ t, ∃ cc : BitVec 4, exec (.sf r a) s = .next t ∧
      (count = 0 → t.reg r = u.reg r ∧ t.reg (ru1 r) = u.reg (ru1 r)) ∧
      u.Writes { t with freeCount := u.freeCount } [r, ru1 r] cc u.trapPending) ∧
    (v = 0#64 → ∃ t, exec (.sf r a) s = .next t ∧ u.Writes t [] 0#4 u.trapPending) ∧
    (∀ (c : Int) (f : Nat), v ≠ 0#64 → v ≠ 0x8000000000000000#64 → FloatShiftsTo count v c f →
      (0 ≤ c ∧ c ≤ 127 → ∃ t, ∃ w : Double, exec (.sf r a) s = .next t ∧
        w = (if count < 0 ∧ f = 0 then 0#64
          else if v.toInt < 0 then 0#64 - BitVec.ofNat 64 (c.toNat * 2 ^ 56 + f)
          else BitVec.ofNat 64 (c.toNat * 2 ^ 56 + f)) ∧
        (r[0] = false → t.reg r = w.extractLsb' 32 32) ∧ t.reg (ru1 r) = w.extractLsb' 0 32 ∧
        u.Writes t [r, ru1 r] (ccOf false false (ccSign w)) u.trapPending) ∧
      (c < 0 ∨ 127 < c → ∃ t, ∃ c1 c2 : Bool, exec (.sf r a) s = .next t ∧
        u.Writes { t with freeCount := u.freeCount } [] (ccOf c1 c2 (cc34 u.psd.cc)) u.trapPending)))

/-! ## Byte strings -/

/-- MBS and TBS (R420, R421, R423, R605): C = 0 does nothing; a first byte that cannot be accessed traps with nothing done; a
string in real memory, no other agent acting between the accesses, is moved or translated byte by byte upward, `m k` being
memory after k bytes, to its end (j = C) or to the first byte j that cannot be read, looked up or stored: the bytes before it
are done, the registers describe the rest from j on, and that trap is pending. For MBS with R even, other than 0, one byte
done and the instruction run again is the instruction; with R = 0, which holds no source to write back (R420), the rest is the
same instruction with its displacement one higher. With R odd, x[R] and x[Ru1] are one register; that it ends describing count and
destination is the model's order of the writes (notes/assumptions/22.md). -/
def Obligations.MoveAndTranslate : Prop :=
  (∀ (s : State) (r : RegNum) (v : BitVec 20), s.stringCount r = 0 →
    exec (.mbs r v) s = .next s ∧ exec (.tbs r v) s = .next s) ∧
  (∀ (s : State) (r : RegNum) (v : BitVec 20) (x : Trap) (u : State), 0 < s.stringCount r →
    (s.readByte (s.stringSource r + stringDisp v) .read = .trap x u ∨
      (∃ b y, s.readByte (s.stringSource r + stringDisp v) .read = .ok b y ∧
        y.resolve ((s.stringDest r).extractLsb' 2 17) .write = .error x ∧ u = y.others) →
      exec (.mbs r v) s = .next { u with trapPending := some ⟨x.vector, x.cc, false⟩ }) ∧
    (s.readByte (s.stringDest r) .read = .trap x u →
      exec (.tbs r v) s = .next { u with trapPending := some ⟨x.vector, x.cc, false⟩ })) ∧
  (∀ (s : State) (r : RegNum) (v : BitVec 20) (b : Byte) (u t : State), r[0] = false → 0 < s.stringCount r →
    s.readByte (s.stringSource r + stringDisp v) .read = .ok b u → u.writeByte (s.stringDest r) b = .ok () t →
    exec (.mbs r v) s = exec (.mbs r (if r = 0#4 then v + 1#20 else v))
      ((t.putSource r (s.stringSource r + 1#19)).putDest r (s.stringCount r - 1) (s.stringDest r + 1#19))) ∧
  (∀ (s : State) (r : RegNum) (v : BitVec 20) (src dst : ByteAddr) (n j : Nat) (d e : Nat → Nat) (m : Nat → Memory)
    (trap : Option TrapData),
    s.between = [] → src = (if r = 0#4 then 0#19 else (s.reg r).extractLsb' 0 19) →
    dst = (s.reg (ru1 r)).extractLsb' 0 19 → n = ((s.reg (ru1 r)).extractLsb' 24 8).toNat → m 0 = s.mem →
    (∀ k, k < j → s.RealByte (src + v.setWidth 19 + BitVec.ofNat 19 k) .read (e k) ∧
      s.RealByte (dst + BitVec.ofNat 19 k) .write (d k) ∧ m (k + 1) = (m k).write (d k) ((m k).read (e k))) →
    (j = n ∧ trap = s.trapPending ∨ j < n ∧ ∃ x, trap = some ⟨x.vector, x.cc, false⟩ ∧
      (s.resolve ((src + v.setWidth 19 + BitVec.ofNat 19 j).extractLsb' 2 17) .read = .error x ∨
        s.RealByte (src + v.setWidth 19 + BitVec.ofNat 19 j) .read (e j) ∧
          s.resolve ((dst + BitVec.ofNat 19 j).extractLsb' 2 17) .write = .error x)) →
    ∃ t, exec (.mbs r v) s = .next t ∧ t.mem = m j ∧
      t.reg (ru1 r) = BitVec.ofNat 8 (n - j) ++ (s.reg (ru1 r)).extractLsb' 19 5 ++ (dst + BitVec.ofNat 19 j) ∧
      (r ≠ 0#4 → r[0] = false → t.reg r = (s.reg r).extractLsb' 19 13 ++ (src + BitVec.ofNat 19 j)) ∧
      s.Changes t (fun i => i = ru1 r ∨ i = r ∧ r ≠ 0#4) (fun b => ∃ k, k < j ∧ b = d k) s.psd.cc trap) ∧
  (∀ (s : State) (r : RegNum) (v : BitVec 20) (src dst : ByteAddr) (n j : Nat) (d e : Nat → Nat) (m : Nat → Memory)
    (trap : Option TrapData),
    s.between = [] → src = (if r = 0#4 then 0#19 else (s.reg r).extractLsb' 0 19) →
    dst = (s.reg (ru1 r)).extractLsb' 0 19 → n = ((s.reg (ru1 r)).extractLsb' 24 8).toNat → m 0 = s.mem →
    (∀ k, k < j → s.RealByte (dst + BitVec.ofNat 19 k) .read (d k) ∧ s.RealByte (dst + BitVec.ofNat 19 k) .write (d k) ∧
      s.RealByte (src + v.setWidth 19 + ((m k).read (d k)).setWidth 19) .read (e k) ∧
      m (k + 1) = (m k).write (d k) ((m k).read (e k))) →
    (j = n ∧ trap = s.trapPending ∨ j < n ∧ ∃ x, trap = some ⟨x.vector, x.cc, false⟩ ∧
      (s.resolve ((dst + BitVec.ofNat 19 j).extractLsb' 2 17) .read = .error x ∨
        s.RealByte (dst + BitVec.ofNat 19 j) .read (d j) ∧
          (s.resolve ((src + v.setWidth 19 + ((m j).read (d j)).setWidth 19).extractLsb' 2 17) .read = .error x ∨
            s.RealByte (src + v.setWidth 19 + ((m j).read (d j)).setWidth 19) .read (e j) ∧
              s.resolve ((dst + BitVec.ofNat 19 j).extractLsb' 2 17) .write = .error x))) →
    ∃ t, exec (.tbs r v) s = .next t ∧ t.mem = m j ∧
      t.reg (ru1 r) = BitVec.ofNat 8 (n - j) ++ (s.reg (ru1 r)).extractLsb' 19 5 ++ (dst + BitVec.ofNat 19 j) ∧
      s.Changes t (· = ru1 r) (fun b => ∃ k, k < j ∧ b = d k) s.psd.cc trap)

/-- CBS and TTBS (R420, R422, R424, R605) on strings in real memory, no other agent acting between the accesses: they stop at
the first byte j that differs, or whose table byte has a bit of the mask, or at the end (j = C); or they trap at byte j, with
that trap pending and CC as it was (that CC is not yet written then is the model's: notes/assumptions/14.md). The registers
describe what is left from j on, memory is read only. With R odd, x[R] and x[Ru1] are one register; that CBS leaves count and
destination there, and TTBS its table byte beside the destination, is the model's order of the writes
(notes/assumptions/22.md). -/
def Obligations.CompareAndTest : Prop :=
  (∀ (s : State) (r : RegNum) (v : BitVec 20) (src dst : ByteAddr) (n j : Nat) (d e : Nat → Nat) (cc : BitVec 4)
    (trap : Option TrapData),
    s.between = [] → src = (if r = 0#4 then 0#19 else (s.reg r).extractLsb' 0 19) →
    dst = (s.reg (ru1 r)).extractLsb' 0 19 → n = ((s.reg (ru1 r)).extractLsb' 24 8).toNat →
    (∀ k, k < j → s.RealByte (src + v.setWidth 19 + BitVec.ofNat 19 k) .read (e k) ∧
      s.RealByte (dst + BitVec.ofNat 19 k) .read (d k) ∧ s.mem.read (e k) = s.mem.read (d k)) →
    (j = n ∧ trap = s.trapPending ∧ cc = ccOf (cc1 s.psd.cc) (cc2 s.psd.cc) 0#2 ∨
      j < n ∧ trap = s.trapPending ∧ s.RealByte (src + v.setWidth 19 + BitVec.ofNat 19 j) .read (e j) ∧
        s.RealByte (dst + BitVec.ofNat 19 j) .read (d j) ∧ s.mem.read (e j) ≠ s.mem.read (d j) ∧
        cc = ccOf (cc1 s.psd.cc) (cc2 s.psd.cc)
          (if (s.mem.read (d j)).toNat < (s.mem.read (e j)).toNat then 0b01#2 else 0b10#2) ∨
      j < n ∧ cc = s.psd.cc ∧ ∃ x, trap = some ⟨x.vector, x.cc, false⟩ ∧
        (s.resolve ((src + v.setWidth 19 + BitVec.ofNat 19 j).extractLsb' 2 17) .read = .error x ∨
          s.RealByte (src + v.setWidth 19 + BitVec.ofNat 19 j) .read (e j) ∧
            s.resolve ((dst + BitVec.ofNat 19 j).extractLsb' 2 17) .read = .error x)) →
    ∃ t, exec (.cbs r v) s = .next t ∧
      t.reg (ru1 r) = BitVec.ofNat 8 (n - j) ++ (s.reg (ru1 r)).extractLsb' 19 5 ++ (dst + BitVec.ofNat 19 j) ∧
      (r ≠ 0#4 → r[0] = false → t.reg r = (s.reg r).extractLsb' 19 13 ++ (src + BitVec.ofNat 19 j)) ∧
      s.Changes t (fun i => i = ru1 r ∨ i = r ∧ r ≠ 0#4) (fun _ => False) cc trap) ∧
  (∀ (s : State) (r : RegNum) (v : BitVec 20) (src dst : ByteAddr) (mask found : Byte) (n j : Nat) (d e : Nat → Nat)
    (cc : BitVec 4) (trap : Option TrapData),
    s.between = [] → src = (if r = 0#4 then 0#19 else (s.reg r).extractLsb' 0 19) →
    mask = (if r = 0#4 then 0#8 else (s.reg r).extractLsb' 24 8) →
    dst = (s.reg (ru1 r)).extractLsb' 0 19 → n = ((s.reg (ru1 r)).extractLsb' 24 8).toNat →
    (∀ k, k < j → s.RealByte (dst + BitVec.ofNat 19 k) .read (d k) ∧
      s.RealByte (src + v.setWidth 19 + (s.mem.read (d k)).setWidth 19) .read (e k) ∧
      s.mem.read (e k) &&& mask = 0#8) →
    (j = n ∧ trap = s.trapPending ∧ found = 0#8 ∧ cc = s.psd.cc.extractLsb' 1 3 ++ 0#1 ∨
      j < n ∧ trap = s.trapPending ∧ s.RealByte (dst + BitVec.ofNat 19 j) .read (d j) ∧
        s.RealByte (src + v.setWidth 19 + (s.mem.read (d j)).setWidth 19) .read (e j) ∧
        found = s.mem.read (e j) &&& mask ∧ found ≠ 0#8 ∧ cc = s.psd.cc.extractLsb' 1 3 ++ 1#1 ∨
      j < n ∧ found = 0#8 ∧ cc = s.psd.cc ∧ ∃ x, trap = some ⟨x.vector, x.cc, false⟩ ∧
        (s.resolve ((dst + BitVec.ofNat 19 j).extractLsb' 2 17) .read = .error x ∨
          s.RealByte (dst + BitVec.ofNat 19 j) .read (d j) ∧
            s.resolve ((src + v.setWidth 19 + (s.mem.read (d j)).setWidth 19).extractLsb' 2 17) .read = .error x)) →
    ∃ t, exec (.ttbs r v) s = .next t ∧
      (r[0] = false → t.reg (ru1 r) = BitVec.ofNat 8 (n - j) ++ (s.reg (ru1 r)).extractLsb' 19 5 ++
        (dst + BitVec.ofNat 19 j)) ∧
      (r[0] = false → r ≠ 0#4 → t.reg r = if found = 0#8 then s.reg r else found ++ (s.reg r).extractLsb' 0 24) ∧
      (r[0] = true → t.reg r = (if found = 0#8 then BitVec.ofNat 8 (n - j) else found) ++ (s.reg r).extractLsb' 19 5 ++
        (dst + BitVec.ofNat 19 j)) ∧
      s.Changes t (fun i => i = ru1 r ∨ i = r ∧ r ≠ 0#4) (fun _ => False) cc trap)

/-! ## Decimal -/

/-- R442: without the option every decimal instruction and EBS takes the unimplemented-instruction trap and changes
nothing. -/
def Obligations.DecimalUnimplemented : Prop :=
  ∀ (s : State) (r : RegNum) (a : AddrField) (v : BitVec 20) (i : Instr), s.config.decimalOption = false →
    i ∈ [Instr.dl r a, .dst r a, .da r a, .ds r a, .dm r a, .dd r a, .dc r a, .dsa r a, .pack r a, .unpk r a, .ebs r v] →
    exec i s = .next { s with trapPending := some ⟨0x41, 0#4, false⟩ }

/-- DL, DA, DS, DM, DD, DC and DSA (R430, R431, R433-R438, R35) with the option: on a readable L-byte field of value y and
an accumulator of value x within the limits the rules set, the decimal value the accumulator then holds, the sign nibble
of a result that is not 0, and CC3 CC4. A packed value is that of the digit nibbles and the sign nibble R430 gives, the
accumulator's bytes are those of x12 to x15, and a field's those at EBA and up. DSA shifts the 31 digits by the shift
control's count and keeps the sign; CC2 says that nonzero digits were lost on the left. That DL keeps the field's own sign
nibble, that CC1 and CC2 stay where no rule writes them, that DD leaves CC and gives its remainder the dividend's sign, and
that DSA writes CC2 alone, are the model's readings (notes/assumptions/21.md). -/
def Obligations.DecimalArithmetic : Prop :=
  (∀ (bs : List Byte) (ds : List (BitVec 4)) (g : BitVec 4) (n : Nat),
    bs.flatMap (fun b => [b.extractLsb' 4 4, b.extractLsb' 0 4]) = ds ++ [g] →
    n = ds.foldl (fun n d => 10 * n + d.toNat) 0 →
    ((∃ d ∈ ds, 9 < d.toNat) ∨ g.toNat < 10 → packedValue bs = none) ∧
    ((∀ d ∈ ds, d.toNat ≤ 9) → g ∈ [0xA#4, 0xC#4, 0xE#4, 0xF#4] → packedValue bs = some (n : Int)) ∧
    ((∀ d ∈ ds, d.toNat ≤ 9) → g ∈ [0xB#4, 0xD#4] → packedValue bs = some (-(n : Int)))) ∧
  (∀ s : State, s.accValue = packedValue
    ([12#4, 13#4, 14#4, 15#4].flatMap fun i => [24, 16, 8, 0].map fun k => (s.reg i).extractLsb' k 8)) ∧
  (∀ (s : State) (ea : ByteAddr) (bs : List Byte), s.between = [] →
    (readField bs.length ea s = .ok bs s ↔
      ∀ k, k < bs.length → s.peekByte (ea + BitVec.ofNat 19 k) = bs[k]?)) ∧
  (∀ (s : State) (r : RegNum) (a : AddrField) (ea : ByteAddr) (len : Nat) (bs : List Byte) (y : Int) (v u : State),
    s.config.decimalOption = true → len = (if r = 0#4 then 16 else r.toNat) → s.effByte a = .ok ea v →
    readField len ea v = .ok bs u → packedValue bs = some y →
    (∃ t, exec (.dl r a) s = .next t ∧ t.accValue = some y ∧
      (t.reg 15#4).extractLsb' 0 4 = (bs.getLastD 0#8).extractLsb' 0 4 ∧
      u.Writes t [12#4, 13#4, 14#4, 15#4] (ccOf (cc1 u.psd.cc) (cc2 u.psd.cc) (ccSignInt y)) u.trapPending) ∧
    (∀ x, u.accValue = some x →
      ((x + y).natAbs < 10 ^ 31 → ∃ t, exec (.da r a) s = .next t ∧ t.accValue = some (x + y) ∧
        SignNibble (x + y) ((t.reg 15#4).extractLsb' 0 4) ∧
        u.Writes t [12#4, 13#4, 14#4, 15#4] (ccOf (cc1 u.psd.cc) (cc2 u.psd.cc) (ccSignInt (x + y))) u.trapPending) ∧
      ((x - y).natAbs < 10 ^ 31 → ∃ t, exec (.ds r a) s = .next t ∧ t.accValue = some (x - y) ∧
        SignNibble (x - y) ((t.reg 15#4).extractLsb' 0 4) ∧
        u.Writes t [12#4, 13#4, 14#4, 15#4] (ccOf (cc1 u.psd.cc) (cc2 u.psd.cc) (ccSignInt (x - y))) u.trapPending) ∧
      (len ≤ 8 → x.natAbs < 10 ^ 16 → ∃ t, exec (.dm r a) s = .next t ∧ t.accValue = some (x * y) ∧
        SignNibble (x * y) ((t.reg 15#4).extractLsb' 0 4) ∧
        u.Writes t [12#4, 13#4, 14#4, 15#4] (ccOf (cc1 u.psd.cc) (cc2 u.psd.cc) (ccSignInt (x * y))) u.trapPending) ∧
      (len ≤ 8 → y ≠ 0 → (x.tdiv y).natAbs < 10 ^ 15 → ∃ t, exec (.dd r a) s = .next t ∧
        packedValue ([14#4, 15#4].flatMap fun i => [24, 16, 8, 0].map fun k => (t.reg i).extractLsb' k 8) =
          some (x.tdiv y) ∧ SignNibble (x.tdiv y) ((t.reg 15#4).extractLsb' 0 4) ∧
        packedValue ([12#4, 13#4].flatMap fun i => [24, 16, 8, 0].map fun k => (t.reg i).extractLsb' k 8) =
          some (x.tmod y) ∧ SignNibble (x.tmod y) ((t.reg 13#4).extractLsb' 0 4) ∧
        u.Writes t [12#4, 13#4, 14#4, 15#4] u.psd.cc u.trapPending) ∧
      (∃ t, exec (.dc r a) s = .next t ∧
        u.Writes t [] (ccOf (cc1 u.psd.cc) (cc2 u.psd.cc) (ccSignInt (x - y))) u.trapPending))) ∧
  (∀ (s : State) (r : RegNum) (a : AddrField) (ea : WordAddr) (count x : Int) (ds : Nat) (u : State),
    s.config.decimalOption = true → s.effWord a = .ok ea u → count = (ea.extractLsb' 0 7).toInt →
    u.accValue = some x →
    ds = (if 0 ≤ count then x.natAbs * 10 ^ count.natAbs % 10 ^ 31 else x.natAbs / 10 ^ count.natAbs) →
    ∃ t, exec (.dsa r a) s = .next t ∧
      t.accValue = some (if signNegative ((u.reg 15#4).extractLsb' 0 4) then -(ds : Int) else ds) ∧
      (t.reg 15#4).extractLsb' 0 4 = (u.reg 15#4).extractLsb' 0 4 ∧
      u.Writes t [12#4, 13#4, 14#4, 15#4]
        (ccOf (cc1 u.psd.cc) (decide (0 ≤ count ∧ 10 ^ 31 ≤ x.natAbs * 10 ^ count.natAbs)) (cc34 u.psd.cc))
        u.trapPending)

/-- DST, PACK, UNPK and EBS (R432, R439-R441) with the option, on fields that may be read and written, no other agent acting
between the accesses: what a field holds afterwards, and nothing else but its bytes. The bytes EBS edits are free, and so is
which pattern byte takes a digit: of it the statement says that it ends, which bytes and fields it may change, that it
stops on an illegal digit only if a source byte has one, and that CC3 CC4 tell of a nonzero digit and of a minus sign only if
the source has them. The sign nibble PACK and UNPK carry over as it is and the CC that DST, PACK and UNPK leave are the
model's (notes/assumptions/21.md), and so are the zoned strings of 2L - 1 bytes and that UNPK stores its own at EBA (23.md),
and the walk of EBS (24.md). -/
def Obligations.DecimalFields : Prop :=
  (∀ (s : State) (r : RegNum) (a : AddrField) (ea : ByteAddr) (len : Nat) (x : Int) (p : Nat → Place),
    s.between = [] → s.mem.wf = true → s.config.decimalOption = true → len = (if r = 0#4 then 16 else r.toNat) →
    s.effByte a = .ok ea s →
    s.accValue = some x → x.natAbs < 10 ^ (2 * len - 1) →
    (∀ k, k < len → s.resolve ((ea + BitVec.ofNat 19 k).extractLsb' 2 17) .write = .ok (p k)) →
    ∃ t, exec (.dst r a) s = .next t ∧ readField len ea t = .ok ((accBytes s.decAcc).drop (16 - len)) t ∧
      s.StoresField t ea len) ∧
  (∀ (s : State) (r : RegNum) (a : AddrField) (ea : ByteAddr) (len : Nat) (bs : List Byte) (p : Nat → Place),
    s.between = [] → s.mem.wf = true → s.config.decimalOption = true → len = (if r = 0#4 then 16 else r.toNat) →
    s.effByte a = .ok ea s →
    (∀ k, k < len → s.resolve ((ea + BitVec.ofNat 19 k).extractLsb' 2 17) .write = .ok (p k)) →
    readField (2 * len - 1) ea s = .ok bs s →
    (∀ b ∈ bs, (b.extractLsb' 0 4).toNat ≤ 9) → 10 ≤ ((bs.getLastD 0#8).extractLsb' 4 4).toNat →
    ∃ t, ∃ out, exec (.pack r a) s = .next t ∧ readField len ea t = .ok out t ∧
      nibbles out = bs.map (fun b => b.extractLsb' 0 4) ++ [(bs.getLastD 0#8).extractLsb' 4 4] ∧
      s.StoresField t ea len) ∧
  (∀ (s : State) (r : RegNum) (a : AddrField) (ea : ByteAddr) (len : Nat) (bs : List Byte) (p : Nat → Place),
    s.between = [] → s.mem.wf = true → s.config.decimalOption = true → len = (if r = 0#4 then 16 else r.toNat) →
    s.effByte a = .ok ea s →
    (∀ k, k < 2 * len - 1 → s.resolve ((ea + BitVec.ofNat 19 k).extractLsb' 2 17) .write = .ok (p k)) →
    readField len ea s = .ok bs s →
    (∀ g ∈ (nibbles bs).dropLast, g.toNat ≤ 9) → 10 ≤ ((nibbles bs).getLastD 0#4).toNat →
    ∃ t, ∃ out, exec (.unpk r a) s = .next t ∧ readField (2 * len - 1) ea t = .ok out t ∧
      out.map (fun b => b.extractLsb' 0 4) = (nibbles bs).dropLast ∧
      (∀ b ∈ out.dropLast, b.extractLsb' 4 4 = 0xF#4) ∧
      (out.getLastD 0#8).extractLsb' 4 4 = (nibbles bs).getLastD 0#4 ∧
      s.StoresField t ea (2 * len - 1)) ∧
  (∀ (s : State) (r : RegNum) (v : BitVec 20) (n : Nat) (d e : Nat → Nat) (g h : Nat → BitVec 4),
    s.between = [] → s.config.decimalOption = true → n = ((s.reg (ru1 r)).extractLsb' 24 8).toNat →
    (∀ k, k < n → s.RealByte ((s.reg (ru1 r)).extractLsb' 0 19 + BitVec.ofNat 19 k) .read (d k) ∧
      s.RealByte ((s.reg (ru1 r)).extractLsb' 0 19 + BitVec.ofNat 19 k) .write (d k) ∧
      s.RealByte ((if r = 0#4 then 0#19 else (s.reg r).extractLsb' 0 19) + v.setWidth 19 + BitVec.ofNat 19 k) .read (e k) ∧
      g k = (s.mem.read (e k)).extractLsb' 4 4 ∧ h k = (s.mem.read (e k)).extractLsb' 0 4) →
    ∃ t, exec (.ebs r v) s = .next t ∧
      ((∃ c : BitVec 2, t.reg (ru1 r) = 0#8 ++ (s.reg (ru1 r)).extractLsb' 19 5 ++
          ((s.reg (ru1 r)).extractLsb' 0 19 + BitVec.ofNat 19 n) ∧
        (c = 0b00#2 ∨ c = 0b01#2 ∨ c = 0b10#2) ∧
        (c ≠ 0b00#2 → ∃ k, k < n ∧ (g k ≠ 0#4 ∨ h k ≠ 0#4 ∧ (h k).toNat ≤ 9)) ∧
        (c = 0b10#2 → ∃ k, k < n ∧ (h k = 0xB#4 ∨ h k = 0xD#4)) ∧
        s.Changes t (· = ru1 r) (fun b => ∃ k, k < n ∧ b = d k)
          (ccOf (cc1 s.psd.cc) (cc2 s.psd.cc) c) s.trapPending) ∨
        (∃ k, k < n ∧ 9 < (g k).toNat) ∧ t = if s.psd.dm then
            { s with trapPending := some ⟨0x45, 0#4, false⟩ }
          else { s with psd := { s.psd with cc := s.psd.cc ||| 0b1000#4 } }))

/-- The decimal faults (R443) with the option, `fault u c` being the state u after a fault of CC bit c: with DM = 1 each
traps, with DM = 0 an illegal digit in a field or the accumulator sets CC1 and an overflow CC2; nothing else changes. The
fields are readable. Those DST, PACK and UNPK store may be stored to with DM = 1, as a memory trap comes before the decimal
one (R604, see `Obligations.PreciseTraps`); with DM = 0 nothing is stored and they may be anywhere. Which of the two a DM or
DD length or divide fault sets is not stated and free (notes/assumptions/20.md). That an illegal digit comes before an overflow and a length or divide fault is the model's
(notes/assumptions/21.md), and so are the fields PACK reads and UNPK stores, of 2L - 1 bytes (23.md). -/
def Obligations.DecimalFaults : Prop :=
  ∀ (s : State) (r : RegNum) (a : AddrField) (len : Nat) (fault : State → BitVec 4 → State),
    s.config.decimalOption = true → len = (if r = 0#4 then 16 else r.toNat) →
    (∀ u c, fault u c = if u.psd.dm then { u with trapPending := some ⟨0x45, 0#4, false⟩ }
      else { u with psd := { u.psd with cc := u.psd.cc ||| c } }) →
    (∀ (ea : ByteAddr) (bs : List Byte) (v u : State), s.effByte a = .ok ea v → readField len ea v = .ok bs u →
      (packedValue bs = none → exec (.dl r a) s = .next (fault u 0b1000#4)) ∧
      (packedValue bs = none →
        (u.psd.dm = true → ∀ k, k < 2 * len - 1 →
          ∃ p, u.resolve ((ea + BitVec.ofNat 19 k).extractLsb' 2 17) .write = .ok p) →
        exec (.unpk r a) s = .next (fault u 0b1000#4)) ∧
      (packedValue bs = none ∨ u.accValue = none →
        ∀ i ∈ [Instr.da r a, .ds r a, .dm r a, .dd r a, .dc r a], exec i s = .next (fault u 0b1000#4)) ∧
      (∀ x y, u.accValue = some x → packedValue bs = some y →
        (10 ^ 31 ≤ (x + y).natAbs → exec (.da r a) s = .next (fault u 0b0100#4)) ∧
        (10 ^ 31 ≤ (x - y).natAbs → exec (.ds r a) s = .next (fault u 0b0100#4)) ∧
        (∀ i, i = Instr.dm r a ∧ (8 < len ∨ 10 ^ 16 ≤ x.natAbs) ∨
            i = Instr.dd r a ∧ (8 < len ∨ y = 0 ∨ 10 ^ 15 ≤ (x.tdiv y).natAbs) →
          ∃ t, exec i s = .next t ∧ ({ t with freeCount := u.freeCount } = fault u 0b1000#4 ∨
            { t with freeCount := u.freeCount } = fault u 0b0100#4)))) ∧
    (∀ (ea : ByteAddr) (u : State), s.effByte a = .ok ea u →
      (u.psd.dm = true → ∀ k, k < len → ∃ p, u.resolve ((ea + BitVec.ofNat 19 k).extractLsb' 2 17) .write = .ok p) →
      (u.accValue = none → exec (.dst r a) s = .next (fault u 0b1000#4)) ∧
      (∀ x, u.accValue = some x → 10 ^ (2 * len - 1) ≤ x.natAbs → exec (.dst r a) s = .next (fault u 0b0100#4))) ∧
    (∀ (ea : WordAddr) (u : State), s.effWord a = .ok ea u → u.accValue = none →
      exec (.dsa r a) s = .next (fault u 0b1000#4)) ∧
    (∀ (ea : ByteAddr) (zs : List Byte) (v u : State), s.effByte a = .ok ea v → readField (2 * len - 1) ea v = .ok zs u →
      (u.psd.dm = true → ∀ k, k < len → ∃ p, u.resolve ((ea + BitVec.ofNat 19 k).extractLsb' 2 17) .write = .ok p) →
      (∃ b ∈ zs, 9 < (b.extractLsb' 0 4).toNat) ∨ ((zs.getLastD 0#8).extractLsb' 4 4).toNat < 10 →
      exec (.pack r a) s = .next (fault u 0b1000#4))

/-! ## Calls, the PSD, memory control and the other control instructions -/

/-- The layout of the PSD (R36, R50, R51): each field at its bits, reserved bits stored as 0 and ignored when a PSD is read;
encoding and decoding gives every PSD back. -/
def Obligations.PsdLayout : Prop :=
  (∀ p : Psd, Psd.decode (Psd.encode p) = p ∧
    (Psd.encode p).toNat = p.cc.toNat * 2 ^ 60 + p.fs.toNat * 2 ^ 58 + p.fz.toNat * 2 ^ 57 + p.fn.toNat * 2 ^ 56 +
      p.ms.toNat * 2 ^ 55 + p.mm.toNat * 2 ^ 54 + p.dm.toNat * 2 ^ 53 + p.am.toNat * 2 ^ 52 + p.ia.toNat * 2 ^ 32 +
      p.wk.toNat * 2 ^ 28 + p.ci.toNat * 2 ^ 26 + p.ii.toNat * 2 ^ 25 + p.ei.toNat * 2 ^ 24 + p.ma.toNat * 2 ^ 23 +
      p.ext.toNat * 2 ^ 16 + p.tsf.toNat * 2 ^ 8 + p.rp.toNat * 2 ^ 4) ∧
  (∀ d e : Double, Psd.decode d = Psd.decode e ↔ d &&& 0xF7F1FFFF37BFFFF0#64 = e &&& 0xF7F1FFFF37BFFFF0#64)

/-- LPSD, XPSD and LRP (R461-R463) in master mode. An LPSD installs the PSD it reads, RP only with R bit 8, and with R bit
10 clears the highest active level (R627); XPSD stores the current PSD at its operand and installs the next doubleword; LRP
sets RP alone. -/
def Obligations.PsdInstructions : Prop :=
  (∀ (s : State) (r : RegNum) (a : AddrField) (d : Double) (u : State), s.psd.ms = false →
    s.config.sizes = Sizes.standard → s.DoubleOperand a d u →
    ∃ t, exec (.lpsd r a) s = .next t ∧
      t = { u with psd := { Psd.decode d with rp := if r[3] then (Psd.decode d).rp else u.psd.rp }, ic := t.ic } ∧
      (r[1] = false ∨ (∀ L : Fin 32, u.ic.active[L] = false) → t.ic = u.ic) ∧
      (∀ h : Fin 32, r[1] = true → u.ic.active[h] = true → (∀ L : Fin 32, L < h → u.ic.active[L] = false) →
        t.ic = { u.ic with
          active := u.ic.active.set h false
          armed := u.ic.armed.set h r[0]
          queue := if r[0] then u.ic.queue else u.ic.queue.filter fun e => e.level != h })) ∧
  (∀ (s : State) (r : RegNum) (a : AddrField) (ea : DoubleAddr) (p q : Place), s.between = [] → s.mem.wf = true →
    s.psd.ms = false → s.config.sizes = Sizes.standard →
    s.effDouble a = .ok ea s → s.resolve (ea ++ 0#1) .write = .ok p → s.resolve ((ea + 1#16) ++ 0#1) .read = .ok q →
    ∃ t, ∃ n : Psd, exec (.xpsd r a) s = .next t ∧ n = Psd.decode (s.loadDouble q) ∧
      t.psd = { n with rp := if r[3] then n.rp else s.psd.rp } ∧
      ({ t with psd := s.psd } : State).loadDouble p = Psd.encode s.psd ∧
      s.Stores { t with psd := s.psd } p 0 8 s.psd.cc s.trapPending) ∧
  (∀ (s : State) (r : RegNum) (a : AddrField) (w : Word) (u : State), s.psd.ms = false →
    s.config.sizes = Sizes.standard → s.WordOperand a w u →
    exec (.lrp r a) s = .next { u with psd := { u.psd with rp := w.extractLsb' 4 4 } })

/-- MMC (R464-R467, R469) in master mode with readable image words: the entries of the function's table for consecutive
pages from the start page, modulo 256 (of entries for one page the last stands), the registers, and no other table. -/
def Obligations.MemoryControl : Prop :=
  ∀ (s : State) (r : RegNum) (f : BitVec 3) (z : BitVec 17) (n per : Nat) (ia : WordAddr) (sp : Byte) (w : Nat → Word),
    s.config.sizes = Sizes.standard → s.between = [] → s.psd.ms = false → ia = (s.reg r).extractLsb' 0 17 →
    sp = (s.reg (ru1 r)).extractLsb' 9 8 →
    n = (if (s.reg (ru1 r)).extractLsb' 24 8 = 0#8 then 256 else ((s.reg (ru1 r)).extractLsb' 24 8).toNat) →
    (f = 1#3 ∧ per = 16 ∨ f = 2#3 ∧ per = 16 ∨ f = 4#3 ∧ per = 4 ∨ f = 5#3 ∧ per = 2) →
    (∀ i, i < n → s.readWord (ia + BitVec.ofNat 17 i) .read = .ok (w i) s) →
    ∃ t, exec (.mmc r f z) s = .next t ∧
      (∀ k, k < n * per → n * per ≤ k + 256 →
        (f = 1#3 → t.acc[(sp + BitVec.ofNat 8 k).toNat] = (w (k / 16)).extractLsb' (30 - 2 * (k % 16)) 2) ∧
        (f = 2#3 → t.locks[(sp + BitVec.ofNat 8 k).toNat] = (w (k / 16)).extractLsb' (30 - 2 * (k % 16)) 2) ∧
        (f = 4#3 → t.map[(sp + BitVec.ofNat 8 k).toNat] =
          ((w (k / 4)).extractLsb' (24 - 8 * (k % 4)) 8).setWidth 13) ∧
        (f = 5#3 → t.map[(sp + BitVec.ofNat 8 k).toNat] = (w (k / 2)).extractLsb' (16 - 16 * (k % 2)) 13)) ∧
      (∀ p : Byte, (∀ k, k < n * per → p ≠ sp + BitVec.ofNat 8 k) →
        t.acc[p.toNat] = s.acc[p.toNat] ∧ t.locks[p.toNat] = s.locks[p.toNat] ∧ t.map[p.toNat] = s.map[p.toNat]) ∧
      (f ≠ 1#3 → t.acc = s.acc) ∧ (f ≠ 2#3 → t.locks = s.locks) ∧ (f = 1#3 ∨ f = 2#3 → t.map = s.map) ∧
      (r[0] = false → t.reg r = (s.reg r).extractLsb' 17 15 ++ (ia + BitVec.ofNat 17 n)) ∧
      t.reg (ru1 r) = 0#8 ++ (s.reg (ru1 r)).extractLsb' 17 7 ++ (sp + BitVec.ofNat 8 (n * per)) ++
        (if r[0] then (ia + BitVec.ofNat 17 n).extractLsb' 0 9 else (s.reg (ru1 r)).extractLsb' 0 9) ∧
      s.Writes { t with acc := s.acc, locks := s.locks, map := s.map } [r, ru1 r] s.psd.cc s.trapPending

/-- CAL1 to CAL4 (R460): the trap to X'48' to X'4B' with the R field as trap condition code. WAIT, INT and ANLZ (R468, R473,
R474): ANLZ gives the address of the analyzed word as that word's class computes it and leaves the register where the class
has none. That the decimal opcodes, DSA too, are of the byte class and the shift, I/O, direct and unassigned ones of the
word class is the model's reading of R151 (notes/assumptions/25.md). -/
def Obligations.CallsWaitInterpretAnalyze : Prop :=
  (∀ (s : State) (r : RegNum) (a : AddrField),
    exec (.cal1 r a) s = .next { s with trapPending := some ⟨0x48, r, false⟩ } ∧
    exec (.cal2 r a) s = .next { s with trapPending := some ⟨0x49, r, false⟩ } ∧
    exec (.cal3 r a) s = .next { s with trapPending := some ⟨0x4A, r, false⟩ } ∧
    exec (.cal4 r a) s = .next { s with trapPending := some ⟨0x4B, r, false⟩ }) ∧
  (∀ (s : State) (r : RegNum) (a : AddrField), s.psd.ms = false →
    exec (.wait r a) s = .next { s with waiting := true }) ∧
  (∀ (s : State) (r : RegNum) (a : AddrField) (w : Word) (u : State), s.WordOperand a w u →
    (∃ t, exec (.int r a) s = .next t ∧ (r[0] = false → (t.reg r).toNat = w.toNat / 2 ^ 16 % 2 ^ 12) ∧
      (t.reg (ru1 r)).toNat = w.toNat % 2 ^ 16 ∧
      u.Writes t [r, ru1 r] (w.extractLsb' 28 4) u.trapPending) ∧
    (∀ (op : Nat) (b : AddrField), op = (w.extractLsb' 24 7).toNat →
      b = ⟨w[31], w.extractLsb' 17 3, w.extractLsb' 0 17⟩ →
      (op ∈ immediateOpcodes ∨ op ∈ [0x04, 0x05, 0x06, 0x07, 0x2E] → ∃ t, exec (.anlz r a) s = .next t ∧
        u.Writes t [] (0b001#3 ++ BitVec.ofBool b.ind) u.trapPending) ∧
      (0x70 ≤ op → ∀ ea v, u.effByte b = .ok ea v → ∃ t, exec (.anlz r a) s = .next t ∧ (t.reg r).toNat = ea.toNat ∧
        v.Writes t [r] (0b000#3 ++ BitVec.ofBool b.ind) v.trapPending) ∧
      (op ∈ [0x50, 0x51, 0x52, 0x53, 0x55, 0x56, 0x57, 0x58, 0x5A, 0x5B] → ∀ ea v, u.effHalf b = .ok ea v →
        ∃ t, exec (.anlz r a) s = .next t ∧ (t.reg r).toNat = ea.toNat ∧
          v.Writes t [r] (0b010#3 ++ BitVec.ofBool b.ind) v.trapPending) ∧
      (op ∈ [0x08, 0x09, 0x0A, 0x0B, 0x0E, 0x0F, 0x10, 0x11, 0x12, 0x13, 0x15, 0x18, 0x19, 0x1A, 0x1B, 0x1C, 0x1D,
          0x1E, 0x1F] → ∀ ea v, u.effDouble b = .ok ea v → ∃ t, exec (.anlz r a) s = .next t ∧
        (t.reg r).toNat = ea.toNat ∧ v.Writes t [r] (0b110#3 ++ BitVec.ofBool b.ind) v.trapPending) ∧
      (op ∈ [0x24, 0x25, 0x28, 0x29, 0x2A, 0x2B, 0x2F, 0x30, 0x31, 0x32, 0x33, 0x35, 0x36, 0x37, 0x38, 0x39, 0x3A, 0x3B,
          0x3C, 0x3D, 0x3E, 0x3F, 0x44, 0x45, 0x46, 0x47, 0x48, 0x49, 0x4A, 0x4B, 0x4C, 0x4D, 0x4E, 0x4F, 0x64, 0x65,
          0x66, 0x67, 0x68, 0x69, 0x6A, 0x6B, 0x6C, 0x6D, 0x6E] ∨ op ∈ unassignedOpcodes →
        ∀ ea v, u.effWord b = .ok ea v → ∃ t, exec (.anlz r a) s = .next t ∧ (t.reg r).toNat = ea.toNat ∧
          v.Writes t [r] (0b100#3 ++ BitVec.ofBool b.ind) v.trapPending)))

/-- RD, WD outside interrupt control, and SIO, TIO, TDV, HIO, AIO (R470, R471, R500-R505) in master mode: one request of
the host, and its answer, whatever it is, in CC and the registers; R = 0 discards the values. The request and the free
values drawn are otherwise not compared. -/
def Obligations.HostRequests : Prop :=
  ∀ (s : State) (r : RegNum) (a : AddrField) (ea : WordAddr) (u : State), s.psd.ms = false →
    s.effWord a = .ok ea u →
    (∃ t, ∃ (v : Word) (cc : BitVec 4), exec (.rd r a) s = .next t ∧ (r ≠ 0#4 → t.reg r = v) ∧
      t.hostCalls = .readDirect (ea.extractLsb' 0 16) :: u.hostCalls ∧
      u.Writes { t with freeCount := u.freeCount, hostCalls := u.hostCalls } (if r = 0#4 then [] else [r]) cc
        u.trapPending) ∧
    (ea.extractLsb' 12 4 ≠ 1#4 → ∃ t, ∃ cc : BitVec 4, exec (.wd r a) s = .next t ∧
      t.hostCalls = .writeDirect (ea.extractLsb' 0 16) (if r = 0#4 then 0#32 else u.reg r) :: u.hostCalls ∧
      u.Writes { t with freeCount := u.freeCount, hostCalls := u.hostCalls } [] cc u.trapPending) ∧
    (∀ i op, (i, op) ∈ [(Instr.sio r a, IoOp.sio), (.tio r a, .tio), (.tdv r a, .tdv), (.hio r a, .hio),
        (.aio r a, .aio)] →
      ∃ t, ∃ (cc : BitVec 4) (status count : Word), exec i s = .next t ∧
        (r ≠ 0#4 → (r[0] = false → t.reg r = status) ∧ t.reg (ru1 r) = count) ∧
        t.hostCalls = .bridge op ea (u.reg 0#4) :: u.hostCalls ∧
        u.Writes { t with freeCount := u.freeCount, hostCalls := u.hostCalls } (if r = 0#4 then [] else [r, ru1 r]) cc
          u.trapPending)

/-- WD interrupt control (R471, R472, R626) in master mode, direct addresses X'1000' to X'1FFF': what the function does to
each level, selected or not, and nothing else. A trigger adds one entry of each selected level that R625 does not drop, of
priority 0 and the CPU's origin, after every entry that does not come later in (level, priority) order; the free values its
timestamps draw are not compared. -/
def Obligations.InterruptControlByWd : Prop :=
  ∀ (s : State) (r : RegNum) (a : AddrField) (ea : WordAddr) (v : Word) (fn g : Nat) (sel added : Fin 32 → Prop)
    (u : State),
    s.config.sizes = Sizes.standard → s.psd.ms = false → s.effWord a = .ok ea u → ea.extractLsb' 12 4 = 1#4 →
    v = (if r = 0#4 then 0#32 else u.reg r) →
    fn = (ea.extractLsb' 8 3).toNat → g = (ea.extractLsb' 0 4).toNat →
    (∀ L : Fin 32, sel L ↔ L.val / 16 = g ∧ v.getLsbD (15 - L.val % 16) = true) →
    (∀ L : Fin 32, added L ↔ sel L ∧ fn = 7 ∧ u.ic.armed[L] = true ∧
      ¬(u.config.coalesce[L] = true ∧ (u.ic.active[L] = true ∨ 0 < u.ic.waitingCount L))) →
    ∃ t, exec (.wd r a) s = .next t ∧
      t = { u with ic := t.ic, freeCount := t.freeCount } ∧ t.ic.fireCount = u.ic.fireCount ∧
      (∀ L : Fin 32,
        (t.ic.armed[L] = true ↔ sel L ∧ (fn = 2 ∨ fn = 3) ∨ ¬(sel L ∧ fn = 1) ∧ u.ic.armed[L] = true) ∧
        (t.ic.active[L] = true ↔ ¬(sel L ∧ fn = 1) ∧ u.ic.active[L] = true) ∧
        (t.ic.enabled[L] = true ↔ sel L ∧ (fn = 2 ∨ fn = 4 ∨ fn = 6) ∨
          ¬(sel L ∧ (fn = 3 ∨ fn = 5)) ∧ ¬(¬sel L ∧ L.val / 16 = g ∧ fn = 6) ∧ u.ic.enabled[L] = true) ∧
        (added L → t.ic.waitingCount L = u.ic.waitingCount L + 1) ∧
        (¬added L → ¬(sel L ∧ fn = 1) → t.ic.waitingCount L = u.ic.waitingCount L)) ∧
      (∀ e, fn ≠ 7 → (e ∈ t.ic.queue ↔ e ∈ u.ic.queue ∧ ¬(fn = 1 ∧ sel e.level))) ∧
      (fn ≠ 7 → t.ic.queue.Sublist u.ic.queue) ∧ (fn = 7 → u.ic.queue.Sublist t.ic.queue) ∧
      (∀ L : Fin 32, added L → u.ic.Sorted → ∃ (e : IntEntry) (before after : List IntEntry),
        t.ic.queue = before ++ e :: after ∧ e.level = L ∧ e.priority = 0 ∧ e.origin = .cpu ∧ e.line = none ∧
        e.char = none ∧ (∀ x ∈ before, x.level < L ∨ x.level = L ∧ x.priority = 0) ∧
        ∀ x ∈ after, L < x.level ∨ x.level = L ∧ 0 < x.priority)

/-- R640, R146: in slave mode each of the twelve privileged opcodes (MMC with an assigned function) traps as a privileged
instruction, with no address computed and nothing changed. -/
def Obligations.PrivilegedInSlave : Prop :=
  ∀ (s : State) (r : RegNum) (a : AddrField) (f : BitVec 3) (z : BitVec 17) (i : Instr), s.psd.ms = true →
    (f = 1#3 ∨ f = 2#3 ∨ f = 4#3 ∨ f = 5#3) →
    i ∈ [Instr.lpsd r a, .xpsd r a, .wait r a, .lrp r a, .sio r a, .tio r a, .tdv r a, .hio r a, .rd r a, .wd r a,
      .aio r a, .mmc r f z] →
    exec i s = .next { s with trapPending := some ⟨0x40, 0b0010#4, false⟩ }

/-! ## Encoding -/

/-- The decoder and the encoder agree on every instruction with every operand, and on every word that decodes: no bit is
dropped (R145). -/
def Obligations.DecodeEncode : Prop :=
  (∀ i : Instr, decode (encode i) = .ok i) ∧ (∀ (w : Word) (i : Instr), decode w = .ok i → encode i = w)

/-- R145: the encoding formulas of both formats, and the fields of a word and the word of fields are inverse. -/
def Obligations.FieldCodec : Prop :=
  (∀ f : Fields, decodeFields (encodeFields f) = f ∧
    (encodeFields f).toNat = f.ind.toNat * 2 ^ 31 + f.op.toNat * 2 ^ 24 + f.r.toNat * 2 ^ 20 + f.x.toNat * 2 ^ 17 +
      f.ref.toNat) ∧
  (∀ w : Word, encodeFields (decodeFields w) = w) ∧
  (∀ (op : BitVec 7) (r : RegNum) (v : BitVec 20),
    (encodeImmediate op r v).toNat = op.toNat * 2 ^ 24 + r.toNat * 2 ^ 20 + v.toNat)

/-- R143 step 1, R144: exactly the 22 unassigned opcodes and the immediate, byte-string and MMC words with I = 1 decode to
nothing, and a fetched word that does takes the nonexistent-instruction trap; so does MMC with an unassigned function, in
either mode. -/
def Obligations.NonexistentInstructions : Prop :=
  (∀ w : Word, (w.extractLsb' 24 7).toNat ∈ unassignedOpcodes ∨
      (w.extractLsb' 24 7).toNat ∈ immediateOpcodes ∧ w[31] = true ↔ ∀ i : Instr, decode w ≠ .ok i) ∧
  (∀ (s : State) (w : Word), (∀ i : Instr, decode w ≠ .ok i) →
    s.executeWord w = .next { s with trapPending := some ⟨0x40, 0b1000#4, false⟩ }) ∧
  (∀ (s : State) (r : RegNum) (f : BitVec 3) (z : BitVec 17), f = 0#3 ∨ f = 3#3 ∨ f = 6#3 ∨ f = 7#3 →
    exec (.mmc r f z) s = .next { s with trapPending := some ⟨0x40, 0b1000#4, false⟩ })

/-- Words written out from R131, R132 and R150 decode to their instructions: `LI,3 -1`, `LW,5 *X'100',2`, `CAL1,5`, MMC,
LCFI, a BCR and an MTW with delta -1. -/
def Obligations.DecodeWords : Prop :=
  decode 0x223FFFFF#32 = .ok (.li 3#4 0xFFFFF#20) ∧
  decode 0xB2540100#32 = .ok (.lw 5#4 ⟨true, 2#3, 0x100#17⟩) ∧
  decode 0x04500000#32 = .ok (.cal1 5#4 ⟨false, 0#3, 0#17⟩) ∧
  decode 0x6F280000#32 = .ok (.mmc 2#4 4#3 0#17) ∧
  decode 0x02200080#32 = .ok (.lcfi 2#4 0x80#20) ∧
  decode 0x68300200#32 = .ok (.bcr 3#4 ⟨false, 0#3, 0x200#17⟩) ∧
  decode 0x33F00050#32 = .ok (.mtw 0xF#4 ⟨false, 0#3, 0x50#17⟩)

/-- The text form of the codec (R147-R150): every instruction parses back from its rendering, which has one width; the
extended branches of R149 are the words it gives, with every address; every mnemonic of R150 stands for its opcode, in the
form R148 gives it, with the operands of R148's example `LW,5 *X'100',2`, of `LI,3 -1` and of `MTW,-8 7,3`; and a text
without an address, with a register out of range or with an unknown mnemonic is malformed. The columns are free, and the form
of MMC, and that NOP, CAL1 to CAL4 and WAIT may stand without an address, is the model's (notes/assumptions/31.md). -/
def Obligations.CodecText : Prop :=
  (∀ i : Instr, parse (render i) = some i) ∧ (∀ i j : Instr, (render i).length = (render j).length) ∧
  (∀ e ∈ ([(['B'], 0x68#7, 0#4), (['N', 'O', 'P'], 0x69#7, 0#4), (['B', 'E'], 0x68#7, 3#4),
         (['B', 'E', 'Z'], 0x68#7, 3#4),
         (['B', 'N', 'E'], 0x69#7, 3#4), (['B', 'N', 'E', 'Z'], 0x69#7, 3#4), (['B', 'G'], 0x69#7, 1#4),
         (['B', 'G', 'Z'], 0x69#7, 1#4), (['B', 'L', 'E'], 0x68#7, 1#4), (['B', 'L', 'E', 'Z'], 0x68#7, 1#4),
         (['B', 'L'], 0x69#7, 2#4), (['B', 'L', 'Z'], 0x69#7, 2#4), (['B', 'G', 'E'], 0x68#7, 2#4),
         (['B', 'G', 'E', 'Z'], 0x68#7, 2#4), (['B', 'O', 'V'], 0x69#7, 4#4), (['B', 'N', 'O', 'V'], 0x68#7, 4#4),
         (['B', 'C'], 0x69#7, 8#4), (['B', 'N', 'C'], 0x68#7, 8#4)] : List (Text × BitVec 7 × RegNum)),
    ∀ ref : BitVec 17, parse (e.1 ++ ' ' :: hexText (ref.setWidth 20)) =
      (decode (encodeFields ⟨false, e.2.1, e.2.2, 0#3, ref⟩)).toOption) ∧
  (∀ e ∈ ([(['C', 'A', 'L', '1'], 0x04#7), (['C', 'A', 'L', '2'], 0x05#7), (['C', 'A', 'L', '3'], 0x06#7),
          (['C', 'A', 'L', '4'], 0x07#7), (['P', 'L', 'W'], 0x08#7), (['P', 'S', 'W'], 0x09#7),
          (['P', 'L', 'M'], 0x0A#7), (['P', 'S', 'M'], 0x0B#7), (['L', 'P', 'S', 'D'], 0x0E#7),
          (['X', 'P', 'S', 'D'], 0x0F#7), (['A', 'D'], 0x10#7), (['C', 'D'], 0x11#7), (['L', 'D'], 0x12#7),
          (['M', 'S', 'P'], 0x13#7), (['S', 'T', 'D'], 0x15#7), (['S', 'D'], 0x18#7), (['C', 'L', 'M'], 0x19#7),
          (['L', 'C', 'D'], 0x1A#7), (['L', 'A', 'D'], 0x1B#7), (['F', 'S', 'L'], 0x1C#7), (['F', 'A', 'L'], 0x1D#7),
          (['F', 'D', 'L'], 0x1E#7), (['F', 'M', 'L'], 0x1F#7), (['S', 'F'], 0x24#7), (['S'], 0x25#7),
          (['C', 'V', 'S'], 0x28#7), (['C', 'V', 'A'], 0x29#7), (['L', 'M'], 0x2A#7), (['S', 'T', 'M'], 0x2B#7),
          (['W', 'A', 'I', 'T'], 0x2E#7)] ++
         [(['L', 'R', 'P'], 0x2F#7), (['A', 'W'], 0x30#7), (['C', 'W'], 0x31#7), (['L', 'W'], 0x32#7),
          (['S', 'T', 'W'], 0x35#7), (['D', 'W'], 0x36#7), (['M', 'W'], 0x37#7), (['S', 'W'], 0x38#7),
          (['C', 'L', 'R'], 0x39#7), (['L', 'C', 'W'], 0x3A#7), (['L', 'A', 'W'], 0x3B#7), (['F', 'S', 'S'], 0x3C#7),
          (['F', 'A', 'S'], 0x3D#7), (['F', 'D', 'S'], 0x3E#7), (['F', 'M', 'S'], 0x3F#7),
          (['A', 'N', 'L', 'Z'], 0x44#7), (['C', 'S'], 0x45#7), (['X', 'W'], 0x46#7), (['S', 'T', 'S'], 0x47#7),
          (['E', 'O', 'R'], 0x48#7), (['O', 'R'], 0x49#7), (['L', 'S'], 0x4A#7), (['A', 'N', 'D'], 0x4B#7),
          (['S', 'I', 'O'], 0x4C#7), (['T', 'I', 'O'], 0x4D#7), (['T', 'D', 'V'], 0x4E#7), (['H', 'I', 'O'], 0x4F#7),
          (['A', 'H'], 0x50#7), (['C', 'H'], 0x51#7), (['L', 'H'], 0x52#7)] ++
         [(['S', 'T', 'H'], 0x55#7), (['D', 'H'], 0x56#7), (['M', 'H'], 0x57#7), (['S', 'H'], 0x58#7),
          (['L', 'C', 'H'], 0x5A#7), (['L', 'A', 'H'], 0x5B#7), (['B', 'D', 'R'], 0x64#7), (['B', 'I', 'R'], 0x65#7),
          (['A', 'W', 'M'], 0x66#7), (['E', 'X', 'U'], 0x67#7), (['B', 'C', 'R'], 0x68#7), (['B', 'C', 'S'], 0x69#7),
          (['B', 'A', 'L'], 0x6A#7), (['I', 'N', 'T'], 0x6B#7), (['R', 'D'], 0x6C#7), (['W', 'D'], 0x6D#7),
          (['A', 'I', 'O'], 0x6E#7), (['L', 'C', 'F'], 0x70#7), (['C', 'B'], 0x71#7), (['L', 'B'], 0x72#7),
          (['S', 'T', 'C', 'F'], 0x74#7), (['S', 'T', 'B'], 0x75#7), (['P', 'A', 'C', 'K'], 0x76#7),
          (['U', 'N', 'P', 'K'], 0x77#7), (['D', 'S'], 0x78#7), (['D', 'A'], 0x79#7), (['D', 'D'], 0x7A#7),
          (['D', 'M'], 0x7B#7), (['D', 'S', 'A'], 0x7C#7), (['D', 'C'], 0x7D#7)] ++
         [(['D', 'L'], 0x7E#7), (['D', 'S', 'T'], 0x7F#7)] : List (Text × BitVec 7)),
    parse (e.1 ++ [',', '5', ' ', '*', 'X', quoteChar, '1', '0', '0', quoteChar, ',', '2']) =
      (decode (encodeFields ⟨true, e.2, 5#4, 2#3, 0x100#17⟩)).toOption) ∧
  (∀ e ∈ ([(['L', 'C', 'F', 'I'], 0x02#7), (['A', 'I'], 0x20#7), (['C', 'I'], 0x21#7), (['L', 'I'], 0x22#7),
          (['M', 'I'], 0x23#7), (['T', 'T', 'B', 'S'], 0x40#7), (['T', 'B', 'S'], 0x41#7), (['C', 'B', 'S'], 0x60#7),
          (['M', 'B', 'S'], 0x61#7), (['E', 'B', 'S'], 0x63#7)] : List (Text × BitVec 7)),
    parse (e.1 ++ [',', '3', ' ', '-', '1']) = (decode (encodeImmediate e.2 3#4 0xFFFFF#20)).toOption) ∧
  (∀ e ∈ ([(['M', 'T', 'W'], 0x33#7), (['M', 'T', 'H'], 0x53#7), (['M', 'T', 'B'], 0x73#7)] : List (Text × BitVec 7)),
    parse (e.1 ++ [',', '-', '8', ' ', '7', ',', '3']) =
      (decode (encodeFields ⟨false, e.2, 8#4, 3#3, 7#17⟩)).toOption) ∧
  parse ['L', 'W', ',', '5', ' ', '*', 'X', quoteChar, '1', '0', '0', quoteChar, ',', '2'] =
    (decode 0xB2540100#32).toOption ∧
  parse ['L', 'I', ',', '3', ' ', '-', '1'] = (decode 0x223FFFFF#32).toOption ∧
  parse ['M', 'M', 'C', ',', '2', ' ', '0', ',', '4'] = (decode 0x6F280000#32).toOption ∧
  parse ['N', 'O', 'P'] = (decode 0x69000000#32).toOption ∧
  parse ['C', 'A', 'L', '1', ',', '5'] = (decode 0x04500000#32).toOption ∧
  parse ['W', 'A', 'I', 'T'] = (decode 0x2E000000#32).toOption ∧
  parse ['L', 'W', ',', '5'] = none ∧ parse ['L', 'W', ',', '1', '6', ' ', '0'] = none ∧
  parse ['L', 'X', ',', '5', ' ', '0'] = none

/-! ## Addresses and memory -/

/-- Effective addresses (R135-R139, R32) with the reference `ref` after one level of indirection and the index value `k`: in
the unit of the operand, modulo the address space; `u` is the machine after the indirect access. -/
def Obligations.EffectiveAddresses : Prop :=
  (∀ (s : State) (a : AddrField) (ref : WordAddr) (k : Nat) (u : State),
    (a.ind = false ∧ ref = a.ref ∧ u = s ∨
      a.ind = true ∧ ∃ w, s.readWord a.ref .read = .ok w u ∧ ref = w.extractLsb' 0 17) →
    k = (if a.x = 0#3 then 0 else (s.reg (a.x.setWidth 4)).toNat) →
    (∃ ea, s.effWord a = .ok ea u ∧ ea.toNat = (ref.toNat + k) % 2 ^ 17) ∧
    (∃ ea, s.effHalf a = .ok ea u ∧ ea.toNat = (2 * ref.toNat + k) % 2 ^ 18) ∧
    (∃ ea, s.effByte a = .ok ea u ∧ ea.toNat = (4 * ref.toNat + k) % 2 ^ 19) ∧
    (∃ ea, s.effDouble a = .ok ea u ∧ ea.toNat = (ref.toNat + 2 * k) % 2 ^ 17 / 2)) ∧
  (∀ (s : State) (a : AddrField) (x : Trap) (u : State), a.ind = true → s.readWord a.ref .read = .trap x u →
    s.effWord a = .trap x u ∧ s.effHalf a = .trap x u ∧ s.effByte a = .trap x u ∧ s.effDouble a = .trap x u)

/-- Translation and the checks of one access to word vw, in their order (R86, R89, R97-R104): a register; else the real
word of the mapped, extended or plain mode after the access-code check, then the range, then the write lock of a
store. -/
def Obligations.Translation : Prop :=
  (∀ (s : State) (vw : WordAddr) (mode : Access), s.config.regAsMemory = true → vw.toNat < 16 →
    s.resolve vw mode = .ok (.reg (vw.extractLsb' 0 4))) ∧
  (∀ (s : State) (vw : WordAddr) (mode : Access) (rw : Nat) (deny : Bool),
    s.config.sizes = Sizes.standard → s.config.regAsMemory = false ∨ 16 ≤ vw.toNat →
    (s.psd.mm = true → rw = (s.map[(vw.extractLsb' 9 8).toNat]).toNat * 512 + vw.toNat % 512) →
    (s.psd.mm = false → s.psd.ma = true → 2 ^ 16 ≤ vw.toNat → rw = s.psd.ext.toNat * 2 ^ 16 + vw.toNat % 2 ^ 16) →
    (s.psd.mm = false → s.psd.ma = false ∨ vw.toNat < 2 ^ 16 → rw = vw.toNat) →
    deny = (s.psd.mm && s.psd.ms && decide ((s.acc[(vw.extractLsb' 9 8).toNat]).toNat >
      match mode with
      | .write => 0
      | .read => 1
      | .execute => 2)) →
    s.resolve vw mode =
      if deny then .error ⟨0x40, 0b0001#4⟩
      else if s.config.memPages * 2048 ≤ 4 * rw then .error ⟨0x40, 0b0100#4⟩
      else if mode = .write ∧ rw / 512 < s.config.wlockPages ∧ s.lockOf (rw / 512) ≠ 0#2 ∧
          s.lockOf (rw / 512) ≠ s.psd.wk ∧ ¬(s.config.wk0IsMaster = true ∧ s.psd.wk = 0#2) then
        .error ⟨0x40, 0b0001#4⟩
      else .ok (.real rw))

/-- Registers and memory behind a virtual address (R31, R33, R81, R99, R109): what a store leaves is read back, whole and in
its big-endian parts, in the unit of any access, and a change of RP alone changes no register of any block. -/
def Obligations.ReadAfterWrite : Prop :=
  (∀ (s t : State) (ea : WordAddr) (v : Word), s.between = [] → s.mem.wf = true →
    s.writeWord ea v = .ok () t →
    t.readWord ea .read = .ok v t ∧
    (∀ k : BitVec 2, t.readByte (ea ++ k) .read = .ok (v.extractLsb' (24 - 8 * k.toNat) 8) t) ∧
    (∀ k : BitVec 1, t.readHalf (ea ++ k) .read = .ok (v.extractLsb' (16 - 16 * k.toNat) 16) t)) ∧
  (∀ (s t : State) (ea : DoubleAddr) (v : Double), s.between = [] → s.mem.wf = true →
    s.config.sizes = Sizes.standard → s.writeDouble ea v = .ok () t →
    t.readDouble ea .read = .ok v t ∧ t.readWord (ea ++ 0#1) .read = .ok (v.extractLsb' 32 32) t ∧
    t.readWord (ea ++ 1#1) .read = .ok (v.extractLsb' 0 32) t) ∧
  (∀ (s : State) (b i j : BitVec 4) (v : Word), ({ s with psd := { s.psd with rp := b } } : State).reg i = s.blockReg b i ∧
    ((s.setReg i v).reg j = if j = i then v else s.reg j) ∧
    (b ≠ s.psd.rp → (s.setReg i v).blockReg b j = s.blockReg b j))

/-- Other agents act between the accesses of one instruction (R93, R111, R506, R660, R711). `u` differs from `s` by what they
did, and not at all where they do nothing. A load sees a store that falls before its access. Between the two reads of an LM
both its words may be stored to: it loads the old first and the new second word. Between the read and the write of an STS a
store is lost. AWM, MTW and XW are one access: nothing is lost, neither a device's modification nor the clock agent's, whose
delta it read before (R632). -/
def Obligations.Interference : Prop :=
  (∀ (s u : State) (a : AddrField), (∃ v, s.ByteOperand a v u) ∨ (∃ v, s.HalfOperand a v u) ∨
      (∃ v, s.WordOperand a v u) ∨ (∃ v, s.DoubleOperand a v u) →
    s.OthersOnly u ∧ (s.between = [] → u = s)) ∧
  (∀ (s : State) (r : RegNum) (a : AddrField) (rw : Nat) (v : Double) (rest : List (List AgentAccess)),
    s.mem.wf = true → a.ind = false → a.x = 0#3 → s.resolve a.ref .write = .ok (.real rw) →
    (s.between = [.deviceStore .word rw v] :: rest → s.resolve a.ref .read = .ok (.real rw) →
      ∃ t, exec (.lw r a) s = .next t ∧ t.reg r = v.extractLsb' 0 32 ∧ t.between = rest ∧
        t.mem.readWord (4 * rw) = v.extractLsb' 0 32) ∧
    (s.between = [] :: [.deviceStore .word rw v] :: rest → s.resolve a.ref .read = .ok (.real rw) →
      ∃ t, exec (.sts r a) s = .next t ∧ t.between = rest ∧ s.MemKeptBut t (4 * rw) 4 ∧
        ∀ k, k < 32 → (t.mem.readWord (4 * rw)).getLsbD k =
          if (s.reg (ru1 r)).getLsbD k then (s.reg r).getLsbD k else (s.mem.readWord (4 * rw)).getLsbD k) ∧
    (s.between = [.deviceModify .word rw v] :: rest ∨ (∃ (k : Fin 4) (ref : WordAddr), ref.toNat = rw ∧
        s.clock = .cell k .word ref v ∧ s.between = [.clockAct k] :: rest) →
      (∃ t, exec (.awm r a) s = .next t ∧ t.between = rest ∧
        t.mem.readWord (4 * rw) = s.mem.readWord (4 * rw) + v.extractLsb' 0 32 + s.reg r) ∧
      (r ≠ 0#4 → ∃ t, exec (.mtw r a) s = .next t ∧ t.between = rest ∧
        t.mem.readWord (4 * rw) = s.mem.readWord (4 * rw) + v.extractLsb' 0 32 + r.signExtend 32) ∧
      (∃ t, exec (.xw r a) s = .next t ∧ t.between = rest ∧
        t.reg r = s.mem.readWord (4 * rw) + v.extractLsb' 0 32 ∧ t.mem.readWord (4 * rw) = s.reg r))) ∧
  (∀ (s : State) (r : RegNum) (a : AddrField) (x y : Nat) (v w : Double) (rest : List (List AgentAccess)),
    s.mem.wf = true → a.ind = false → a.x = 0#3 → s.psd.cc = 2#4 → s.resolve a.ref .read = .ok (.real x) →
    s.resolve (a.ref + 1#17) .read = .ok (.real y) →
    s.between = [] :: [.deviceStore .word x v, .deviceStore .word y w] :: rest →
    ∃ t, exec (.lm r a) s = .next t ∧ t.reg r = s.mem.readWord (4 * x) ∧ t.reg (r + 1#4) = w.extractLsb' 0 32 ∧
      t.between = rest)

/-! ## The machine -/

/-- Reset (R700) as a host event: every field at the value the rule gives, and the contents of the registers and of real
memory kept. The records of the host and of its tooling, the free-value counter, the agenda and the configuration are the
model's own and stay (notes/assumptions/8.md); that a tick of the clock agent which has begun goes on is the model's reading
(notes/assumptions/4.md), that the last instruction is 0 then its choice (notes/assumptions/37.md). -/
def Obligations.ResetKeepsMemory : Prop :=
  ∀ (s : State) (rest : List AgentEvent), s.agenda = .reset :: rest →
    ∃ t, step s = .next t ∧ Psd.encode t.psd = 0#64 ∧ t.regs = s.regs ∧ t.mem = s.mem ∧
      (∀ p : Fin 256, t.map[p] = 0#13 ∧ t.acc[p] = 0#2) ∧ (∀ p : Nat, t.lockOf p = 0#2) ∧
      (∀ L : Fin 32, t.ic.armed[L] = false ∧ t.ic.enabled[L] = false ∧ t.ic.active[L] = false) ∧ t.ic.queue = [] ∧
      t.trapPending = none ∧ t.fatal = none ∧ t.waiting = false ∧ t.intSuppress = 0 ∧ t.exuDepth = 0 ∧
      t.running = false ∧ t.lastInstr = 0#32 ∧ t.between = [] ∧ t.clock = s.clock ∧
      t.hostCalls = s.hostCalls ∧ t.toolReports = s.toolReports ∧ t.freeCount = s.freeCount ∧ t.agenda = rest ∧
      t.config = s.config

/-- The machine after reset, in every configuration, has the invariant. -/
def Obligations.ResetInv : Prop := State.reset.Inv ∧ ∀ c : Config, (State.resetWith c).Inv

/-- The invariant every step keeps (R57, R83, R620, R625, R626): real memory canonical and within its pages, the queue in
(level, priority) order, queued and active levels armed, at most one entry of a coalescing level and none while it is
active, no EXU nesting between steps, and no access of another agent left over from a cycle. -/
def Obligations.StepKeepsInv : Prop := ∀ s t : State, s.Inv → step s = .next t → t.Inv

/-- Every step goes on, but for power-off (R600, R664): no instruction, trap, interrupt or event stops the model. -/
def Obligations.StepGoesOn : Prop :=
  ∀ s : State, (∃ t, step s = .next t) ∨
    (∃ rest, s.agenda = .powerOff :: rest ∧ step s = .fault .poweredOff)

/-- A step runs the decoded instruction (R601 steps 3 to 5, R661, R663, R660): the turn of the CPU comes with the accesses
`b` of the other agents during it; with nothing pending, no interrupt to take and not waiting, the word at pc is fetched
with mode execute and is the last instruction (of an EXU too, not its subject: the model's choice,
notes/assumptions/37.md), pc advances modulo 2^17, and the step is `exec` of what the word decodes to,
after which what the other agents have left to do happens, the nesting is 0 and the run mode may stop the machine: at a
branch of the awaited outcome, or at a trap, which counts as the outcome the free `Config.trapIsTaken` says. The run modes as
state are the model's (notes/assumptions/9.md). -/
def Obligations.StepRunsDecoded : Prop :=
  ∀ (s u t v : State) (rest : List AgentEvent) (b : List (List AgentAccess)) (w : Word) (i : Instr) (out : Option Bool),
    (s.agenda = [] ∧ rest = [] ∧ b = s.between ∨ ∃ p, p < s.config.sizes.nCpu ∧ s.agenda = .cpuCycle p b :: rest) →
    s.fatal = none → s.running = true → s.trapPending = none → s.poll = none → s.waiting = false →
    ({ s with agenda := rest, between := b, exuDepth := 0, branchOutcome := none } : State).readWord s.psd.ia .execute =
      .ok w u →
    decode w = .ok i →
    exec i { u with lastInstr := w, psd := { u.psd with ia := u.psd.ia + 1#17 } } = .next t → v = t.settle →
    out = (if t.trapPending = none then t.branchOutcome else some Config.trapIsTaken) →
    step s = .next { v with
      exuDepth := 0
      running := t.running && match t.runMode with
        | .free => true
        | .steps n => decide (1 < n)
        | .untilBranchTaken => out != some true
        | .untilBranchNotTaken => out != some false
      runMode := match t.runMode with
        | .free => .free
        | .steps n => .steps (n - 1)
        | .untilBranchTaken => .untilBranchTaken
        | .untilBranchNotTaken => .untilBranchNotTaken }

/-- A fetch fault (R601 step 3, R606) leaves pc and is marked as one; a stopped or fatal machine does nothing (R612, R661);
a waiting one only may end its wait (R468). What the other agents do during such a cycle happens by its end (R660). A cycle
of a processor beyond `N_CPU` does nothing: that an agenda may name one is the model's (notes/assumptions/36.md). -/
def Obligations.QuietCycles : Prop :=
  (∀ (s u : State) (x : Trap), s.agenda = [] → s.fatal = none → s.running = true → s.trapPending = none →
    s.poll = none → s.waiting = false →
    ({ s with exuDepth := 0, branchOutcome := none } : State).readWord s.psd.ia .execute = .trap x u →
    step s = .next ({ u with trapPending := some ⟨x.vector, x.cc, true⟩ } : State).settle ∧
      (s.between = [] → u = { s with exuDepth := 0, branchOutcome := none })) ∧
  (∀ s : State, s.agenda = [] → s.fatal ≠ none ∨ s.running = false →
    step s = .next s.settle ∧ (s.between = [] → step s = .next s)) ∧
  (∀ s : State, s.agenda = [] → s.between = [] → s.fatal = none → s.running = true → s.trapPending = none →
    s.poll = none → s.waiting = true → ∃ t, ∃ b : Bool, step s = .next t ∧
      { t with freeCount := s.freeCount } = { s with exuDepth := 0, branchOutcome := none, waiting := b }) ∧
  (∀ (s : State) (p : Nat) (b : List (List AgentAccess)) (rest : List AgentEvent), s.agenda = .cpuCycle p b :: rest →
    s.config.sizes.nCpu ≤ p → step s = .next { s with agenda := rest })

/-- Trap entry (R601 step 1, R606-R608, R611): a pending trap is taken before anything else, whatever waits. With an XPSD
at the vector (direct or indirect, indexed or not) and its doublewords in range and writable, the whole PSD is stored with
the saved instruction address and the new one installed, CC ORed with the trap's, and a WAIT ends. Any other word at the
vector, an indirect word that does not exist, and doublewords out of range or locked stop the machine for good, and the
host is told (R612, R665). -/
def Obligations.TrapEntry : Prop :=
  ∀ (s e : State) (T : TrapData) (w : Word) (f : Fields),
    s.config.sizes = Sizes.standard → s.agenda = [] → s.between = [] → s.fatal = none →
    s.running = true → s.trapPending = some T → 4 * T.vector < s.config.memPages * 2048 →
    w = s.mem.readWord (4 * T.vector) → f = decodeFields w →
    e = { s with exuDepth := 0, branchOutcome := none, trapPending := none } →
    (f.op ≠ 0x0F#7 → step s = .next (e.Halted .malformedTrapVector)) ∧
    (f.op = 0x0F#7 → f.ind = true → s.config.memPages * 2048 ≤ 4 * f.ref.toNat →
      step s = .next (e.Halted .exchangeAddress)) ∧
    (∀ (a : Nat), f.op = 0x0F#7 → e.ExchangeAt f a →
      (s.config.memPages * 2048 < 8 * a + 16 ∨ s.writeAllowed (8 * a / 2048) = false →
        step s = .next (e.Halted .exchangeAccess)) ∧
      (∀ sIA : WordAddr, s.mem.wf = true → 8 * a + 16 ≤ s.config.memPages * 2048 →
        s.writeAllowed (8 * a / 2048) = true →
        sIA = (if T.fetchTrap = true ∨ (s.config.calSavesNext = true ∧ 0x48 ≤ T.vector ∧ T.vector ≤ 0x4B) then s.psd.ia
          else s.psd.ia - 1#17) →
        ∃ t, step s = .next t ∧ State.Exchanges { e with waiting := false } t f sIA T.cc a))

/-- The interrupt scan (R601 step 2, R622, R624): it takes the first entry, in queue order, whose level is enabled and not
inhibited, unless a level of the same or a lower number is active, and not at all while suppressed or with all three
classes inhibited. With the queue in order the entry taken is of highest priority. -/
def Obligations.InterruptScan : Prop :=
  ∀ (s : State) (ready : IntEntry → Prop),
    (∀ e, ready e ↔ s.ic.enabled[e.level] = true ∧
      ¬(s.config.levelClass[e.level] = .counter ∧ s.psd.ci = true ∨ s.config.levelClass[e.level] = .ioPanel ∧
        s.psd.ii = true ∨ s.config.levelClass[e.level] = .external ∧ s.psd.ei = true)) →
    (s.intSuppress ≠ 0 ∨ (s.psd.ci = true ∧ s.psd.ii = true ∧ s.psd.ei = true) → s.poll = none) ∧
    (s.intSuppress = 0 → ¬(s.psd.ci = true ∧ s.psd.ii = true ∧ s.psd.ei = true) →
      (∀ (before after : List IntEntry) (e : IntEntry), s.ic.queue = before ++ e :: after →
        (∀ x ∈ before, ¬ready x) → ready e →
        ((∃ L : Fin 32, s.ic.active[L] = true ∧ L ≤ e.level) → s.poll = none) ∧
        ((∀ L : Fin 32, s.ic.active[L] = true → e.level < L) →
          s.poll = some (e.level, { s.ic with
            queue := before ++ after
            active := s.ic.active.set e.level true
            fireCount := s.ic.fireCount.set e.level (s.ic.fireCount[e.level] + 1) }) ∧
          (s.ic.Sorted → ∀ x ∈ s.ic.queue, ready x → x.precedes e = false))) ∧
      ((∀ e ∈ s.ic.queue, ¬ready e) → s.poll = none))

/-- Interrupt entry (R601 step 2, R623, R628, R608, R611): with no trap pending the polled level's vector X'50' + L is
taken; its XPSD (direct or indirect, indexed or not) stores the whole PSD with the address of the next instruction and
installs the new one with no trap CC, and a WAIT ends. A word that is neither an XPSD nor a counter MTx of a count-pulse
level, an indirect word that does not exist, and doublewords out of range or locked stop the machine for good, and the host
is told (R612, R665). -/
def Obligations.InterruptEntry : Prop :=
  ∀ (s e : State) (L : Fin 32) (ic : IntCtl) (w : Word) (f : Fields),
    s.config.sizes = Sizes.standard → s.agenda = [] → s.between = [] → s.fatal = none →
    s.running = true → s.trapPending = none → s.poll = some (L, ic) → 1 ≤ s.config.memPages →
    w = s.mem.readWord (4 * (0x50 + L.val)) → f = decodeFields w →
    e = { s with exuDepth := 0, branchOutcome := none, ic := ic } →
    (f.op ≠ 0x0F#7 → (f.op ≠ 0x73#7 ∧ f.op ≠ 0x53#7 ∧ f.op ≠ 0x33#7) ∨ L.val < 2 ∨ 5 < L.val →
      step s = .next (e.Halted .malformedInterruptVector)) ∧
    (f.op = 0x0F#7 → f.ind = true → s.config.memPages * 2048 ≤ 4 * f.ref.toNat →
      step s = .next (e.Halted .exchangeAddress)) ∧
    (∀ a : Nat, f.op = 0x0F#7 → e.ExchangeAt f a →
      (s.config.memPages * 2048 < 8 * a + 16 ∨ s.writeAllowed (8 * a / 2048) = false →
        step s = .next (e.Halted .exchangeAccess)) ∧
      (s.mem.wf = true → 8 * a + 16 ≤ s.config.memPages * 2048 → s.writeAllowed (8 * a / 2048) = true →
        ∃ t, step s = .next t ∧ State.Exchanges { e with waiting := false } t f s.psd.ia 0#4 a))

/-- Counting without the CPU's PSD (R629, R632, R611). A count-pulse level's MTB, MTH or MTW (direct or indirect, indexed or
not) runs once on its real cell: the level is cleared and stays armed, and the counter-zero level is posted when the result
is zero; with R = 0 it only tests; an indirect word or a cell that does not exist, or a locked cell of a nonzero delta, stops
the machine for good. The clock agent's tick, act by act, anything falling between (R111): a tick of a disarmed or disabled
level, or of a stopped machine, is skipped; else the vector is read; a direct, unindexed MTx of nonzero delta names the cell,
which is then counted by that delta as it is at that moment, without the lock check, and when the result is zero PSD.CI is
looked at and with CI = 0 the zero level posted; with any other word at the vector the pulse level is posted. That the R = 0
form makes no write-lock check is the model's reading of R629 (notes/assumptions/27.md); that the skip checks are one act and
a tick begun goes on is its reading of R632 (notes/assumptions/4.md); that a tick whose cell does not exist ends there is its
choice (notes/assumptions/35.md). -/
def Obligations.Counters : Prop :=
  ∀ (s : State) (k : Fin 4) (L zero : Fin 32) (w : Word) (f : Fields) (width : Width), s.config.sizes = Sizes.standard →
    L.val = 2 + k.val → zero.val = 8 + k.val → 1 ≤ s.config.memPages → s.mem.wf = true → s.between = [] →
    w = s.mem.readWord (4 * (0x50 + L.val)) → f = decodeFields w →
    (∀ (e d : State) (ic : IntCtl), s.agenda = [] → s.fatal = none → s.running = true → s.trapPending = none →
      s.poll = some (L, ic) →
      (f.op = 0x73#7 ∧ width = .byte ∨ f.op = 0x53#7 ∧ width = .half ∨ f.op = 0x33#7 ∧ width = .word) →
      e = { s with exuDepth := 0, branchOutcome := none, ic := ic } →
      d = { e with waiting := false, ic := { ic with active := ic.active.set L false } } →
      (f.ind = true → s.config.memPages * 2048 ≤ 4 * f.ref.toNat →
        step s = .next (e.Halted .singleInstruction)) ∧
      (∀ ra : Nat, e.CellAt f width ra →
        (s.config.memPages * 2048 ≤ ra ∨ f.r ≠ 0#4 ∧ s.writeAllowed (ra / 2048) = false →
          step s = .next (e.Halted .singleInstruction)) ∧
        (ra < s.config.memPages * 2048 → f.r = 0#4 →
          step s = .next (if s.mem.valueAt width ra = 0#64 then d.post zero 0 .cpu none none else d)) ∧
        (ra < s.config.memPages * 2048 → f.r ≠ 0#4 → s.writeAllowed (ra / 2048) = true →
          ∃ t u, step s = .next t ∧ u = { d with mem := u.mem } ∧
            u.mem.Holds width ra (s.mem.valueAt width ra + f.r.signExtend 64) ∧ s.MemKeptBut u ra width.bytes ∧
            t = if u.mem.valueAt width ra = 0#64 then u.post zero 0 .cpu none none else u))) ∧
    (∀ (j : Fin 4) (rest : List AgentEvent) (d : State), s.agenda = .access (.clockAct j) :: rest →
      d = { s with agenda := rest } →
      (s.clock = .idle → j = k →
        (s.fatal ≠ none ∨ s.running = false ∨ s.ic.armed[L] = false ∨ s.ic.enabled[L] = false → step s = .next d) ∧
        (s.fatal = none → s.running = true → s.ic.armed[L] = true → s.ic.enabled[L] = true →
          step s = .next { d with clock := .vector k })) ∧
      (s.clock = .vector k →
        (f.ind = false → f.x = 0#3 → f.r ≠ 0#4 →
          (f.op = 0x73#7 ∧ width = .byte ∨ f.op = 0x53#7 ∧ width = .half ∨ f.op = 0x33#7 ∧ width = .word) →
          step s = .next { d with clock := .cell k width f.ref (f.r.signExtend 64) }) ∧
        (f.ind = true ∨ f.x ≠ 0#3 ∨ f.r = 0#4 ∨ (f.op ≠ 0x73#7 ∧ f.op ≠ 0x53#7 ∧ f.op ≠ 0x33#7) →
          step s = .next { d with clock := .post L })) ∧
      (∀ (ref : WordAddr) (delta : Double) (ra : Nat), s.clock = .cell k width ref delta →
        (width = .byte ∧ ra = ref.toNat ∨ width = .half ∧ ra = 2 * ref.toNat ∨ width = .word ∧ ra = 4 * ref.toNat) →
        (s.config.memPages * 2048 ≤ ra → step s = .next { d with clock := .idle }) ∧
        (ra < s.config.memPages * 2048 →
          ∃ t, step s = .next t ∧ t.mem.Holds width ra (s.mem.valueAt width ra + delta) ∧
            s.MemKeptBut t ra width.bytes ∧
            t = { d with mem := t.mem, clock := if t.mem.valueAt width ra = 0#64 then .zero k else .idle })) ∧
      (s.clock = .zero k → step s = .next { d with clock := if s.psd.ci then .idle else .post zero }) ∧
      (∀ M : Fin 32, s.clock = .post M → step s = .next { d.post M 0 .clock none none with clock := .idle }))

/-- Posting and level control by other agents (R625, R626): a post to a disarmed level, or to a coalescing one that is
active or waiting, is dropped; any other to one of the `NLEVELS` goes in after every entry that does not come later in (level,
priority) order. That a post changes nothing else, so that it does not by itself end a WAIT where R625 says that it wakes a
waiting CPU, is the model's choice (notes/assumptions/18.md): the entry ends the WAIT when it is taken. -/
def Obligations.PostsAndLevels : Prop :=
  (∀ (s : State) (rest : List AgentEvent) (L : Fin 32) (priority : Nat) (origin : Origin) (line : Option Nat)
    (char : Option Byte), s.agenda = .access (.post L priority origin line char) :: rest →
    (s.ic.armed[L] = false ∨
        s.config.coalesce[L] = true ∧ (s.ic.active[L] = true ∨ ∃ e ∈ s.ic.queue, e.level = L) →
      step s = .next { s with agenda := rest }) ∧
    (L.val < s.config.sizes.nLevels → s.ic.Sorted → s.ic.armed[L] = true →
      (s.config.coalesce[L] = true → s.ic.active[L] = false ∧ ∀ e ∈ s.ic.queue, e.level ≠ L) →
      ∃ t, ∃ (e : IntEntry) (before after : List IntEntry), step s = .next t ∧
        e.level = L ∧ e.priority = priority ∧ e.origin = origin ∧ e.line = line ∧ e.char = char ∧
        s.ic.queue = before ++ after ∧
        (∀ x ∈ before, x.level < L ∨ x.level = L ∧ x.priority ≤ priority) ∧
        (∀ x ∈ after, L < x.level ∨ x.level = L ∧ priority < x.priority) ∧
        { t with freeCount := s.freeCount } =
          { s with agenda := rest, ic := { s.ic with queue := before ++ e :: after } })) ∧
  (∀ (s : State) (rest : List AgentEvent) (L : Fin 32),
    (s.agenda = .arm L :: rest →
      step s = .next { s with agenda := rest, ic := { s.ic with armed := s.ic.armed.set L true } }) ∧
    (s.agenda = .disarm L :: rest →
      step s = .next { s with agenda := rest, ic := { s.ic with
        armed := s.ic.armed.set L false
        active := s.ic.active.set L false
        queue := s.ic.queue.filter fun e => e.level != L } }) ∧
    (s.agenda = .enable L :: rest →
      step s = .next { s with agenda := rest, ic := { s.ic with enabled := s.ic.enabled.set L true } }) ∧
    (s.agenda = .disable L :: rest →
      step s = .next { s with agenda := rest, ic := { s.ic with enabled := s.ic.enabled.set L false } }))

/-- Memory accesses of devices and tooling as events (R91, R94, R98, R506): a device's store and atomic modification at a real
address, and tooling's load and store at a real address or through the map: the addressed bytes, whatever the write locks
are, and nothing else; tooling's value, its store done, or the fault of an address that does not exist is reported to the
host and raises no trap. The model's choices (notes/assumptions/32.md): no access code is looked at on tooling's way through
the map, no mapped address leads beyond its 256 pages, a device's access to an address that does not exist changes nothing,
and neither does `AtomicModify` of a doubleword, which has no such form. -/
def Obligations.AgentStores : Prop :=
  ∀ (s d : State) (rest : List AgentEvent) (width : Width) (i : Nat) (v : Double), s.config.sizes = Sizes.standard →
    s.mem.wf = true → d = { s with agenda := rest } →
    (s.agenda = .access (.deviceStore width i v) :: rest →
      (s.config.memPages * 2048 < width.bytes * (i + 1) → step s = .next d) ∧
      (width.bytes * (i + 1) ≤ s.config.memPages * 2048 → ∃ t, step s = .next t ∧ t = { d with mem := t.mem } ∧
        t.mem.Holds width (width.bytes * i) v ∧ s.MemKeptBut t (width.bytes * i) width.bytes)) ∧
    (s.agenda = .access (.deviceModify width i v) :: rest →
      (width = .double ∨ s.config.memPages * 2048 < width.bytes * (i + 1) → step s = .next d) ∧
      (width ≠ .double → width.bytes * (i + 1) ≤ s.config.memPages * 2048 →
        ∃ t, step s = .next t ∧ t = { d with mem := t.mem } ∧
          t.mem.Holds width (width.bytes * i) (s.mem.valueAt width (width.bytes * i) + v) ∧
          s.MemKeptBut t (width.bytes * i) width.bytes)) ∧
    (∀ (space : Space) (ra : Nat), (space = .real ∧ ra = width.bytes * i ∨ space = .mapped ∧ ∃ p : Byte,
        width.bytes * i / 2048 = p.toNat ∧ ra = (s.map[p.toNat]).toNat * 2048 + width.bytes * i % 2048) →
      (s.agenda = .access (.toolLoad space width i) :: rest →
        step s = .next { d with toolReports :=
          (if ra + width.bytes ≤ s.config.memPages * 2048 then .loaded (s.mem.valueAt width ra) else .fault) ::
            s.toolReports }) ∧
      (s.agenda = .access (.toolStore space width i v) :: rest →
        (s.config.memPages * 2048 < ra + width.bytes →
          step s = .next { d with toolReports := .fault :: s.toolReports }) ∧
        (ra + width.bytes ≤ s.config.memPages * 2048 → ∃ t, step s = .next t ∧
          t = { d with mem := t.mem, toolReports := .stored :: s.toolReports } ∧
          t.mem.Holds width ra v ∧ s.MemKeptBut t ra width.bytes))) ∧
    (s.agenda = .access (.toolLoad .mapped width i) :: rest ∨ s.agenda = .access (.toolStore .mapped width i v) :: rest →
      256 * 2048 ≤ width.bytes * i → step s = .next { d with toolReports := .fault :: s.toolReports })

/-- The host's other events (R106, R88, R660, R661, R663, R702): a write of one map entry, access code or write lock (a
real page from `WLOCK_PAGES` on has none); the PSD, which only a stopped machine takes; the suppression count; a message to
the log sink (R665), which goes to the host and changes nothing else; start and stop; and what the status snapshot shows.
That the agenda says when the core logs, and what, is the model's choice (notes/assumptions/39.md). That a running machine
leaves the PSD alone is the model's reading (notes/assumptions/7.md). That the run mode is state, that a start with a step
count of 0 runs nothing and yet ends a WAIT, and that a start while fatal sets running, where no cycle happens, are the
model's too (notes/assumptions/9.md). -/
def Obligations.HostControl : Prop :=
  (∀ (s d : State) (rest : List AgentEvent), d = { s with agenda := rest } →
    (∀ p v, s.agenda = .setMapEntry p v :: rest → ∃ t, step s = .next t ∧ t = { d with map := t.map } ∧
      ∀ q : Fin 256, t.map[q] = if q.val = p.toNat then v else s.map[q]) ∧
    (∀ p v, s.agenda = .setAccessCode p v :: rest → ∃ t, step s = .next t ∧ t = { d with acc := t.acc } ∧
      ∀ q : Fin 256, t.acc[q] = if q.val = p.toNat then v else s.acc[q]) ∧
    (∀ p v, s.agenda = .setWriteLock p v :: rest →
      (s.config.wlockPages ≤ p → step s = .next d) ∧
      (p < s.config.wlockPages → ∃ t, step s = .next t ∧ t = { d with locks := t.locks, highLocks := t.highLocks } ∧
        ∀ q, t.lockOf q = if q = p then v else s.lockOf q)) ∧
    (∀ p, s.agenda = .setPsd p :: rest → step s = .next (if s.running then d else { d with psd := p })) ∧
    (∀ n, s.agenda = .setIntSuppress n :: rest → step s = .next { d with intSuppress := n }) ∧
    (∀ m, s.agenda = .log m :: rest → step s = .next { d with hostCalls := .log m :: s.hostCalls }) ∧
    (∀ m, s.agenda = .start m :: rest →
      step s = .next { d with running := decide (m ≠ .steps 0), runMode := m, waiting := false }) ∧
    (s.agenda = .stop :: rest → step s = .next { d with running := false })) ∧
  (∀ s : State, s.snapshot.psd = s.psd ∧ s.snapshot.lastInstr = s.lastInstr ∧
    (s.snapshot.fault = true ↔ s.fatal ≠ none) ∧ (∀ c, s.fatal = some c → s.snapshot.message = some c.message) ∧
    (s.fatal = none → s.snapshot.message = none))

/-! ## Protection -/

/-- What an instruction run in slave mode cannot change (R39, R641, R48, R49, R89, R106): the mode and every PSD field but
CC, the floating modes and pc; the map, the access codes and the locks; the interrupt controller; the host's services, but
for the notice that an EXU chain beyond its limit halts the CPU; registers of another block; and any byte of real memory
but those of the words that an address it may store to leads to (no other agent acting meanwhile). A slave program reaches
master mode only through a trap or an interrupt: a step that runs an instruction, or waits, or does nothing leaves slave
mode as it is, whatever the other agents do. -/
def Obligations.SlaveIsolation : Prop :=
  (∀ (i : Instr) (s t : State), s.config.sizes = Sizes.standard → s.between = [] → s.psd.ms = true →
    exec i s = .next t →
    t.psd = { s.psd with cc := t.psd.cc, fs := t.psd.fs, fz := t.psd.fz, fn := t.psd.fn, ia := t.psd.ia } ∧
    t.map = s.map ∧ t.acc = s.acc ∧ t.locks = s.locks ∧ t.highLocks = s.highLocks ∧ t.ic = s.ic ∧
    t.waiting = s.waiting ∧ t.intSuppress = s.intSuppress ∧ t.config = s.config ∧
    (t.hostCalls = s.hostCalls ∨ t.fatal = some .exuLimit ∧ t.hostCalls = .threadExit :: s.hostCalls) ∧
    t.clock = s.clock ∧
    (∀ b j : BitVec 4, b ≠ s.psd.rp → t.blockReg b j = s.blockReg b j) ∧
    (∀ a : Nat, t.mem.read a ≠ s.mem.read a →
      ∃ vw : WordAddr, ∃ rw : Nat, s.resolve vw .write = .ok (.real rw) ∧ 4 * rw ≤ a ∧ a < 4 * rw + 4)) ∧
  (∀ (s t : State) (b : List (List AgentAccess)) (rest : List AgentEvent), s.psd.ms = true →
    (s.agenda = [] ∨ ∃ p, s.agenda = .cpuCycle p b :: rest) → s.trapPending = none → s.poll = none → step s = .next t →
    t.psd.ms = true)

/-- Traps are precise (R604, R605, R104). An instruction that raises a trap of vector X'40' or X'41' has changed nothing else,
whatever the other agents did meanwhile; of EXU see `Obligations.Execute`; LM, STM and the byte strings are the rule's own
exceptions (`Obligations.MultipleTransfers`, `MoveAndTranslate`, `CompareAndTest`). And a memory access that traps makes the
instruction end with exactly that trap pending: an indirect word, the operand read, the operand stored to or modified, the
subject of an EXU, STS's store after its read, and, no other agent acting, the first of the words a conversion, MMC, a stack
instruction, XPSD or a decimal instruction reads or stores, before the trap of a stack limit or of a decimal fault: the accesses
come before the instruction's own conditions (R604). At an inhibited stack limit (R371) and at a decimal fault with DM = 0
(R443) no such access is made, so there is none to trap (`Obligations.StackLimits`, `DecimalFaults`). PACK's and UNPK's fields
are the model's (notes/assumptions/23.md). -/
def Obligations.PreciseTraps : Prop :=
  (∀ (i : Instr) (s t : State) (T : TrapData), s.trapPending = none → exec i s = .next t → t.trapPending = some T →
    T.vector = 0x40 ∨ T.vector = 0x41 →
    (∀ r a, i ≠ .lm r a ∧ i ≠ .stm r a ∧ i ≠ .exu r a) →
    (∀ r v, i ≠ .mbs r v ∧ i ≠ .cbs r v ∧ i ≠ .tbs r v ∧ i ≠ .ttbs r v ∧ i ≠ .ebs r v) →
    s.OthersOnly { t with trapPending := none } ∧ (s.between = [] → t = { s with trapPending := some T })) ∧
  (∀ (s : State) (r : RegNum) (a : AddrField) (x : Trap) (u : State),
    (s.ByteTraps a .read x u → ∀ i ∈ [Instr.lb r a, .cb r a, .lcf r a, .mtb 0#4 a], exec i s = .next (u.Pending x)) ∧
    (s.ByteTraps a .write x u → ∀ i ∈ [Instr.stb r a, .stcf r a], exec i s = .next (u.Pending x)) ∧
    (s.ByteTraps a .write x u → r ≠ 0#4 → exec (.mtb r a) s = .next (u.Pending x)) ∧
    (s.HalfTraps a .read x u → ∀ i ∈ [Instr.lh r a, .lch r a, .lah r a, .ch r a, .ah r a, .sh r a, .mh r a, .dh r a,
      .mth 0#4 a], exec i s = .next (u.Pending x)) ∧
    (s.HalfTraps a .write x u → exec (.sth r a) s = .next (u.Pending x)) ∧
    (s.HalfTraps a .write x u → r ≠ 0#4 → exec (.mth r a) s = .next (u.Pending x)) ∧
    (s.WordTraps a .read x u → ∀ i ∈ [Instr.lw r a, .ls r a, .and r a, .or r a, .eor r a, .lcw r a, .law r a, .aw r a,
      .sw r a, .mw r a, .dw r a, .cw r a, .cs r a, .clr r a, .mtw 0#4 a, .int r a, .anlz r a, .sts r a],
      exec i s = .next (u.Pending x)) ∧
    (s.WordTraps a .read x u → s.config.floatOption = true →
      ∀ i ∈ [Instr.fas r a, .fss r a, .fms r a, .fds r a], exec i s = .next (u.Pending x)) ∧
    (s.WordTraps a .read x u → s.psd.ms = false → exec (.lrp r a) s = .next (u.Pending x)) ∧
    (s.WordTraps a .write x u → ∀ i ∈ [Instr.stw r a, .awm r a, .xw r a], exec i s = .next (u.Pending x)) ∧
    (s.WordTraps a .write x u → r ≠ 0#4 → exec (.mtw r a) s = .next (u.Pending x)) ∧
    (s.WordTraps a .execute x u → exec (.exu r a) s = .next (u.Pending x)) ∧
    (s.DoubleTraps a .read x u → ∀ i ∈ [Instr.ld r a, .lcd r a, .lad r a, .ad r a, .sd r a, .cd r a, .clm r a, .psw r a,
      .plw r a, .psm r a, .plm r a, .msp r a], exec i s = .next (u.Pending x)) ∧
    (s.DoubleTraps a .read x u → s.config.floatOption = true →
      ∀ i ∈ [Instr.fal r a, .fsl r a, .fml r a, .fdl r a], exec i s = .next (u.Pending x)) ∧
    (s.DoubleTraps a .read x u → s.psd.ms = false → exec (.lpsd r a) s = .next (u.Pending x)) ∧
    (s.DoubleTraps a .write x u → exec (.std r a) s = .next (u.Pending x)) ∧
    (s.effWord a = .trap x u → ∀ i ∈ [Instr.s r a, .bcr r a, .bcs r a, .bal r a, .bdr r a, .bir r a, .lm r a, .stm r a,
      .cva r a, .cvs r a], exec i s = .next (u.Pending x)) ∧
    (s.effWord a = .trap x u → s.config.floatOption = true → exec (.sf r a) s = .next (u.Pending x)) ∧
    (s.effWord a = .trap x u → s.psd.ms = false → ∀ i ∈ [Instr.sio r a, .tio r a, .tdv r a, .hio r a, .aio r a, .rd r a,
      .wd r a], exec i s = .next (u.Pending x)) ∧
    (s.effDouble a = .trap x u → s.psd.ms = false → exec (.xpsd r a) s = .next (u.Pending x)) ∧
    (s.effWord a = .trap x u → s.config.decimalOption = true → exec (.dsa r a) s = .next (u.Pending x)) ∧
    (s.effByte a = .trap x u → s.config.decimalOption = true → ∀ i ∈ [Instr.dl r a, .dst r a, .da r a, .ds r a, .dm r a,
      .dd r a, .dc r a, .pack r a, .unpk r a], exec i s = .next (u.Pending x)) ∧
    (∀ ea v old w, s.effWord a = .ok ea v → v.readWord ea .read = .ok old w → w.resolve ea .write = .error x →
      exec (.sts r a) s = .next (w.others.Pending x)) ∧
    (∀ w v, s.WordOperand a w v → (w.extractLsb' 24 7).toNat ∉ immediateOpcodes →
      (w.extractLsb' 24 7).toNat ∉ [0x04, 0x05, 0x06, 0x07, 0x2E] → w[31] = true →
      v.readWord (w.extractLsb' 0 17) .read = .trap x u → exec (.anlz r a) s = .next (u.Pending x))) ∧
  (∀ (s : State) (r : RegNum) (a : AddrField) (x : Trap), s.between = [] →
    (∀ ea, s.effWord a = .ok ea s →
      (s.FirstFault 32 (fun _ => True) (fun k => ea + BitVec.ofNat 17 k) .read x →
        exec (.cvs r a) s = .next (s.Pending x)) ∧
      (s.FirstFault 32 (fun k => (s.reg (ru1 r)).getLsbD (31 - k) = true) (fun k => ea + BitVec.ofNat 17 k) .read x →
        exec (.cva r a) s = .next (s.Pending x))) ∧
    (∀ (f : BitVec 3) (z : BitVec 17) (n : Nat), s.psd.ms = false → (f = 1#3 ∨ f = 2#3 ∨ f = 4#3 ∨ f = 5#3) →
      n = (if (s.reg (ru1 r)).extractLsb' 24 8 = 0#8 then 256 else ((s.reg (ru1 r)).extractLsb' 24 8).toNat) →
      s.FirstFault n (fun _ => True) (fun k => (s.reg r).extractLsb' 0 17 + BitVec.ofNat 17 k) .read x →
      exec (.mmc r f z) s = .next (s.Pending x)) ∧
    (∀ ea p, s.psd.ms = false → s.effDouble a = .ok ea s →
      (s.resolve (ea ++ 0#1) .write = .error x ∨
        s.resolve (ea ++ 0#1) .write = .ok p ∧ s.resolve ((ea + 1#16) ++ 0#1) .read = .error x) →
      exec (.xpsd r a) s = .next (s.Pending x)) ∧
    (∀ (ea : DoubleAddr) (q : Place) (sp : StackPointer) (i : Instr) (n : Nat), s.effDouble a = .ok ea s →
      s.resolve (ea ++ 0#1) .read = .ok q → sp = spdDecode (s.loadDouble q) →
      (i = .psw r a ∧ n = 1 ∨ i = .psm r a ∧ n = (if s.psd.cc = 0#4 then 16 else s.psd.cc.toNat) → ¬sp.Inhibited n →
        (s.FirstFault n (fun _ => True) (fun k => sp.tsa + 1#17 + BitVec.ofNat 17 k) .write x ∨
          (∀ k, k < n → ∃ p, s.resolve (sp.tsa + 1#17 + BitVec.ofNat 17 k) .write = .ok p) ∧
            s.resolve (ea ++ 0#1) .write = .error x) →
        exec i s = .next (s.Pending x)) ∧
      (i = .plw r a ∧ n = 1 ∨ i = .plm r a ∧ n = (if s.psd.cc = 0#4 then 16 else s.psd.cc.toNat) → ¬sp.Inhibited (-n) →
        (s.FirstFault n (fun _ => True) (fun k => sp.tsa - BitVec.ofNat 17 n + 1#17 + BitVec.ofNat 17 k) .read x ∨
          (∀ k, k < n → ∃ p, s.resolve (sp.tsa - BitVec.ofNat 17 n + 1#17 + BitVec.ofNat 17 k) .read = .ok p) ∧
            s.resolve (ea ++ 0#1) .write = .error x) →
        exec i s = .next (s.Pending x)) ∧
      ((s.reg r).extractLsb' 0 16 ≠ 0#16 → ¬sp.Inhibited ((s.reg r).extractLsb' 0 16).toInt →
        s.resolve (ea ++ 0#1) .write = .error x → exec (.msp r a) s = .next (s.Pending x))) ∧
    (∀ (ea : ByteAddr) (len : Nat) (addr : Nat → WordAddr), s.config.decimalOption = true → s.effByte a = .ok ea s →
      len = (if r = 0#4 then 16 else r.toNat) → (∀ k, addr k = (ea + BitVec.ofNat 19 k).extractLsb' 2 17) →
      (s.FirstFault len (fun _ => True) addr .read x →
        ∀ i ∈ [Instr.dl r a, .da r a, .ds r a, .dm r a, .dd r a, .dc r a, .unpk r a], exec i s = .next (s.Pending x)) ∧
      (s.FirstFault (2 * len - 1) (fun _ => True) addr .read x → exec (.pack r a) s = .next (s.Pending x)) ∧
      (s.psd.dm = true ∨ (∃ v, s.accValue = some v ∧ v.natAbs < 10 ^ (2 * len - 1)) →
        s.FirstFault len (fun _ => True) addr .write x → exec (.dst r a) s = .next (s.Pending x)) ∧
      (∀ zs, readField (2 * len - 1) ea s = .ok zs s →
        s.psd.dm = true ∨ (∀ b ∈ zs, (b.extractLsb' 0 4).toNat ≤ 9) ∧ 10 ≤ ((zs.getLastD 0#8).extractLsb' 4 4).toNat →
        s.FirstFault len (fun _ => True) addr .write x → exec (.pack r a) s = .next (s.Pending x)) ∧
      (∀ bs, readField len ea s = .ok bs s → s.psd.dm = true ∨ packedValue bs ≠ none →
        s.FirstFault (2 * len - 1) (fun _ => True) addr .write x → exec (.unpk r a) s = .next (s.Pending x))))
end

