-- ==== Sys2Proof/Laws/State.lean ====
section
/-! SUPPORT. One lemma per field per update of the state, so that no proof unfolds a record update. -/

namespace Sys2Proof.Machine

/-! ### The sizes R10 takes (00_scope.md R10) -/

/-- The words and addresses have the bits R10 gives. -/
theorem words_sized :
    Word = BitVec Sizes.standard.wordBits ∧ Half = BitVec (Sizes.standard.wordBits / 2) ∧
    Byte = BitVec (Sizes.standard.wordBits / 4) ∧ Double = BitVec (2 * Sizes.standard.wordBits) ∧
    WordAddr = BitVec Sizes.standard.vaBits ∧ ByteAddr = BitVec (Sizes.standard.vaBits + 2) :=
  ⟨rfl, rfl, rfl, rfl, rfl, rfl⟩

theorem State.pageWords_standard {s : State} (h : s.config.sizes = Sizes.standard) : s.pageWords = 512 := by
  simp [State.pageWords, h]
theorem State.pageBytes_standard {s : State} (h : s.config.sizes = Sizes.standard) : s.pageBytes = 2048 := by
  rw [State.pageBytes, State.pageWords_standard h]
theorem State.virtualWord_standard {s : State} (h : s.config.sizes = Sizes.standard) (vw : WordAddr) :
    s.virtualWord vw = vw.toNat := by
  rw [State.virtualWord, h]; exact Nat.mod_eq_of_lt vw.isLt
@[simp] theorem blockOf_standard (b : BitVec 4) : blockOf Sizes.standard b = b := by
  revert b; decide
theorem State.pageOf_standard {s : State} (h : s.config.sizes = Sizes.standard) (vw : WordAddr) :
    (s.pageOf vw).val = (vw.extractLsb' 9 8).toNat := by
  have := vw.isLt
  simp only [State.pageOf, State.virtualWord_standard h, State.pageWords_standard h, h, BitVec.extractLsb'_toNat,
    Nat.shiftRight_eq_div_pow]
  omega

variable (s : State)

/-! ### `State.setReg` -/

@[simp] theorem State.setReg_psd (i : RegNum) (v : Word) : (s.setReg i v).psd = s.psd := rfl
@[simp] theorem State.setReg_regs (i : RegNum) (v : Word) : (s.setReg i v).regs = s.regs.set (s.psd.rp ++ i).toNat v := rfl
@[simp] theorem State.setReg_mem (i : RegNum) (v : Word) : (s.setReg i v).mem = s.mem := rfl
@[simp] theorem State.setReg_locks (i : RegNum) (v : Word) : (s.setReg i v).locks = s.locks := rfl
@[simp] theorem State.setReg_highLocks (i : RegNum) (v : Word) : (s.setReg i v).highLocks = s.highLocks := rfl
@[simp] theorem State.setReg_map (i : RegNum) (v : Word) : (s.setReg i v).map = s.map := rfl
@[simp] theorem State.setReg_acc (i : RegNum) (v : Word) : (s.setReg i v).acc = s.acc := rfl
@[simp] theorem State.setReg_ic (i : RegNum) (v : Word) : (s.setReg i v).ic = s.ic := rfl
@[simp] theorem State.setReg_trapPending (i : RegNum) (v : Word) : (s.setReg i v).trapPending = s.trapPending := rfl
@[simp] theorem State.setReg_fatal (i : RegNum) (v : Word) : (s.setReg i v).fatal = s.fatal := rfl
@[simp] theorem State.setReg_waiting (i : RegNum) (v : Word) : (s.setReg i v).waiting = s.waiting := rfl
@[simp] theorem State.setReg_intSuppress (i : RegNum) (v : Word) : (s.setReg i v).intSuppress = s.intSuppress := rfl
@[simp] theorem State.setReg_exuDepth (i : RegNum) (v : Word) : (s.setReg i v).exuDepth = s.exuDepth := rfl
@[simp] theorem State.setReg_running (i : RegNum) (v : Word) : (s.setReg i v).running = s.running := rfl
@[simp] theorem State.setReg_runMode (i : RegNum) (v : Word) : (s.setReg i v).runMode = s.runMode := rfl
@[simp] theorem State.setReg_clock (i : RegNum) (v : Word) : (s.setReg i v).clock = s.clock := rfl
@[simp] theorem State.setReg_branchOutcome (i : RegNum) (v : Word) : (s.setReg i v).branchOutcome = s.branchOutcome := rfl
@[simp] theorem State.setReg_lastInstr (i : RegNum) (v : Word) : (s.setReg i v).lastInstr = s.lastInstr := rfl
@[simp] theorem State.setReg_hostCalls (i : RegNum) (v : Word) : (s.setReg i v).hostCalls = s.hostCalls := rfl
@[simp] theorem State.setReg_toolReports (i : RegNum) (v : Word) : (s.setReg i v).toolReports = s.toolReports := rfl
@[simp] theorem State.setReg_freeCount (i : RegNum) (v : Word) : (s.setReg i v).freeCount = s.freeCount := rfl
@[simp] theorem State.setReg_agenda (i : RegNum) (v : Word) : (s.setReg i v).agenda = s.agenda := rfl
@[simp] theorem State.setReg_between (i : RegNum) (v : Word) : (s.setReg i v).between = s.between := rfl
@[simp] theorem State.setReg_config (i : RegNum) (v : Word) : (s.setReg i v).config = s.config := rfl

/-! ### `State.setPc` -/

@[simp] theorem State.setPc_psd (a : WordAddr) : (s.setPc a).psd = { s.psd with ia := a } := rfl
@[simp] theorem State.setPc_regs (a : WordAddr) : (s.setPc a).regs = s.regs := rfl
@[simp] theorem State.setPc_mem (a : WordAddr) : (s.setPc a).mem = s.mem := rfl
@[simp] theorem State.setPc_locks (a : WordAddr) : (s.setPc a).locks = s.locks := rfl
@[simp] theorem State.setPc_highLocks (a : WordAddr) : (s.setPc a).highLocks = s.highLocks := rfl
@[simp] theorem State.setPc_map (a : WordAddr) : (s.setPc a).map = s.map := rfl
@[simp] theorem State.setPc_acc (a : WordAddr) : (s.setPc a).acc = s.acc := rfl
@[simp] theorem State.setPc_ic (a : WordAddr) : (s.setPc a).ic = s.ic := rfl
@[simp] theorem State.setPc_trapPending (a : WordAddr) : (s.setPc a).trapPending = s.trapPending := rfl
@[simp] theorem State.setPc_fatal (a : WordAddr) : (s.setPc a).fatal = s.fatal := rfl
@[simp] theorem State.setPc_waiting (a : WordAddr) : (s.setPc a).waiting = s.waiting := rfl
@[simp] theorem State.setPc_intSuppress (a : WordAddr) : (s.setPc a).intSuppress = s.intSuppress := rfl
@[simp] theorem State.setPc_exuDepth (a : WordAddr) : (s.setPc a).exuDepth = s.exuDepth := rfl
@[simp] theorem State.setPc_running (a : WordAddr) : (s.setPc a).running = s.running := rfl
@[simp] theorem State.setPc_runMode (a : WordAddr) : (s.setPc a).runMode = s.runMode := rfl
@[simp] theorem State.setPc_clock (a : WordAddr) : (s.setPc a).clock = s.clock := rfl
@[simp] theorem State.setPc_branchOutcome (a : WordAddr) : (s.setPc a).branchOutcome = s.branchOutcome := rfl
@[simp] theorem State.setPc_lastInstr (a : WordAddr) : (s.setPc a).lastInstr = s.lastInstr := rfl
@[simp] theorem State.setPc_hostCalls (a : WordAddr) : (s.setPc a).hostCalls = s.hostCalls := rfl
@[simp] theorem State.setPc_toolReports (a : WordAddr) : (s.setPc a).toolReports = s.toolReports := rfl
@[simp] theorem State.setPc_freeCount (a : WordAddr) : (s.setPc a).freeCount = s.freeCount := rfl
@[simp] theorem State.setPc_agenda (a : WordAddr) : (s.setPc a).agenda = s.agenda := rfl
@[simp] theorem State.setPc_between (a : WordAddr) : (s.setPc a).between = s.between := rfl
@[simp] theorem State.setPc_config (a : WordAddr) : (s.setPc a).config = s.config := rfl

/-! ### `State.setCC` -/

@[simp] theorem State.setCC_psd (c : BitVec 4) : (s.setCC c).psd = { s.psd with cc := c } := rfl
@[simp] theorem State.setCC_regs (c : BitVec 4) : (s.setCC c).regs = s.regs := rfl
@[simp] theorem State.setCC_mem (c : BitVec 4) : (s.setCC c).mem = s.mem := rfl
@[simp] theorem State.setCC_locks (c : BitVec 4) : (s.setCC c).locks = s.locks := rfl
@[simp] theorem State.setCC_highLocks (c : BitVec 4) : (s.setCC c).highLocks = s.highLocks := rfl
@[simp] theorem State.setCC_map (c : BitVec 4) : (s.setCC c).map = s.map := rfl
@[simp] theorem State.setCC_acc (c : BitVec 4) : (s.setCC c).acc = s.acc := rfl
@[simp] theorem State.setCC_ic (c : BitVec 4) : (s.setCC c).ic = s.ic := rfl
@[simp] theorem State.setCC_trapPending (c : BitVec 4) : (s.setCC c).trapPending = s.trapPending := rfl
@[simp] theorem State.setCC_fatal (c : BitVec 4) : (s.setCC c).fatal = s.fatal := rfl
@[simp] theorem State.setCC_waiting (c : BitVec 4) : (s.setCC c).waiting = s.waiting := rfl
@[simp] theorem State.setCC_intSuppress (c : BitVec 4) : (s.setCC c).intSuppress = s.intSuppress := rfl
@[simp] theorem State.setCC_exuDepth (c : BitVec 4) : (s.setCC c).exuDepth = s.exuDepth := rfl
@[simp] theorem State.setCC_running (c : BitVec 4) : (s.setCC c).running = s.running := rfl
@[simp] theorem State.setCC_runMode (c : BitVec 4) : (s.setCC c).runMode = s.runMode := rfl
@[simp] theorem State.setCC_clock (c : BitVec 4) : (s.setCC c).clock = s.clock := rfl
@[simp] theorem State.setCC_branchOutcome (c : BitVec 4) : (s.setCC c).branchOutcome = s.branchOutcome := rfl
@[simp] theorem State.setCC_lastInstr (c : BitVec 4) : (s.setCC c).lastInstr = s.lastInstr := rfl
@[simp] theorem State.setCC_hostCalls (c : BitVec 4) : (s.setCC c).hostCalls = s.hostCalls := rfl
@[simp] theorem State.setCC_toolReports (c : BitVec 4) : (s.setCC c).toolReports = s.toolReports := rfl
@[simp] theorem State.setCC_freeCount (c : BitVec 4) : (s.setCC c).freeCount = s.freeCount := rfl
@[simp] theorem State.setCC_agenda (c : BitVec 4) : (s.setCC c).agenda = s.agenda := rfl
@[simp] theorem State.setCC_between (c : BitVec 4) : (s.setCC c).between = s.between := rfl
@[simp] theorem State.setCC_config (c : BitVec 4) : (s.setCC c).config = s.config := rfl

/-! ### `State.setMem` -/

@[simp] theorem State.setMem_psd (m : Memory) : (s.setMem m).psd = s.psd := rfl
@[simp] theorem State.setMem_regs (m : Memory) : (s.setMem m).regs = s.regs := rfl
@[simp] theorem State.setMem_mem (m : Memory) : (s.setMem m).mem = m := rfl
@[simp] theorem State.setMem_locks (m : Memory) : (s.setMem m).locks = s.locks := rfl
@[simp] theorem State.setMem_highLocks (m : Memory) : (s.setMem m).highLocks = s.highLocks := rfl
@[simp] theorem State.setMem_map (m : Memory) : (s.setMem m).map = s.map := rfl
@[simp] theorem State.setMem_acc (m : Memory) : (s.setMem m).acc = s.acc := rfl
@[simp] theorem State.setMem_ic (m : Memory) : (s.setMem m).ic = s.ic := rfl
@[simp] theorem State.setMem_trapPending (m : Memory) : (s.setMem m).trapPending = s.trapPending := rfl
@[simp] theorem State.setMem_fatal (m : Memory) : (s.setMem m).fatal = s.fatal := rfl
@[simp] theorem State.setMem_waiting (m : Memory) : (s.setMem m).waiting = s.waiting := rfl
@[simp] theorem State.setMem_intSuppress (m : Memory) : (s.setMem m).intSuppress = s.intSuppress := rfl
@[simp] theorem State.setMem_exuDepth (m : Memory) : (s.setMem m).exuDepth = s.exuDepth := rfl
@[simp] theorem State.setMem_running (m : Memory) : (s.setMem m).running = s.running := rfl
@[simp] theorem State.setMem_runMode (m : Memory) : (s.setMem m).runMode = s.runMode := rfl
@[simp] theorem State.setMem_clock (m : Memory) : (s.setMem m).clock = s.clock := rfl
@[simp] theorem State.setMem_branchOutcome (m : Memory) : (s.setMem m).branchOutcome = s.branchOutcome := rfl
@[simp] theorem State.setMem_lastInstr (m : Memory) : (s.setMem m).lastInstr = s.lastInstr := rfl
@[simp] theorem State.setMem_hostCalls (m : Memory) : (s.setMem m).hostCalls = s.hostCalls := rfl
@[simp] theorem State.setMem_toolReports (m : Memory) : (s.setMem m).toolReports = s.toolReports := rfl
@[simp] theorem State.setMem_freeCount (m : Memory) : (s.setMem m).freeCount = s.freeCount := rfl
@[simp] theorem State.setMem_agenda (m : Memory) : (s.setMem m).agenda = s.agenda := rfl
@[simp] theorem State.setMem_between (m : Memory) : (s.setMem m).between = s.between := rfl
@[simp] theorem State.setMem_config (m : Memory) : (s.setMem m).config = s.config := rfl

/-! ### `State.setIc` -/

@[simp] theorem State.setIc_psd (c : IntCtl) : (s.setIc c).psd = s.psd := rfl
@[simp] theorem State.setIc_regs (c : IntCtl) : (s.setIc c).regs = s.regs := rfl
@[simp] theorem State.setIc_mem (c : IntCtl) : (s.setIc c).mem = s.mem := rfl
@[simp] theorem State.setIc_locks (c : IntCtl) : (s.setIc c).locks = s.locks := rfl
@[simp] theorem State.setIc_highLocks (c : IntCtl) : (s.setIc c).highLocks = s.highLocks := rfl
@[simp] theorem State.setIc_map (c : IntCtl) : (s.setIc c).map = s.map := rfl
@[simp] theorem State.setIc_acc (c : IntCtl) : (s.setIc c).acc = s.acc := rfl
@[simp] theorem State.setIc_ic (c : IntCtl) : (s.setIc c).ic = c := rfl
@[simp] theorem State.setIc_trapPending (c : IntCtl) : (s.setIc c).trapPending = s.trapPending := rfl
@[simp] theorem State.setIc_fatal (c : IntCtl) : (s.setIc c).fatal = s.fatal := rfl
@[simp] theorem State.setIc_waiting (c : IntCtl) : (s.setIc c).waiting = s.waiting := rfl
@[simp] theorem State.setIc_intSuppress (c : IntCtl) : (s.setIc c).intSuppress = s.intSuppress := rfl
@[simp] theorem State.setIc_exuDepth (c : IntCtl) : (s.setIc c).exuDepth = s.exuDepth := rfl
@[simp] theorem State.setIc_running (c : IntCtl) : (s.setIc c).running = s.running := rfl
@[simp] theorem State.setIc_runMode (c : IntCtl) : (s.setIc c).runMode = s.runMode := rfl
@[simp] theorem State.setIc_clock (c : IntCtl) : (s.setIc c).clock = s.clock := rfl
@[simp] theorem State.setIc_branchOutcome (c : IntCtl) : (s.setIc c).branchOutcome = s.branchOutcome := rfl
@[simp] theorem State.setIc_lastInstr (c : IntCtl) : (s.setIc c).lastInstr = s.lastInstr := rfl
@[simp] theorem State.setIc_hostCalls (c : IntCtl) : (s.setIc c).hostCalls = s.hostCalls := rfl
@[simp] theorem State.setIc_toolReports (c : IntCtl) : (s.setIc c).toolReports = s.toolReports := rfl
@[simp] theorem State.setIc_freeCount (c : IntCtl) : (s.setIc c).freeCount = s.freeCount := rfl
@[simp] theorem State.setIc_agenda (c : IntCtl) : (s.setIc c).agenda = s.agenda := rfl
@[simp] theorem State.setIc_between (c : IntCtl) : (s.setIc c).between = s.between := rfl
@[simp] theorem State.setIc_config (c : IntCtl) : (s.setIc c).config = s.config := rfl

/-! ### `State.setClock` -/

@[simp] theorem State.setClock_psd (p : ClockPhase) : (s.setClock p).psd = s.psd := rfl
@[simp] theorem State.setClock_regs (p : ClockPhase) : (s.setClock p).regs = s.regs := rfl
@[simp] theorem State.setClock_mem (p : ClockPhase) : (s.setClock p).mem = s.mem := rfl
@[simp] theorem State.setClock_locks (p : ClockPhase) : (s.setClock p).locks = s.locks := rfl
@[simp] theorem State.setClock_highLocks (p : ClockPhase) : (s.setClock p).highLocks = s.highLocks := rfl
@[simp] theorem State.setClock_map (p : ClockPhase) : (s.setClock p).map = s.map := rfl
@[simp] theorem State.setClock_acc (p : ClockPhase) : (s.setClock p).acc = s.acc := rfl
@[simp] theorem State.setClock_ic (p : ClockPhase) : (s.setClock p).ic = s.ic := rfl
@[simp] theorem State.setClock_trapPending (p : ClockPhase) : (s.setClock p).trapPending = s.trapPending := rfl
@[simp] theorem State.setClock_fatal (p : ClockPhase) : (s.setClock p).fatal = s.fatal := rfl
@[simp] theorem State.setClock_waiting (p : ClockPhase) : (s.setClock p).waiting = s.waiting := rfl
@[simp] theorem State.setClock_intSuppress (p : ClockPhase) : (s.setClock p).intSuppress = s.intSuppress := rfl
@[simp] theorem State.setClock_exuDepth (p : ClockPhase) : (s.setClock p).exuDepth = s.exuDepth := rfl
@[simp] theorem State.setClock_running (p : ClockPhase) : (s.setClock p).running = s.running := rfl
@[simp] theorem State.setClock_runMode (p : ClockPhase) : (s.setClock p).runMode = s.runMode := rfl
@[simp] theorem State.setClock_clock (p : ClockPhase) : (s.setClock p).clock = p := rfl
@[simp] theorem State.setClock_branchOutcome (p : ClockPhase) : (s.setClock p).branchOutcome = s.branchOutcome := rfl
@[simp] theorem State.setClock_lastInstr (p : ClockPhase) : (s.setClock p).lastInstr = s.lastInstr := rfl
@[simp] theorem State.setClock_hostCalls (p : ClockPhase) : (s.setClock p).hostCalls = s.hostCalls := rfl
@[simp] theorem State.setClock_toolReports (p : ClockPhase) : (s.setClock p).toolReports = s.toolReports := rfl
@[simp] theorem State.setClock_freeCount (p : ClockPhase) : (s.setClock p).freeCount = s.freeCount := rfl
@[simp] theorem State.setClock_agenda (p : ClockPhase) : (s.setClock p).agenda = s.agenda := rfl
@[simp] theorem State.setClock_between (p : ClockPhase) : (s.setClock p).between = s.between := rfl
@[simp] theorem State.setClock_config (p : ClockPhase) : (s.setClock p).config = s.config := rfl

/-! ### `State.raise` -/

@[simp] theorem State.raise_psd (t : Trap) : (s.raise t).psd = s.psd := rfl
@[simp] theorem State.raise_regs (t : Trap) : (s.raise t).regs = s.regs := rfl
@[simp] theorem State.raise_mem (t : Trap) : (s.raise t).mem = s.mem := rfl
@[simp] theorem State.raise_locks (t : Trap) : (s.raise t).locks = s.locks := rfl
@[simp] theorem State.raise_highLocks (t : Trap) : (s.raise t).highLocks = s.highLocks := rfl
@[simp] theorem State.raise_map (t : Trap) : (s.raise t).map = s.map := rfl
@[simp] theorem State.raise_acc (t : Trap) : (s.raise t).acc = s.acc := rfl
@[simp] theorem State.raise_ic (t : Trap) : (s.raise t).ic = s.ic := rfl
@[simp] theorem State.raise_trapPending (t : Trap) : (s.raise t).trapPending = some ⟨t.vector, t.cc, false⟩ := rfl
@[simp] theorem State.raise_fatal (t : Trap) : (s.raise t).fatal = s.fatal := rfl
@[simp] theorem State.raise_waiting (t : Trap) : (s.raise t).waiting = s.waiting := rfl
@[simp] theorem State.raise_intSuppress (t : Trap) : (s.raise t).intSuppress = s.intSuppress := rfl
@[simp] theorem State.raise_exuDepth (t : Trap) : (s.raise t).exuDepth = s.exuDepth := rfl
@[simp] theorem State.raise_running (t : Trap) : (s.raise t).running = s.running := rfl
@[simp] theorem State.raise_runMode (t : Trap) : (s.raise t).runMode = s.runMode := rfl
@[simp] theorem State.raise_clock (t : Trap) : (s.raise t).clock = s.clock := rfl
@[simp] theorem State.raise_branchOutcome (t : Trap) : (s.raise t).branchOutcome = s.branchOutcome := rfl
@[simp] theorem State.raise_lastInstr (t : Trap) : (s.raise t).lastInstr = s.lastInstr := rfl
@[simp] theorem State.raise_hostCalls (t : Trap) : (s.raise t).hostCalls = s.hostCalls := rfl
@[simp] theorem State.raise_toolReports (t : Trap) : (s.raise t).toolReports = s.toolReports := rfl
@[simp] theorem State.raise_freeCount (t : Trap) : (s.raise t).freeCount = s.freeCount := rfl
@[simp] theorem State.raise_agenda (t : Trap) : (s.raise t).agenda = s.agenda := rfl
@[simp] theorem State.raise_between (t : Trap) : (s.raise t).between = s.between := rfl
@[simp] theorem State.raise_config (t : Trap) : (s.raise t).config = s.config := rfl

/-! ### `State.raiseFatal` -/

@[simp] theorem State.raiseFatal_psd (c : FatalCause) : (s.raiseFatal c).psd = s.psd := rfl
@[simp] theorem State.raiseFatal_regs (c : FatalCause) : (s.raiseFatal c).regs = s.regs := rfl
@[simp] theorem State.raiseFatal_mem (c : FatalCause) : (s.raiseFatal c).mem = s.mem := rfl
@[simp] theorem State.raiseFatal_locks (c : FatalCause) : (s.raiseFatal c).locks = s.locks := rfl
@[simp] theorem State.raiseFatal_highLocks (c : FatalCause) : (s.raiseFatal c).highLocks = s.highLocks := rfl
@[simp] theorem State.raiseFatal_map (c : FatalCause) : (s.raiseFatal c).map = s.map := rfl
@[simp] theorem State.raiseFatal_acc (c : FatalCause) : (s.raiseFatal c).acc = s.acc := rfl
@[simp] theorem State.raiseFatal_ic (c : FatalCause) : (s.raiseFatal c).ic = s.ic := rfl
@[simp] theorem State.raiseFatal_trapPending (c : FatalCause) : (s.raiseFatal c).trapPending = s.trapPending := rfl
@[simp] theorem State.raiseFatal_fatal (c : FatalCause) : (s.raiseFatal c).fatal = some c := rfl
@[simp] theorem State.raiseFatal_waiting (c : FatalCause) : (s.raiseFatal c).waiting = s.waiting := rfl
@[simp] theorem State.raiseFatal_intSuppress (c : FatalCause) : (s.raiseFatal c).intSuppress = s.intSuppress := rfl
@[simp] theorem State.raiseFatal_exuDepth (c : FatalCause) : (s.raiseFatal c).exuDepth = s.exuDepth := rfl
@[simp] theorem State.raiseFatal_running (c : FatalCause) : (s.raiseFatal c).running = false := rfl
@[simp] theorem State.raiseFatal_runMode (c : FatalCause) : (s.raiseFatal c).runMode = s.runMode := rfl
@[simp] theorem State.raiseFatal_clock (c : FatalCause) : (s.raiseFatal c).clock = s.clock := rfl
@[simp] theorem State.raiseFatal_branchOutcome (c : FatalCause) : (s.raiseFatal c).branchOutcome = s.branchOutcome := rfl
@[simp] theorem State.raiseFatal_lastInstr (c : FatalCause) : (s.raiseFatal c).lastInstr = s.lastInstr := rfl
@[simp] theorem State.raiseFatal_hostCalls (c : FatalCause) :
    (s.raiseFatal c).hostCalls = .threadExit :: s.hostCalls := rfl
@[simp] theorem State.raiseFatal_toolReports (c : FatalCause) : (s.raiseFatal c).toolReports = s.toolReports := rfl
@[simp] theorem State.raiseFatal_freeCount (c : FatalCause) : (s.raiseFatal c).freeCount = s.freeCount := rfl
@[simp] theorem State.raiseFatal_agenda (c : FatalCause) : (s.raiseFatal c).agenda = s.agenda := rfl
@[simp] theorem State.raiseFatal_between (c : FatalCause) : (s.raiseFatal c).between = s.between := rfl
@[simp] theorem State.raiseFatal_config (c : FatalCause) : (s.raiseFatal c).config = s.config := rfl

/-! ### `State.report` -/

@[simp] theorem State.report_psd (x : ToolReport) : (s.report x).psd = s.psd := rfl
@[simp] theorem State.report_regs (x : ToolReport) : (s.report x).regs = s.regs := rfl
@[simp] theorem State.report_mem (x : ToolReport) : (s.report x).mem = s.mem := rfl
@[simp] theorem State.report_locks (x : ToolReport) : (s.report x).locks = s.locks := rfl
@[simp] theorem State.report_highLocks (x : ToolReport) : (s.report x).highLocks = s.highLocks := rfl
@[simp] theorem State.report_map (x : ToolReport) : (s.report x).map = s.map := rfl
@[simp] theorem State.report_acc (x : ToolReport) : (s.report x).acc = s.acc := rfl
@[simp] theorem State.report_ic (x : ToolReport) : (s.report x).ic = s.ic := rfl
@[simp] theorem State.report_trapPending (x : ToolReport) : (s.report x).trapPending = s.trapPending := rfl
@[simp] theorem State.report_fatal (x : ToolReport) : (s.report x).fatal = s.fatal := rfl
@[simp] theorem State.report_waiting (x : ToolReport) : (s.report x).waiting = s.waiting := rfl
@[simp] theorem State.report_intSuppress (x : ToolReport) : (s.report x).intSuppress = s.intSuppress := rfl
@[simp] theorem State.report_exuDepth (x : ToolReport) : (s.report x).exuDepth = s.exuDepth := rfl
@[simp] theorem State.report_running (x : ToolReport) : (s.report x).running = s.running := rfl
@[simp] theorem State.report_runMode (x : ToolReport) : (s.report x).runMode = s.runMode := rfl
@[simp] theorem State.report_clock (x : ToolReport) : (s.report x).clock = s.clock := rfl
@[simp] theorem State.report_branchOutcome (x : ToolReport) : (s.report x).branchOutcome = s.branchOutcome := rfl
@[simp] theorem State.report_lastInstr (x : ToolReport) : (s.report x).lastInstr = s.lastInstr := rfl
@[simp] theorem State.report_hostCalls (x : ToolReport) : (s.report x).hostCalls = s.hostCalls := rfl
@[simp] theorem State.report_toolReports (x : ToolReport) : (s.report x).toolReports = x :: s.toolReports := rfl
@[simp] theorem State.report_freeCount (x : ToolReport) : (s.report x).freeCount = s.freeCount := rfl
@[simp] theorem State.report_agenda (x : ToolReport) : (s.report x).agenda = s.agenda := rfl
@[simp] theorem State.report_between (x : ToolReport) : (s.report x).between = s.between := rfl
@[simp] theorem State.report_config (x : ToolReport) : (s.report x).config = s.config := rfl

/-! ### `State.draw` -/

@[simp] theorem State.draw_psd : (s.draw).psd = s.psd := rfl
@[simp] theorem State.draw_regs : (s.draw).regs = s.regs := rfl
@[simp] theorem State.draw_mem : (s.draw).mem = s.mem := rfl
@[simp] theorem State.draw_locks : (s.draw).locks = s.locks := rfl
@[simp] theorem State.draw_highLocks : (s.draw).highLocks = s.highLocks := rfl
@[simp] theorem State.draw_map : (s.draw).map = s.map := rfl
@[simp] theorem State.draw_acc : (s.draw).acc = s.acc := rfl
@[simp] theorem State.draw_ic : (s.draw).ic = s.ic := rfl
@[simp] theorem State.draw_trapPending : (s.draw).trapPending = s.trapPending := rfl
@[simp] theorem State.draw_fatal : (s.draw).fatal = s.fatal := rfl
@[simp] theorem State.draw_waiting : (s.draw).waiting = s.waiting := rfl
@[simp] theorem State.draw_intSuppress : (s.draw).intSuppress = s.intSuppress := rfl
@[simp] theorem State.draw_exuDepth : (s.draw).exuDepth = s.exuDepth := rfl
@[simp] theorem State.draw_running : (s.draw).running = s.running := rfl
@[simp] theorem State.draw_runMode : (s.draw).runMode = s.runMode := rfl
@[simp] theorem State.draw_clock : (s.draw).clock = s.clock := rfl
@[simp] theorem State.draw_branchOutcome : (s.draw).branchOutcome = s.branchOutcome := rfl
@[simp] theorem State.draw_lastInstr : (s.draw).lastInstr = s.lastInstr := rfl
@[simp] theorem State.draw_hostCalls : (s.draw).hostCalls = s.hostCalls := rfl
@[simp] theorem State.draw_toolReports : (s.draw).toolReports = s.toolReports := rfl
@[simp] theorem State.draw_freeCount : (s.draw).freeCount = s.freeCount + 1 := rfl
@[simp] theorem State.draw_agenda : (s.draw).agenda = s.agenda := rfl
@[simp] theorem State.draw_between : (s.draw).between = s.between := rfl
@[simp] theorem State.draw_config : (s.draw).config = s.config := rfl

/-! ### `State.callHost` -/

@[simp] theorem State.callHost_psd (c : HostCall) : (s.callHost c).psd = s.psd := rfl
@[simp] theorem State.callHost_regs (c : HostCall) : (s.callHost c).regs = s.regs := rfl
@[simp] theorem State.callHost_mem (c : HostCall) : (s.callHost c).mem = s.mem := rfl
@[simp] theorem State.callHost_locks (c : HostCall) : (s.callHost c).locks = s.locks := rfl
@[simp] theorem State.callHost_highLocks (c : HostCall) : (s.callHost c).highLocks = s.highLocks := rfl
@[simp] theorem State.callHost_map (c : HostCall) : (s.callHost c).map = s.map := rfl
@[simp] theorem State.callHost_acc (c : HostCall) : (s.callHost c).acc = s.acc := rfl
@[simp] theorem State.callHost_ic (c : HostCall) : (s.callHost c).ic = s.ic := rfl
@[simp] theorem State.callHost_trapPending (c : HostCall) : (s.callHost c).trapPending = s.trapPending := rfl
@[simp] theorem State.callHost_fatal (c : HostCall) : (s.callHost c).fatal = s.fatal := rfl
@[simp] theorem State.callHost_waiting (c : HostCall) : (s.callHost c).waiting = s.waiting := rfl
@[simp] theorem State.callHost_intSuppress (c : HostCall) : (s.callHost c).intSuppress = s.intSuppress := rfl
@[simp] theorem State.callHost_exuDepth (c : HostCall) : (s.callHost c).exuDepth = s.exuDepth := rfl
@[simp] theorem State.callHost_running (c : HostCall) : (s.callHost c).running = s.running := rfl
@[simp] theorem State.callHost_runMode (c : HostCall) : (s.callHost c).runMode = s.runMode := rfl
@[simp] theorem State.callHost_clock (c : HostCall) : (s.callHost c).clock = s.clock := rfl
@[simp] theorem State.callHost_branchOutcome (c : HostCall) : (s.callHost c).branchOutcome = s.branchOutcome := rfl
@[simp] theorem State.callHost_lastInstr (c : HostCall) : (s.callHost c).lastInstr = s.lastInstr := rfl
@[simp] theorem State.callHost_hostCalls (c : HostCall) : (s.callHost c).hostCalls = c :: s.hostCalls := rfl
@[simp] theorem State.callHost_toolReports (c : HostCall) : (s.callHost c).toolReports = s.toolReports := rfl
@[simp] theorem State.callHost_freeCount (c : HostCall) : (s.callHost c).freeCount = s.freeCount + 1 := rfl
@[simp] theorem State.callHost_agenda (c : HostCall) : (s.callHost c).agenda = s.agenda := rfl
@[simp] theorem State.callHost_between (c : HostCall) : (s.callHost c).between = s.between := rfl
@[simp] theorem State.callHost_config (c : HostCall) : (s.callHost c).config = s.config := rfl

/-! ### The partial condition-code updates, by `State.setCC` -/

@[simp] theorem State.setCC34_eq (p : BitVec 2) : s.setCC34 p = s.setCC (ccOf (cc1 s.psd.cc) (cc2 s.psd.cc) p) := rfl
@[simp] theorem State.setCC234_eq (c : Bool) (p : BitVec 2) : s.setCC234 c p = s.setCC (ccOf (cc1 s.psd.cc) c p) := rfl
@[simp] theorem State.setCC134_eq (c : Bool) (p : BitVec 2) : s.setCC134 c p = s.setCC (ccOf c (cc2 s.psd.cc) p) := rfl
@[simp] theorem State.setCC1_eq (c : Bool) : s.setCC1 c = s.setCC (ccOf c (cc2 s.psd.cc) (cc34 s.psd.cc)) := rfl
@[simp] theorem State.setCC2_eq (c : Bool) : s.setCC2 c = s.setCC (ccOf (cc1 s.psd.cc) c (cc34 s.psd.cc)) := rfl
@[simp] theorem State.setCC12_eq (c d : Bool) : s.setCC12 c d = s.setCC (ccOf c d (cc34 s.psd.cc)) := rfl
@[simp] theorem State.setCC4_eq (c : Bool) : s.setCC4 c = s.setCC (s.psd.cc.extractLsb' 1 3 ++ BitVec.ofBool c) := rfl

/-! ### Stores at a place -/

@[simp] theorem State.storeByte_psd (p : Place) (k : BitVec 2) (v : Byte) : (s.storeByte p k v).psd = s.psd := by cases p <;> rfl
@[simp] theorem State.storeByte_locks (p : Place) (k : BitVec 2) (v : Byte) : (s.storeByte p k v).locks = s.locks := by cases p <;> rfl
@[simp] theorem State.storeByte_highLocks (p : Place) (k : BitVec 2) (v : Byte) : (s.storeByte p k v).highLocks = s.highLocks := by cases p <;> rfl
@[simp] theorem State.storeByte_map (p : Place) (k : BitVec 2) (v : Byte) : (s.storeByte p k v).map = s.map := by cases p <;> rfl
@[simp] theorem State.storeByte_acc (p : Place) (k : BitVec 2) (v : Byte) : (s.storeByte p k v).acc = s.acc := by cases p <;> rfl
@[simp] theorem State.storeByte_ic (p : Place) (k : BitVec 2) (v : Byte) : (s.storeByte p k v).ic = s.ic := by cases p <;> rfl
@[simp] theorem State.storeByte_trapPending (p : Place) (k : BitVec 2) (v : Byte) : (s.storeByte p k v).trapPending = s.trapPending := by cases p <;> rfl
@[simp] theorem State.storeByte_fatal (p : Place) (k : BitVec 2) (v : Byte) : (s.storeByte p k v).fatal = s.fatal := by cases p <;> rfl
@[simp] theorem State.storeByte_waiting (p : Place) (k : BitVec 2) (v : Byte) : (s.storeByte p k v).waiting = s.waiting := by cases p <;> rfl
@[simp] theorem State.storeByte_intSuppress (p : Place) (k : BitVec 2) (v : Byte) : (s.storeByte p k v).intSuppress = s.intSuppress := by cases p <;> rfl
@[simp] theorem State.storeByte_exuDepth (p : Place) (k : BitVec 2) (v : Byte) : (s.storeByte p k v).exuDepth = s.exuDepth := by cases p <;> rfl
@[simp] theorem State.storeByte_running (p : Place) (k : BitVec 2) (v : Byte) : (s.storeByte p k v).running = s.running := by cases p <;> rfl
@[simp] theorem State.storeByte_runMode (p : Place) (k : BitVec 2) (v : Byte) : (s.storeByte p k v).runMode = s.runMode := by cases p <;> rfl
@[simp] theorem State.storeByte_clock (p : Place) (k : BitVec 2) (v : Byte) : (s.storeByte p k v).clock = s.clock := by cases p <;> rfl
@[simp] theorem State.storeByte_branchOutcome (p : Place) (k : BitVec 2) (v : Byte) : (s.storeByte p k v).branchOutcome = s.branchOutcome := by cases p <;> rfl
@[simp] theorem State.storeByte_lastInstr (p : Place) (k : BitVec 2) (v : Byte) : (s.storeByte p k v).lastInstr = s.lastInstr := by cases p <;> rfl
@[simp] theorem State.storeByte_hostCalls (p : Place) (k : BitVec 2) (v : Byte) : (s.storeByte p k v).hostCalls = s.hostCalls := by cases p <;> rfl
@[simp] theorem State.storeByte_toolReports (p : Place) (k : BitVec 2) (v : Byte) : (s.storeByte p k v).toolReports = s.toolReports := by cases p <;> rfl
@[simp] theorem State.storeByte_freeCount (p : Place) (k : BitVec 2) (v : Byte) : (s.storeByte p k v).freeCount = s.freeCount := by cases p <;> rfl
@[simp] theorem State.storeByte_agenda (p : Place) (k : BitVec 2) (v : Byte) : (s.storeByte p k v).agenda = s.agenda := by cases p <;> rfl
@[simp] theorem State.storeByte_between (p : Place) (k : BitVec 2) (v : Byte) : (s.storeByte p k v).between = s.between := by cases p <;> rfl
@[simp] theorem State.storeByte_config (p : Place) (k : BitVec 2) (v : Byte) : (s.storeByte p k v).config = s.config := by cases p <;> rfl
@[simp] theorem State.storeHalf_psd (p : Place) (k : BitVec 1) (v : Half) : (s.storeHalf p k v).psd = s.psd := by cases p <;> rfl
@[simp] theorem State.storeHalf_locks (p : Place) (k : BitVec 1) (v : Half) : (s.storeHalf p k v).locks = s.locks := by cases p <;> rfl
@[simp] theorem State.storeHalf_highLocks (p : Place) (k : BitVec 1) (v : Half) : (s.storeHalf p k v).highLocks = s.highLocks := by cases p <;> rfl
@[simp] theorem State.storeHalf_map (p : Place) (k : BitVec 1) (v : Half) : (s.storeHalf p k v).map = s.map := by cases p <;> rfl
@[simp] theorem State.storeHalf_acc (p : Place) (k : BitVec 1) (v : Half) : (s.storeHalf p k v).acc = s.acc := by cases p <;> rfl
@[simp] theorem State.storeHalf_ic (p : Place) (k : BitVec 1) (v : Half) : (s.storeHalf p k v).ic = s.ic := by cases p <;> rfl
@[simp] theorem State.storeHalf_trapPending (p : Place) (k : BitVec 1) (v : Half) : (s.storeHalf p k v).trapPending = s.trapPending := by cases p <;> rfl
@[simp] theorem State.storeHalf_fatal (p : Place) (k : BitVec 1) (v : Half) : (s.storeHalf p k v).fatal = s.fatal := by cases p <;> rfl
@[simp] theorem State.storeHalf_waiting (p : Place) (k : BitVec 1) (v : Half) : (s.storeHalf p k v).waiting = s.waiting := by cases p <;> rfl
@[simp] theorem State.storeHalf_intSuppress (p : Place) (k : BitVec 1) (v : Half) : (s.storeHalf p k v).intSuppress = s.intSuppress := by cases p <;> rfl
@[simp] theorem State.storeHalf_exuDepth (p : Place) (k : BitVec 1) (v : Half) : (s.storeHalf p k v).exuDepth = s.exuDepth := by cases p <;> rfl
@[simp] theorem State.storeHalf_running (p : Place) (k : BitVec 1) (v : Half) : (s.storeHalf p k v).running = s.running := by cases p <;> rfl
@[simp] theorem State.storeHalf_runMode (p : Place) (k : BitVec 1) (v : Half) : (s.storeHalf p k v).runMode = s.runMode := by cases p <;> rfl
@[simp] theorem State.storeHalf_clock (p : Place) (k : BitVec 1) (v : Half) : (s.storeHalf p k v).clock = s.clock := by cases p <;> rfl
@[simp] theorem State.storeHalf_branchOutcome (p : Place) (k : BitVec 1) (v : Half) : (s.storeHalf p k v).branchOutcome = s.branchOutcome := by cases p <;> rfl
@[simp] theorem State.storeHalf_lastInstr (p : Place) (k : BitVec 1) (v : Half) : (s.storeHalf p k v).lastInstr = s.lastInstr := by cases p <;> rfl
@[simp] theorem State.storeHalf_hostCalls (p : Place) (k : BitVec 1) (v : Half) : (s.storeHalf p k v).hostCalls = s.hostCalls := by cases p <;> rfl
@[simp] theorem State.storeHalf_toolReports (p : Place) (k : BitVec 1) (v : Half) : (s.storeHalf p k v).toolReports = s.toolReports := by cases p <;> rfl
@[simp] theorem State.storeHalf_freeCount (p : Place) (k : BitVec 1) (v : Half) : (s.storeHalf p k v).freeCount = s.freeCount := by cases p <;> rfl
@[simp] theorem State.storeHalf_agenda (p : Place) (k : BitVec 1) (v : Half) : (s.storeHalf p k v).agenda = s.agenda := by cases p <;> rfl
@[simp] theorem State.storeHalf_between (p : Place) (k : BitVec 1) (v : Half) : (s.storeHalf p k v).between = s.between := by cases p <;> rfl
@[simp] theorem State.storeHalf_config (p : Place) (k : BitVec 1) (v : Half) : (s.storeHalf p k v).config = s.config := by cases p <;> rfl
@[simp] theorem State.storeWord_psd (p : Place) (v : Word) : (s.storeWord p v).psd = s.psd := by cases p <;> rfl
@[simp] theorem State.storeWord_locks (p : Place) (v : Word) : (s.storeWord p v).locks = s.locks := by cases p <;> rfl
@[simp] theorem State.storeWord_highLocks (p : Place) (v : Word) : (s.storeWord p v).highLocks = s.highLocks := by cases p <;> rfl
@[simp] theorem State.storeWord_map (p : Place) (v : Word) : (s.storeWord p v).map = s.map := by cases p <;> rfl
@[simp] theorem State.storeWord_acc (p : Place) (v : Word) : (s.storeWord p v).acc = s.acc := by cases p <;> rfl
@[simp] theorem State.storeWord_ic (p : Place) (v : Word) : (s.storeWord p v).ic = s.ic := by cases p <;> rfl
@[simp] theorem State.storeWord_trapPending (p : Place) (v : Word) : (s.storeWord p v).trapPending = s.trapPending := by cases p <;> rfl
@[simp] theorem State.storeWord_fatal (p : Place) (v : Word) : (s.storeWord p v).fatal = s.fatal := by cases p <;> rfl
@[simp] theorem State.storeWord_waiting (p : Place) (v : Word) : (s.storeWord p v).waiting = s.waiting := by cases p <;> rfl
@[simp] theorem State.storeWord_intSuppress (p : Place) (v : Word) : (s.storeWord p v).intSuppress = s.intSuppress := by cases p <;> rfl
@[simp] theorem State.storeWord_exuDepth (p : Place) (v : Word) : (s.storeWord p v).exuDepth = s.exuDepth := by cases p <;> rfl
@[simp] theorem State.storeWord_running (p : Place) (v : Word) : (s.storeWord p v).running = s.running := by cases p <;> rfl
@[simp] theorem State.storeWord_runMode (p : Place) (v : Word) : (s.storeWord p v).runMode = s.runMode := by cases p <;> rfl
@[simp] theorem State.storeWord_clock (p : Place) (v : Word) : (s.storeWord p v).clock = s.clock := by cases p <;> rfl
@[simp] theorem State.storeWord_branchOutcome (p : Place) (v : Word) : (s.storeWord p v).branchOutcome = s.branchOutcome := by cases p <;> rfl
@[simp] theorem State.storeWord_lastInstr (p : Place) (v : Word) : (s.storeWord p v).lastInstr = s.lastInstr := by cases p <;> rfl
@[simp] theorem State.storeWord_hostCalls (p : Place) (v : Word) : (s.storeWord p v).hostCalls = s.hostCalls := by cases p <;> rfl
@[simp] theorem State.storeWord_toolReports (p : Place) (v : Word) : (s.storeWord p v).toolReports = s.toolReports := by cases p <;> rfl
@[simp] theorem State.storeWord_freeCount (p : Place) (v : Word) : (s.storeWord p v).freeCount = s.freeCount := by cases p <;> rfl
@[simp] theorem State.storeWord_agenda (p : Place) (v : Word) : (s.storeWord p v).agenda = s.agenda := by cases p <;> rfl
@[simp] theorem State.storeWord_between (p : Place) (v : Word) : (s.storeWord p v).between = s.between := by cases p <;> rfl
@[simp] theorem State.storeWord_config (p : Place) (v : Word) : (s.storeWord p v).config = s.config := by cases p <;> rfl
@[simp] theorem State.storeDouble_psd (p : Place) (v : Double) : (s.storeDouble p v).psd = s.psd := by cases p <;> rfl
@[simp] theorem State.storeDouble_locks (p : Place) (v : Double) : (s.storeDouble p v).locks = s.locks := by cases p <;> rfl
@[simp] theorem State.storeDouble_highLocks (p : Place) (v : Double) : (s.storeDouble p v).highLocks = s.highLocks := by cases p <;> rfl
@[simp] theorem State.storeDouble_map (p : Place) (v : Double) : (s.storeDouble p v).map = s.map := by cases p <;> rfl
@[simp] theorem State.storeDouble_acc (p : Place) (v : Double) : (s.storeDouble p v).acc = s.acc := by cases p <;> rfl
@[simp] theorem State.storeDouble_ic (p : Place) (v : Double) : (s.storeDouble p v).ic = s.ic := by cases p <;> rfl
@[simp] theorem State.storeDouble_trapPending (p : Place) (v : Double) : (s.storeDouble p v).trapPending = s.trapPending := by cases p <;> rfl
@[simp] theorem State.storeDouble_fatal (p : Place) (v : Double) : (s.storeDouble p v).fatal = s.fatal := by cases p <;> rfl
@[simp] theorem State.storeDouble_waiting (p : Place) (v : Double) : (s.storeDouble p v).waiting = s.waiting := by cases p <;> rfl
@[simp] theorem State.storeDouble_intSuppress (p : Place) (v : Double) : (s.storeDouble p v).intSuppress = s.intSuppress := by cases p <;> rfl
@[simp] theorem State.storeDouble_exuDepth (p : Place) (v : Double) : (s.storeDouble p v).exuDepth = s.exuDepth := by cases p <;> rfl
@[simp] theorem State.storeDouble_running (p : Place) (v : Double) : (s.storeDouble p v).running = s.running := by cases p <;> rfl
@[simp] theorem State.storeDouble_runMode (p : Place) (v : Double) : (s.storeDouble p v).runMode = s.runMode := by cases p <;> rfl
@[simp] theorem State.storeDouble_clock (p : Place) (v : Double) : (s.storeDouble p v).clock = s.clock := by cases p <;> rfl
@[simp] theorem State.storeDouble_branchOutcome (p : Place) (v : Double) : (s.storeDouble p v).branchOutcome = s.branchOutcome := by cases p <;> rfl
@[simp] theorem State.storeDouble_lastInstr (p : Place) (v : Double) : (s.storeDouble p v).lastInstr = s.lastInstr := by cases p <;> rfl
@[simp] theorem State.storeDouble_hostCalls (p : Place) (v : Double) : (s.storeDouble p v).hostCalls = s.hostCalls := by cases p <;> rfl
@[simp] theorem State.storeDouble_toolReports (p : Place) (v : Double) : (s.storeDouble p v).toolReports = s.toolReports := by cases p <;> rfl
@[simp] theorem State.storeDouble_freeCount (p : Place) (v : Double) : (s.storeDouble p v).freeCount = s.freeCount := by cases p <;> rfl
@[simp] theorem State.storeDouble_agenda (p : Place) (v : Double) : (s.storeDouble p v).agenda = s.agenda := by cases p <;> rfl
@[simp] theorem State.storeDouble_between (p : Place) (v : Double) : (s.storeDouble p v).between = s.between := by cases p <;> rfl
@[simp] theorem State.storeDouble_config (p : Place) (v : Double) : (s.storeDouble p v).config = s.config := by cases p <;> rfl

/-! ### The machine's size and derived readings -/

@[simp] theorem State.memBytes_setReg (i : RegNum) (v : Word) : (s.setReg i v).memBytes = s.memBytes := rfl
@[simp] theorem State.memBytes_setMem (m : Memory) : (s.setMem m).memBytes = s.memBytes := rfl
@[simp] theorem State.memBytes_setCC (c : BitVec 4) : (s.setCC c).memBytes = s.memBytes := rfl
@[simp] theorem State.memBytes_setPc (a : WordAddr) : (s.setPc a).memBytes = s.memBytes := rfl
@[simp] theorem State.reg_setMem (m : Memory) (i : RegNum) : (s.setMem m).reg i = s.reg i := rfl
@[simp] theorem State.reg_setCC (c : BitVec 4) (i : RegNum) : (s.setCC c).reg i = s.reg i := rfl
@[simp] theorem State.reg_setPc (a : WordAddr) (i : RegNum) : (s.setPc a).reg i = s.reg i := rfl
@[simp] theorem State.reg_raise (t : Trap) (i : RegNum) : (s.raise t).reg i = s.reg i := rfl
@[simp] theorem State.blockReg_setMem (m : Memory) (b i : BitVec 4) : (s.setMem m).blockReg b i = s.blockReg b i := rfl
@[simp] theorem State.blockReg_setCC (c : BitVec 4) (b i : BitVec 4) : (s.setCC c).blockReg b i = s.blockReg b i := rfl
@[simp] theorem State.blockReg_setPc (a : WordAddr) (b i : BitVec 4) : (s.setPc a).blockReg b i = s.blockReg b i := rfl
@[simp] theorem State.blockReg_raise (t : Trap) (b i : BitVec 4) : (s.raise t).blockReg b i = s.blockReg b i := rfl

end Sys2Proof.Machine
end

