-- ==== Sys2Proof/Laws/Agents.lean ====
section
/-! SUPPORT. What the other agents' accesses between the CPU's own can change, said once: real memory, the interrupt
controller, the clock agent's tick and the model's records of it (spec 60_exceptions.md R660, 20_memory.md R93). -/

namespace Sys2Proof.Machine

/-! ## One access -/

/-- What one access of another agent can change. -/
def State.AccessOnly (s t : State) : Prop :=
  t = { s with
    mem := t.mem, ic := t.ic, clock := t.clock, freeCount := t.freeCount, toolReports := t.toolReports }

theorem State.AccessOnly.trans {s t u : State} (h : s.AccessOnly t) (g : t.AccessOnly u) : s.AccessOnly u := by
  unfold State.AccessOnly at *
  rw [g, h]

theorem State.AccessOnly.ite {s t u : State} {c : Prop} [Decidable c] (h : s.AccessOnly t) (g : s.AccessOnly u) :
    s.AccessOnly (if c then t else u) := by split <;> assumption

theorem State.accessOnly_realStore (s : State) (w : Width) (ra : Nat) (v : Double) :
    s.AccessOnly (s.realStore w ra v) := by
  cases w <;> rfl

theorem State.accessOnly_realModify (s : State) (w : Width) (ra : Nat) (v : Double) :
    s.AccessOnly (s.realModify w ra v).1 := by
  cases w <;> rfl

theorem State.accessOnly_post (s : State) (L : Fin 32) (pr : Nat) (o : Origin) (l : Option Nat) (ch : Option Byte) :
    s.AccessOnly (s.post L pr o l ch) := by
  unfold State.post
  split <;> rfl

theorem State.accessOnly_clockAct (s : State) (k : Fin 4) : s.AccessOnly (s.clockAct k) := by
  unfold State.clockAct
  split
  · exact .ite rfl (.ite rfl rfl)
  · rfl
  · exact .ite rfl ((s.accessOnly_realModify ..).trans rfl)
  · rfl
  · exact (s.accessOnly_post ..).trans rfl

/-- All that an act of the clock agent can do (R632): a tick in progress takes its next step, and only with none does one
begin. -/
theorem State.clockAct_cases (s : State) (k : Fin 4) :
    (s.clock = .idle ∧ (s.clockAct k = s ∨ s.clockAct k = s.setClock (.vector k))) ∨
    (∃ j, s.clock = .vector j ∧ ∃ p, s.clockAct k = s.setClock p) ∨
    (∃ j width ref delta, s.clock = .cell j width ref delta ∧
      (s.clockAct k = s.setClock .idle ∨ cellOf width ref < s.memBytes ∧
        ∃ p, s.clockAct k = (s.realModify width (cellOf width ref) delta).1.setClock p)) ∨
    (∃ j, s.clock = .zero j ∧ ∃ p, s.clockAct k = s.setClock p) ∨
    (∃ L, s.clock = .post L ∧ s.clockAct k = (s.post L 0 .clock none none).setClock .idle) := by
  unfold State.clockAct
  split
  · rename_i h
    refine .inl ⟨h, ?_⟩
    unfold State.clockBegin
    split
    · exact .inl rfl
    · split
      · exact .inl rfl
      · exact .inr rfl
  · rename_i j h
    exact .inr (.inl ⟨j, h, _, rfl⟩)
  · rename_i j width ref delta h
    refine .inr (.inr (.inl ⟨j, width, ref, delta, h, ?_⟩))
    unfold State.clockCount
    split
    · exact .inl rfl
    · exact .inr ⟨by omega, _, rfl⟩
  · rename_i j h
    exact .inr (.inr (.inr (.inl ⟨j, h, _, rfl⟩)))
  · rename_i L h
    exact .inr (.inr (.inr (.inr ⟨L, h, rfl⟩)))

theorem State.accessOnly_agentAccess (s : State) (a : AgentAccess) : s.AccessOnly (s.agentAccess a) := by
  cases a with
  | clockAct k => exact s.accessOnly_clockAct k
  | post L pr o l ch => exact s.accessOnly_post ..
  | deviceStore w i v => exact .ite rfl (s.accessOnly_realStore ..)
  | deviceModify w i v => exact .ite rfl (s.accessOnly_realModify ..)
  | toolLoad x w i =>
    show s.AccessOnly (s.toolLoad x w i)
    unfold State.toolLoad
    split <;> rfl
  | toolStore x w i v =>
    show s.AccessOnly (s.toolStore x w i v)
    unfold State.toolStore
    split
    · rfl
    · exact (s.accessOnly_realStore w _ v).trans rfl

theorem State.agentAccess_between (s : State) (a : AgentAccess) : (s.agentAccess a).between = s.between := by
  rw [show s.agentAccess a = _ from s.accessOnly_agentAccess a]

/-! ## Any number of them -/

theorem State.OthersOnly.trans {s t u : State} (h : s.OthersOnly t) (g : t.OthersOnly u) : s.OthersOnly u := by
  unfold State.OthersOnly at *
  rw [g, h]

theorem State.othersOnly_agentAccess (s : State) (a : AgentAccess) : s.OthersOnly (s.agentAccess a) := by
  unfold State.OthersOnly
  conv_lhs => rw [show s.agentAccess a = _ from s.accessOnly_agentAccess a]
  rw [State.agentAccess_between]

/-- A property each access of another agent keeps is kept by any number of them. -/
theorem foldl_agentAccess {P : State → Prop} (hP : ∀ t a, P t → P (t.agentAccess a)) (l : List AgentAccess) {s : State}
    (h : P s) : P (l.foldl State.agentAccess s) := by
  induction l generalizing s with
  | nil => exact h
  | cons a l ih => exact ih (hP s a h)

/-- A property each access keeps, and that does not look at `State.between`, is kept by `State.others`. -/
theorem State.others_keeps {P : State → Prop} (hP : ∀ t a, P t → P (t.agentAccess a))
    (hb : ∀ t b, P t → P { t with between := b }) {s : State} (h : P s) : P s.others := by
  unfold State.others
  split
  · exact h
  · exact foldl_agentAccess hP _ (hb _ _ h)

/-- The same of `State.settle`. -/
theorem State.settle_keeps {P : State → Prop} (hP : ∀ t a, P t → P (t.agentAccess a))
    (hb : ∀ t b, P t → P { t with between := b }) {s : State} (h : P s) : P s.settle :=
  foldl_agentAccess hP _ (hb _ _ h)

theorem State.othersOnly_others (s : State) : s.OthersOnly s.others :=
  State.others_keeps (P := s.OthersOnly) (fun t a h => h.trans (t.othersOnly_agentAccess a)) (fun _ _ h => h.trans rfl) rfl

theorem State.othersOnly_settle (s : State) : s.OthersOnly s.settle :=
  State.settle_keeps (P := s.OthersOnly) (fun t a h => h.trans (t.othersOnly_agentAccess a)) (fun _ _ h => h.trans rfl) rfl

/-! ## With nothing between -/

theorem State.others_nil {s : State} (h : s.between = []) : s.others = s := by
  unfold State.others
  rw [h]

theorem State.settle_nil {s : State} (h : s.between = []) : s.settle = s := by
  unfold State.settle
  rw [h]
  show { s with between := [] } = s
  rw [← h]

/-- After the cycle nothing is left between. -/
@[simp] theorem State.settle_between (s : State) : s.settle.between = [] :=
  foldl_agentAccess (P := fun t => t.between = []) (fun t a h => (t.agentAccess_between a).trans h) _ rfl

/-- `State.others` takes one batch. -/
theorem State.others_between (s : State) : s.others.between = s.between.tail := by
  unfold State.others
  split
  · rename_i h; rw [h]; rfl
  · rename_i b rest h
    rw [h]
    exact foldl_agentAccess (P := fun t => t.between = rest) (fun t a h => (t.agentAccess_between a).trans h) _ rfl

/-! ## What the other agents leave alone -/

section
variable {s t : State} (h : s.OthersOnly t)
include h

theorem State.OthersOnly.psd : t.psd = s.psd := by rw [show t = _ from h]
theorem State.OthersOnly.regs : t.regs = s.regs := by rw [show t = _ from h]
theorem State.OthersOnly.locks : t.locks = s.locks := by rw [show t = _ from h]
theorem State.OthersOnly.highLocks : t.highLocks = s.highLocks := by rw [show t = _ from h]
theorem State.OthersOnly.map : t.map = s.map := by rw [show t = _ from h]
theorem State.OthersOnly.acc : t.acc = s.acc := by rw [show t = _ from h]
theorem State.OthersOnly.trapPending : t.trapPending = s.trapPending := by rw [show t = _ from h]
theorem State.OthersOnly.fatal : t.fatal = s.fatal := by rw [show t = _ from h]
theorem State.OthersOnly.waiting : t.waiting = s.waiting := by rw [show t = _ from h]
theorem State.OthersOnly.intSuppress : t.intSuppress = s.intSuppress := by rw [show t = _ from h]
theorem State.OthersOnly.exuDepth : t.exuDepth = s.exuDepth := by rw [show t = _ from h]
theorem State.OthersOnly.running : t.running = s.running := by rw [show t = _ from h]
theorem State.OthersOnly.runMode : t.runMode = s.runMode := by rw [show t = _ from h]
theorem State.OthersOnly.branchOutcome : t.branchOutcome = s.branchOutcome := by rw [show t = _ from h]
theorem State.OthersOnly.lastInstr : t.lastInstr = s.lastInstr := by rw [show t = _ from h]
theorem State.OthersOnly.hostCalls : t.hostCalls = s.hostCalls := by rw [show t = _ from h]
theorem State.OthersOnly.agenda : t.agenda = s.agenda := by rw [show t = _ from h]
theorem State.OthersOnly.config : t.config = s.config := by rw [show t = _ from h]
theorem State.OthersOnly.resolve (vw : WordAddr) (m : Access) : t.resolve vw m = s.resolve vw m := by
  rw [show t = _ from h]; rfl
theorem State.OthersOnly.reg (i : RegNum) : t.reg i = s.reg i := by rw [show t = _ from h]; rfl
theorem State.OthersOnly.blockReg (b i : BitVec 4) : t.blockReg b i = s.blockReg b i := by rw [show t = _ from h]; rfl
theorem State.OthersOnly.memBytes : t.memBytes = s.memBytes := by rw [show t = _ from h]; rfl
theorem State.OthersOnly.writeAllowed (p : Nat) : t.writeAllowed p = s.writeAllowed p := by
  rw [show t = _ from h]; rfl

end

@[simp] theorem State.others_psd (s : State) : s.others.psd = s.psd := s.othersOnly_others.psd
@[simp] theorem State.others_regs (s : State) : s.others.regs = s.regs := s.othersOnly_others.regs
@[simp] theorem State.others_reg (s : State) (i : RegNum) : s.others.reg i = s.reg i := s.othersOnly_others.reg i
@[simp] theorem State.others_config (s : State) : s.others.config = s.config := s.othersOnly_others.config
@[simp] theorem State.others_trapPending (s : State) : s.others.trapPending = s.trapPending :=
  s.othersOnly_others.trapPending
@[simp] theorem State.others_exuDepth (s : State) : s.others.exuDepth = s.exuDepth := s.othersOnly_others.exuDepth
@[simp] theorem State.others_memBytes (s : State) : s.others.memBytes = s.memBytes := s.othersOnly_others.memBytes
@[simp] theorem State.others_resolve (s : State) (vw : WordAddr) (m : Access) : s.others.resolve vw m = s.resolve vw m :=
  s.othersOnly_others.resolve vw m
@[simp] theorem State.others_writeAllowed (s : State) (p : Nat) : s.others.writeAllowed p = s.writeAllowed p :=
  s.othersOnly_others.writeAllowed p

end Sys2Proof.Machine
end

