-- ==== Sys2Proof/Laws/Memory.lean ====
section
/-! SUPPORT. Real memory: reads after writes, the canonical form, and the bounds of its addresses
(spec 20_memory.md R81, R83, R84). -/

namespace Sys2Proof.Machine

/-! ## One byte -/

theorem Memory.wfFrom_mono {lo lo' : Nat} {m : Memory} (h : Memory.wfFrom lo m = true) (hl : lo' ≤ lo) :
    Memory.wfFrom lo' m = true := by
  cases m with
  | nil => rfl
  | cons c m =>
    simp only [Memory.wfFrom, Bool.and_eq_true, decide_eq_true_eq] at h ⊢
    exact ⟨⟨hl.trans h.1.1, h.1.2⟩, h.2⟩

/-- Below its first address a canonical memory is blank. -/
theorem Memory.read_blank_of_wfFrom {lo a : Nat} {m : Memory} (h : Memory.wfFrom lo m = true) (ha : a < lo) :
    m.read a = Memory.blank := by
  induction m generalizing lo with
  | nil => rfl
  | cons c m ih =>
    simp only [Memory.wfFrom, Bool.and_eq_true, decide_eq_true_eq] at h
    rw [Memory.read, if_neg (by omega)]
    exact ih h.2 (by omega)

/-- A write keeps the canonical form. -/
theorem Memory.wfFrom_write {lo a : Nat} {v : Byte} {m : Memory} (h : Memory.wfFrom lo m = true) (ha : lo ≤ a) :
    Memory.wfFrom lo (m.write a v) = true := by
  induction m generalizing lo with
  | nil =>
    rw [Memory.write]
    split
    · rfl
    · simp [Memory.wfFrom, *]
  | cons c m ih =>
    simp only [Memory.wfFrom, Bool.and_eq_true, decide_eq_true_eq] at h
    rw [Memory.write]
    split
    · split
      · simp [Memory.wfFrom, h]
      · simp only [Memory.wfFrom, Bool.and_eq_true, decide_eq_true_eq]
        exact ⟨⟨ha, by assumption⟩, ⟨by omega, h.1.2⟩, h.2⟩
    · split
      · split
        · exact Memory.wfFrom_mono h.2 (by omega)
        · subst a
          simp only [Memory.wfFrom, Bool.and_eq_true, decide_eq_true_eq]
          exact ⟨⟨ha, by assumption⟩, h.2⟩
      · simp only [Memory.wfFrom, Bool.and_eq_true, decide_eq_true_eq]
        exact ⟨h.1, ih h.2 (by omega)⟩

theorem Memory.wf_write {m : Memory} (h : m.wf = true) (a : Nat) (v : Byte) : (m.write a v).wf = true :=
  Memory.wfFrom_write h (Nat.zero_le a)

theorem Memory.read_write_of_wfFrom {lo a : Nat} {v : Byte} {m : Memory} (h : Memory.wfFrom lo m = true) (b : Nat) :
    (m.write a v).read b = if b = a then v else m.read b := by
  induction m generalizing lo with
  | nil =>
    rw [Memory.write]
    split <;> rename_i hv
    · split <;> simp [Memory.read, hv]
    · simp only [Memory.read, eq_comm]
  | cons c m ih =>
    simp only [Memory.wfFrom, Bool.and_eq_true, decide_eq_true_eq] at h
    rw [Memory.write]
    split
    · have hb : Memory.read (c :: m) a = Memory.blank :=
        Memory.read_blank_of_wfFrom (lo := c.1) (by simp only [Memory.wfFrom, Bool.and_eq_true, decide_eq_true_eq]; exact ⟨⟨le_refl _, h.1.2⟩, h.2⟩) (by assumption)
      split <;> rename_i hv
      · split <;> rename_i hba
        · rw [hba, hb, hv]
        · rfl
      · rw [Memory.read]
        simp only [eq_comm]
    · split
      · subst a
        split <;> rename_i hv
        · split <;> rename_i hba
          · rw [hba, Memory.read_blank_of_wfFrom h.2 (by omega), hv]
          · rw [Memory.read, if_neg (Ne.symm hba)]
        · by_cases hba : b = c.1
          · rw [if_pos hba, Memory.read, if_pos hba.symm]
          · rw [if_neg hba, Memory.read, if_neg (Ne.symm hba), Memory.read, if_neg (Ne.symm hba)]
      · simp only [Memory.read, ih h.2]
        split
        · rw [if_neg (by omega)]
        · rfl

/-- What a write can do, seen from every address. -/
theorem Memory.read_write {m : Memory} (h : m.wf = true) (a b : Nat) (v : Byte) :
    (m.write a v).read b = if b = a then v else m.read b :=
  Memory.read_write_of_wfFrom h b

/-- A write leaves every other address alone, canonical or not. -/
theorem Memory.read_write_ne (m : Memory) {a b : Nat} (v : Byte) (hb : b ≠ a) : (m.write a v).read b = m.read b := by
  induction m with
  | nil =>
    rw [Memory.write]
    split
    · rfl
    · simp only [Memory.read, if_neg (Ne.symm hb)]
  | cons c m ih =>
    rw [Memory.write]
    split
    · split
      · rfl
      · rw [Memory.read, if_neg (Ne.symm hb)]
    · split
      · subst a
        split
        · rw [Memory.read, if_neg (Ne.symm hb)]
        · simp only [Memory.read, if_neg (Ne.symm hb)]
      · simp only [Memory.read, ih]

theorem Memory.mem_write {m : Memory} {a : Nat} {v : Byte} {c : Host.Cell} (h : c ∈ m.write a v) :
    c ∈ m ∨ c.1 = a := by
  induction m with
  | nil =>
    rw [Memory.write] at h
    split at h <;> simp_all
  | cons d m ih =>
    rw [Memory.write] at h
    repeat' split at h
    all_goals simp only [List.mem_cons] at h ⊢
    · exact .inl h
    · rcases h with rfl | h
      · exact .inr rfl
      · exact .inl h
    · exact .inl (.inr h)
    · rcases h with rfl | h
      · exact .inr rfl
      · exact .inl (.inr h)
    · rcases h with rfl | h
      · exact .inl (.inl rfl)
      · rcases ih h with h | h
        · exact .inl (.inr h)
        · exact .inr h

/-! ## Wider writes -/

theorem Memory.wf_writeHalf {m : Memory} (h : m.wf = true) (a : Nat) (v : Half) : (m.writeHalf a v).wf = true :=
  Memory.wf_write (Memory.wf_write h _ _) _ _
theorem Memory.wf_writeWord {m : Memory} (h : m.wf = true) (a : Nat) (v : Word) : (m.writeWord a v).wf = true :=
  Memory.wf_writeHalf (Memory.wf_writeHalf h _ _) _ _
theorem Memory.wf_writeDouble {m : Memory} (h : m.wf = true) (a : Nat) (v : Double) :
    (m.writeDouble a v).wf = true :=
  Memory.wf_writeWord (Memory.wf_writeWord h _ _) _ _

theorem Memory.read_writeHalf_ne (m : Memory) {a b : Nat} (v : Half) (h : b < a ∨ a + 2 ≤ b) :
    (m.writeHalf a v).read b = m.read b := by
  rw [Memory.writeHalf, Memory.read_write_ne _ _ (by omega), Memory.read_write_ne _ _ (by omega)]
theorem Memory.read_writeWord_ne (m : Memory) {a b : Nat} (v : Word) (h : b < a ∨ a + 4 ≤ b) :
    (m.writeWord a v).read b = m.read b := by
  rw [Memory.writeWord, Memory.read_writeHalf_ne _ _ (by omega), Memory.read_writeHalf_ne _ _ (by omega)]
theorem Memory.read_writeDouble_ne (m : Memory) {a b : Nat} (v : Double) (h : b < a ∨ a + 8 ≤ b) :
    (m.writeDouble a v).read b = m.read b := by
  rw [Memory.writeDouble, Memory.read_writeWord_ne _ _ (by omega), Memory.read_writeWord_ne _ _ (by omega)]

theorem Memory.readHalf_congr {m m' : Memory} {a : Nat} (h : ∀ b, a ≤ b → b < a + 2 → m'.read b = m.read b) :
    m'.readHalf a = m.readHalf a := by
  rw [Memory.readHalf, Memory.readHalf, h a (by omega) (by omega), h (a + 1) (by omega) (by omega)]
theorem Memory.readWord_congr {m m' : Memory} {a : Nat} (h : ∀ b, a ≤ b → b < a + 4 → m'.read b = m.read b) :
    m'.readWord a = m.readWord a := by
  rw [Memory.readWord, Memory.readWord, Memory.readHalf_congr fun b _ _ => h b (by omega) (by omega),
    Memory.readHalf_congr fun b _ _ => h b (by omega) (by omega)]
theorem Memory.readDouble_congr {m m' : Memory} {a : Nat} (h : ∀ b, a ≤ b → b < a + 8 → m'.read b = m.read b) :
    m'.readDouble a = m.readDouble a := by
  rw [Memory.readDouble, Memory.readDouble, Memory.readWord_congr fun b _ _ => h b (by omega) (by omega),
    Memory.readWord_congr fun b _ _ => h b (by omega) (by omega)]

/-- The two halves of a bit vector put together again. -/
theorem extractLsb'_append_halves {n : Nat} (v : BitVec (n + n)) : v.extractLsb' n n ++ v.extractLsb' 0 n = v := by
  ext i hi
  simp only [BitVec.getElem_append, BitVec.getElem_extractLsb']
  split
  · simp [BitVec.getLsbD_eq_getElem, *]
  · rw [show n + (i - n) = i by omega, BitVec.getLsbD_eq_getElem]

/-- A halfword read where it was written. -/
theorem Memory.readHalf_writeHalf {m : Memory} (h : m.wf = true) (a : Nat) (v : Half) :
    (m.writeHalf a v).readHalf a = v := by
  have h1 := Memory.wf_write h a (v.extractLsb' 8 8)
  simp only [Memory.readHalf, Memory.writeHalf, Memory.read_write h1, Memory.read_write h]
  simp only [show a ≠ a + 1 by omega, if_true, if_false]
  exact extractLsb'_append_halves (n := 8) v

theorem Memory.readWord_writeWord {m : Memory} (h : m.wf = true) (a : Nat) (v : Word) :
    (m.writeWord a v).readWord a = v := by
  have h1 := Memory.wf_writeHalf h a (v.extractLsb' 16 16)
  rw [Memory.readWord, Memory.writeWord, Memory.readHalf_writeHalf h1,
    Memory.readHalf_congr (m := m.writeHalf a (v.extractLsb' 16 16))
      (fun b _ _ => Memory.read_writeHalf_ne _ _ (by omega)), Memory.readHalf_writeHalf h]
  exact extractLsb'_append_halves (n := 16) v

theorem Memory.readDouble_writeDouble {m : Memory} (h : m.wf = true) (a : Nat) (v : Double) :
    (m.writeDouble a v).readDouble a = v := by
  have h1 := Memory.wf_writeWord h a (v.extractLsb' 32 32)
  rw [Memory.readDouble, Memory.writeDouble, Memory.readWord_writeWord h1,
    Memory.readWord_congr (m := m.writeWord a (v.extractLsb' 32 32))
      (fun b _ _ => Memory.read_writeWord_ne _ _ (by omega)), Memory.readWord_writeWord h]
  exact extractLsb'_append_halves (n := 32) v

/-! ## The bounds of the addresses -/

/-- Every listed address is below n. -/
def Memory.Below (n : Nat) (m : Memory) : Prop := ∀ c ∈ m, c.1 < n

theorem Memory.Below.write {n a : Nat} {m : Memory} (h : Memory.Below n m) (ha : a < n) (v : Byte) :
    Memory.Below n (m.write a v) := by
  intro c hc
  rcases Memory.mem_write hc with hc | hc
  · exact h c hc
  · omega
theorem Memory.Below.writeHalf {n a : Nat} {m : Memory} (h : Memory.Below n m) (ha : a + 2 ≤ n) (v : Half) :
    Memory.Below n (m.writeHalf a v) := (h.write (by omega) _).write (by omega) _
theorem Memory.Below.writeWord {n a : Nat} {m : Memory} (h : Memory.Below n m) (ha : a + 4 ≤ n) (v : Word) :
    Memory.Below n (m.writeWord a v) := (h.writeHalf (by omega) _).writeHalf (by omega) _
theorem Memory.Below.writeDouble {n a : Nat} {m : Memory} (h : Memory.Below n m) (ha : a + 8 ≤ n) (v : Double) :
    Memory.Below n (m.writeDouble a v) := (h.writeWord (by omega) _).writeWord (by omega) _

/-! ## The write locks -/

/-- What `setLock` can do, seen from every page (20_memory.md R88). -/
theorem State.lockOf_setLock (s : State) (p : Nat) (v : BitVec 2) (q : Nat) :
    (s.setLock p v).lockOf q = if q = p ∧ p < s.config.wlockPages then v else s.lockOf q := by
  unfold State.setLock
  by_cases hw : s.config.wlockPages ≤ p
  · simp [hw]
  · simp only [hw, if_false, Nat.not_le.1 hw, and_true]
    by_cases hp : p < 256
    · simp only [hp, dif_pos, State.lockOf]
      by_cases hq : q < 256
      · simp only [hq, dif_pos, Vector.getElem_set, eq_comm (a := p)]
      · rw [if_neg (by omega)]; simp [hq]
    · simp only [hp, dif_neg, State.lockOf, not_false_eq_true]
      by_cases hq : q < 256
      · rw [if_neg (by omega)]; simp [hq]
      · simp only [hq, dif_neg, not_false_eq_true, List.lookup_cons]
        by_cases hqp : q = p
        · simp [hqp]
        · simp only [hqp, beq_eq_false_iff_ne.2 hqp, if_false]
          congr 1
          induction s.highLocks with
          | nil => rfl
          | cons e l ih =>
            by_cases he : e.1 = p
            · rw [List.filter_cons_of_neg (by simp [he]), ih, List.lookup_cons, beq_eq_false_iff_ne.2 (by omega)]
            · rw [List.filter_cons_of_pos (by simp [he]), List.lookup_cons, List.lookup_cons, ih]

/-- It changes the locks alone. -/
theorem State.setLock_frame (s : State) (p : Nat) (v : BitVec 2) :
    s.setLock p v = { s with locks := (s.setLock p v).locks, highLocks := (s.setLock p v).highLocks } := by
  unfold State.setLock
  split
  · rfl
  · split <;> rfl

end Sys2Proof.Machine
end

