-- ==== Sys2Proof/Laws/Registers.lean ====
section
/-! SUPPORT. Reading registers after writing them (spec 00_scope.md R13, 10_state.md R30, R31, R33). -/

namespace Sys2Proof.Machine

theorem appendIndex_inj {b b' i i' : BitVec 4} (h : (b ++ i).toNat = (b' ++ i').toNat) : b = b' ∧ i = i' := by
  have hb := b.isLt; have hi := i.isLt; have hb' := b'.isLt; have hi' := i'.isLt
  rw [BitVec.toNat_append, BitVec.toNat_append, ← Nat.shiftLeft_add_eq_or_of_lt hi,
    ← Nat.shiftLeft_add_eq_or_of_lt hi', Nat.shiftLeft_eq, Nat.shiftLeft_eq] at h
  exact ⟨BitVec.eq_of_toNat_eq (by omega), BitVec.eq_of_toNat_eq (by omega)⟩

theorem State.reg_eq_blockReg (s : State) (i : RegNum) : s.reg i = s.blockReg s.psd.rp i := rfl

/-- What `setReg` can do, seen from every register of every block. -/
theorem State.blockReg_setReg (s : State) (i : RegNum) (v : Word) (b j : BitVec 4) :
    (s.setReg i v).blockReg b j = if b = s.psd.rp ∧ j = i then v else s.blockReg b j := by
  unfold State.blockReg State.setReg
  simp only [Vector.getElem_set]
  split
  · rename_i h
    obtain ⟨rfl, rfl⟩ := appendIndex_inj h
    simp
  · rename_i h
    rw [if_neg]
    rintro ⟨rfl, rfl⟩
    exact h rfl

theorem State.reg_setReg (s : State) (i j : RegNum) (v : Word) :
    (s.setReg i v).reg j = if j = i then v else s.reg j := by
  rw [State.reg_eq_blockReg, State.blockReg_setReg]
  simp [State.reg_eq_blockReg]

@[simp] theorem State.reg_setReg_same (s : State) (i : RegNum) (v : Word) : (s.setReg i v).reg i = v := by
  simp [State.reg_setReg]

theorem State.reg_setReg_ne (s : State) {i j : RegNum} (v : Word) (h : j ≠ i) :
    (s.setReg i v).reg j = s.reg j := by
  simp [State.reg_setReg, h]

/-- What `setPair` can do: the low word ends in Ru1, the high word in R unless R is odd. -/
theorem State.blockReg_setPair (s : State) (r : RegNum) (d : Double) (b j : BitVec 4) :
    (s.setPair r d).blockReg b j =
      if b = s.psd.rp ∧ j = ru1 r then d.extractLsb' 0 32
      else if b = s.psd.rp ∧ j = r then d.extractLsb' 32 32 else s.blockReg b j := by
  simp only [State.setPair, State.blockReg_setReg, State.setReg_psd]

theorem State.reg_setPair (s : State) (r j : RegNum) (d : Double) :
    (s.setPair r d).reg j =
      if j = ru1 r then d.extractLsb' 0 32 else if j = r then d.extractLsb' 32 32 else s.reg j := by
  simp only [State.setPair, State.reg_setReg]

theorem ru1_even {r : RegNum} (h : r[0] = false) : ru1 r = r + 1#4 ∧ ru1 r ≠ r := by
  revert r; decide

theorem ru1_odd {r : RegNum} (h : r[0] = true) : ru1 r = r := by
  revert r; decide

theorem State.regsKept_refl (s : State) (l : List RegNum) : s.RegsKept s l := fun _ _ _ => rfl

theorem State.regsKept_trans {s t u : State} {l m : List RegNum} (h : s.RegsKept t l) (g : t.RegsKept u m)
    (hp : t.psd.rp = s.psd.rp) : s.RegsKept u (l ++ m) := by
  intro b i hi
  rw [g b i (fun hb => by have := hi (hp ▸ hb); simp_all), h b i (fun hb => by have := hi hb; simp_all)]

theorem State.regsKept_setReg (s : State) (i : RegNum) (v : Word) : s.RegsKept (s.setReg i v) [i] := by
  intro b j h
  rw [State.blockReg_setReg, if_neg]
  rintro ⟨hb, rfl⟩
  exact h hb (List.mem_singleton.2 rfl)

theorem State.regsKept_setPair (s : State) (r : RegNum) (d : Double) : s.RegsKept (s.setPair r d) [r, ru1 r] := by
  intro b j h
  rw [State.blockReg_setPair, if_neg, if_neg]
  · rintro ⟨hb, rfl⟩; exact h hb (by simp)
  · rintro ⟨hb, rfl⟩; exact h hb (by simp)

end Sys2Proof.Machine
end

