-- ==== Sys2Proof/Laws/Access.lean ====
section
/-! SUPPORT. Virtual accesses: where an address leads, and loads after stores (spec 20_memory.md R98-R104). -/

namespace Sys2Proof.Machine

/-- Memory is a whole number of doublewords. -/
theorem State.memBytes_mod (s : State) : s.memBytes % 8 = 0 := by
  have : s.memBytes = 8 * (s.config.memPages * (s.config.sizes.pageBytes / (s.config.sizes.wordBits / 4))) := by
    simp only [State.memBytes, State.pageBytes, State.pageWords]; ring
  omega

theorem State.memBytes_standard {s : State} (h : s.config.sizes = Sizes.standard) :
    s.memBytes = s.config.memPages * 2048 := by
  rw [State.memBytes, State.pageBytes_standard h]

/-! ## Where an address leads -/

/-- The place exists: its four bytes are in range. -/
def State.PlaceOk (s : State) : Place → Prop
  | .reg _ => True
  | .real rw => 4 * rw + 4 ≤ s.memBytes

/-- The doubleword at the place exists. -/
def State.DoubleOk (s : State) : Place → Prop
  | .reg _ => True
  | .real rw => 4 * rw + 8 ≤ s.memBytes

theorem State.DoubleOk.placeOk {s : State} {p : Place} (h : s.DoubleOk p) : s.PlaceOk p := by
  cases p with
  | reg i => trivial
  | real rw => have h' : 4 * rw + 8 ≤ s.memBytes := h; show 4 * rw + 4 ≤ s.memBytes; omega

/-- All that resolving an address can answer (R100). -/
theorem State.resolve_cases (s : State) (vw : WordAddr) (mode : Access) :
    (s.isRegister vw = true ∧ s.resolve vw mode = .ok (.reg (vw.extractLsb' 0 4))) ∨
    (s.isRegister vw = false ∧ ∃ t, s.translate vw mode = .error t ∧ s.resolve vw mode = .error t) ∨
    (s.isRegister vw = false ∧ ∃ rw, s.translate vw mode = .ok rw ∧ s.memBytes ≤ 4 * rw ∧
      s.resolve vw mode = .error trapNoMemory) ∨
    (s.isRegister vw = false ∧ ∃ rw, s.translate vw mode = .ok rw ∧ 4 * rw < s.memBytes ∧ mode = .write ∧
      s.writeAllowed (rw / s.pageWords) = false ∧ s.resolve vw mode = .error trapProtection) ∨
    (s.isRegister vw = false ∧ ∃ rw, s.translate vw mode = .ok rw ∧ 4 * rw < s.memBytes ∧
      (mode = .write → s.writeAllowed (rw / s.pageWords) = true) ∧ s.resolve vw mode = .ok (.real rw)) := by
  unfold State.resolve
  cases hr : s.isRegister vw with
  | true => exact .inl ⟨rfl, by simp⟩
  | false =>
    right
    cases ht : s.translate vw mode with
    | error t => exact .inl ⟨rfl, t, rfl, by simp⟩
    | ok rw =>
      right
      by_cases hm : s.memBytes ≤ 4 * rw
      · exact .inl ⟨rfl, rw, rfl, hm, by simp [hm]⟩
      · right
        by_cases hw : mode = .write ∧ s.writeAllowed (rw / s.pageWords) = false
        · exact .inl ⟨rfl, rw, rfl, by omega, hw.1, hw.2, by simp [hm, hw.1, hw.2]⟩
        · refine .inr ⟨rfl, rw, rfl, by omega, fun he => ?_, ?_⟩
          · cases h : s.writeAllowed (rw / s.pageWords) with
            | true => rfl
            | false => exact absurd ⟨he, h⟩ hw
          · by_cases he : mode = .write
            · have : s.writeAllowed (rw / s.pageWords) = true := by
                cases h : s.writeAllowed (rw / s.pageWords) with
                | true => rfl
                | false => exact absurd ⟨he, h⟩ hw
              simp [hm, this]
            · simp [hm, he]

theorem State.resolve_real {s : State} {vw : WordAddr} {mode : Access} {rw : Nat}
    (h : s.resolve vw mode = .ok (.real rw)) :
    s.isRegister vw = false ∧ s.translate vw mode = .ok rw ∧ 4 * rw < s.memBytes ∧
      (mode = .write → s.writeAllowed (rw / s.pageWords) = true) := by
  rcases s.resolve_cases vw mode with ⟨_, h'⟩ | ⟨_, _, _, h'⟩ | ⟨_, _, _, _, h'⟩ | ⟨_, _, _, _, _, _, h'⟩ |
    ⟨hr, rw', ht, hlt, hw, h'⟩ <;> rw [h'] at h <;> simp at h
  subst h
  exact ⟨hr, ht, hlt, hw⟩

theorem State.resolve_reg {s : State} {vw : WordAddr} {mode : Access} {i : RegNum}
    (h : s.resolve vw mode = .ok (.reg i)) : s.isRegister vw = true ∧ i = vw.extractLsb' 0 4 := by
  rcases s.resolve_cases vw mode with ⟨hr, h'⟩ | ⟨_, _, _, h'⟩ | ⟨_, _, _, _, h'⟩ | ⟨_, _, _, _, _, _, h'⟩ |
    ⟨_, _, _, _, _, h'⟩ <;> rw [h'] at h <;> simp at h
  exact ⟨hr, h.symm⟩

theorem State.resolve_placeOk {s : State} {vw : WordAddr} {mode : Access} {p : Place}
    (h : s.resolve vw mode = .ok p) : s.PlaceOk p := by
  cases p with
  | reg i => trivial
  | real rw =>
    have := (State.resolve_real h).2.2.1
    have := s.memBytes_mod
    show 4 * rw + 4 ≤ s.memBytes
    omega

theorem even_mod {a b : Nat} (ha : a % 2 = 0) (hb : b % 2 = 0) : a % b % 2 = 0 := by
  rw [Nat.mod_mod_of_dvd a (Nat.dvd_of_mod_eq_zero hb), ha]

theorem State.pageWords_even (s : State) : s.pageWords % 2 = 0 := Nat.mul_mod_right 2 _

/-- The real word of an even virtual word address is even. -/
theorem State.translate_even {s : State} {d : DoubleAddr} {mode : Access} {rw : Nat}
    (h : s.translate (d ++ 0#1) mode = .ok rw) : rw % 2 = 0 := by
  have h0 : (d ++ 0#1).toNat = d.toNat * 2 := by
    rw [BitVec.toNat_append]; simp [Nat.shiftLeft_eq]
  have hv : s.virtualWord (d ++ 0#1) % 2 = 0 := by
    rw [State.virtualWord, h0]
    cases s.config.sizes.vaBits with
    | zero => simp [Nat.mod_one]
    | succ k => exact even_mod (Nat.mul_mod_left _ _) (by rw [Nat.pow_succ]; exact Nat.mul_mod_left _ _)
  unfold State.translate at h
  split at h
  · unfold State.mapWord at h
    split at h
    · cases h
    · simp only [Except.ok.injEq] at h
      rw [← h, Nat.add_mod, Nat.mul_mod, s.pageWords_even, even_mod hv s.pageWords_even, Nat.mul_zero]
  · split at h
    · have h16 : (s.psd.ext ++ (d ++ 0#1).extractLsb' 0 16).toNat % 2 = 0 := by
        rw [BitVec.toNat_append, ← Nat.shiftLeft_add_eq_or_of_lt (by exact BitVec.isLt _), Nat.shiftLeft_eq,
          BitVec.extractLsb'_toNat, h0]
        simp; omega
      simp only [Except.ok.injEq] at h
      omega
    · simp only [Except.ok.injEq] at h
      omega

theorem State.resolve_doubleOk {s : State} {d : DoubleAddr} {mode : Access} {p : Place}
    (h : s.resolve (d ++ 0#1) mode = .ok p) : s.DoubleOk p := by
  cases p with
  | reg i => trivial
  | real rw =>
    obtain ⟨-, ht, hlt, -⟩ := State.resolve_real h
    have := State.translate_even ht
    have := s.memBytes_mod
    show 4 * rw + 8 ≤ s.memBytes
    omega

/-! Where an address leads depends on no register, no memory byte and no condition code. -/

@[simp] theorem State.resolve_setReg (s : State) (i : RegNum) (v : Word) (vw : WordAddr) (m : Access) :
    (s.setReg i v).resolve vw m = s.resolve vw m := rfl
@[simp] theorem State.resolve_setMem (s : State) (x : Memory) (vw : WordAddr) (m : Access) :
    (s.setMem x).resolve vw m = s.resolve vw m := rfl
@[simp] theorem State.resolve_setCC (s : State) (c : BitVec 4) (vw : WordAddr) (m : Access) :
    (s.setCC c).resolve vw m = s.resolve vw m := rfl
@[simp] theorem State.resolve_setPc (s : State) (a : WordAddr) (vw : WordAddr) (m : Access) :
    (s.setPc a).resolve vw m = s.resolve vw m := rfl
@[simp] theorem State.resolve_storeByte (s : State) (p : Place) (k : BitVec 2) (v : Byte) (vw : WordAddr) (m : Access) :
    (s.storeByte p k v).resolve vw m = s.resolve vw m := by cases p <;> rfl
@[simp] theorem State.resolve_storeHalf (s : State) (p : Place) (k : BitVec 1) (v : Half) (vw : WordAddr) (m : Access) :
    (s.storeHalf p k v).resolve vw m = s.resolve vw m := by cases p <;> rfl
@[simp] theorem State.resolve_storeWord (s : State) (p : Place) (v : Word) (vw : WordAddr) (m : Access) :
    (s.storeWord p v).resolve vw m = s.resolve vw m := by cases p <;> rfl
@[simp] theorem State.resolve_storeDouble (s : State) (p : Place) (v : Double) (vw : WordAddr) (m : Access) :
    (s.storeDouble p v).resolve vw m = s.resolve vw m := by cases p <;> rfl

/-! ## The accesses, by where the address leads -/

theorem State.access_of {α : Type} {s : State} {vw : WordAddr} {m : Access} {p : Place} (h : s.resolve vw m = .ok p)
    (k : State → Place → Res α) : s.access vw m k = k s.others p := by
  unfold State.access
  rw [State.others_resolve, h]

theorem State.access_trap {α : Type} {s : State} {vw : WordAddr} {m : Access} {e : Trap} (h : s.resolve vw m = .error e)
    (k : State → Place → Res α) : s.access vw m k = .trap e s.others := by
  unfold State.access
  rw [State.others_resolve, h]

/-- All that an access can answer: the trap of resolving its address, or what it does at the place. -/
theorem State.access_ok {α : Type} {s t : State} {vw : WordAddr} {m : Access} {k : State → Place → Res α} {v : α}
    (h : s.access vw m k = .ok v t) : ∃ p, s.resolve vw m = .ok p ∧ k s.others p = .ok v t := by
  cases hp : s.resolve vw m with
  | ok p => rw [State.access_of hp] at h; exact ⟨p, rfl, h⟩
  | error e => rw [State.access_trap hp] at h; cases h

theorem State.readByte_ok {s t : State} {a : ByteAddr} {m : Access} {v : Byte} :
    s.readByte a m = .ok v t ↔ ∃ p, s.resolve (a.extractLsb' 2 17) m = .ok p ∧ s.others.loadByte p (a.extractLsb' 0 2) = v ∧ s.others = t := by
  refine ⟨fun h => ?_, fun ⟨p, hp, hv, ht⟩ => by rw [State.readByte, State.access_of hp, hv, ht]⟩
  obtain ⟨p, hp, h⟩ := State.access_ok h
  cases h
  exact ⟨p, hp, rfl, rfl⟩
theorem State.writeByte_ok {s t : State} {a : ByteAddr} {v : Byte} {x : Unit} :
    s.writeByte a v = .ok x t ↔ ∃ p, s.resolve (a.extractLsb' 2 17) .write = .ok p ∧ s.others.storeByte p (a.extractLsb' 0 2) v = t := by
  refine ⟨fun h => ?_, fun ⟨p, hp, ht⟩ => by rw [State.writeByte, State.access_of hp, ht]⟩
  obtain ⟨p, hp, h⟩ := State.access_ok h
  cases h
  exact ⟨p, hp, rfl⟩
theorem State.readHalf_ok {s t : State} {a : HalfAddr} {m : Access} {v : Half} :
    s.readHalf a m = .ok v t ↔ ∃ p, s.resolve (a.extractLsb' 1 17) m = .ok p ∧ s.others.loadHalf p (a.extractLsb' 0 1) = v ∧ s.others = t := by
  refine ⟨fun h => ?_, fun ⟨p, hp, hv, ht⟩ => by rw [State.readHalf, State.access_of hp, hv, ht]⟩
  obtain ⟨p, hp, h⟩ := State.access_ok h
  cases h
  exact ⟨p, hp, rfl, rfl⟩
theorem State.writeHalf_ok {s t : State} {a : HalfAddr} {v : Half} {x : Unit} :
    s.writeHalf a v = .ok x t ↔ ∃ p, s.resolve (a.extractLsb' 1 17) .write = .ok p ∧ s.others.storeHalf p (a.extractLsb' 0 1) v = t := by
  refine ⟨fun h => ?_, fun ⟨p, hp, ht⟩ => by rw [State.writeHalf, State.access_of hp, ht]⟩
  obtain ⟨p, hp, h⟩ := State.access_ok h
  cases h
  exact ⟨p, hp, rfl⟩
theorem State.readWord_ok {s t : State} {a : WordAddr} {m : Access} {v : Word} :
    s.readWord a m = .ok v t ↔ ∃ p, s.resolve a m = .ok p ∧ s.others.loadWord p = v ∧ s.others = t := by
  refine ⟨fun h => ?_, fun ⟨p, hp, hv, ht⟩ => by rw [State.readWord, State.access_of hp, hv, ht]⟩
  obtain ⟨p, hp, h⟩ := State.access_ok h
  cases h
  exact ⟨p, hp, rfl, rfl⟩
theorem State.writeWord_ok {s t : State} {a : WordAddr} {v : Word} {x : Unit} :
    s.writeWord a v = .ok x t ↔ ∃ p, s.resolve a .write = .ok p ∧ s.others.storeWord p v = t := by
  refine ⟨fun h => ?_, fun ⟨p, hp, ht⟩ => by rw [State.writeWord, State.access_of hp, ht]⟩
  obtain ⟨p, hp, h⟩ := State.access_ok h
  cases h
  exact ⟨p, hp, rfl⟩
theorem State.readDouble_ok {s t : State} {a : DoubleAddr} {m : Access} {v : Double} :
    s.readDouble a m = .ok v t ↔ ∃ p, s.resolve (a ++ 0#1) m = .ok p ∧ s.others.loadDouble p = v ∧ s.others = t := by
  refine ⟨fun h => ?_, fun ⟨p, hp, hv, ht⟩ => by rw [State.readDouble, State.access_of hp, hv, ht]⟩
  obtain ⟨p, hp, h⟩ := State.access_ok h
  cases h
  exact ⟨p, hp, rfl, rfl⟩
theorem State.writeDouble_ok {s t : State} {a : DoubleAddr} {v : Double} {x : Unit} :
    s.writeDouble a v = .ok x t ↔ ∃ p, s.resolve (a ++ 0#1) .write = .ok p ∧ s.others.storeDouble p v = t := by
  refine ⟨fun h => ?_, fun ⟨p, hp, ht⟩ => by rw [State.writeDouble, State.access_of hp, ht]⟩
  obtain ⟨p, hp, h⟩ := State.access_ok h
  cases h
  exact ⟨p, hp, rfl⟩

/-- A read leaves the state the other agents leave. -/
theorem State.refOf_othersOnly {s t : State} {a : AddrField} {w : WordAddr} (h : s.refOf a = .ok w t) :
    s.OthersOnly t := by
  unfold State.refOf at h
  split at h
  · cases hr : s.readWord a.ref .read with
    | ok v u =>
      obtain ⟨p, -, -, rfl⟩ := State.readWord_ok.1 hr
      rw [hr] at h
      cases h
      exact s.othersOnly_others
    | trap e u => rw [hr] at h; cases h
  · cases h; rfl

theorem Res.andThen_ok {α β : Type} {x : Res α} {k : α → State → Res β} {v : β} {t : State}
    (h : x.andThen k = .ok v t) : ∃ w u, x = .ok w u ∧ k w u = .ok v t := by
  cases x with
  | ok w u => exact ⟨w, u, rfl, h⟩
  | trap e u => cases h

theorem State.effByte_othersOnly {s t : State} {a : AddrField} {ea : ByteAddr} (h : s.effByte a = .ok ea t) :
    s.OthersOnly t := by
  obtain ⟨w, u, hu, h⟩ := Res.andThen_ok h
  cases h
  exact State.refOf_othersOnly hu
theorem State.effHalf_othersOnly {s t : State} {a : AddrField} {ea : HalfAddr} (h : s.effHalf a = .ok ea t) :
    s.OthersOnly t := by
  obtain ⟨w, u, hu, h⟩ := Res.andThen_ok h
  cases h
  exact State.refOf_othersOnly hu
theorem State.effWord_othersOnly {s t : State} {a : AddrField} {ea : WordAddr} (h : s.effWord a = .ok ea t) :
    s.OthersOnly t := by
  obtain ⟨w, u, hu, h⟩ := Res.andThen_ok h
  cases h
  exact State.refOf_othersOnly hu
theorem State.effDouble_othersOnly {s t : State} {a : AddrField} {ea : DoubleAddr} (h : s.effDouble a = .ok ea t) :
    s.OthersOnly t := by
  obtain ⟨w, u, hu, h⟩ := Res.andThen_ok h
  cases h
  exact State.refOf_othersOnly hu
theorem State.ByteOperand.othersOnly {s u : State} {a : AddrField} {v : Byte} (h : s.ByteOperand a v u) :
    s.OthersOnly u := by
  obtain ⟨ea, t, he, hr⟩ := h
  obtain ⟨p, -, -, rfl⟩ := State.readByte_ok.1 hr
  exact (State.effByte_othersOnly he).trans t.othersOnly_others
theorem State.HalfOperand.othersOnly {s u : State} {a : AddrField} {v : Half} (h : s.HalfOperand a v u) :
    s.OthersOnly u := by
  obtain ⟨ea, t, he, hr⟩ := h
  obtain ⟨p, -, -, rfl⟩ := State.readHalf_ok.1 hr
  exact (State.effHalf_othersOnly he).trans t.othersOnly_others
theorem State.WordOperand.othersOnly {s u : State} {a : AddrField} {v : Word} (h : s.WordOperand a v u) :
    s.OthersOnly u := by
  obtain ⟨ea, t, he, hr⟩ := h
  obtain ⟨p, -, -, rfl⟩ := State.readWord_ok.1 hr
  exact (State.effWord_othersOnly he).trans t.othersOnly_others
theorem State.DoubleOperand.othersOnly {s u : State} {a : AddrField} {v : Double} (h : s.DoubleOperand a v u) :
    s.OthersOnly u := by
  obtain ⟨ea, t, he, hr⟩ := h
  obtain ⟨p, -, -, rfl⟩ := State.readDouble_ok.1 hr
  exact (State.effDouble_othersOnly he).trans t.othersOnly_others

/-! ## Loads after stores -/

/-- The high part of an append. -/
theorem extract_append_high {n m : Nat} (x : BitVec n) (y : BitVec m) : (x ++ y).extractLsb' m n = x := by
  apply BitVec.eq_of_getLsbD_eq
  intro i hi
  simp [BitVec.getLsbD_append, hi]

/-- The low part of an append. -/
theorem extract_append_low {n m : Nat} (x : BitVec n) (y : BitVec m) : (x ++ y).extractLsb' 0 m = y := by
  apply BitVec.eq_of_getLsbD_eq
  intro i hi
  simp [BitVec.getLsbD_append, hi]

/-- The middle part of an append. -/
theorem extract_append_middle {n m k : Nat} (x : BitVec n) (y : BitVec m) (z : BitVec k) :
    (x ++ y ++ z).extractLsb' k m = y := by
  apply BitVec.eq_of_getLsbD_eq
  intro i hi
  simp [BitVec.getLsbD_append, hi]

theorem wordByte_setWordByte (w : Word) (k : BitVec 2) (b : Byte) : wordByte (setWordByte w k b) k = b := by
  have : k = 0 ∨ k = 1 ∨ k = 2 ∨ k = 3 := by revert k; decide
  rcases this with rfl | rfl | rfl | rfl
  · exact extract_append_high (m := 24) b _
  · exact extract_append_middle (k := 16) _ b _
  · exact extract_append_middle (k := 8) _ b _
  · exact extract_append_low (n := 24) _ b

theorem wordHalf_setWordHalf (w : Word) (k : BitVec 1) (h : Half) : wordHalf (setWordHalf w k h) k = h := by
  have : k = 0 ∨ k = 1 := by revert k; decide
  rcases this with rfl | rfl
  · exact extract_append_high (m := 16) h _
  · exact extract_append_low (n := 16) _ h

theorem State.loadWord_storeWord {s : State} (h : s.mem.wf = true) (p : Place) (v : Word) :
    (s.storeWord p v).loadWord p = v := by
  cases p with
  | reg i => exact State.reg_setReg_same s i v
  | real rw => exact Memory.readWord_writeWord h _ v

theorem State.loadByte_storeByte {s : State} (h : s.mem.wf = true) (p : Place) (k : BitVec 2) (v : Byte) :
    (s.storeByte p k v).loadByte p k = v := by
  cases p with
  | reg i =>
    show wordByte ((s.setReg i _).reg i) k = v
    rw [State.reg_setReg_same]
    exact wordByte_setWordByte _ _ _
  | real rw =>
    show (s.mem.write _ v).read _ = v
    rw [Memory.read_write h, if_pos rfl]

theorem State.loadHalf_storeHalf {s : State} (h : s.mem.wf = true) (p : Place) (k : BitVec 1) (v : Half) :
    (s.storeHalf p k v).loadHalf p k = v := by
  cases p with
  | reg i =>
    show wordHalf ((s.setReg i _).reg i) k = v
    rw [State.reg_setReg_same]
    exact wordHalf_setWordHalf _ _ _
  | real rw => exact Memory.readHalf_writeHalf h _ v

theorem State.loadDouble_storeDouble {s : State} (h : s.mem.wf = true) (p : Place) (v : Double) :
    (s.storeDouble p v).loadDouble p = v := by
  cases p with
  | reg i =>
    show ((s.setReg i _).setReg _ _).reg i ++ ((s.setReg i _).setReg _ _).reg (i + 1#4) = v
    have hne : i ≠ i + 1#4 := by revert i; decide
    rw [State.reg_setReg_ne _ _ hne, State.reg_setReg_same, State.reg_setReg_same]
    exact extractLsb'_append_halves (n := 32) v
  | real rw => exact Memory.readDouble_writeDouble h _ v

/-! ## What a store leaves alone -/

theorem State.memKept_refl (s : State) : s.MemKept s := fun _ => rfl

theorem State.keptOutside_storeByte (s : State) (p : Place) (k : BitVec 2) (v : Byte) :
    s.KeptOutside (s.storeByte p k v) p k.toNat 1 := by
  cases p with
  | reg i => exact ⟨State.regsKept_setReg s i _, fun _ => rfl⟩
  | real rw => exact ⟨fun _ _ _ => rfl, fun a ha => Memory.read_write_ne _ _ (by omega)⟩

theorem State.keptOutside_storeHalf (s : State) (p : Place) (k : BitVec 1) (v : Half) :
    s.KeptOutside (s.storeHalf p k v) p (2 * k.toNat) 2 := by
  cases p with
  | reg i => exact ⟨State.regsKept_setReg s i _, fun _ => rfl⟩
  | real rw => exact ⟨fun _ _ _ => rfl, fun a ha => Memory.read_writeHalf_ne _ _ (by omega)⟩

theorem State.keptOutside_storeWord (s : State) (p : Place) (v : Word) :
    s.KeptOutside (s.storeWord p v) p 0 4 := by
  cases p with
  | reg i => exact ⟨State.regsKept_setReg s i _, fun _ => rfl⟩
  | real rw => exact ⟨fun _ _ _ => rfl, fun a ha => Memory.read_writeWord_ne _ _ (by omega)⟩

theorem State.keptOutside_storeDouble (s : State) (p : Place) (v : Double) :
    s.KeptOutside (s.storeDouble p v) p 0 8 := by
  cases p with
  | reg i =>
    refine ⟨?_, fun _ => rfl⟩
    exact State.regsKept_trans (State.regsKept_setReg s i _) (State.regsKept_setReg _ (i + 1#4) _) rfl
  | real rw => exact ⟨fun _ _ _ => rfl, fun a ha => Memory.read_writeDouble_ne _ _ (by omega)⟩

/-! ## Stores keep memory canonical and in bounds -/

theorem State.MemoryInv.setReg {s : State} (h : s.MemoryInv) (i : RegNum) (v : Word) : (s.setReg i v).MemoryInv := h

theorem State.MemoryInv.storeByte {s : State} (h : s.MemoryInv) {p : Place} (hp : s.PlaceOk p) (k : BitVec 2)
    (v : Byte) : (s.storeByte p k v).MemoryInv := by
  cases p with
  | reg i => exact h
  | real rw =>
    have hp' : 4 * rw + 4 ≤ s.memBytes := hp
    exact ⟨Memory.wf_write h.1 _ _, Memory.Below.write h.2 (by have := k.isLt; show _ < s.memBytes; omega) _⟩

theorem State.MemoryInv.storeHalf {s : State} (h : s.MemoryInv) {p : Place} (hp : s.PlaceOk p) (k : BitVec 1)
    (v : Half) : (s.storeHalf p k v).MemoryInv := by
  cases p with
  | reg i => exact h
  | real rw =>
    have hp' : 4 * rw + 4 ≤ s.memBytes := hp
    exact ⟨Memory.wf_writeHalf h.1 _ _, Memory.Below.writeHalf h.2 (by have := k.isLt; show _ ≤ s.memBytes; omega) _⟩

theorem State.MemoryInv.storeWord {s : State} (h : s.MemoryInv) {p : Place} (hp : s.PlaceOk p) (v : Word) :
    (s.storeWord p v).MemoryInv := by
  cases p with
  | reg i => exact h
  | real rw => exact ⟨Memory.wf_writeWord h.1 _ _, Memory.Below.writeWord h.2 hp _⟩

theorem State.MemoryInv.storeDouble {s : State} (h : s.MemoryInv) {p : Place} (hp : s.DoubleOk p) (v : Double) :
    (s.storeDouble p v).MemoryInv := by
  cases p with
  | reg i => exact h
  | real rw => exact ⟨Memory.wf_writeDouble h.1 _ _, Memory.Below.writeDouble h.2 hp _⟩

end Sys2Proof.Machine
end

