-- ==== Sys2Proof/Laws/Outcome.lean ====
section
/-! SUPPORT. What the shared sequencing operations can answer (spec 00_scope.md R15, R16; 30_encoding.md R143): one lemma for
each, so that a property of an instruction is proved from its parts. -/

namespace Sys2Proof.Machine

/-- The instruction goes on to a state with the property. -/
def Answers (P : State → Prop) : Out → Prop
  | .next t => P t
  | .fault _ => False
  | .refused _ => False

theorem Answers.mono {P Q : State → Prop} {o : Out} (h : Answers P o) (hpq : ∀ t, P t → Q t) : Answers Q o := by
  cases o with
  | next t => exact hpq t h
  | fault f => exact h
  | refused r => exact h

theorem answers_iff {P : State → Prop} {o : Out} : Answers P o ↔ ∃ t, o = .next t ∧ P t := by
  cases o <;> simp [Answers]

theorem Answers.ite {P : State → Prop} {c : Prop} [Decidable c] {a b : Out} (ha : Answers P a) (hb : Answers P b) :
    Answers P (if c then a else b) := by split <;> assumption

theorem Answers.exists {P : State → Prop} {o : Out} (h : Answers P o) : ∃ t, o = .next t ∧ P t := answers_iff.1 h

theorem Answers.of_next {P : State → Prop} {o : Out} {t : State} (h : Answers P o) (e : o = .next t) : P t := by
  rw [e] at h; exact h

/-- `orTrap` ends with the trap pending in the state the access left, or goes on. -/
theorem Answers.orTrap {α : Type} {P : State → Prop} {x : Res α} {k : α → State → Out}
    (ht : ∀ e t, x = .trap e t → P (t.raise e)) (hk : ∀ v t, x = .ok v t → Answers P (k v t)) :
    Answers P (orTrap x k) := by
  cases x with
  | trap e t => exact ht e t rfl
  | ok v t => exact hk v t rfl

/-- `orRaise` ends with the trap pending, or goes on. -/
theorem Answers.orRaise {P : State → Prop} {s : State} {x : Option Trap} {k : Out}
    (ht : ∀ e, x = some e → P (s.raise e)) (hk : x = none → Answers P k) : Answers P (orRaise s x k) := by
  cases x with
  | some e => exact ht e rfl
  | none => exact hk rfl

theorem Answers.privileged {P : State → Prop} {s : State} {k : Out}
    (ht : s.psd.ms = true → P (s.raise trapPrivileged)) (hk : s.psd.ms = false → Answers P k) :
    Answers P (privileged s k) := by
  unfold Machine.privileged
  cases h : s.psd.ms with
  | true => exact ht h
  | false => exact hk h

theorem Answers.needsFloat {P : State → Prop} {s : State} {k : Out}
    (ht : P (s.raise trapUnimplemented)) (hk : Answers P k) : Answers P (needsFloat s k) := by
  unfold Machine.needsFloat
  split
  · exact hk
  · exact ht

theorem Answers.needsDecimal {P : State → Prop} {s : State} {k : Out}
    (ht : P (s.raise trapUnimplemented)) (hk : Answers P k) : Answers P (needsDecimal s k) := by
  unfold Machine.needsDecimal
  split
  · exact hk
  · exact ht

/-! ## The sequencing operations when nothing traps -/

@[simp] theorem orTrap_ok {α : Type} (v : α) (t : State) (k : α → State → Out) : orTrap (.ok v t) k = k v t := rfl
@[simp] theorem orTrap_trap {α : Type} (e : Trap) (t : State) (k : α → State → Out) :
    orTrap (.trap e t) k = .next (t.raise e) := rfl
@[simp] theorem orRaise_none (s : State) (k : Out) : orRaise s none k = k := rfl
@[simp] theorem orRaise_some (s : State) (e : Trap) (k : Out) : orRaise s (some e) k = .next (s.raise e) := rfl

theorem privileged_master {s : State} (h : s.psd.ms = false) (k : Out) : privileged s k = k := by
  simp [privileged, h]
theorem privileged_slave {s : State} (h : s.psd.ms = true) (k : Out) :
    privileged s k = .next (s.raise trapPrivileged) := by
  simp [privileged, h]
theorem needsFloat_present {s : State} (h : s.config.floatOption = true) (k : Out) : needsFloat s k = k := by
  simp [needsFloat, h]
theorem needsFloat_absent {s : State} (h : s.config.floatOption = false) (k : Out) :
    needsFloat s k = .next (s.raise trapUnimplemented) := by
  simp [needsFloat, h]
theorem needsDecimal_present {s : State} (h : s.config.decimalOption = true) (k : Out) : needsDecimal s k = k := by
  simp [needsDecimal, h]
theorem needsDecimal_absent {s : State} (h : s.config.decimalOption = false) (k : Out) :
    needsDecimal s k = .next (s.raise trapUnimplemented) := by
  simp [needsDecimal, h]

theorem withWord_operand {s u : State} {a : AddrField} {v : Word} (h : s.WordOperand a v u) (k : Word → State → Out) :
    withWord s a k = k v u := by
  obtain ⟨ea, t, he, hr⟩ := h
  simp [withWord, he, hr]
theorem withHalf_operand {s u : State} {a : AddrField} {v : Half} (h : s.HalfOperand a v u) (k : Half → State → Out) :
    withHalf s a k = k v u := by
  obtain ⟨ea, t, he, hr⟩ := h
  simp [withHalf, he, hr]
theorem withByte_operand {s u : State} {a : AddrField} {v : Byte} (h : s.ByteOperand a v u) (k : Byte → State → Out) :
    withByte s a k = k v u := by
  obtain ⟨ea, t, he, hr⟩ := h
  simp [withByte, he, hr]
theorem withDouble_operand {s u : State} {a : AddrField} {v : Double} (h : s.DoubleOperand a v u) (k : Double → State → Out) :
    withDouble s a k = k v u := by
  obtain ⟨ea, t, he, hr⟩ := h
  simp [withDouble, he, hr]

end Sys2Proof.Machine
end

