-- ==== Sys2Proof/Laws/Effects.lean ====
section
/-! SUPPORT. What an instruction can do, said once: every instruction answers a next state, reached from the state it began in
by a sequence of elementary effects; the privileged ones happen in master mode only. An invariant of the instructions
follows from the effects alone. -/

namespace Sys2Proof.Machine

/-- An operation on the interrupt controller that an instruction may make (R626, R627). -/
inductive ControlOp (ic : IntCtl) : IntCtl → Prop
  | arm (L : Fin 32) : ControlOp ic (ic.arm L)
  | disarm (L : Fin 32) : ControlOp ic (ic.disarm L)
  | enable (L : Fin 32) : ControlOp ic (ic.enable L)
  | disable (L : Fin 32) : ControlOp ic (ic.disable L)
  | deactivate (L : Fin 32) : ControlOp ic (ic.deactivate L)

/-- One elementary effect of an instruction. -/
inductive Effect (s : State) : State → Prop
  | setReg (i : RegNum) (v : Word) : Effect s (s.setReg i v)
  | storeByte {vw : WordAddr} {p : Place} (k : BitVec 2) (v : Byte) (h : s.resolve vw .write = .ok p) :
    Effect s (s.storeByte p k v)
  | storeHalf {vw : WordAddr} {p : Place} (k : BitVec 1) (v : Half) (h : s.resolve vw .write = .ok p) :
    Effect s (s.storeHalf p k v)
  | storeWord {vw : WordAddr} {p : Place} (v : Word) (h : s.resolve vw .write = .ok p) : Effect s (s.storeWord p v)
  | storeDouble {d : DoubleAddr} {p : Place} (v : Double) (h : s.resolve (d ++ 0#1) .write = .ok p) :
    Effect s (s.storeDouble p v)
  | setCC (c : BitVec 4) : Effect s (s.setCC c)
  | floatModes (fs fz fn : Bool) : Effect s { s with psd := { s.psd with fs := fs, fz := fz, fn := fn } }
  | setPc (a : WordAddr) : Effect s (s.setPc a)
  | raise (t : Trap) : Effect s (s.raise t)
  | exuLimit : Effect s (s.raiseFatal .exuLimit)
  | branch (b : Option Bool) : Effect s { s with branchOutcome := b }
  | nest (n : Nat) : Effect s { s with exuDepth := n }
  | draw (n : Nat) : Effect s { s with freeCount := n }
  | install (p : Psd) (h : s.psd.ms = false) : Effect s { s with psd := p }
  | setMap (m : Vector (BitVec 13) 256) (h : s.psd.ms = false) : Effect s { s with map := m }
  | setAcc (m : Vector (BitVec 2) 256) (h : s.psd.ms = false) : Effect s { s with acc := m }
  | setLocks (m : Vector (BitVec 2) 256) (h : s.psd.ms = false) : Effect s { s with locks := m }
  | callHost (c : HostCall) (h : s.psd.ms = false) : Effect s (s.callHost c)
  | wait (h : s.psd.ms = false) : Effect s { s with waiting := true }
  | control (ic : IntCtl) (h : s.psd.ms = false) (hc : ControlOp s.ic ic) : Effect s (s.setIc ic)
  | post (L : Fin 32) (h : s.psd.ms = false) : Effect s (s.post L 0 .cpu none none)
  /-- between the CPU's accesses: one access of another agent, or the next batch taken up -/
  | agent (a : AgentAccess) : Effect s (s.agentAccess a)
  | between (b : List (List AgentAccess)) : Effect s { s with between := b }

/-- A sequence of effects. -/
inductive Reaches (s : State) : State → Prop
  | refl : Reaches s s
  | tail {t u : State} (h : Reaches s t) (e : Effect t u) : Reaches s u

theorem Reaches.trans {s t u : State} (h : Reaches s t) (g : Reaches t u) : Reaches s u := by
  induction g with
  | refl => exact h
  | tail _ e ih => exact ih.tail e

/-- A relation that holds of no effects and absorbs every effect holds of every sequence. -/
theorem Reaches.rec' {R : State → Prop} {s t : State} (h : Reaches s t) (h0 : R s)
    (hs : ∀ u v, R u → Effect u v → R v) : R t := by
  induction h with
  | refl => exact h0
  | tail _ e ih => exact hs _ _ ih e

section
variable {s t : State} (h : Reaches s t)
include h

theorem Reaches.setReg {i : RegNum} {v : Word} : Reaches s (t.setReg i v) := h.tail (.setReg i v)
theorem Reaches.setCC {c : BitVec 4} : Reaches s (t.setCC c) := h.tail (.setCC c)
theorem Reaches.setPc {a : WordAddr} : Reaches s (t.setPc a) := h.tail (.setPc a)
theorem Reaches.raise {x : Trap} : Reaches s (t.raise x) := h.tail (.raise x)
theorem Reaches.draw {n : Nat} : Reaches s { t with freeCount := n } := h.tail (.draw n)
theorem Reaches.setPair {r : RegNum} {d : Double} : Reaches s (t.setPair r d) := h.setReg.setReg
theorem Reaches.overflowTrap {ov : Bool} : Reaches s (t.overflowTrap ov) := by
  unfold State.overflowTrap
  split
  · exact h.raise
  · exact h

end

theorem Reaches.ite {s a b : State} {c : Prop} [Decidable c] (ha : Reaches s a) (hb : Reaches s b) :
    Reaches s (if c then a else b) := by split <;> assumption

theorem Reaches.others {s t : State} (h : Reaches s t) : Reaches s t.others :=
  State.others_keeps (P := Reaches s) (fun _ a g => g.tail (.agent a)) (fun _ b g => g.tail (.between b)) h
theorem Reaches.settle {s t : State} (h : Reaches s t) : Reaches s t.settle :=
  State.settle_keeps (P := Reaches s) (fun _ a g => g.tail (.agent a)) (fun _ b g => g.tail (.between b)) h

/-! ### Accesses

An access reaches its state by effects that leave the PSD alone. -/

/-- Reached by effects, with the PSD as it was. -/
def Quiet (s t : State) : Prop := Reaches s t ∧ t.psd = s.psd

/-- Whatever the access answers, the state it leaves has the property. -/
def Res.Ends {α : Type} (P : State → Prop) : Res α → Prop
  | .ok _ t => P t
  | .trap _ t => P t

theorem Res.Ends.andThen {α β : Type} {P : State → Prop} {x : Res α} {k : α → State → Res β} (hx : x.Ends P)
    (hk : ∀ v t, P t → (k v t).Ends P) : (x.andThen k).Ends P := by
  cases x with
  | ok v t => exact hk v t hx
  | trap e t => exact hx

theorem Res.Ends.of_ok {α : Type} {P : State → Prop} {x : Res α} {v : α} {t : State} (hx : x.Ends P)
    (h : x = .ok v t) : P t := by
  rw [h] at hx; exact hx

theorem Quiet.refl {s : State} : Quiet s s := ⟨.refl, rfl⟩
theorem Quiet.others {s t : State} (h : Quiet s t) : Quiet s t.others := ⟨h.1.others, by rw [State.others_psd]; exact h.2⟩
theorem Quiet.setReg {s t : State} (h : Quiet s t) {i : RegNum} {v : Word} : Quiet s (t.setReg i v) := ⟨h.1.setReg, h.2⟩
theorem Quiet.draw {s t : State} (h : Quiet s t) {n : Nat} : Quiet s { t with freeCount := n } := ⟨h.1.draw, h.2⟩
theorem Quiet.ite {s t u : State} {c : Prop} [Decidable c] (h : Quiet s t) (g : Quiet s u) :
    Quiet s (if c then t else u) := by split <;> assumption

section
variable {s t : State} (h : Quiet s t)
include h

theorem quiet_access {α : Type} {vw : WordAddr} {m : Access} {k : State → Place → Res α}
    (hk : ∀ p u, Quiet s u → u.resolve vw m = .ok p → (k u p).Ends (Quiet s)) : (t.access vw m k).Ends (Quiet s) := by
  unfold State.access
  cases hp : t.others.resolve vw m with
  | ok p => exact hk p _ h.others hp
  | error e => exact h.others

theorem quiet_readByte {a : ByteAddr} {m : Access} : (t.readByte a m).Ends (Quiet s) := quiet_access h fun _ _ g _ => g
theorem quiet_readHalf {a : HalfAddr} {m : Access} : (t.readHalf a m).Ends (Quiet s) := quiet_access h fun _ _ g _ => g
theorem quiet_readWord {a : WordAddr} {m : Access} : (t.readWord a m).Ends (Quiet s) := quiet_access h fun _ _ g _ => g
theorem quiet_readDouble {a : DoubleAddr} {m : Access} : (t.readDouble a m).Ends (Quiet s) := quiet_access h fun _ _ g _ => g
theorem quiet_writeByte {a : ByteAddr} {v : Byte} : (t.writeByte a v).Ends (Quiet s) :=
  quiet_access h fun p u g hp => ⟨g.1.tail (.storeByte _ _ hp), (u.storeByte_psd p _ v).trans g.2⟩
theorem quiet_writeHalf {a : HalfAddr} {v : Half} : (t.writeHalf a v).Ends (Quiet s) :=
  quiet_access h fun p u g hp => ⟨g.1.tail (.storeHalf _ _ hp), (u.storeHalf_psd p _ v).trans g.2⟩
theorem quiet_writeWord {a : WordAddr} {v : Word} : (t.writeWord a v).Ends (Quiet s) :=
  quiet_access h fun p u g hp => ⟨g.1.tail (.storeWord _ hp), (u.storeWord_psd p v).trans g.2⟩
theorem quiet_writeDouble {a : DoubleAddr} {v : Double} : (t.writeDouble a v).Ends (Quiet s) :=
  quiet_access h fun p u g hp => ⟨g.1.tail (.storeDouble _ hp), (u.storeDouble_psd p v).trans g.2⟩
theorem quiet_modifyByte {a : ByteAddr} {v : Byte} : (t.modifyByte a v).Ends (Quiet s) :=
  quiet_access h fun p u g hp => ⟨g.1.tail (.storeByte _ _ hp), (u.storeByte_psd p _ _).trans g.2⟩
theorem quiet_modifyHalf {a : HalfAddr} {v : Half} : (t.modifyHalf a v).Ends (Quiet s) :=
  quiet_access h fun p u g hp => ⟨g.1.tail (.storeHalf _ _ hp), (u.storeHalf_psd p _ _).trans g.2⟩
theorem quiet_modifyWord {a : WordAddr} {v : Word} : (t.modifyWord a v).Ends (Quiet s) :=
  quiet_access h fun p u g hp => ⟨g.1.tail (.storeWord _ hp), (u.storeWord_psd p _).trans g.2⟩
theorem quiet_exchangeWord {a : WordAddr} {v : Word} : (t.exchangeWord a v).Ends (Quiet s) :=
  quiet_access h fun p u g hp => ⟨g.1.tail (.storeWord _ hp), (u.storeWord_psd p v).trans g.2⟩
theorem quiet_refOf {a : AddrField} : (t.refOf a).Ends (Quiet s) := by
  unfold State.refOf
  split
  · exact (quiet_readWord h).andThen fun _ _ g => g
  · exact h
theorem quiet_effWord {a : AddrField} : (t.effWord a).Ends (Quiet s) := (quiet_refOf h).andThen fun _ _ g => g
theorem quiet_effHalf {a : AddrField} : (t.effHalf a).Ends (Quiet s) := (quiet_refOf h).andThen fun _ _ g => g
theorem quiet_effByte {a : AddrField} : (t.effByte a).Ends (Quiet s) := (quiet_refOf h).andThen fun _ _ g => g
theorem quiet_effDouble {a : AddrField} : (t.effDouble a).Ends (Quiet s) := (quiet_refOf h).andThen fun _ _ g => g

end

/-! ### Instructions that read an operand and end -/

theorem reach_orTrap {α : Type} {s : State} {x : Res α} {k : α → State → Out} (hx : x.Ends (Quiet s))
    (hk : ∀ v t, Quiet s t → Answers (Reaches s) (k v t)) : Answers (Reaches s) (orTrap x k) := by
  cases x with
  | ok v t => exact hk v t hx
  | trap e t => exact hx.1.raise
theorem reach_orRaise {s t : State} (h : Quiet s t) {x : Option Trap} {k : Out} (hk : Answers (Reaches s) k) :
    Answers (Reaches s) (orRaise t x k) :=
  .orRaise (fun _ _ => h.1.raise) fun _ => hk
theorem reach_word {s : State} {a : AddrField} {k : Word → State → Out}
    (hk : ∀ w t, Quiet s t → Answers (Reaches s) (k w t)) : Answers (Reaches s) (withWord s a k) :=
  reach_orTrap (quiet_effWord .refl) fun _ _ h => reach_orTrap (quiet_readWord h) hk
theorem reach_half {s : State} {a : AddrField} {k : Half → State → Out}
    (hk : ∀ w t, Quiet s t → Answers (Reaches s) (k w t)) : Answers (Reaches s) (withHalf s a k) :=
  reach_orTrap (quiet_effHalf .refl) fun _ _ h => reach_orTrap (quiet_readHalf h) hk
theorem reach_byte {s : State} {a : AddrField} {k : Byte → State → Out}
    (hk : ∀ w t, Quiet s t → Answers (Reaches s) (k w t)) : Answers (Reaches s) (withByte s a k) :=
  reach_orTrap (quiet_effByte .refl) fun _ _ h => reach_orTrap (quiet_readByte h) hk
theorem reach_double {s : State} {a : AddrField} {k : Double → State → Out}
    (hk : ∀ w t, Quiet s t → Answers (Reaches s) (k w t)) : Answers (Reaches s) (withDouble s a k) :=
  reach_orTrap (quiet_effDouble .refl) fun _ _ h => reach_orTrap (quiet_readDouble h) hk
/-- Reading the word address, and going on. -/
theorem reach_effWord {s : State} {a : AddrField} {k : WordAddr → State → Out}
    (hk : ∀ w t, Quiet s t → Answers (Reaches s) (k w t)) : Answers (Reaches s) (orTrap (s.effWord a) k) :=
  reach_orTrap (quiet_effWord .refl) hk
theorem reach_privileged {s : State} {k : Out} (h : s.psd.ms = false → Answers (Reaches s) k) :
    Answers (Reaches s) (privileged s k) :=
  .privileged (fun _ => Reaches.refl.raise) h

theorem Reaches.loadResult {s t : State} (h : Reaches s t) {r : RegNum} {v : Word} : Reaches s (t.loadResult r v) :=
  h.setReg.setCC
theorem Reaches.loadResultOv {s t : State} (h : Reaches s t) {r : RegNum} {v : Word} {ov : Bool} :
    Reaches s (t.loadResultOv r v ov) := Reaches.overflowTrap h.setReg.setCC
theorem Reaches.loadPairOv {s t : State} (h : Reaches s t) {r : RegNum} {v : Double} {ov : Bool} :
    Reaches s (t.loadPairOv r v ov) := Reaches.overflowTrap h.setPair.setCC
theorem Reaches.arithResult {s t : State} (h : Reaches s t) {r : RegNum} {x : Sum 32} :
    Reaches s (t.arithResult r x) := Reaches.overflowTrap h.setReg.setCC
theorem Reaches.arithPair {s t : State} (h : Reaches s t) {r : RegNum} {x : Sum 64} :
    Reaches s (t.arithPair r x) := Reaches.overflowTrap h.setPair.setCC
theorem Reaches.loadControls {s t : State} (h : Reaches s t) {r : RegNum} {b : Byte} :
    Reaches s (t.loadControls r b) :=
  (h.setCC (c := if r[1] then b.extractLsb' 4 4 else t.psd.cc)).tail
    (.floatModes (if r[0] then b[2] else t.psd.fs) (if r[0] then b[1] else t.psd.fz) (if r[0] then b[0] else t.psd.fn))
theorem Reaches.multiplyResult {s t : State} (h : Reaches s t) {r : RegNum} {p : Double} :
    Reaches s (t.multiplyResult r p) := by
  unfold State.multiplyResult
  exact Reaches.setCC (.ite h.setReg h.setPair)
theorem Reaches.divideOverflow {s t : State} (h : Reaches s t) : Reaches s t.divideOverflow :=
  Reaches.overflowTrap h.setCC
theorem Reaches.branchIf {s t : State} (h : Reaches s t) {b : Bool} {a : WordAddr} : Reaches s (t.branchIf b a) := by
  unfold State.branchIf
  exact (Reaches.ite h.setPc h).tail (.branch (some b))

/-! ## Load and store -/

theorem execLi_reaches (r : RegNum) (v : BitVec 20) (s : State) : Answers (Reaches s) (execLi r v s) :=
  Reaches.refl.loadResult
theorem execLb_reaches (r : RegNum) (a : AddrField) (s : State) : Answers (Reaches s) (execLb r a s) :=
  reach_byte fun _ _ h => h.1.loadResult
theorem execLh_reaches (r : RegNum) (a : AddrField) (s : State) : Answers (Reaches s) (execLh r a s) :=
  reach_half fun _ _ h => h.1.loadResult
theorem execLw_reaches (r : RegNum) (a : AddrField) (s : State) : Answers (Reaches s) (execLw r a s) :=
  reach_word fun _ _ h => h.1.loadResult
theorem execLd_reaches (r : RegNum) (a : AddrField) (s : State) : Answers (Reaches s) (execLd r a s) :=
  reach_double fun _ _ h => h.1.setPair.setCC
theorem execLch_reaches (r : RegNum) (a : AddrField) (s : State) : Answers (Reaches s) (execLch r a s) :=
  reach_half fun _ _ h => h.1.loadResult
theorem execLah_reaches (r : RegNum) (a : AddrField) (s : State) : Answers (Reaches s) (execLah r a s) :=
  reach_half fun _ _ h => h.1.loadResult
theorem execLcw_reaches (r : RegNum) (a : AddrField) (s : State) : Answers (Reaches s) (execLcw r a s) :=
  reach_word fun _ _ h => h.1.loadResultOv
theorem execLaw_reaches (r : RegNum) (a : AddrField) (s : State) : Answers (Reaches s) (execLaw r a s) :=
  reach_word fun _ _ h => h.1.loadResultOv
theorem execLcd_reaches (r : RegNum) (a : AddrField) (s : State) : Answers (Reaches s) (execLcd r a s) :=
  reach_double fun _ _ h => h.1.loadPairOv
theorem execLad_reaches (r : RegNum) (a : AddrField) (s : State) : Answers (Reaches s) (execLad r a s) :=
  reach_double fun _ _ h => h.1.loadPairOv
theorem execLs_reaches (r : RegNum) (a : AddrField) (s : State) : Answers (Reaches s) (execLs r a s) :=
  reach_word fun _ _ h => h.1.loadResult

theorem quiet_loadWords {s : State} (n : Nat) (r : RegNum) (ea : WordAddr) {t : State} (h : Quiet s t) :
    (loadWords n r ea t).Ends (Quiet s) := by
  induction n generalizing r ea t with
  | zero => exact h
  | succ n ih => exact (quiet_readWord h).andThen fun _ _ g => ih _ _ g.setReg
theorem quiet_unloadWords {s : State} (o : State) (keep : Nat → Bool) (r : RegNum) (n : Nat) {t : State} (h : Quiet s t) :
    Quiet s (o.unloadWords keep r n t) := by
  induction n generalizing t with
  | zero => exact h
  | succ n ih => exact ih (.ite h h.setReg)
theorem execLm_reaches (r : RegNum) (a : AddrField) (s : State) : Answers (Reaches s) (execLm r a s) := by
  refine reach_effWord fun ea t h => ?_
  have g := quiet_loadWords (ccCount t.psd.cc) r ea h
  revert g
  cases loadWords (ccCount t.psd.cc) r ea t with
  | ok v u => exact fun g => g.1
  | trap x u => exact fun g => (quiet_unloadWords t _ r _ g.draw).1.raise

theorem execLcf_reaches (r : RegNum) (a : AddrField) (s : State) : Answers (Reaches s) (execLcf r a s) :=
  reach_byte fun _ _ h => h.1.loadControls
theorem execLcfi_reaches (r : RegNum) (v : BitVec 20) (s : State) : Answers (Reaches s) (execLcfi r v s) :=
  Reaches.refl.loadControls
theorem execStb_reaches (r : RegNum) (a : AddrField) (s : State) : Answers (Reaches s) (execStb r a s) :=
  reach_orTrap (quiet_effByte .refl) fun _ _ h => reach_orTrap (quiet_writeByte h) fun _ _ g => g.1
theorem execSth_reaches (r : RegNum) (a : AddrField) (s : State) : Answers (Reaches s) (execSth r a s) :=
  reach_orTrap (quiet_effHalf .refl) fun _ _ h => reach_orTrap (quiet_writeHalf h) fun _ _ g =>
    Reaches.ite g.1.setCC g.1
theorem execStw_reaches (r : RegNum) (a : AddrField) (s : State) : Answers (Reaches s) (execStw r a s) :=
  reach_effWord fun _ _ h => reach_orTrap (quiet_writeWord h) fun _ _ g => g.1
theorem execStd_reaches (r : RegNum) (a : AddrField) (s : State) : Answers (Reaches s) (execStd r a s) :=
  reach_orTrap (quiet_effDouble .refl) fun _ _ h => reach_orTrap (quiet_writeDouble h) fun _ _ g => g.1
theorem execSts_reaches (r : RegNum) (a : AddrField) (s : State) : Answers (Reaches s) (execSts r a s) :=
  reach_effWord fun _ _ h => reach_orTrap (quiet_readWord h) fun _ _ g => reach_orTrap (quiet_writeWord g) fun _ _ f => f.1
theorem quiet_storeWords {s : State} (keep : Nat → Bool) (n k : Nat) (r : RegNum) (ea : WordAddr) (all : State) {t : State}
    (h : Quiet s t) : (storeWords keep n k r ea all t).Ends (Quiet s) := by
  induction n generalizing k r ea all t with
  | zero => exact h
  | succ n ih =>
    refine (quiet_access h fun p u g hp => ?_).andThen fun _ _ g => ih _ _ _ _ g
    exact .ite ⟨g.1.tail (.storeWord _ hp), (u.storeWord_psd p _).trans g.2⟩ g
theorem execStm_reaches (r : RegNum) (a : AddrField) (s : State) : Answers (Reaches s) (execStm r a s) :=
  reach_effWord fun _ _ h => .ite (reach_orTrap (quiet_storeWords _ _ _ _ _ _ h) fun _ _ g => g.1)
    (reach_orTrap (quiet_storeWords _ _ _ _ _ _ h.draw) fun _ _ g => g.1)
theorem execStcf_reaches (r : RegNum) (a : AddrField) (s : State) : Answers (Reaches s) (execStcf r a s) :=
  reach_orTrap (quiet_effByte .refl) fun _ _ h => reach_orTrap (quiet_writeByte h) fun _ _ g => g.1
theorem execXw_reaches (r : RegNum) (a : AddrField) (s : State) : Answers (Reaches s) (execXw r a s) :=
  reach_effWord fun _ _ h => reach_orTrap (quiet_exchangeWord h) fun _ _ g => g.1.loadResult

/-! ## Fixed-point arithmetic -/

theorem execAi_reaches (r : RegNum) (v : BitVec 20) (s : State) : Answers (Reaches s) (execAi r v s) :=
  Reaches.refl.arithResult
theorem execAh_reaches (r : RegNum) (a : AddrField) (s : State) : Answers (Reaches s) (execAh r a s) :=
  reach_half fun _ _ h => h.1.arithResult
theorem execAw_reaches (r : RegNum) (a : AddrField) (s : State) : Answers (Reaches s) (execAw r a s) :=
  reach_word fun _ _ h => h.1.arithResult
theorem execAd_reaches (r : RegNum) (a : AddrField) (s : State) : Answers (Reaches s) (execAd r a s) :=
  reach_double fun _ _ h => h.1.arithPair
theorem execSh_reaches (r : RegNum) (a : AddrField) (s : State) : Answers (Reaches s) (execSh r a s) :=
  reach_half fun _ _ h => h.1.arithResult
theorem execSw_reaches (r : RegNum) (a : AddrField) (s : State) : Answers (Reaches s) (execSw r a s) :=
  reach_word fun _ _ h => h.1.arithResult
theorem execSd_reaches (r : RegNum) (a : AddrField) (s : State) : Answers (Reaches s) (execSd r a s) :=
  reach_double fun _ _ h => h.1.arithPair
theorem execAwm_reaches (r : RegNum) (a : AddrField) (s : State) : Answers (Reaches s) (execAwm r a s) :=
  reach_effWord fun _ _ h => reach_orTrap (quiet_modifyWord h) fun _ _ g => Reaches.overflowTrap g.1.setCC
theorem execMtb_reaches (r : RegNum) (a : AddrField) (s : State) : Answers (Reaches s) (execMtb r a s) :=
  reach_orTrap (quiet_effByte .refl) fun _ _ h =>
    .ite (reach_orTrap (quiet_readByte h) fun _ _ g => g.1.setCC) (reach_orTrap (quiet_modifyByte h) fun _ _ g => g.1.setCC)
theorem execMth_reaches (r : RegNum) (a : AddrField) (s : State) : Answers (Reaches s) (execMth r a s) :=
  reach_orTrap (quiet_effHalf .refl) fun _ _ h => .ite (reach_orTrap (quiet_readHalf h) fun _ _ g => g.1.setCC)
    (reach_orTrap (quiet_modifyHalf h) fun _ _ g => Reaches.overflowTrap g.1.setCC)
theorem execMtw_reaches (r : RegNum) (a : AddrField) (s : State) : Answers (Reaches s) (execMtw r a s) :=
  reach_effWord fun _ _ h => .ite (reach_orTrap (quiet_readWord h) fun _ _ g => g.1.setCC)
    (reach_orTrap (quiet_modifyWord h) fun _ _ g => Reaches.overflowTrap g.1.setCC)
theorem execMi_reaches (r : RegNum) (v : BitVec 20) (s : State) : Answers (Reaches s) (execMi r v s) :=
  Reaches.refl.multiplyResult
theorem execMh_reaches (r : RegNum) (a : AddrField) (s : State) : Answers (Reaches s) (execMh r a s) :=
  reach_half fun _ _ h => h.1.setReg.setCC
theorem execMw_reaches (r : RegNum) (a : AddrField) (s : State) : Answers (Reaches s) (execMw r a s) :=
  reach_word fun _ _ h => h.1.multiplyResult
theorem execDh_reaches (r : RegNum) (a : AddrField) (s : State) : Answers (Reaches s) (execDh r a s) :=
  reach_half fun _ _ h => .ite h.1.divideOverflow h.1.setReg.setCC
theorem execDw_reaches (r : RegNum) (a : AddrField) (s : State) : Answers (Reaches s) (execDw r a s) :=
  reach_word fun _ _ h => .ite h.1.divideOverflow (Reaches.setCC (.ite h.1.setReg h.1.setReg.setReg))
theorem execCi_reaches (r : RegNum) (v : BitVec 20) (s : State) : Answers (Reaches s) (execCi r v s) :=
  Reaches.refl.setCC
theorem execCb_reaches (r : RegNum) (a : AddrField) (s : State) : Answers (Reaches s) (execCb r a s) :=
  reach_byte fun _ _ h => h.1.setCC
theorem execCh_reaches (r : RegNum) (a : AddrField) (s : State) : Answers (Reaches s) (execCh r a s) :=
  reach_half fun _ _ h => h.1.setCC
theorem execCw_reaches (r : RegNum) (a : AddrField) (s : State) : Answers (Reaches s) (execCw r a s) :=
  reach_word fun _ _ h => h.1.setCC
theorem execCd_reaches (r : RegNum) (a : AddrField) (s : State) : Answers (Reaches s) (execCd r a s) :=
  reach_double fun _ _ h => h.1.setCC
theorem execCs_reaches (r : RegNum) (a : AddrField) (s : State) : Answers (Reaches s) (execCs r a s) :=
  reach_word fun _ _ h => h.1.setCC
theorem execClr_reaches (r : RegNum) (a : AddrField) (s : State) : Answers (Reaches s) (execClr r a s) :=
  reach_word fun _ _ h => h.1.setCC
theorem execClm_reaches (r : RegNum) (a : AddrField) (s : State) : Answers (Reaches s) (execClm r a s) :=
  reach_double fun _ _ h => h.1.setCC
theorem quiet_convertAdd {s : State} (v : Word) (n : Nat) (ea : WordAddr) (sum : Word) (c : Bool) {t : State}
    (h : Quiet s t) : (convertAdd v n ea sum c t).Ends (Quiet s) := by
  induction n generalizing ea sum c t with
  | zero => exact h
  | succ n ih =>
    rw [convertAdd]
    split
    · exact (quiet_readWord h).andThen fun _ _ g => ih _ _ _ g
    · exact ih _ _ _ h
theorem quiet_convertSub {s : State} (n : Nat) (ea : WordAddr) (rem res : Word) {t : State} (h : Quiet s t) :
    (convertSub n ea rem res t).Ends (Quiet s) := by
  induction n generalizing ea rem res t with
  | zero => exact h
  | succ n ih =>
    refine (quiet_readWord h).andThen fun _ _ g => ?_
    split
    · exact ih _ _ _ g
    · exact ih _ _ _ g
theorem execCva_reaches (r : RegNum) (a : AddrField) (s : State) : Answers (Reaches s) (execCva r a s) :=
  reach_effWord fun _ _ h => reach_orTrap (quiet_convertAdd _ _ _ _ _ h) fun _ _ g => g.1.setReg.setCC
theorem execCvs_reaches (r : RegNum) (a : AddrField) (s : State) : Answers (Reaches s) (execCvs r a s) :=
  reach_effWord fun _ _ h => reach_orTrap (quiet_convertSub _ _ _ _ h) fun _ _ g => g.1.setReg.setReg.setCC

/-! ## Logical, shift, branch -/

theorem execAnd_reaches (r : RegNum) (a : AddrField) (s : State) : Answers (Reaches s) (execAnd r a s) :=
  reach_word fun _ _ h => h.1.loadResult
theorem execOr_reaches (r : RegNum) (a : AddrField) (s : State) : Answers (Reaches s) (execOr r a s) :=
  reach_word fun _ _ h => h.1.loadResult
theorem execEor_reaches (r : RegNum) (a : AddrField) (s : State) : Answers (Reaches s) (execEor r a s) :=
  reach_word fun _ _ h => h.1.loadResult
theorem execS_reaches (r : RegNum) (a : AddrField) (s : State) : Answers (Reaches s) (execS r a s) :=
  reach_effWord fun _ _ h => .ite h.1.raise (.ite h.1.draw.setReg.setCC h.1.draw.setPair.setCC)
theorem execBcr_reaches (r : RegNum) (a : AddrField) (s : State) : Answers (Reaches s) (execBcr r a s) :=
  reach_effWord fun _ _ h => h.1.branchIf
theorem execBcs_reaches (r : RegNum) (a : AddrField) (s : State) : Answers (Reaches s) (execBcs r a s) :=
  reach_effWord fun _ _ h => h.1.branchIf
theorem execBal_reaches (r : RegNum) (a : AddrField) (s : State) : Answers (Reaches s) (execBal r a s) :=
  reach_effWord fun _ _ h => h.1.setReg.branchIf
theorem execBdr_reaches (r : RegNum) (a : AddrField) (s : State) : Answers (Reaches s) (execBdr r a s) :=
  reach_effWord fun _ _ h => h.1.setReg.branchIf
theorem execBir_reaches (r : RegNum) (a : AddrField) (s : State) : Answers (Reaches s) (execBir r a s) :=
  reach_effWord fun _ _ h => h.1.setReg.branchIf

/-! ## Stack -/

theorem reach_stackLimit {s t : State} (h : Quiet s t) {p : StackPointer} {n : Int} {x : Option Trap} {k : Out}
    (hk : Answers (Reaches s) k) : Answers (Reaches s) (stackLimit t p n x k) :=
  .ite (.ite h.1.setCC (reach_orRaise h h.1.raise)) (.ite (.ite h.1.setCC (reach_orRaise h h.1.raise))
    (reach_orRaise h hk))
theorem quiet_pushWords {s : State} (n : Nat) (r : RegNum) (top : WordAddr) {t : State} (h : Quiet s t) :
    (pushWords n r top t).Ends (Quiet s) := by
  induction n generalizing r top t with
  | zero => exact h
  | succ n ih => exact (quiet_writeWord h).andThen fun _ _ g => ih _ _ g
theorem reach_movePointer {s t : State} (h : Quiet s t) {ea : DoubleAddr} {p : StackPointer} {n : Int}
    {k : State → State} (hk : ∀ u, Reaches s u → Reaches s (k u)) : Answers (Reaches s) (movePointer t ea p n k) :=
  reach_orTrap (quiet_writeDouble h) fun _ _ g => (hk _ g.1).setCC
theorem reach_pushStack {s t : State} (h : Quiet s t) (ea : DoubleAddr) (r : RegNum) (n : Nat) :
    Answers (Reaches s) (pushStack t ea r n) :=
  reach_orTrap (quiet_readDouble h) fun _ _ g => reach_stackLimit g
    (reach_orTrap (quiet_pushWords _ _ _ g) fun _ _ f => reach_movePointer f fun _ x => x)

theorem execPsw_reaches (r : RegNum) (a : AddrField) (s : State) : Answers (Reaches s) (execPsw r a s) :=
  reach_orTrap (quiet_effDouble .refl) fun _ _ h => reach_pushStack h ..
theorem execPsm_reaches (r : RegNum) (a : AddrField) (s : State) : Answers (Reaches s) (execPsm r a s) :=
  reach_orTrap (quiet_effDouble .refl) fun _ _ h => reach_pushStack h ..
theorem execPlw_reaches (r : RegNum) (a : AddrField) (s : State) : Answers (Reaches s) (execPlw r a s) :=
  reach_orTrap (quiet_effDouble .refl) fun _ _ h => reach_orTrap (quiet_readDouble h) fun _ _ h =>
    reach_stackLimit h (reach_orTrap (quiet_readWord h) fun _ _ g => reach_movePointer g fun _ x => x.setReg)
theorem execPlm_reaches (r : RegNum) (a : AddrField) (s : State) : Answers (Reaches s) (execPlm r a s) :=
  reach_orTrap (quiet_effDouble .refl) fun _ _ h => reach_orTrap (quiet_readDouble h) fun _ _ h =>
    reach_stackLimit h (reach_orTrap (quiet_loadWords _ _ _ h) fun _ _ g => reach_movePointer g fun _ x => x)
theorem execMsp_reaches (r : RegNum) (a : AddrField) (s : State) : Answers (Reaches s) (execMsp r a s) :=
  reach_orTrap (quiet_effDouble .refl) fun _ _ h => reach_orTrap (quiet_readDouble h) fun _ _ h =>
    Answers.ite (show Answers (Reaches s) (.next _) from h.1.setCC)
      (reach_stackLimit h (reach_movePointer h fun _ x => x))

/-! ## Floating point -/

theorem Reaches.floatFault {s t : State} (h : Reaches s t) : Reaches s t.floatFault := h.draw.setCC.raise
theorem Reaches.applyShort {s t : State} (h : Reaches s t) (r : RegNum) (x : FloatResult 32) :
    Reaches s (t.applyShort r x) := by
  cases x with
  | ok w => exact h.setReg.setCC
  | sig w => exact h.setReg.setCC.raise
  | overflow => exact h.floatFault
  | underflow => exact h.floatFault
  | divzero => exact h.floatFault
theorem Reaches.applyLong {s t : State} (h : Reaches s t) (r : RegNum) (x : FloatResult 64) :
    Reaches s (t.applyLong r x) := by
  cases x with
  | ok w => exact h.setPair.setCC
  | sig w => exact h.setPair.setCC.raise
  | overflow => exact h.floatFault
  | underflow => exact h.floatFault
  | divzero => exact h.floatFault
theorem floatShort_reaches (op : FloatOp) (r : RegNum) (a : AddrField) (s : State) :
    Answers (Reaches s) (floatShort op r a s) :=
  .needsFloat Reaches.refl.raise (reach_word fun _ _ h => h.1.applyShort _ _)
theorem floatLong_reaches (op : FloatOp) (r : RegNum) (a : AddrField) (s : State) :
    Answers (Reaches s) (floatLong op r a s) :=
  .needsFloat Reaches.refl.raise (reach_double fun _ _ h => h.1.applyLong _ _)
theorem execSf_reaches (r : RegNum) (a : AddrField) (s : State) : Answers (Reaches s) (execSf r a s) := by
  refine .needsFloat Reaches.refl.raise (reach_effWord fun _ _ h => ?_)
  split
  · split
    · exact h.1.setPair.setCC
    · exact h.1.draw.setCC
  · split
    · exact h.1.setReg.setCC
    · exact h.1.draw.setCC

/-! ## Byte strings and decimal -/

theorem Quiet.putSource {s t : State} (h : Quiet s t) {r : RegNum} {a : ByteAddr} : Quiet s (t.putSource r a) :=
  .ite h h.setReg
theorem Quiet.putDest {s t : State} (h : Quiet s t) {r : RegNum} {n : Nat} {a : ByteAddr} :
    Quiet s (t.putDest r n a) := h.setReg
theorem Reaches.testStop {s t : State} (h : Reaches s t) {r : RegNum} {m : Byte} : Reaches s (t.testStop r m) :=
  Reaches.setCC (.ite h h.setReg)

theorem moveBytes_reaches (r : RegNum) (disp : ByteAddr) (n : Nat) (src dst : ByteAddr) {s t : State}
    (h : Quiet s t) : Answers (Reaches s) (moveBytes r disp n src dst t) := by
  induction n generalizing src dst t with
  | zero => exact h.1
  | succ n ih =>
    exact reach_orTrap (quiet_readByte h) fun _ _ g => reach_orTrap (quiet_writeByte g) fun _ _ f =>
      ih _ _ f.putSource.putDest
theorem compareBytes_reaches (r : RegNum) (disp : ByteAddr) (n : Nat) (src dst : ByteAddr) {s t : State}
    (h : Quiet s t) : Answers (Reaches s) (compareBytes r disp n src dst t) := by
  induction n generalizing src dst t with
  | zero => exact h.1.setCC
  | succ n ih =>
    exact reach_orTrap (quiet_readByte h) fun _ _ g => reach_orTrap (quiet_readByte g) fun _ _ f =>
      .ite (ih _ _ f.putSource.putDest) f.1.setCC
theorem translateBytes_reaches (r : RegNum) (tb : ByteAddr) (n : Nat) (dst : ByteAddr) {s t : State}
    (h : Quiet s t) : Answers (Reaches s) (translateBytes r tb n dst t) := by
  induction n generalizing dst t with
  | zero => exact h.1
  | succ n ih =>
    exact reach_orTrap (quiet_readByte h) fun _ _ g => reach_orTrap (quiet_readByte g) fun _ _ f =>
      reach_orTrap (quiet_writeByte f) fun _ _ e => ih _ e.putDest
theorem testBytes_reaches (r : RegNum) (tb : ByteAddr) (m : Byte) (n : Nat) (dst : ByteAddr) {s t : State}
    (h : Quiet s t) : Answers (Reaches s) (testBytes r tb m n dst t) := by
  induction n generalizing dst t with
  | zero => exact h.1.setCC
  | succ n ih =>
    exact reach_orTrap (quiet_readByte h) fun _ _ g => reach_orTrap (quiet_readByte g) fun _ _ f =>
      .ite (ih _ f.putDest) f.1.testStop

theorem execMbs_reaches (r : RegNum) (v : BitVec 20) (s : State) : Answers (Reaches s) (execMbs r v s) :=
  moveBytes_reaches _ _ _ _ _ .refl
theorem execCbs_reaches (r : RegNum) (v : BitVec 20) (s : State) : Answers (Reaches s) (execCbs r v s) :=
  compareBytes_reaches _ _ _ _ _ .refl
theorem execTbs_reaches (r : RegNum) (v : BitVec 20) (s : State) : Answers (Reaches s) (execTbs r v s) :=
  translateBytes_reaches _ _ _ _ .refl
theorem execTtbs_reaches (r : RegNum) (v : BitVec 20) (s : State) : Answers (Reaches s) (execTtbs r v s) :=
  testBytes_reaches _ _ _ _ _ .refl

theorem Reaches.decimalFault {s t : State} (h : Reaches s t) (f : DecimalFault) : Reaches s (t.decimalFault f) := by
  unfold State.decimalFault
  refine .ite h.raise ?_
  cases f with
  | illegalDigit => exact h.setCC
  | overflow => exact h.setCC
  | lengthOrDivide => exact .ite h.draw.setCC h.draw.setCC
theorem Reaches.setDecAcc {s t : State} (h : Reaches s t) {v : BitVec 128} : Reaches s (t.setDecAcc v) :=
  h.setReg.setReg.setReg.setReg
theorem Reaches.decimalResult {s t : State} (h : Reaches s t) {v : Int} : Reaches s (t.decimalResult v) := by
  unfold State.decimalResult
  exact .ite (h.decimalFault _) h.setDecAcc.setCC
theorem reach_endDecimal {s t : State} (h : Quiet s t) {x : Option Trap} {f : DecimalFault} :
    Answers (Reaches s) (endDecimal t x f) :=
  .ite (reach_orRaise h (h.1.decimalFault f)) (h.1.decimalFault f)
theorem reach_orIllegal {s t : State} (h : Quiet s t) {x : Option Trap} {v : Option Int} {k : Int → Out}
    (hk : ∀ n, Answers (Reaches s) (k n)) : Answers (Reaches s) (orIllegal t x v k) := by
  cases v with
  | none => exact reach_endDecimal h
  | some n => exact hk n
theorem quiet_readField {s : State} (n : Nat) (a : ByteAddr) {t : State} (h : Quiet s t) :
    (readField n a t).Ends (Quiet s) := by
  induction n generalizing a t with
  | zero => exact h
  | succ n ih => exact (quiet_readByte h).andThen fun _ _ g => (ih _ g).andThen fun _ _ f => f
theorem quiet_writeBytes {s : State} (bs : List Byte) (a : ByteAddr) {t : State} (h : Quiet s t) :
    (writeBytes bs a t).Ends (Quiet s) := by
  induction bs generalizing a t with
  | nil => exact h
  | cons b bs ih => exact (quiet_writeByte h).andThen fun _ _ g => ih _ g
theorem reach_writeField {s t : State} (h : Quiet s t) {x : Option Trap} {bs : List Byte} {a : ByteAddr} :
    Answers (Reaches s) (writeField t x bs a) :=
  reach_orRaise h (reach_orTrap (quiet_writeBytes _ _ h) fun _ _ g => g.1)
theorem reach_field {s : State} {a : AddrField} {n : Nat} {k : ByteAddr → List Byte → State → Out}
    (hk : ∀ ea bs t, Quiet s t → Answers (Reaches s) (k ea bs t)) : Answers (Reaches s) (withField s a n k) :=
  reach_orTrap (quiet_effByte .refl) fun _ _ h => reach_orTrap (quiet_readField _ _ h) (hk _)
theorem reach_decimals {r : RegNum} {a : AddrField} {s : State} {k : Int → Int → State → Out}
    (hk : ∀ x y t, Quiet s t → Answers (Reaches s) (k x y t)) : Answers (Reaches s) (withDecimals r a s k) :=
  reach_field fun _ _ _ h => reach_orIllegal h fun _ => reach_orIllegal h fun _ => hk _ _ _ h

theorem execDl_reaches (r : RegNum) (a : AddrField) (s : State) : Answers (Reaches s) (execDl r a s) :=
  .needsDecimal Reaches.refl.raise (reach_field fun _ _ _ h => reach_orIllegal h fun _ => h.1.setDecAcc.setCC)
theorem execDst_reaches (r : RegNum) (a : AddrField) (s : State) : Answers (Reaches s) (execDst r a s) :=
  .needsDecimal Reaches.refl.raise (reach_orTrap (quiet_effByte .refl) fun _ _ h =>
    reach_orIllegal h fun _ => .ite (reach_endDecimal h) (reach_writeField h))
theorem execDa_reaches (r : RegNum) (a : AddrField) (s : State) : Answers (Reaches s) (execDa r a s) :=
  .needsDecimal Reaches.refl.raise (reach_decimals fun _ _ _ h => h.1.decimalResult)
theorem execDs_reaches (r : RegNum) (a : AddrField) (s : State) : Answers (Reaches s) (execDs r a s) :=
  .needsDecimal Reaches.refl.raise (reach_decimals fun _ _ _ h => h.1.decimalResult)
theorem execDm_reaches (r : RegNum) (a : AddrField) (s : State) : Answers (Reaches s) (execDm r a s) :=
  .needsDecimal Reaches.refl.raise (reach_decimals fun _ _ _ h => .ite (h.1.decimalFault _) h.1.decimalResult)
theorem execDd_reaches (r : RegNum) (a : AddrField) (s : State) : Answers (Reaches s) (execDd r a s) :=
  .needsDecimal Reaches.refl.raise (reach_decimals fun _ _ _ h => .ite (h.1.decimalFault _) h.1.setDecAcc)
theorem execDc_reaches (r : RegNum) (a : AddrField) (s : State) : Answers (Reaches s) (execDc r a s) :=
  .needsDecimal Reaches.refl.raise (reach_decimals fun _ _ _ h => h.1.setCC)
theorem execDsa_reaches (r : RegNum) (a : AddrField) (s : State) : Answers (Reaches s) (execDsa r a s) :=
  .needsDecimal Reaches.refl.raise (reach_effWord fun _ _ h => reach_orIllegal h fun _ => h.1.setDecAcc.setCC)
theorem execPack_reaches (r : RegNum) (a : AddrField) (s : State) : Answers (Reaches s) (execPack r a s) :=
  .needsDecimal Reaches.refl.raise (reach_field fun _ _ _ h => reach_orIllegal h fun _ => reach_writeField h)
theorem execUnpk_reaches (r : RegNum) (a : AddrField) (s : State) : Answers (Reaches s) (execUnpk r a s) :=
  .needsDecimal Reaches.refl.raise (reach_field fun _ _ _ h => reach_orIllegal h fun _ => reach_writeField h)

theorem quiet_editPattern {s t : State} (h : Quiet s t) (e : Edit) (p : Byte) : (editPattern e p t).Ends (Quiet s) := by
  have hd : ∀ f : Edit, (editDigit f t).Ends (Quiet s) := fun f => by
    unfold editDigit
    split
    · exact h
    · refine (quiet_readByte h).andThen fun _ _ g => ?_
      split <;> exact g
  unfold editPattern
  dsimp only
  split
  · exact h
  · exact hd _
  · exact hd _
  · exact h
theorem quiet_editScan {s : State} (n : Nat) (dst : ByteAddr) (e : Edit) {t : State} (h : Quiet s t) :
    Quiet s (editScan n dst e t).2.2.2 := by
  induction n generalizing dst e t with
  | zero => exact h
  | succ n ih =>
    have hx : ((t.readByte dst .read).andThen fun p t => editPattern e p t).Ends (Quiet s) :=
      (quiet_readByte h).andThen fun _ _ g => quiet_editPattern g _ _
    rw [editScan]
    revert hx
    cases (t.readByte dst .read).andThen fun p t => editPattern e p t with
    | trap x u => exact fun hx => hx
    | ok o u =>
      cases o with
      | none => exact fun hx => hx
      | some f => exact fun hx => ih _ _ hx
theorem quiet_editWrite {s : State} (r : RegNum) (bs : List Byte) (n : Nat) (dst : ByteAddr) {t : State} (h : Quiet s t) :
    (editWrite r bs n dst t).Ends (Quiet s) := by
  induction bs generalizing n dst t with
  | nil => exact h
  | cons b bs ih => exact (quiet_writeByte h).andThen fun _ _ g => ih _ _ g.putDest
theorem execEbs_reaches (r : RegNum) (v : BitVec 20) (s : State) : Answers (Reaches s) (execEbs r v s) := by
  refine .needsDecimal Reaches.refl.raise ?_
  have h := quiet_editScan (s := s) (s.stringCount r) (s.stringDest r)
    (editStart (s.stringSource r + stringDisp v)) Quiet.refl
  revert h
  generalize editScan (s.stringCount r) (s.stringDest r) (editStart (s.stringSource r + stringDisp v)) s = x
  obtain ⟨bs, e, _ | _ | x, t⟩ := x
  · exact fun h => reach_orTrap (quiet_editWrite _ _ _ _ h) fun _ _ g => g.1.setCC
  · intro h
    dsimp only
    split
    · exact h.1.decimalFault _
    · exact reach_orTrap (quiet_editWrite _ _ _ _ h) fun _ _ g => g.1.raise
  · exact fun h => reach_orTrap (quiet_editWrite _ _ _ _ h) fun _ _ g => g.1.raise

/-! ## Control and input/output -/

theorem Quiet.master {s t : State} (h : Quiet s t) (hm : s.psd.ms = false) : t.psd.ms = false := by rw [h.2]; exact hm

theorem execLpsd_reaches (r : RegNum) (a : AddrField) (s : State) : Answers (Reaches s) (execLpsd r a s) := by
  refine reach_privileged fun hm => reach_double fun d t h => ?_
  have hm := h.master hm
  show Reaches s (State.loadPsd (if r[1] then t.setIc (t.ic.clearHighestActive r[0]) else t) _ _)
  split
  · have hc : Reaches s (t.setIc (t.ic.clearHighestActive r[0])) := by
      unfold IntCtl.clearHighestActive
      cases t.ic.highestActive with
      | none => exact h.1
      | some L =>
        have h1 : Reaches s (t.setIc (t.ic.deactivate L)) := h.1.tail (.control _ hm (.deactivate L))
        dsimp only
        split
        · exact h1.tail (.control _ hm (.arm L))
        · exact h1.tail (.control _ hm (.disarm L))
    exact hc.tail (.install _ hm)
  · exact h.1.tail (.install _ hm)
theorem execXpsd_reaches (r : RegNum) (a : AddrField) (s : State) : Answers (Reaches s) (execXpsd r a s) :=
  reach_privileged fun hm => reach_orTrap (quiet_effDouble .refl) fun _ _ h => reach_orRaise h
    (reach_orTrap (quiet_writeDouble h) fun _ _ g => reach_orTrap (quiet_readDouble g) fun _ _ f =>
      f.1.tail (.install _ (f.master hm)))
theorem execLrp_reaches (r : RegNum) (a : AddrField) (s : State) : Answers (Reaches s) (execLrp r a s) :=
  reach_privileged fun hm => reach_word fun _ _ h => h.1.tail (.install _ (h.master hm))
theorem execWait_reaches (r : RegNum) (a : AddrField) (s : State) : Answers (Reaches s) (execWait r a s) :=
  reach_privileged fun hm => .tail .refl (.wait hm)
theorem quiet_readImage {s : State} (n : Nat) (a : WordAddr) {t : State} (h : Quiet s t) :
    (readImage n a t).Ends (Quiet s) := by
  induction n generalizing a t with
  | zero => exact h
  | succ n ih => exact (quiet_readWord h).andThen fun _ _ g => (ih _ g).andThen fun _ _ f => f
theorem execMmc_reaches (r : RegNum) (f : BitVec 3) (z : BitVec 17) (s : State) :
    Answers (Reaches s) (execMmc r f z s) := by
  unfold execMmc
  split
  · refine reach_privileged fun hm => reach_orTrap (quiet_readImage _ _ .refl) fun img t h => ?_
    have hm := h.master hm
    have : Reaches s (t.applyImage f (t.mmcPage r) img) := by
      unfold State.applyImage
      repeat' apply Reaches.ite
      · exact h.1.tail (.setAcc _ hm)
      · exact h.1.tail (.setLocks _ hm)
      · exact h.1.tail (.setMap _ hm)
      · exact h.1.tail (.setMap _ hm)
    exact this.setReg.setReg
  · exact Reaches.refl.raise

theorem wdLevel_reaches {s t : State} (h : Reaches s t) (hm : t.psd.ms = false) (fn : BitVec 3) (sel : Bool)
    (L : Fin 32) : Reaches s (t.wdLevel fn sel L) ∧ (t.wdLevel fn sel L).psd = t.psd := by
  unfold State.wdLevel
  split
  · split
    · exact ⟨h.tail (.control _ hm (.disarm L)), rfl⟩
    · exact ⟨(h.tail (.control _ hm (.arm L))).tail (.control _ hm (.enable L)), rfl⟩
    · exact ⟨(h.tail (.control _ hm (.arm L))).tail (.control _ hm (.disable L)), rfl⟩
    · exact ⟨h.tail (.control _ hm (.enable L)), rfl⟩
    · exact ⟨h.tail (.control _ hm (.disable L)), rfl⟩
    · exact ⟨h.tail (.control _ hm (.enable L)), rfl⟩
    · refine ⟨h.tail (.post L hm), ?_⟩
      unfold State.post
      split <;> rfl
    · exact ⟨h, rfl⟩
  · split
    · exact ⟨h.tail (.control _ hm (.disable L)), rfl⟩
    · exact ⟨h, rfl⟩

theorem interruptControl_reaches {s t : State} (h : Reaches s t) (hm : t.psd.ms = false) (da : BitVec 16) (v : Word) :
    Reaches s (t.interruptControl da v) := by
  unfold State.interruptControl
  suffices ∀ (l : List (Fin 32)) (t : State), Reaches s t → t.psd.ms = false → Reaches s (l.foldl (fun t L =>
      t.wdLevel (da.extractLsb' 8 3) (wdSelects v (da.extractLsb' 0 4) L) L) t) from this _ t h hm
  intro l
  induction l with
  | nil => exact fun _ h _ => h
  | cons L l ih =>
    intro t h hm
    obtain ⟨h1, h2⟩ := wdLevel_reaches h hm (da.extractLsb' 8 3) (wdSelects v (da.extractLsb' 0 4) L) L
    exact ih _ h1 (by rw [h2]; exact hm)

theorem execRd_reaches (r : RegNum) (a : AddrField) (s : State) : Answers (Reaches s) (execRd r a s) := by
  refine reach_privileged fun hm => reach_effWord fun ea t h => ?_
  have h : Reaches s (t.callHost (.readDirect (ea.extractLsb' 0 16))) := h.1.tail (.callHost _ (h.master hm))
  exact Reaches.setCC (.ite h h.setReg)
theorem execWd_reaches (r : RegNum) (a : AddrField) (s : State) : Answers (Reaches s) (execWd r a s) :=
  reach_privileged fun hm => reach_effWord fun _ _ h => .ite (interruptControl_reaches h.1 (h.master hm) _ _)
    (Reaches.setCC (h.1.tail (.callHost _ (h.master hm))))
theorem execInt_reaches (r : RegNum) (a : AddrField) (s : State) : Answers (Reaches s) (execInt r a s) :=
  reach_word fun _ _ h => h.1.setReg.setReg.setCC
theorem quiet_analyzedAddress {s t : State} (h : Quiet s t) (c : AnalyzeClass) (a : AddrField) :
    (t.analyzedAddress c a).Ends (Quiet s) := by
  cases c with
  | byte => exact (quiet_effByte h).andThen fun _ _ g => g
  | noAddress => exact h
  | half => exact (quiet_effHalf h).andThen fun _ _ g => g
  | word => exact (quiet_effWord h).andThen fun _ _ g => g
  | double => exact (quiet_effDouble h).andThen fun _ _ g => g
theorem execAnlz_reaches (r : RegNum) (a : AddrField) (s : State) : Answers (Reaches s) (execAnlz r a s) := by
  refine reach_word fun _ _ h => reach_orTrap (quiet_analyzedAddress h _ _) fun x _ g => ?_
  cases x with
  | none => exact g.1.setCC
  | some v => exact g.1.setCC.setReg

theorem callBridge_reaches (op : IoOp) (r : RegNum) (a : AddrField) (s : State) :
    Answers (Reaches s) (callBridge op r a s) := by
  refine reach_privileged fun hm => reach_effWord fun unit t h => ?_
  have h : Reaches s (t.callHost (.bridge op unit (t.reg 0#4))) := h.1.tail (.callHost _ (h.master hm))
  exact Reaches.setCC (.ite h h.setReg.setReg)

/-! ## Every instruction -/

theorem execWith_reaches {exu : RegNum → AddrField → State → Out}
    (hx : ∀ r a s, Answers (Reaches s) (exu r a s)) (i : Instr) (s : State) :
    Answers (Reaches s) (execWith exu i s) :=
  match i with
  | .lcfi r v => execLcfi_reaches r v s
  | .cal1 _ _ => Reaches.refl.raise
  | .cal2 _ _ => Reaches.refl.raise
  | .cal3 _ _ => Reaches.refl.raise
  | .cal4 _ _ => Reaches.refl.raise
  | .plw r a => execPlw_reaches r a s
  | .psw r a => execPsw_reaches r a s
  | .plm r a => execPlm_reaches r a s
  | .psm r a => execPsm_reaches r a s
  | .lpsd r a => execLpsd_reaches r a s
  | .xpsd r a => execXpsd_reaches r a s
  | .ad r a => execAd_reaches r a s
  | .cd r a => execCd_reaches r a s
  | .ld r a => execLd_reaches r a s
  | .msp r a => execMsp_reaches r a s
  | .std r a => execStd_reaches r a s
  | .sd r a => execSd_reaches r a s
  | .clm r a => execClm_reaches r a s
  | .lcd r a => execLcd_reaches r a s
  | .lad r a => execLad_reaches r a s
  | .fsl r a => floatLong_reaches _ r a s
  | .fal r a => floatLong_reaches _ r a s
  | .fdl r a => floatLong_reaches _ r a s
  | .fml r a => floatLong_reaches _ r a s
  | .ai r v => execAi_reaches r v s
  | .ci r v => execCi_reaches r v s
  | .li r v => execLi_reaches r v s
  | .mi r v => execMi_reaches r v s
  | .sf r a => execSf_reaches r a s
  | .s r a => execS_reaches r a s
  | .cvs r a => execCvs_reaches r a s
  | .cva r a => execCva_reaches r a s
  | .lm r a => execLm_reaches r a s
  | .stm r a => execStm_reaches r a s
  | .wait r a => execWait_reaches r a s
  | .lrp r a => execLrp_reaches r a s
  | .aw r a => execAw_reaches r a s
  | .cw r a => execCw_reaches r a s
  | .lw r a => execLw_reaches r a s
  | .mtw r a => execMtw_reaches r a s
  | .stw r a => execStw_reaches r a s
  | .dw r a => execDw_reaches r a s
  | .mw r a => execMw_reaches r a s
  | .sw r a => execSw_reaches r a s
  | .clr r a => execClr_reaches r a s
  | .lcw r a => execLcw_reaches r a s
  | .law r a => execLaw_reaches r a s
  | .fss r a => floatShort_reaches _ r a s
  | .fas r a => floatShort_reaches _ r a s
  | .fds r a => floatShort_reaches _ r a s
  | .fms r a => floatShort_reaches _ r a s
  | .ttbs r v => execTtbs_reaches r v s
  | .tbs r v => execTbs_reaches r v s
  | .anlz r a => execAnlz_reaches r a s
  | .cs r a => execCs_reaches r a s
  | .xw r a => execXw_reaches r a s
  | .sts r a => execSts_reaches r a s
  | .eor r a => execEor_reaches r a s
  | .or r a => execOr_reaches r a s
  | .ls r a => execLs_reaches r a s
  | .and r a => execAnd_reaches r a s
  | .sio r a => callBridge_reaches _ r a s
  | .tio r a => callBridge_reaches _ r a s
  | .tdv r a => callBridge_reaches _ r a s
  | .hio r a => callBridge_reaches _ r a s
  | .ah r a => execAh_reaches r a s
  | .ch r a => execCh_reaches r a s
  | .lh r a => execLh_reaches r a s
  | .mth r a => execMth_reaches r a s
  | .sth r a => execSth_reaches r a s
  | .dh r a => execDh_reaches r a s
  | .mh r a => execMh_reaches r a s
  | .sh r a => execSh_reaches r a s
  | .lch r a => execLch_reaches r a s
  | .lah r a => execLah_reaches r a s
  | .cbs r v => execCbs_reaches r v s
  | .mbs r v => execMbs_reaches r v s
  | .ebs r v => execEbs_reaches r v s
  | .bdr r a => execBdr_reaches r a s
  | .bir r a => execBir_reaches r a s
  | .awm r a => execAwm_reaches r a s
  | .exu r a => hx r a s
  | .bcr r a => execBcr_reaches r a s
  | .bcs r a => execBcs_reaches r a s
  | .bal r a => execBal_reaches r a s
  | .int r a => execInt_reaches r a s
  | .rd r a => execRd_reaches r a s
  | .wd r a => execWd_reaches r a s
  | .aio r a => callBridge_reaches _ r a s
  | .mmc r f z => execMmc_reaches r f z s
  | .lcf r a => execLcf_reaches r a s
  | .cb r a => execCb_reaches r a s
  | .lb r a => execLb_reaches r a s
  | .mtb r a => execMtb_reaches r a s
  | .stcf r a => execStcf_reaches r a s
  | .stb r a => execStb_reaches r a s
  | .pack r a => execPack_reaches r a s
  | .unpk r a => execUnpk_reaches r a s
  | .ds r a => execDs_reaches r a s
  | .da r a => execDa_reaches r a s
  | .dd r a => execDd_reaches r a s
  | .dm r a => execDm_reaches r a s
  | .dsa r a => execDsa_reaches r a s
  | .dc r a => execDc_reaches r a s
  | .dl r a => execDl_reaches r a s
  | .dst r a => execDst_reaches r a s

theorem execSubjects_reaches (fuel : Nat) (a : AddrField) (s : State) :
    Answers (Reaches s) (execSubjects fuel a s) := by
  induction fuel generalizing a s with
  | zero =>
    exact reach_effWord fun _ _ h => reach_orTrap (quiet_readWord h) fun _ _ g =>
      .tail (g.1.tail (.nest _)) .exuLimit
  | succ fuel ih =>
    refine reach_effWord fun _ _ h => reach_orTrap (quiet_readWord h) fun w t g => ?_
    have h1 : Reaches s { t with exuDepth := t.exuDepth + 1 } := g.1.tail (.nest _)
    split
    · exact h1.raise
    · rename_i i _
      exact (execWith_reaches (fun _ b t => ih b t) i _).mono fun t ht => h1.trans ht

/-- `exec` is `execWith` of EXU's own meaning. -/
theorem exec_eq_execWith (i : Instr) (s : State) : exec i s = execWith execExu i s := by
  cases i <;> rfl

/-- Every instruction answers a next state, reached by elementary effects. -/
theorem exec_reaches (i : Instr) (s : State) : ∃ t, exec i s = .next t ∧ Reaches s t := by
  rw [exec_eq_execWith]
  exact (execWith_reaches (fun r a s => execSubjects_reaches _ a s) i s).exists

end Sys2Proof.Machine
end

