-- ==== Sys2Proof/Laws/Controller.lean ====
section
/-! SUPPORT. The interrupt controller: every operation on it keeps its queue in order and its flags consistent
(spec 60_exceptions.md R620-R627). -/

namespace Sys2Proof.Machine

/-! ## The queue -/

theorem precedes_trans_not {e f g : IntEntry} (h1 : e.precedes f = true) (h2 : g.precedes f = false) :
    g.precedes e = false := by
  simp only [IntEntry.precedes, Bool.or_eq_true, Bool.and_eq_true, decide_eq_true_eq, beq_iff_eq,
    Bool.or_eq_false_iff, Bool.and_eq_false_iff, decide_eq_false_iff_not, beq_eq_false_iff_ne] at *
  have h3 := h2.1
  rcases h1 with h1 | ⟨h1, h1'⟩
  · exact ⟨by omega, .inl (by rintro h; rw [h] at h3; exact h3 h1)⟩
  · rw [h1]
    refine ⟨h3, ?_⟩
    rcases h2.2 with h | h
    · exact .inl h
    · exact .inr (by omega)

theorem mem_insertEntry {e x : IntEntry} {q : List IntEntry} : x ∈ insertEntry e q ↔ x = e ∨ x ∈ q := by
  induction q with
  | nil => simp [insertEntry]
  | cons f q ih =>
    rw [insertEntry]
    split
    · simp
    · simp only [List.mem_cons, ih]
      tauto

theorem precedes_asymm {e f : IntEntry} (h : e.precedes f = true) : f.precedes e = false := by
  simp only [IntEntry.precedes, Bool.or_eq_true, Bool.and_eq_true, decide_eq_true_eq, beq_iff_eq,
    Bool.or_eq_false_iff, Bool.and_eq_false_iff, decide_eq_false_iff_not, beq_eq_false_iff_ne] at *
  rcases h with h | ⟨h, h'⟩
  · exact ⟨by omega, .inl (by rintro g; rw [g] at h; exact (lt_irrefl _ h))⟩
  · rw [h]
    exact ⟨lt_irrefl _, .inr (by omega)⟩

/-- A new entry stands after every entry it does not come before (R625: FIFO within level and priority). -/
theorem insertEntry_sorted {e : IntEntry} {q : List IntEntry} (h : q.Pairwise fun a b => b.precedes a = false) :
    (insertEntry e q).Pairwise fun a b => b.precedes a = false := by
  induction q with
  | nil => simp [insertEntry]
  | cons f q ih =>
    rw [List.pairwise_cons] at h
    rw [insertEntry]
    split <;> rename_i hef
    · refine List.pairwise_cons.2 ⟨fun x hx => ?_, List.pairwise_cons.2 h⟩
      rcases List.mem_cons.1 hx with rfl | hx
      · exact precedes_asymm hef
      · exact precedes_trans_not hef (h.1 x hx)
    · refine List.pairwise_cons.2 ⟨fun x hx => ?_, ih h.2⟩
      rcases mem_insertEntry.1 hx with rfl | hx
      · simpa using hef
      · exact h.1 x hx

theorem countP_insertEntry (p : IntEntry → Bool) (e : IntEntry) (q : List IntEntry) :
    (insertEntry e q).countP p = q.countP p + if p e then 1 else 0 := by
  induction q with
  | nil => simp [insertEntry, List.countP_cons]
  | cons f q ih =>
    rw [insertEntry]
    split
    · rw [List.countP_cons]
    · rw [List.countP_cons, ih, List.countP_cons]; omega

/-! ## What posting can do -/

/-- All that a post can do to the controller (R625). -/
theorem IntCtl.post?_cases (ic : IntCtl) (c : Config) (e : IntEntry) :
    (ic.post? c e = none ∧ (c.sizes.nLevels ≤ e.level.val ∨ ic.armed[e.level] = false ∨
      (c.coalesce[e.level] = true ∧ (ic.active[e.level] = true ∨ ic.isWaiting e.level = true)))) ∨
    (ic.post? c e = some { ic with queue := insertEntry e ic.queue } ∧ e.level.val < c.sizes.nLevels ∧
      ic.armed[e.level] = true ∧
      (c.coalesce[e.level] = true → ic.active[e.level] = false ∧ ic.isWaiting e.level = false)) := by
  unfold IntCtl.post?
  by_cases h0 : c.sizes.nLevels ≤ e.level.val <;> cases h1 : ic.armed[e.level] <;> cases h2 : c.coalesce[e.level] <;> cases h3 : ic.active[e.level] <;>
    cases h4 : ic.isWaiting e.level <;> simp [h0] <;> omega

/-- All that a post can do to the state (R625). -/
theorem State.post_cases (s : State) (L : Fin 32) (pr : Nat) (o : Origin) (l : Option Nat) (ch : Option Byte) :
    s.post L pr o l ch = s ∨
    ∃ ic, s.ic.post? s.config ⟨Config.timestamp s.freeCount, L, pr, o, l, ch⟩ = some ic ∧
      s.post L pr o l ch = { s with ic := ic, freeCount := s.freeCount + 1 } := by
  unfold State.post
  cases h : s.ic.post? s.config ⟨Config.timestamp s.freeCount, L, pr, o, l, ch⟩ with
  | none => exact .inl rfl
  | some ic => exact .inr ⟨ic, rfl, rfl⟩

theorem IntCtl.isWaiting_false {ic : IntCtl} {L : Fin 32} (h : ic.isWaiting L = false) : ic.waitingCount L = 0 := by
  unfold IntCtl.isWaiting at h
  unfold IntCtl.waitingCount
  rw [List.countP_eq_zero]
  intro e he
  simpa using List.any_eq_false.1 h e he

/-! ## Consistency -/

/-- The controller is in order. -/
def IntCtl.Good (ic : IntCtl) (c : Config) : Prop := ic.Sorted ∧ ic.Consistent c

theorem IntCtl.Good.post? {ic ic' : IntCtl} {c : Config} {e : IntEntry} (h : ic.Good c)
    (hp : ic.post? c e = some ic') : ic'.Good c := by
  rcases ic.post?_cases c e with ⟨h0, -⟩ | ⟨h1, -, ha, hc⟩
  · rw [h0] at hp; cases hp
  · rw [h1] at hp
    cases hp
    obtain ⟨hs, hq, hact, hco⟩ := h
    refine ⟨insertEntry_sorted hs, ?_, hact, fun L hL => ?_⟩
    · intro x hx
      rcases mem_insertEntry.1 hx with rfl | hx
      · exact ha
      · exact hq x hx
    · have hcnt : IntCtl.waitingCount { ic with queue := insertEntry e ic.queue } L =
          ic.waitingCount L + if e.level == L then 1 else 0 := countP_insertEntry _ _ _
      rw [hcnt]
      by_cases heL : e.level = L
      · subst heL
        have h0 := IntCtl.isWaiting_false (hc hL).2
        refine ⟨by simp [h0], fun hx => ?_⟩
        rw [(hc hL).1] at hx
        cases hx
      · simp only [beq_iff_eq, heL, if_false, Nat.add_zero]
        exact hco L hL

theorem IntCtl.Good.post {s : State} (h : s.ic.Good s.config) (L : Fin 32) (pr : Nat) (o : Origin) (l : Option Nat)
    (ch : Option Byte) : (s.post L pr o l ch).ic.Good s.config := by
  rcases s.post_cases L pr o l ch with h0 | ⟨ic, hp, h1⟩
  · rw [h0]; exact h
  · rw [h1]; exact h.post? hp

theorem IntCtl.Good.arm {ic : IntCtl} {c : Config} (h : ic.Good c) (L : Fin 32) : (ic.arm L).Good c := by
  obtain ⟨hs, hq, hact, hco⟩ := h
  refine ⟨hs, fun e he => ?_, fun M hM => ?_, hco⟩
  · simp only [IntCtl.arm, Fin.getElem_fin, Vector.getElem_set]
    split
    · rfl
    · exact hq e he
  · simp only [IntCtl.arm, Fin.getElem_fin, Vector.getElem_set]
    split
    · rfl
    · exact hact M hM

theorem IntCtl.Good.enable {ic : IntCtl} {c : Config} (h : ic.Good c) (L : Fin 32) : (ic.enable L).Good c := h
theorem IntCtl.Good.disable {ic : IntCtl} {c : Config} (h : ic.Good c) (L : Fin 32) : (ic.disable L).Good c := h

theorem IntCtl.Good.deactivate {ic : IntCtl} {c : Config} (h : ic.Good c) (L : Fin 32) : (ic.deactivate L).Good c := by
  obtain ⟨hs, hq, hact, hco⟩ := h
  refine ⟨hs, hq, fun M hM => ?_, fun M hM => ⟨(hco M hM).1, fun hx => ?_⟩⟩
  · simp only [IntCtl.deactivate, Fin.getElem_fin, Vector.getElem_set] at hM
    split at hM
    · cases hM
    · exact hact M hM
  · simp only [IntCtl.deactivate, Fin.getElem_fin, Vector.getElem_set] at hx
    split at hx
    · cases hx
    · exact (hco M hM).2 hx

theorem IntCtl.Good.disarm {ic : IntCtl} {c : Config} (h : ic.Good c) (L : Fin 32) : (ic.disarm L).Good c := by
  obtain ⟨hs, hq, hact, hco⟩ := h
  have hle : ∀ M, (ic.disarm L).waitingCount M ≤ ic.waitingCount M := fun M =>
    (List.filter_sublist ..).countP_le
  refine ⟨hs.filter _, fun e he => ?_, fun M hM => ?_, fun M hM => ⟨(hle M).trans (hco M hM).1, fun hx => ?_⟩⟩
  · obtain ⟨he, hne⟩ := List.mem_filter.1 he
    have hne' : e.level ≠ L := by simpa using hne
    simp only [IntCtl.disarm, Fin.getElem_fin, Vector.getElem_set]
    rw [if_neg fun hh => hne' (Fin.ext hh.symm)]
    exact hq e he
  · simp only [IntCtl.disarm, Fin.getElem_fin, Vector.getElem_set] at hM ⊢
    split at hM
    · cases hM
    · rename_i hne
      rw [if_neg hne]
      exact hact M hM
  · simp only [IntCtl.disarm, Fin.getElem_fin, Vector.getElem_set] at hx
    split at hx
    · cases hx
    · have := hle M
      have := (hco M hM).2 hx
      omega

theorem IntCtl.Good.control {ic ic' : IntCtl} {c : Config} (h : ic.Good c) (hc : ControlOp ic ic') : ic'.Good c := by
  cases hc with
  | arm L => exact h.arm L
  | disarm L => exact h.disarm L
  | enable L => exact h.enable L
  | disable L => exact h.disable L
  | deactivate L => exact h.deactivate L

/-! ## The scan -/

/-- All that the scan can answer (R624): nothing, or the level of the first takeable entry, above every active level. -/
theorem State.newActive_some {s : State} {L : Fin 32} {ic : IntCtl} (h : s.newActive = some (L, ic)) :
    ∃ e, s.ic.queue.find? s.takeable = some e ∧ e.level = L ∧
      (∀ h, s.ic.highestActive = some h → L < h) ∧
      ic = { s.ic with
        queue := s.ic.queue.eraseP s.takeable
        active := s.ic.active.set L true
        fireCount := s.ic.fireCount.set L (s.ic.fireCount[L] + 1) } := by
  unfold State.newActive at h
  split at h
  · cases h
  · rename_i e he
    split at h
    · cases h
    · rename_i hn
      cases h
      refine ⟨e, he, rfl, fun h hh => ?_, rfl⟩
      rw [hh] at hn
      simpa using hn

theorem IntCtl.highestActive_none {ic : IntCtl} (h : ic.highestActive = none) (L : Fin 32) : ic.active[L] = false := by
  have := List.find?_eq_none.1 h L (List.mem_finRange L)
  simpa using this

theorem countP_eraseP_found {p q : IntEntry → Bool} {l : List IntEntry} {e : IntEntry} (h : l.find? p = some e) :
    (l.eraseP p).countP q + (if q e then 1 else 0) = l.countP q := by
  induction l with
  | nil => cases h
  | cons x l ih =>
    rw [List.find?_cons] at h
    cases hp : p x with
    | true =>
      rw [hp] at h
      cases h
      rw [List.eraseP_cons_of_pos hp, List.countP_cons]
    | false =>
      rw [hp] at h
      rw [List.eraseP_cons_of_neg (by simp [hp]), List.countP_cons, List.countP_cons, ← ih h]
      omega

theorem IntCtl.Good.newActive {s : State} {L : Fin 32} {ic : IntCtl} (h : s.ic.Good s.config)
    (hn : s.newActive = some (L, ic)) : ic.Good s.config := by
  obtain ⟨e, he, rfl, -, rfl⟩ := State.newActive_some hn
  obtain ⟨hs, hq, hact, hco⟩ := h
  have hmem : e ∈ s.ic.queue := List.mem_of_find?_eq_some he
  refine ⟨hs.sublist (List.eraseP_sublist ..), fun x hx => hq x (List.mem_of_mem_eraseP hx), fun M hM => ?_,
    fun M hM => ?_⟩
  · simp only [Fin.getElem_fin, Vector.getElem_set] at hM
    split at hM
    · rename_i heq
      have : e.level = M := Fin.ext heq
      subst this
      exact hq e hmem
    · exact hact M hM
  · have hcnt := countP_eraseP_found (q := fun x => x.level == M) he
    have h1 := (hco M hM).1
    unfold IntCtl.waitingCount at h1 ⊢
    refine ⟨by dsimp only; omega, fun hx => ?_⟩
    simp only [Fin.getElem_fin, Vector.getElem_set] at hx
    split at hx
    · rename_i heq
      have : e.level = M := Fin.ext heq
      subst this
      simp only [beq_self_eq_true, if_true] at hcnt
      dsimp only
      omega
    · have := (hco M hM).2 hx
      unfold IntCtl.waitingCount at this
      dsimp only
      omega

end Sys2Proof.Machine
end

