-- ==== Sys2Proof/Laws/PerInstr.lean ====
section
/-! SUPPORT. Facts about every instruction as syntax, one lemma per constructor. -/

namespace Sys2Proof.Laws.OpcodeField

/-- The word the encoder writes has an assigned opcode (spec 30_encoding.md R144, R150). -/
def Statement (i : Instr) : Prop := ((encode i).extractLsb' 24 7).toNat ∉ unassignedOpcodes

theorem opcode_reference (op : BitVec 7) (r : RegNum) (a : AddrField) :
    (encodeReference op r a).extractLsb' 24 7 = op := by
  apply BitVec.eq_of_getLsbD_eq
  intro i hi
  simp only [encodeReference, encodeFields, BitVec.getLsbD_extractLsb', BitVec.getLsbD_append]
  grind

theorem opcode_immediate (op : BitVec 7) (r : RegNum) (v : BitVec 20) :
    (encodeImmediate op r v).extractLsb' 24 7 = op := by
  apply BitVec.eq_of_getLsbD_eq
  intro i hi
  simp only [encodeImmediate, BitVec.getLsbD_extractLsb', BitVec.getLsbD_append]
  grind

theorem assigned_reference {op : BitVec 7} (h : op.toNat ∉ unassignedOpcodes) (r : RegNum) (a : AddrField) :
    ((encodeReference op r a).extractLsb' 24 7).toNat ∉ unassignedOpcodes := by
  rw [opcode_reference]; exact h

theorem assigned_immediate {op : BitVec 7} (h : op.toNat ∉ unassignedOpcodes) (r : RegNum) (v : BitVec 20) :
    ((encodeImmediate op r v).extractLsb' 24 7).toNat ∉ unassignedOpcodes := by
  rw [opcode_immediate]; exact h

theorem lcfi (r : RegNum) (v : BitVec 20) : Statement (.lcfi r v) := assigned_immediate (by decide) r v
theorem cal1 (r : RegNum) (a : AddrField) : Statement (.cal1 r a) := assigned_reference (by decide) r a
theorem cal2 (r : RegNum) (a : AddrField) : Statement (.cal2 r a) := assigned_reference (by decide) r a
theorem cal3 (r : RegNum) (a : AddrField) : Statement (.cal3 r a) := assigned_reference (by decide) r a
theorem cal4 (r : RegNum) (a : AddrField) : Statement (.cal4 r a) := assigned_reference (by decide) r a
theorem plw (r : RegNum) (a : AddrField) : Statement (.plw r a) := assigned_reference (by decide) r a
theorem psw (r : RegNum) (a : AddrField) : Statement (.psw r a) := assigned_reference (by decide) r a
theorem plm (r : RegNum) (a : AddrField) : Statement (.plm r a) := assigned_reference (by decide) r a
theorem psm (r : RegNum) (a : AddrField) : Statement (.psm r a) := assigned_reference (by decide) r a
theorem lpsd (r : RegNum) (a : AddrField) : Statement (.lpsd r a) := assigned_reference (by decide) r a
theorem xpsd (r : RegNum) (a : AddrField) : Statement (.xpsd r a) := assigned_reference (by decide) r a
theorem ad (r : RegNum) (a : AddrField) : Statement (.ad r a) := assigned_reference (by decide) r a
theorem cd (r : RegNum) (a : AddrField) : Statement (.cd r a) := assigned_reference (by decide) r a
theorem ld (r : RegNum) (a : AddrField) : Statement (.ld r a) := assigned_reference (by decide) r a
theorem msp (r : RegNum) (a : AddrField) : Statement (.msp r a) := assigned_reference (by decide) r a
theorem std (r : RegNum) (a : AddrField) : Statement (.std r a) := assigned_reference (by decide) r a
theorem sd (r : RegNum) (a : AddrField) : Statement (.sd r a) := assigned_reference (by decide) r a
theorem clm (r : RegNum) (a : AddrField) : Statement (.clm r a) := assigned_reference (by decide) r a
theorem lcd (r : RegNum) (a : AddrField) : Statement (.lcd r a) := assigned_reference (by decide) r a
theorem lad (r : RegNum) (a : AddrField) : Statement (.lad r a) := assigned_reference (by decide) r a
theorem fsl (r : RegNum) (a : AddrField) : Statement (.fsl r a) := assigned_reference (by decide) r a
theorem fal (r : RegNum) (a : AddrField) : Statement (.fal r a) := assigned_reference (by decide) r a
theorem fdl (r : RegNum) (a : AddrField) : Statement (.fdl r a) := assigned_reference (by decide) r a
theorem fml (r : RegNum) (a : AddrField) : Statement (.fml r a) := assigned_reference (by decide) r a
theorem ai (r : RegNum) (v : BitVec 20) : Statement (.ai r v) := assigned_immediate (by decide) r v
theorem ci (r : RegNum) (v : BitVec 20) : Statement (.ci r v) := assigned_immediate (by decide) r v
theorem li (r : RegNum) (v : BitVec 20) : Statement (.li r v) := assigned_immediate (by decide) r v
theorem mi (r : RegNum) (v : BitVec 20) : Statement (.mi r v) := assigned_immediate (by decide) r v
theorem sf (r : RegNum) (a : AddrField) : Statement (.sf r a) := assigned_reference (by decide) r a
theorem s (r : RegNum) (a : AddrField) : Statement (.s r a) := assigned_reference (by decide) r a
theorem cvs (r : RegNum) (a : AddrField) : Statement (.cvs r a) := assigned_reference (by decide) r a
theorem cva (r : RegNum) (a : AddrField) : Statement (.cva r a) := assigned_reference (by decide) r a
theorem lm (r : RegNum) (a : AddrField) : Statement (.lm r a) := assigned_reference (by decide) r a
theorem stm (r : RegNum) (a : AddrField) : Statement (.stm r a) := assigned_reference (by decide) r a
theorem wait (r : RegNum) (a : AddrField) : Statement (.wait r a) := assigned_reference (by decide) r a
theorem lrp (r : RegNum) (a : AddrField) : Statement (.lrp r a) := assigned_reference (by decide) r a
theorem aw (r : RegNum) (a : AddrField) : Statement (.aw r a) := assigned_reference (by decide) r a
theorem cw (r : RegNum) (a : AddrField) : Statement (.cw r a) := assigned_reference (by decide) r a
theorem lw (r : RegNum) (a : AddrField) : Statement (.lw r a) := assigned_reference (by decide) r a
theorem mtw (r : RegNum) (a : AddrField) : Statement (.mtw r a) := assigned_reference (by decide) r a
theorem stw (r : RegNum) (a : AddrField) : Statement (.stw r a) := assigned_reference (by decide) r a
theorem dw (r : RegNum) (a : AddrField) : Statement (.dw r a) := assigned_reference (by decide) r a
theorem mw (r : RegNum) (a : AddrField) : Statement (.mw r a) := assigned_reference (by decide) r a
theorem sw (r : RegNum) (a : AddrField) : Statement (.sw r a) := assigned_reference (by decide) r a
theorem clr (r : RegNum) (a : AddrField) : Statement (.clr r a) := assigned_reference (by decide) r a
theorem lcw (r : RegNum) (a : AddrField) : Statement (.lcw r a) := assigned_reference (by decide) r a
theorem law (r : RegNum) (a : AddrField) : Statement (.law r a) := assigned_reference (by decide) r a
theorem fss (r : RegNum) (a : AddrField) : Statement (.fss r a) := assigned_reference (by decide) r a
theorem fas (r : RegNum) (a : AddrField) : Statement (.fas r a) := assigned_reference (by decide) r a
theorem fds (r : RegNum) (a : AddrField) : Statement (.fds r a) := assigned_reference (by decide) r a
theorem fms (r : RegNum) (a : AddrField) : Statement (.fms r a) := assigned_reference (by decide) r a
theorem ttbs (r : RegNum) (v : BitVec 20) : Statement (.ttbs r v) := assigned_immediate (by decide) r v
theorem tbs (r : RegNum) (v : BitVec 20) : Statement (.tbs r v) := assigned_immediate (by decide) r v
theorem anlz (r : RegNum) (a : AddrField) : Statement (.anlz r a) := assigned_reference (by decide) r a
theorem cs (r : RegNum) (a : AddrField) : Statement (.cs r a) := assigned_reference (by decide) r a
theorem xw (r : RegNum) (a : AddrField) : Statement (.xw r a) := assigned_reference (by decide) r a
theorem sts (r : RegNum) (a : AddrField) : Statement (.sts r a) := assigned_reference (by decide) r a
theorem eor (r : RegNum) (a : AddrField) : Statement (.eor r a) := assigned_reference (by decide) r a
theorem or (r : RegNum) (a : AddrField) : Statement (.or r a) := assigned_reference (by decide) r a
theorem ls (r : RegNum) (a : AddrField) : Statement (.ls r a) := assigned_reference (by decide) r a
theorem and (r : RegNum) (a : AddrField) : Statement (.and r a) := assigned_reference (by decide) r a
theorem sio (r : RegNum) (a : AddrField) : Statement (.sio r a) := assigned_reference (by decide) r a
theorem tio (r : RegNum) (a : AddrField) : Statement (.tio r a) := assigned_reference (by decide) r a
theorem tdv (r : RegNum) (a : AddrField) : Statement (.tdv r a) := assigned_reference (by decide) r a
theorem hio (r : RegNum) (a : AddrField) : Statement (.hio r a) := assigned_reference (by decide) r a
theorem ah (r : RegNum) (a : AddrField) : Statement (.ah r a) := assigned_reference (by decide) r a
theorem ch (r : RegNum) (a : AddrField) : Statement (.ch r a) := assigned_reference (by decide) r a
theorem lh (r : RegNum) (a : AddrField) : Statement (.lh r a) := assigned_reference (by decide) r a
theorem mth (r : RegNum) (a : AddrField) : Statement (.mth r a) := assigned_reference (by decide) r a
theorem sth (r : RegNum) (a : AddrField) : Statement (.sth r a) := assigned_reference (by decide) r a
theorem dh (r : RegNum) (a : AddrField) : Statement (.dh r a) := assigned_reference (by decide) r a
theorem mh (r : RegNum) (a : AddrField) : Statement (.mh r a) := assigned_reference (by decide) r a
theorem sh (r : RegNum) (a : AddrField) : Statement (.sh r a) := assigned_reference (by decide) r a
theorem lch (r : RegNum) (a : AddrField) : Statement (.lch r a) := assigned_reference (by decide) r a
theorem lah (r : RegNum) (a : AddrField) : Statement (.lah r a) := assigned_reference (by decide) r a
theorem cbs (r : RegNum) (v : BitVec 20) : Statement (.cbs r v) := assigned_immediate (by decide) r v
theorem mbs (r : RegNum) (v : BitVec 20) : Statement (.mbs r v) := assigned_immediate (by decide) r v
theorem ebs (r : RegNum) (v : BitVec 20) : Statement (.ebs r v) := assigned_immediate (by decide) r v
theorem bdr (r : RegNum) (a : AddrField) : Statement (.bdr r a) := assigned_reference (by decide) r a
theorem bir (r : RegNum) (a : AddrField) : Statement (.bir r a) := assigned_reference (by decide) r a
theorem awm (r : RegNum) (a : AddrField) : Statement (.awm r a) := assigned_reference (by decide) r a
theorem exu (r : RegNum) (a : AddrField) : Statement (.exu r a) := assigned_reference (by decide) r a
theorem bcr (r : RegNum) (a : AddrField) : Statement (.bcr r a) := assigned_reference (by decide) r a
theorem bcs (r : RegNum) (a : AddrField) : Statement (.bcs r a) := assigned_reference (by decide) r a
theorem bal (r : RegNum) (a : AddrField) : Statement (.bal r a) := assigned_reference (by decide) r a
theorem int (r : RegNum) (a : AddrField) : Statement (.int r a) := assigned_reference (by decide) r a
theorem rd (r : RegNum) (a : AddrField) : Statement (.rd r a) := assigned_reference (by decide) r a
theorem wd (r : RegNum) (a : AddrField) : Statement (.wd r a) := assigned_reference (by decide) r a
theorem aio (r : RegNum) (a : AddrField) : Statement (.aio r a) := assigned_reference (by decide) r a
theorem mmc (r : RegNum) (f : BitVec 3) (z : BitVec 17) : Statement (.mmc r f z) :=
  assigned_reference (by decide) r ⟨false, f, z⟩
theorem lcf (r : RegNum) (a : AddrField) : Statement (.lcf r a) := assigned_reference (by decide) r a
theorem cb (r : RegNum) (a : AddrField) : Statement (.cb r a) := assigned_reference (by decide) r a
theorem lb (r : RegNum) (a : AddrField) : Statement (.lb r a) := assigned_reference (by decide) r a
theorem mtb (r : RegNum) (a : AddrField) : Statement (.mtb r a) := assigned_reference (by decide) r a
theorem stcf (r : RegNum) (a : AddrField) : Statement (.stcf r a) := assigned_reference (by decide) r a
theorem stb (r : RegNum) (a : AddrField) : Statement (.stb r a) := assigned_reference (by decide) r a
theorem pack (r : RegNum) (a : AddrField) : Statement (.pack r a) := assigned_reference (by decide) r a
theorem unpk (r : RegNum) (a : AddrField) : Statement (.unpk r a) := assigned_reference (by decide) r a
theorem ds (r : RegNum) (a : AddrField) : Statement (.ds r a) := assigned_reference (by decide) r a
theorem da (r : RegNum) (a : AddrField) : Statement (.da r a) := assigned_reference (by decide) r a
theorem dd (r : RegNum) (a : AddrField) : Statement (.dd r a) := assigned_reference (by decide) r a
theorem dm (r : RegNum) (a : AddrField) : Statement (.dm r a) := assigned_reference (by decide) r a
theorem dsa (r : RegNum) (a : AddrField) : Statement (.dsa r a) := assigned_reference (by decide) r a
theorem dc (r : RegNum) (a : AddrField) : Statement (.dc r a) := assigned_reference (by decide) r a
theorem dl (r : RegNum) (a : AddrField) : Statement (.dl r a) := assigned_reference (by decide) r a
theorem dst (r : RegNum) (a : AddrField) : Statement (.dst r a) := assigned_reference (by decide) r a

end Sys2Proof.Laws.OpcodeField
end

