-- ==== Sys2Proof/Laws/Transfers.lean ====
section
/-! SUPPORT. What the register transfers of LM and PLM can do (spec 40_load_store.md R212, 44_stack.md R375), and what
becomes of them where LM traps; the checks of accesses before an instruction of several (60_exceptions.md R604) and the stack
limit (44_stack.md R371). -/

namespace Sys2Proof.Machine

/-- The machine after the first j words of an LM or PLM from the places p. -/
def State.loaded (s : State) (p : Nat → Place) (r : RegNum) : Nat → State
  | 0 => s
  | j + 1 => (s.loaded p r j).setReg (r + BitVec.ofNat 4 j) ((s.loaded p r j).loadWord (p j))

/-- Only registers of the current block differ. -/
theorem State.loaded_frame (s : State) (p : Nat → Place) (r : RegNum) (j : Nat) :
    s.loaded p r j = { s with regs := (s.loaded p r j).regs } := by
  induction j with
  | zero => rfl
  | succ j ih => simp only [State.loaded, State.setReg]; rw [ih]

/-- The first word first, then the others. -/
theorem State.loaded_succ (s : State) (p : Nat → Place) (r : RegNum) (j : Nat) :
    s.loaded p r (j + 1) = (s.setReg r (s.loadWord (p 0))).loaded (fun k => p (k + 1)) (r + 1#4) j := by
  induction j with
  | zero => simp [State.loaded]
  | succ j ih =>
    rw [State.loaded, ih, State.loaded]
    congr 1
    rw [BitVec.add_assoc]; congr 1; apply BitVec.eq_of_toNat_eq; simp; omega

/-- The word after the first of a transfer from a + 1. -/
theorem offset_succ {w : Nat} (a : BitVec w) (k : Nat) : a + 1#w + BitVec.ofNat w k = a + BitVec.ofNat w (k + 1) := by
  rw [BitVec.add_assoc]
  congr 1
  apply BitVec.eq_of_toNat_eq
  simp [Nat.add_comm]

/-- The first word of a transfer, no other agent acting. -/
theorem loadWords_step {s : State} (hb : s.between = []) {ea : WordAddr} {p : Place} (h : s.resolve ea .read = .ok p)
    (n : Nat) (r : RegNum) :
    loadWords (n + 1) r ea s = loadWords n (r + 1#4) (ea + 1#17) (s.setReg r (s.loadWord p)) := by
  have : s.readWord ea .read = .ok (s.loadWord p) s := by
    simp [State.readWord, State.access, State.others_nil hb, h]
  simp [loadWords, this, Res.andThen]

/-- What `loadWords` answers where every word can be read. -/
theorem loadWords_all {s : State} (hb : s.between = []) {p : Nat → Place} {n : Nat} {r : RegNum} {ea : WordAddr}
    (h : ∀ j, j < n → s.resolve (ea + BitVec.ofNat 17 j) .read = .ok (p j)) :
    loadWords n r ea s = .ok () (s.loaded p r n) := by
  induction n generalizing r ea s p with
  | zero => rfl
  | succ n ih =>
    have h0 := h 0 (by omega)
    simp at h0
    rw [loadWords_step hb h0, State.loaded_succ]
    refine ih (by exact hb) fun j hj => ?_
    rw [State.resolve_setReg, offset_succ]
    exact h (j + 1) (by omega)

/-- What `loadWords` answers where word k is the first that traps. -/
theorem loadWords_trap {s : State} (hb : s.between = []) {p : Nat → Place} {x : Trap} {k n : Nat} {r : RegNum}
    {ea : WordAddr} (hk : k < n) (h : ∀ j, j < k → s.resolve (ea + BitVec.ofNat 17 j) .read = .ok (p j))
    (hx : s.resolve (ea + BitVec.ofNat 17 k) .read = .error x) :
    loadWords n r ea s = .trap x (s.loaded p r k) := by
  induction k generalizing n r ea s p with
  | zero =>
    obtain ⟨n, rfl⟩ : ∃ m, n = m + 1 := ⟨n - 1, by omega⟩
    simp at hx
    simp [loadWords, State.readWord, State.access, State.others_nil hb, hx, Res.andThen, State.loaded]
  | succ k ih =>
    obtain ⟨n, rfl⟩ : ∃ m, n = m + 1 := ⟨n - 1, by omega⟩
    have h0 := h 0 (by omega)
    simp at h0
    rw [loadWords_step hb h0, State.loaded_succ]
    refine ih (by exact hb) (by omega) (fun j hj => ?_) ?_
    · rw [State.resolve_setReg, offset_succ]; exact h (j + 1) (by omega)
    · rw [State.resolve_setReg, offset_succ]; exact hx

/-- Every register of every block after the first j words. -/
theorem State.blockReg_loaded (s : State) (p : Nat → Place) (r : RegNum) {j : Nat} (hj : j ≤ 16) (b i : BitVec 4) :
    (s.loaded p r j).blockReg b i =
      if b = s.psd.rp ∧ (i - r).toNat < j then (s.loaded p r (i - r).toNat).loadWord (p (i - r).toNat)
      else s.blockReg b i := by
  induction j with
  | zero => simp [State.loaded]
  | succ j ih =>
    rw [State.loaded, State.blockReg_setReg, ih (by omega), (show (s.loaded p r j).psd = s.psd by rw [State.loaded_frame])]
    have hi : i = r + BitVec.ofNat 4 j ↔ (i - r).toNat = j := by
      constructor
      · rintro rfl; simp; omega
      · intro h; apply BitVec.eq_of_toNat_eq; have := i.isLt; have := r.isLt; simp [BitVec.toNat_sub] at h ⊢; omega
    by_cases hb : b = s.psd.rp
    · by_cases hij : (i - r).toNat = j
      · rw [if_pos ⟨hb, hi.2 hij⟩, if_pos ⟨hb, by omega⟩, hij]
      · rw [if_neg (fun h => hij (hi.1 h.2))]
        have : (i - r).toNat < j + 1 ↔ (i - r).toNat < j := by omega
        simp only [this]
    · simp [hb]

/-- Every register of every block after `unloadWords`. -/
theorem State.blockReg_unloadWords (s t : State) (keep : Nat → Bool) (r : RegNum) (n : Nat) (hn : n ≤ 16)
    (b i : BitVec 4) : (s.unloadWords keep r n t).blockReg b i =
      if b = t.psd.rp ∧ (i - r).toNat < n ∧ keep (i - r).toNat = false then s.reg i else t.blockReg b i := by
  induction n generalizing t with
  | zero => simp [State.unloadWords]
  | succ n ih =>
    have hi : i = r + BitVec.ofNat 4 n ↔ (i - r).toNat = n := by
      constructor
      · rintro rfl; simp; omega
      · intro h; apply BitVec.eq_of_toNat_eq; have := i.isLt; have := r.isLt; simp [BitVec.toNat_sub] at h ⊢; omega
    rw [State.unloadWords, ih _ (by omega)]
    have hp : (if keep n = true then t else t.setReg (r + BitVec.ofNat 4 n) (s.reg (r + BitVec.ofNat 4 n))).psd = t.psd := by
      split <;> rfl
    rw [hp]
    by_cases hk : keep n = true
    · simp only [hk, if_true]
      by_cases hij : (i - r).toNat = n
      · simp [hij, hk]
      · have : (i - r).toNat < n + 1 ↔ (i - r).toNat < n := by omega
        simp only [this]
    · rw [if_neg hk, State.blockReg_setReg]
      have hf : keep n = false := by simpa using hk
      by_cases hij : (i - r).toNat = n
      · have hir := hi.2 hij
        rw [hij, hf, ← hir]
        by_cases hb : b = t.psd.rp <;> simp [hb]
      · have h1 : (i - r).toNat < n + 1 ↔ (i - r).toNat < n := by omega
        have h2 : i ≠ r + BitVec.ofNat 4 n := fun h => hij (hi.1 h)
        simp only [h1, h2, and_false, if_false]

/-- Only registers of the current block differ. -/
theorem State.unloadWords_frame (s t : State) (keep : Nat → Bool) (r : RegNum) (n : Nat) :
    s.unloadWords keep r n t = { t with regs := (s.unloadWords keep r n t).regs } := by
  induction n generalizing t with
  | zero => rfl
  | succ n ih => rw [State.unloadWords, ih]; split <;> rfl

/-! ## The checks before an instruction that stores or transfers more than once (60_exceptions.md R604, R605) -/

theorem State.faultAt_eq_some {s : State} {vw : WordAddr} {m : Access} {x : Trap} :
    s.faultAt vw m = some x ↔ s.resolve vw m = .error x := by
  unfold State.faultAt
  split <;> simp [*]

theorem State.faultAt_eq_none {s : State} {vw : WordAddr} {m : Access} :
    s.faultAt vw m = none ↔ ∃ p, s.resolve vw m = .ok p := by
  unfold State.faultAt
  split <;> simp [*]

/-- The first of `n + 1` accesses that traps is the first access, or with that one made the first of the rest. -/
theorem State.firstFault_succ {s : State} {n : Nat} {f : Nat → WordAddr} {m : Access} {x : Trap} :
    s.FirstFault (n + 1) (fun _ => True) f m x ↔
      s.resolve (f 0) m = .error x ∨
      (∃ p, s.resolve (f 0) m = .ok p) ∧ s.FirstFault n (fun _ => True) (fun k => f (k + 1)) m x := by
  constructor
  · rintro ⟨k, hk, -, he, hj⟩
    cases k with
    | zero => exact .inl he
    | succ k =>
      exact .inr ⟨hj 0 (by omega) trivial, k, by omega, trivial, he, fun j hjk _ => hj (j + 1) (by omega) trivial⟩
  · rintro (h | ⟨h, k, hk, -, he, hj⟩)
    · exact ⟨0, by omega, trivial, h, fun j hj => absurd hj (Nat.not_lt_zero j)⟩
    · refine ⟨k + 1, by omega, trivial, he, fun j hjk _ => ?_⟩
      cases j with
      | zero => exact h
      | succ j => exact hj j (by omega) trivial

/-- The check of `n` words answers the first trap of their accesses. -/
theorem State.faultWords_eq_some {s : State} {m : Access} {x : Trap} (n : Nat) (a : WordAddr) :
    s.faultWords m n a = some x ↔ s.FirstFault n (fun _ => True) (fun k => a + BitVec.ofNat 17 k) m x := by
  induction n generalizing a with
  | zero => exact ⟨fun h => by simp [State.faultWords] at h, fun ⟨k, hk, _⟩ => absurd hk (Nat.not_lt_zero k)⟩
  | succ n ih =>
    rw [State.firstFault_succ, State.faultWords, BitVec.add_zero, Option.or_eq_some_iff, State.faultAt_eq_some,
      State.faultAt_eq_none, ih]
    simp only [offset_succ]

/-- It answers none exactly where every access can be made. -/
theorem State.faultWords_eq_none {s : State} {m : Access} (n : Nat) (a : WordAddr) :
    s.faultWords m n a = none ↔ ∀ k, k < n → ∃ p, s.resolve (a + BitVec.ofNat 17 k) m = .ok p := by
  induction n generalizing a with
  | zero => exact ⟨fun _ k hk => absurd hk (Nat.not_lt_zero k), fun _ => rfl⟩
  | succ n ih =>
    rw [State.faultWords, Option.or_eq_none_iff, State.faultAt_eq_none, ih, Nat.forall_lt_succ_left, BitVec.add_zero]
    simp only [offset_succ]

/-- The check of `n` bytes answers the first trap of their accesses. -/
theorem State.faultBytes_eq_some {s : State} {m : Access} {x : Trap} (n : Nat) (a : ByteAddr) :
    s.faultBytes m n a = some x ↔
      s.FirstFault n (fun _ => True) (fun k => (a + BitVec.ofNat 19 k).extractLsb' 2 17) m x := by
  induction n generalizing a with
  | zero => exact ⟨fun h => by simp [State.faultBytes] at h, fun ⟨k, hk, _⟩ => absurd hk (Nat.not_lt_zero k)⟩
  | succ n ih =>
    rw [State.firstFault_succ, State.faultBytes, BitVec.add_zero, Option.or_eq_some_iff, State.faultAt_eq_some,
      State.faultAt_eq_none, ih]
    simp only [offset_succ]

/-- It answers none exactly where every access can be made. -/
theorem State.faultBytes_eq_none {s : State} {m : Access} (n : Nat) (a : ByteAddr) :
    s.faultBytes m n a = none ↔ ∀ k, k < n → ∃ p, s.resolve ((a + BitVec.ofNat 19 k).extractLsb' 2 17) m = .ok p := by
  induction n generalizing a with
  | zero => exact ⟨fun _ k hk => absurd hk (Nat.not_lt_zero k), fun _ => rfl⟩
  | succ n ih =>
    rw [State.faultBytes, Option.or_eq_none_iff, State.faultAt_eq_none, ih, Nat.forall_lt_succ_left, BitVec.add_zero]
    simp only [offset_succ]

/-! ## The stack limit (44_stack.md R371) -/

/-- All that the limit check can do. -/
theorem stackLimit_cases (s : State) (p : StackPointer) (n : Int) (x : Option Trap) (k : Out) :
    (spaceFail p n = true ∧ p.ts = true ∧ stackLimit s p n x k = .next (s.setCC1 true)) ∨
    (spaceFail p n = true ∧ p.ts = false ∧ stackLimit s p n x k = orRaise s x (.next (s.raise trapStackSpace))) ∨
    (spaceFail p n = false ∧ wordFail p n = true ∧ p.tw = true ∧ stackLimit s p n x k = .next (s.setCC2 true)) ∨
    (spaceFail p n = false ∧ wordFail p n = true ∧ p.tw = false ∧
      stackLimit s p n x k = orRaise s x (.next (s.raise trapStackWords))) ∨
    (spaceFail p n = false ∧ wordFail p n = false ∧ stackLimit s p n x k = orRaise s x k) := by
  unfold stackLimit
  cases spaceFail p n <;> cases wordFail p n <;> cases p.ts <;> cases p.tw <;> simp

theorem spaceFail_iff {p : StackPointer} {n : Int} : spaceFail p n = true ↔ p.SpaceLimit n := by
  have := p.space.isLt
  simp only [spaceFail, decide_eq_true_eq, StackPointer.SpaceLimit]
  omega

theorem wordFail_iff {p : StackPointer} {n : Int} : wordFail p n = true ↔ p.WordLimit n := by
  have := p.words.isLt
  simp only [wordFail, decide_eq_true_eq, StackPointer.WordLimit]
  omega

/-- Unless the change meets an inhibited limit, a fault of the accesses is what is reported. -/
theorem stackLimit_fault {p : StackPointer} {n : Int} (h : ¬p.Inhibited n) (s : State) (x : Trap) (k : Out) :
    stackLimit s p n (some x) k = .next (s.raise x) := by
  unfold StackPointer.Inhibited at h
  rw [← spaceFail_iff, ← wordFail_iff] at h
  unfold stackLimit
  cases hs : spaceFail p n <;> cases hw : wordFail p n <;> cases ht : p.ts <;> cases hu : p.tw <;> simp_all [orRaise]

end Sys2Proof.Machine
end

