-- ==== Sys2Proof/Tests/Slice0.lean ====
section
/-! SUPPORT. Small tests, each on words or one step written out from the spec, and for every statement with hypotheses a
witness: a concrete state and operands that meet them together, at a boundary of the clause it is for. -/

namespace Sys2Proof.Tests

open Sys2Proof.Machine

/-! ## Helpers -/

/-- The machine after reset, running at X'100', with some registers and some words of memory. -/
def small (regs : List (RegNum × Word)) (mem : List (Nat × Word)) : State :=
  let s := { State.reset with running := true, psd := { Psd.reset with ia := 0x100#17 } }
  let s := regs.foldl (fun t e => t.setReg e.1 e.2) s
  mem.foldl (fun t e => t.setMem (t.mem.writeWord (4 * e.1) e.2)) s

/-- A direct, unindexed address. -/
def direct (ref : WordAddr) : AddrField := ⟨false, 0#3, ref⟩

/-- The same machine with the decimal option. -/
def withDecimalOption (s : State) : State := { s with config := { s.config with decimalOption := true } }

/-- The same machine without the floating-point option. -/
def withoutFloat (s : State) : State := { s with config := { s.config with floatOption := false } }

/-- The same machine with one page of memory: word X'1FF' is the last. -/
def onePage (s : State) : State := { s with config := { s.config with memPages := 1 } }

/-- The same machine with real page 1, words X'200' to X'3FF', locked. -/
def lockedPage (s : State) : State := { s with locks := setPage s.locks 1#8 2#2 }

/-- The same machine in slave mode. -/
def inSlave (s : State) : State := { s with psd := { s.psd with ms := true } }

/-- Ask something of the next state. -/
def after (o : Out) (p : State → Bool) : Bool :=
  match o with
  | .next t => p t
  | _ => false

/-! ## Decoding: words written from the encodings of 30_encoding.md R131, R132, R134, R150 -/

-- LCFI: OP X'02', R 3, value X'000F7'
theorem test_decode_lcfi : decode 0b00000010001100000000000011110111#32 = .ok (.lcfi 3#4 0xF7#20) := by decide
-- CAL4: OP X'07', R 9, every other bit 0
theorem test_decode_cal4 : decode 0b00000111100100000000000000000000#32 = .ok (.cal4 9#4 (direct 0)) := by decide
-- PSW: I 1, OP X'09', R 5, X 1, REF X'00200'
theorem test_decode_psw : decode 0b10001001010100100000001000000000#32 = .ok (.psw 5#4 ⟨true, 1#3, 0x200#17⟩) := by
  decide
-- LD: OP X'12', R 2, X 7, REF X'1FFFF'
theorem test_decode_ld : decode 0b00010010001011111111111111111111#32 = .ok (.ld 2#4 ⟨false, 7#3, 0x1FFFF#17⟩) := by
  decide
-- S: OP X'25', R 3, X 0, REF type 5 (bits 10-8), count 4
theorem test_decode_s : decode 0b00100101001100000000010100000100#32 = .ok (.s 3#4 (direct 0x504#17)) := by decide
-- STW: OP X'35', R 15, X 0, REF X'10000'
theorem test_decode_stw : decode 0b00110101111100010000000000000000#32 = .ok (.stw 15#4 (direct 0x10000#17)) := by decide
-- FMS: OP X'3F', R 8, X 2, REF X'00001'
theorem test_decode_fms : decode 0b00111111100001000000000000000001#32 = .ok (.fms 8#4 ⟨false, 2#3, 1#17⟩) := by decide
-- LH: OP X'52', R 1, X 4, REF X'00100'
theorem test_decode_lh : decode 0b01010010000110000000000100000000#32 = .ok (.lh 1#4 ⟨false, 4#3, 0x100#17⟩) := by decide
-- MBS: OP X'61', R 6, displacement -1
theorem test_decode_mbs : decode 0b01100001011011111111111111111111#32 = .ok (.mbs 6#4 0xFFFFF#20) := by decide
-- BAL: OP X'6A', R 11, X 0, REF X'00300'
theorem test_decode_bal : decode 0b01101010101100000000001100000000#32 = .ok (.bal 11#4 (direct 0x300#17)) := by decide
-- SIO: OP X'4C', R 2, X 0, REF X'00081'
theorem test_decode_sio : decode 0b01001100001000000000000010000001#32 = .ok (.sio 2#4 (direct 0x81#17)) := by decide
-- WD: I 1, OP X'6D', R 0, X 3, REF X'01200'
theorem test_decode_wd : decode 0b11101101000001100001001000000000#32 = .ok (.wd 0#4 ⟨true, 3#3, 0x1200#17⟩) := by decide
-- MMC: OP X'6F', R 4, function 101
theorem test_decode_mmc : decode 0b01101111010010100000000000000000#32 = .ok (.mmc 4#4 5#3 0#17) := by decide
-- STB: OP X'75', R 7, X 0, REF X'00400'
theorem test_decode_stb : decode 0b01110101011100000000010000000000#32 = .ok (.stb 7#4 (direct 0x400#17)) := by decide
-- DST: OP X'7F', R 0 (16 bytes), X 5, REF X'00002'
theorem test_decode_dst : decode 0b01111111000010100000000000000010#32 = .ok (.dst 0#4 ⟨false, 5#3, 2#17⟩) := by decide
-- an immediate word with I = 1, and the unassigned opcode X'62' (R132, R144)
theorem test_decode_reject :
    decode 0xA2300005#32 = .error .indirectImmediate ∧ decode 0x62000000#32 = .error .unassignedOpcode := by decide
theorem test_decodeBytes :
    decodeBytes [0x32#8, 0x10#8, 0x02#8, 0x00#8, 0xAA#8] = .ok (.lw 1#4 (direct 0x200#17), [0xAA#8]) ∧
    decodeBytes [0x32#8, 0x10#8] = .error .truncated := by decide
theorem test_decodeTableWord : decodeTableWord 32 0x32100200 = some (.lw 1#4 (direct 0x200#17)) := by decide

/-! ## Well-formed instructions: an ill-formed term for each check -/

theorem test_wellFormed_mmc :
    (Instr.mmc 2#4 0#3 0#17).wellFormed = false ∧ (Instr.mmc 2#4 3#3 0#17).wellFormed = false ∧
    (Instr.mmc 2#4 6#3 0#17).wellFormed = false ∧ (Instr.mmc 2#4 4#3 0#17).wellFormed = true := by decide
theorem test_wellFormed_shift :
    (Instr.s 2#4 (direct 0x600#17)).wellFormed = false ∧ (Instr.s 2#4 (direct 0x7FF#17)).wellFormed = false ∧
    (Instr.s 2#4 (direct 0x5FF#17)).wellFormed = true := by decide

/-! ## One step each, from the vectors of 95_test_vectors.md and hand calculation -/

/-- The step of `small` with this word at X'100'. -/
def ran (word : Word) (regs : List (RegNum × Word)) (mem : List (Nat × Word)) (p : State → Bool) : Bool :=
  after (step (small regs ((0x100, word) :: mem))) p

-- LI,3 -1: sign extended, CC3 CC4 = 1 0, pc X'101'
theorem test_li : ran 0x223FFFFF#32 [] [] (fun t =>
    t.reg 3#4 == 0xFFFFFFFF#32 && t.psd.cc == 0b0010#4 && t.psd.ia == 0x101#17) = true := by decide
-- LW with an index of -1 wraps to X'1FF' (vector A1)
theorem test_lw_indexed : ran 0x32140200#32 [(2#4, 0xFFFFFFFF#32)] [(0x1FF, 77#32)] (fun t =>
    t.reg 1#4 == 77#32) = true := by decide
-- AW,1: X'7FFFFFFF' + 1 overflows: CC2, negative
theorem test_aw_overflow : ran 0x30100200#32 [(1#4, 0x7FFFFFFF#32)] [(0x200, 1#32)] (fun t =>
    t.reg 1#4 == 0x80000000#32 && t.psd.cc == 0b0110#4 && t.trapPending == none) = true := by decide
-- STB,1 into byte 1 of X'200'
theorem test_stb : ran 0x75140200#32 [(1#4, 0xAB#32), (2#4, 1#32)] [(0x200, 0x11223344#32)] (fun t =>
    t.mem.readWord 0x800 == 0x11AB3344#32) = true := by decide
-- MTW of delta -1 on 1: zero, carry
theorem test_mtw : ran 0x33F00200#32 [] [(0x200, 1#32)] (fun t =>
    t.mem.readWord 0x800 == 0#32 && t.psd.cc == 0b1000#4) = true := by decide
-- MI,2: -1 * 2 = -2 in the pair, CC2 = 0
theorem test_mi : ran 0x23200002#32 [(3#4, 0xFFFFFFFF#32)] [] (fun t =>
    t.reg 2#4 == 0xFFFFFFFF#32 && t.reg 3#4 == 0xFFFFFFFE#32 && t.psd.cc == 0b0010#4) = true := by decide
-- DW,2: 7 / 2: quotient 3 in the odd register, remainder 1 in the even one
theorem test_dw : ran 0x36200200#32 [(3#4, 7#32)] [(0x200, 2#32)] (fun t =>
    t.reg 3#4 == 3#32 && t.reg 2#4 == 1#32) = true := by decide
-- S,1 arithmetic right 1 (type 4, count -1): the sign is kept
theorem test_shift : ran 0x2510047F#32 [(1#4, 0x80000000#32)] [] (fun t =>
    t.reg 1#4 == 0xC0000000#32) = true := by decide
-- BAL,11 X'300': the link is X'101'
theorem test_bal : ran 0x6AB00300#32 [] [] (fun t =>
    t.reg 11#4 == 0x101#32 && t.psd.ia == 0x300#17 && t.branchOutcome == some true) = true := by decide
-- EXU of an LI
theorem test_exu : ran 0x67000200#32 [] [(0x200, 0x22400007#32)] (fun t =>
    t.reg 4#4 == 7#32 && t.psd.ia == 0x101#17 && t.exuDepth == 0) = true := by decide
-- PSW,1: the word at the new top, counts moved, pointer X'301'
theorem test_psw : ran 0x09100200#32 [(1#4, 0x55#32)] [(0x200, 0x300#32), (0x201, 0x00020003#32)] (fun t =>
    t.mem.readWord (4 * 0x301) == 0x55#32 && t.mem.readWord 0x800 == 0x301#32 &&
    t.mem.readWord 0x804 == 0x00010004#32 && t.psd.cc == 0#4) = true := by decide
-- PLW of an empty stack: the word limit traps
theorem test_plw_empty : ran 0x08100200#32 [] [(0x200, 0x300#32), (0x201, 0x00050000#32)] (fun t =>
    t.trapPending == some ⟨0x42, 0b0100#4, false⟩) = true := by decide
-- PSW onto a full stack whose next word is locked: the access comes before the limit (R604)
theorem test_psw_locked_full : after (step (lockedPage (small [] [(0x100, 0x09100180#32), (0x180, 0x1FF#32), (0x181, 5#32)])))
    (fun t => t.trapPending == some ⟨0x40, 0b0001#4, false⟩) = true := by decide
-- PSM there with the trap of the space limit inhibited: only CC1 is set, no access being made (R371, as in vector K7)
theorem test_psm_locked_inhibited :
    after (step (lockedPage (small [] [(0x100, 0x0B100180#32), (0x180, 0x1FF#32), (0x181, 0x80000000#32)])))
    (fun t => t.trapPending == none && t.psd.cc == 0b1000#4) = true := by decide
-- FAS: 1.0 + 1.0 = 2.0
theorem test_fas : ran 0x3D100200#32 [(1#4, 0x41100000#32)] [(0x200, 0x41100000#32)] (fun t =>
    t.reg 1#4 == 0x41200000#32 && t.psd.cc == 0b0001#4) = true := by decide
-- FMS: -2.0 * 3.0 = -6.0, the two's complement of X'41600000'
theorem test_fms : ran 0x3F100200#32 [(1#4, 0xBEE00000#32)] [(0x200, 0x41300000#32)] (fun t =>
    t.reg 1#4 == 0xBEA00000#32 && t.psd.cc == 0b0010#4) = true := by decide
-- FDS by zero traps and leaves the register
theorem test_fds_zero : ran 0x3E100200#32 [(1#4, 0x41100000#32)] [] (fun t =>
    t.reg 1#4 == 0x41100000#32 && t.trapPending == some ⟨0x44, 0#4, false⟩) = true := by decide
-- SF left 1: X'41010000' becomes X'40100000'
theorem test_sf : ran 0x24100001#32 [(1#4, 0x41010000#32)] [] (fun t => t.reg 1#4 == 0x40100000#32) = true := by decide
-- MBS of 2 bytes from X'800' to X'C00'
theorem test_mbs : ran 0x61200000#32 [(2#4, 0x800#32), (3#4, 0x02000C00#32)] [(0x200, 0xAABB0000#32)] (fun t =>
    t.mem.readWord 0xC00 == 0xAABB0000#32 && t.reg 2#4 == 0x802#32 && t.reg 3#4 == 0xC02#32) = true := by decide
-- CAL2,7 (R460)
theorem test_cal2 : ran 0x05700000#32 [] [] (fun t => t.trapPending == some ⟨0x49, 7#4, false⟩) = true := by decide
-- LRP: RP = bits 24-27 of the word
theorem test_lrp : ran 0x2F000200#32 [] [(0x200, 0xFFFFFF5F#32)] (fun t => t.psd.rp == 5#4) = true := by decide
-- MMC map: one image word, four pages from page 8
theorem test_mmc : ran 0x6F280000#32 [(2#4, 0x200#32), (3#4, 0x01001000#32)] [(0x200, 0x01020304#32)] (fun t =>
    t.map[8] == 1#13 && t.map[11] == 4#13 && t.reg 2#4 == 0x201#32 && t.reg 3#4 == 0x1800#32) = true := by decide
-- ANLZ of an LH: class halfword, address in halfwords
theorem test_anlz : ran 0x44100200#32 [] [(0x200, 0x52000300#32)] (fun t =>
    t.reg 1#4 == 0x600#32 && t.psd.cc == 0b0100#4) = true := by decide
-- DA on packed fields with the option: 12 + 5
theorem test_da : after (exec (.da 2#4 (direct 0x200#17)) (withDecimalOption (small [(15#4, 0x12C#32)]
    [(0x200, 0x005C0000#32)]))) (fun t => t.reg 15#4 == 0x17C#32 && t.psd.cc == 0b0001#4) = true := by
  decide +kernel
-- trap entry through an XPSD at X'40' (R606-R608): old PSD stored one instruction back, new one installed
theorem test_trap_entry : after (step { small [] [(0x40, 0x0F000200#32), (0x202, 0x00000500#32)] with
      trapPending := some ⟨0x40, 0b1000#4, false⟩ })
    (fun t => t.psd.ia == 0x500#17 && t.psd.cc == 0b1000#4 && t.mem.readWord 0x800 == 0xFF#32 &&
      t.trapPending == none) = true := by decide
-- LPSD: the return
theorem test_lpsd : ran 0x0E000200#32 [] [(0x200, 0x50000400#32), (0x201, 0x00000070#32)] (fun t =>
    t.psd.cc == 5#4 && t.psd.ia == 0x400#17 && t.psd.rp == 0#4) = true := by decide
-- STH into register 1's own upper half (halfword address 2): CC2 looks at the register after the store (R216)
theorem test_sth_own : ran 0x55100001#32 [(1#4, 0x00010000#32)] [] (fun t =>
    t.reg 1#4 == 0#32 && t.psd.cc == 0#4) = true := by decide
-- STS under another agent's store (R93, 70_reset_and_hazards.md R711): the store before the read is seen, the one between
-- the read and the write is lost
theorem test_sts_between : after (step { small [(2#4, 0xF0#32), (3#4, 0xF0#32)] [(0x100, 0x47200200#32)] with
      agenda := [.cpuCycle 0 [[], [.deviceStore .word 0x200 0x11#64], [.deviceStore .word 0x200 0x22#64]]] })
    (fun t => t.mem.readWord 0x800 == 0xF1#32 && t.between == []) = true := by decide
-- the status snapshot after an LI (R663)
theorem test_snapshot : ran 0x223FFFFF#32 [] [] (fun t =>
    t.snapshot == ⟨t.psd, 0x223FFFFF#32, false, none⟩) = true := by decide
-- a trap whose vector X'41' holds no XPSD: the CPU halts and the host is notified (R612, R665)
theorem test_fatal_notifies : after (step { small [] [] with trapPending := some ⟨0x41, 0#4, false⟩ }) (fun t =>
    t.fatal == some .malformedTrapVector && !t.running && t.hostCalls == [.threadExit]) = true := by decide
-- pages of 1024 bytes: word X'100' is the first of page 1, which the map takes to real page 3 (R10, R80, R98)
theorem test_page_size : ({ small [] [] with
      psd := { Psd.reset with mm := true }, map := (small [] []).map.set 1 3
      config := { Config.standard with sizes := { Sizes.standard with pageBytes := 1024 } } } : State).resolve
    0x101#17 .read = .ok (.real 0x301) := by decide
-- run until a branch is taken: a BCR of mask 0 stops the machine, a BCS of mask 0 does not (R661)
theorem test_until_taken : after (step { small [] [(0x100, 0x68000300#32)] with runMode := .untilBranchTaken })
    (fun t => !t.running && t.psd.ia == 0x300#17) = true ∧
    after (step { small [] [(0x100, 0x69000300#32)] with runMode := .untilBranchTaken }) (fun t => t.running) = true := by
  decide
-- the text of R148 and R149: LW,5 *X'100',2 and BNEZ *7, BCS with mask 3
theorem test_parse :
    parse ['A', '1', ' ', 'L', 'W', ',', '5', ' ', '*', 'X', quoteChar, '1', '0', '0', quoteChar, ',', '2'] =
      some (.lw 5#4 ⟨true, 2#3, 0x100#17⟩) ∧
    parse ['B', 'N', 'E', 'Z', ' ', '*', '7'] = some (.bcs 3#4 ⟨true, 0#3, 7#17⟩) := by decide
-- MTW,-8 7,3
theorem test_parse_delta :
    parse ['M', 'T', 'W', ',', '-', '8', ' ', '7', ',', '3'] = some (.mtw 8#4 ⟨false, 3#3, 7#17⟩) := by decide
-- CAL1,5 (R460) and WAIT (R468) without an address (notes/assumptions/31.md)
theorem test_parse_alone :
    parse ['C', 'A', 'L', '1', ',', '5'] = some (.cal1 5#4 (direct 0)) ∧
    parse ['W', 'A', 'I', 'T'] = some (.wait 0#4 (direct 0)) := by decide
-- a tooling load is reported, and so is its fault beyond memory (R94)
theorem test_tool_load :
    after (step { small [] [(0x200, 0x11223344#32)] with agenda := [.access (.toolLoad .real .half 0x401)] }) (fun t =>
      t.toolReports == [.loaded 0x3344#64] && t.trapPending == none) = true ∧
    after (step { onePage (small [] []) with agenda := [.access (.toolLoad .mapped .word 0x200)] }) (fun t =>
      t.toolReports == [.loaded 0#64]) = true ∧
    after (step { onePage (small [] []) with agenda := [.access (.toolLoad .real .word 0x200)] }) (fun t =>
      t.toolReports == [.fault] && t.trapPending == none) = true := by decide
-- an LM of two words into registers 15 and 0, of which it reads the second from register 15 (R212, R61)
theorem test_lm_wrap : ran 0x2AF0000E#32 [(14#4, 7#32), (15#4, 9#32)] [] (fun t => t.reg 15#4 == 7#32 && t.reg 0#4 == 7#32) =
    true := by decide
-- a placed word runs as the first instruction after reset
theorem test_withFetchWord : after (step (State.reset.withFetchWord 32 0x22300007)) (fun t =>
    t.reg 3#4 == 7#32 && t.psd.ia == 1#17) = true := by decide

/-! ## Witnesses: the hypotheses of each statement met together, at boundaries of its clauses -/

/-- A word is read as it stands where no other agent acts. -/
theorem readWord_quiet {s : State} {vw : WordAddr} {p : Place} {v : Word} (hb : s.between = [])
    (h : s.resolve vw .read = .ok p ∧ s.loadWord p = v) : s.readWord vw .read = .ok v s :=
  State.readWord_ok.2 ⟨p, h.1, by rw [s.others_nil hb]; exact h.2, s.others_nil hb⟩

/-- Words for the operand witnesses at X'200'. -/
def operands : State := small [] [(0x200, 0x80001234#32), (0x201, 0xFFFFFFFF#32)]

/-- `operands` in a cycle in which another agent stores 5 at X'200' before the first access. -/
def busy : State := { operands with between := [[.deviceStore .word 0x200 5#64]] }

theorem witness_ByteOperandInstructions : operands.ByteOperand (direct 0x200) 0x80#8 operands := ⟨_, _, rfl, rfl⟩
theorem witness_HalfwordInstructions : operands.HalfOperand (direct 0x200) 0x8000#16 operands := ⟨_, _, rfl, rfl⟩
-- WordLoadsAndLogical, WordArithmeticAndCompares: memory, the most negative word, a register, and a word just stored
theorem witness_word_operand : operands.WordOperand (direct 0x200) 0x80001234#32 operands ∧
    (small [] [(0x200, 0x80000000#32)]).WordOperand (direct 0x200) 0x80000000#32 (small [] [(0x200, 0x80000000#32)]) ∧
    (small [(5#4, 7#32)] []).WordOperand (direct 5) 7#32 (small [(5#4, 7#32)] []) ∧
    busy.WordOperand (direct 0x200) 5#32 busy.others :=
  ⟨⟨_, _, rfl, rfl⟩, ⟨_, _, rfl, rfl⟩, ⟨_, _, rfl, rfl⟩, ⟨_, _, rfl, rfl⟩⟩
theorem witness_DoublewordInstructions : operands.DoubleOperand (direct 0x201) 0x80001234FFFFFFFF#64 operands :=
  ⟨_, _, rfl, rfl⟩

-- Division: the largest quotient that fits and the smallest that does not, a zero divisor
/-- A dividend and a halfword divisor of -1. -/
def minusOne : State := small [(2#4, 0x80000000#32)] [(0x200, 0xFFFF0000#32)]
theorem witness_Division_half : minusOne.HalfOperand (direct 0x200) 0xFFFF#16 minusOne ∧
    (2 : Int) ^ 31 ≤ (0x80000000#32).toInt.tdiv (0xFFFF#16).toInt ∧
    ¬(2 : Int) ^ 31 ≤ (0x7FFFFFFF#32).toInt.tdiv (1#16).toInt ∧
    (small [] []).HalfOperand (direct 0x200) 0#16 (small [] []) :=
  ⟨⟨_, _, rfl, rfl⟩, by decide, by decide, ⟨_, _, rfl, rfl⟩⟩
/-- A dividend of 7 and a word divisor of 2. -/
def sevenByTwo : State := small [(3#4, 7#32)] [(0x200, 2#32)]
theorem witness_Division_word : sevenByTwo.WordOperand (direct 0x200) 2#32 sevenByTwo ∧
    (sevenByTwo.reg 2#4 ++ sevenByTwo.reg (ru1 2#4)).toInt = 7 ∧ (2 : Int) ^ 31 ≤ (1#32 ++ 0#32).toInt.tdiv 2 :=
  ⟨⟨_, _, rfl, rfl⟩, by decide, by decide⟩

-- StoreInstructions, AtomicInstructions: a place in memory and one in a register
theorem witness_store_byte : operands.ByteTarget (direct 0x200) 0x800#19 (.real 0x200) operands ∧
    operands.ByteTarget (direct 15) 0x3C#19 (.reg 15#4) operands :=
  ⟨⟨_, rfl, rfl, by decide, by decide⟩, ⟨_, rfl, rfl, by decide, by decide⟩⟩
theorem witness_store_half : operands.HalfTarget (direct 0x200) 0x400#18 (.real 0x200) operands ∧
    operands.HalfTarget (direct 1) 2#18 (.reg 1#4) operands :=
  ⟨⟨_, rfl, rfl, by decide, by decide⟩, ⟨_, rfl, rfl, by decide, by decide⟩⟩
theorem witness_store_word : operands.WordTarget (direct 16) 16#17 (.real 16) operands ∧
    operands.WordTarget (direct 15) 15#17 (.reg 15#4) operands ∧
    busy.WordTarget (direct 0x200) 0x200#17 (.real 0x200) busy.others :=
  ⟨⟨_, rfl, rfl, by decide, by decide⟩, ⟨_, rfl, rfl, by decide, by decide⟩, ⟨_, rfl, rfl, by decide, by decide⟩⟩
theorem witness_store_selective : operands.effWord (direct 0x200) = .ok 0x200#17 operands ∧
    operands.readWord 0x200#17 .read = .ok 0x80001234#32 operands ∧ operands = operands.others ∧
    operands.mem.wf = true ∧ operands.resolve 0x200#17 .write = .ok (.real 0x200) :=
  ⟨rfl, rfl, rfl, by decide, by decide⟩
theorem witness_store_double : operands.DoubleTarget (direct 0x201) 0x100#16 (.real 0x200) operands ∧
    operands.DoubleTarget (direct 15) 7#16 (.reg 14#4) operands :=
  ⟨⟨_, rfl, rfl, by decide, by decide⟩, ⟨_, rfl, rfl, by decide, by decide⟩⟩
-- a zero delta tests, and MTB with delta -8, the smallest
theorem witness_AtomicInstructions : operands.ByteOperand (direct 0x200) 0x80#8 operands ∧
    operands.HalfOperand (direct 0x200) 0x8000#16 operands ∧ operands.WordOperand (direct 0x200) 0x80001234#32 operands ∧
    8#4 ≠ 0#4 ∧ 0x80#8 = operands.loadByte (.real 0x200) ((0x800#19).extractLsb' 0 2) ∧
    0x8000#16 = operands.loadHalf (.real 0x200) ((0x400#18).extractLsb' 0 1) :=
  ⟨⟨_, _, rfl, rfl⟩, ⟨_, _, rfl, rfl⟩, ⟨_, _, rfl, rfl⟩, by decide, rfl, rfl⟩

-- MultipleTransfers: CC = 0 names all 16 registers, here over the register window's end and memory
theorem witness_MultipleTransfers_load : operands.between = [] ∧ operands.effWord (direct 8) = .ok 8#17 operands ∧ operands.psd.cc = 0#4 ∧
    ∀ k, k < 16 → operands.resolve (8#17 + BitVec.ofNat 17 k) .read =
      .ok (if k < 8 then .reg (8#4 + BitVec.ofNat 4 k) else .real (8 + k)) := 
  ⟨rfl, rfl, by decide, by decide⟩
theorem witness_MultipleTransfers_store : operands.mem.wf = true ∧
    ∀ k, k < 16 → operands.resolve (8#17 + BitVec.ofNat 17 k) .write =
      .ok (if k < 8 then .reg (8#4 + BitVec.ofNat 4 k) else .real (8 + k)) := by decide

-- an LM and an STM that trap at their first and at their last word
theorem witness_MultipleTransfers_load_traps : (onePage operands).between = [] ∧ (onePage operands).psd.cc = 0#4 ∧
    (onePage operands).effWord (direct 0x200) = .ok 0x200#17 (onePage operands) ∧
    (onePage operands).resolve (0x200#17 + BitVec.ofNat 17 0) .read = .error trapNoMemory ∧
    (onePage operands).effWord (direct 0x1F1) = .ok 0x1F1#17 (onePage operands) ∧
    (∀ j, j < 15 → (onePage operands).resolve (0x1F1#17 + BitVec.ofNat 17 j) .read = .ok (.real (0x1F1 + j))) ∧
    (onePage operands).resolve (0x1F1#17 + BitVec.ofNat 17 15) .read = .error trapNoMemory :=
  ⟨rfl, by decide, rfl, by decide, rfl, by decide, by decide⟩
theorem witness_MultipleTransfers_store_traps : (lockedPage operands).between = [] ∧ (lockedPage operands).mem.wf = true ∧
    (lockedPage operands).psd.cc = 0#4 ∧
    (lockedPage operands).effWord (direct 0x200) = .ok 0x200#17 (lockedPage operands) ∧
    (lockedPage operands).resolve (0x200#17 + BitVec.ofNat 17 0) .write = .error trapProtection ∧
    (lockedPage operands).effWord (direct 0x1F1) = .ok 0x1F1#17 (lockedPage operands) ∧
    (∀ j, j < 15 → (lockedPage operands).resolve (0x1F1#17 + BitVec.ofNat 17 j) .write = .ok (.real (0x1F1 + j))) ∧
    (lockedPage operands).resolve (0x1F1#17 + BitVec.ofNat 17 15) .write = .error trapProtection :=
  ⟨rfl, by decide, by decide, rfl, by decide, rfl, by decide, by decide⟩

/-- A conversion table at X'200'. -/
def table : State := small [(3#4, 0x80000001#32)] [(0x200, 0xFFFFFFFF#32), (0x21F, 1#32)]
/-- Its words. -/
def tableWord (i : Nat) : Word := if i = 0 then 0xFFFFFFFF#32 else if i = 31 then 1#32 else 0#32
/-- What CVS has left before word i of it. -/
def left : Nat → Nat
  | 0 => 0x80000001
  | i + 1 => if (tableWord i).toNat ≤ left i then left i - (tableWord i).toNat else left i

/-- Word i of it is read. -/
theorem table_read (i : Nat) (h : i < 32) :
    table.readWord (0x200#17 + BitVec.ofNat 17 i) .read = .ok (tableWord i) table :=
  readWord_quiet (p := .real (0x200 + i)) rfl
    ((by decide +kernel : ∀ i, i < 32 → table.resolve (0x200#17 + BitVec.ofNat 17 i) .read = .ok (.real (0x200 + i)) ∧
      table.loadWord (.real (0x200 + i)) = tableWord i) i h)
-- the smallest sum that does not fit 32 bits
theorem witness_Conversions_add : table.between = [] ∧ table.effWord (direct 0x200) = .ok 0x200#17 table ∧
    (∀ i, i < 32 → (table.reg (ru1 2#4)).getLsbD (31 - i) = true →
      table.readWord (0x200#17 + BitVec.ofNat 17 i) .read = .ok (tableWord i) table) ∧
    2 ^ 32 = ((List.range 32).map fun i =>
      if (table.reg (ru1 2#4)).getLsbD (31 - i) then (tableWord i).toNat else 0).sum :=
  ⟨rfl, rfl, fun i h _ => table_read i h, by decide +kernel⟩
theorem witness_Conversions_subtract :
    (∀ i, i < 32 → table.readWord (0x200#17 + BitVec.ofNat 17 i) .read = .ok (tableWord i) table) ∧
    left 0 = (table.reg (ru1 2#4)).toNat ∧
    (∀ i, i < 32 → left (i + 1) = if (tableWord i).toNat ≤ left i then left i - (tableWord i).toNat else left i) :=
  ⟨table_read, by decide, fun _ _ => rfl⟩

-- Shift: each type, at the two ends of the count
theorem witness_Shift : ∀ type, type < 8 →
    operands.effWord (direct (BitVec.ofNat 17 (256 * type + 63))) = .ok (BitVec.ofNat 17 (256 * type + 63)) operands ∧
    ((BitVec.ofNat 17 (256 * type + 63)).extractLsb' 0 7).toInt = 63 ∧
    ((BitVec.ofNat 17 (256 * type + 64)).extractLsb' 0 7).toInt = -64 ∧
    ((BitVec.ofNat 17 (256 * type + 63)).extractLsb' 8 3).toNat = type := by
  intro type h
  interval_cases type <;> exact ⟨rfl, by decide⟩
theorem witness_Branches : operands.effWord ⟨false, 1#3, 0x1FFFF#17⟩ = .ok 0x1FFFF#17 operands := rfl
/-- An `LI,3 -1` at X'200'. -/
def subject : State := small [] [(0x200, 0x223FFFFF#32)]
theorem witness_Execute : subject.effWord (direct 0x200) = .ok 0x200#17 subject ∧
    subject.readWord 0x200#17 .execute = .ok 0x223FFFFF#32 subject ∧ subject.exuDepth < subject.config.exuLimit ∧
    decode 0x223FFFFF#32 = .ok (.li 3#4 0xFFFFF#20) ∧ decode 0#32 = .error .unassignedOpcode ∧
    ({ small [] [] with exuDepth := 100 } : State).config.exuLimit ≤ 100 :=
  ⟨rfl, rfl, by decide, by decide, by decide, by decide⟩

/-- A stack whose pointer is at X'200', with these counts and the top at X'300'. -/
def stack (space words : BitVec 15) : State :=
  small [(2#4, 0xFFFF#32)] [(0x200, 0x300#32), (0x201, 0#1 ++ space ++ 0#1 ++ words)]
/-- Its pointer. -/
def stackAt (space words : BitVec 15) : StackPointer := ⟨0#15, 0x300#17, false, space, false, words⟩

-- the last word of space, and the last count of words
theorem witness_StackPush_one : (stack 1 32766).between = [] ∧
    (stack 1 32766).effDouble (direct 0x200) = .ok 0x100#16 (stack 1 32766) ∧ (stack 1 32766).mem.wf = true ∧
    (stack 1 32766).resolve (0x100#16 ++ 0#1) .read = .ok (.real 0x200) ∧
    (stack 1 32766).resolve (0x100#16 ++ 0#1) .write = .ok (.real 0x200) ∧
    stackAt 1 32766 = spdDecode ((stack 1 32766).loadDouble (.real 0x200)) ∧ 1 ≤ (stackAt 1 32766).space.toNat ∧
    (stackAt 1 32766).words.toNat + 1 ≤ 32767 ∧
    ∀ k, k < 1 → (stack 1 32766).resolve ((stackAt 1 32766).tsa + 1#17 + BitVec.ofNat 17 k) .write =
      .ok (.real (0x301 + k)) :=
  ⟨rfl, rfl, by decide⟩
theorem witness_StackPush_many : (stack 16 0).psd.cc = 0#4 ∧
    stackAt 16 0 = spdDecode ((stack 16 0).loadDouble (.real 0x200)) ∧ 16 ≤ (stackAt 16 0).space.toNat ∧
    ∀ k, k < 16 → (stack 16 0).resolve ((stackAt 16 0).tsa + 1#17 + BitVec.ofNat 17 k) .write =
      .ok (.real (0x301 + k)) := by decide +kernel
theorem witness_StackPull_one : (stack 32766 1).readWord (stackAt 32766 1).tsa .read = .ok 0#32 (stack 32766 1) ∧
    (stack 32766 1).effDouble (direct 0x200) = .ok 0x100#16 (stack 32766 1) ∧
    stackAt 32766 1 = spdDecode ((stack 32766 1).loadDouble (.real 0x200)) ∧
    1 ≤ (stackAt 32766 1).words.toNat ∧ (stackAt 32766 1).space.toNat + 1 ≤ 32767 ∧ (stack 32766 1).mem.wf = true ∧
    (stack 32766 1).resolve (0x100#16 ++ 0#1) .read = .ok (.real 0x200) ∧
    (stack 32766 1).resolve (0x100#16 ++ 0#1) .write = .ok (.real 0x200) :=
  ⟨rfl, rfl, by decide⟩
theorem witness_StackPull_many : stackAt 0 16 = spdDecode ((stack 0 16).loadDouble (.real 0x200)) ∧
    16 ≤ (stackAt 0 16).words.toNat ∧ (stackAt 0 16).space.toNat + 16 ≤ 32767 ∧
    ∀ k, k < 16 → (stack 0 16).resolve ((stackAt 0 16).tsa - BitVec.ofNat 17 16 + 1#17 + BitVec.ofNat 17 k) .read =
      .ok (.real (0x2F1 + k)) := by decide +kernel
-- a modifier of -1, and with x[1] = 0 a zero modifier
theorem witness_ModifyStackPointer : stackAt 32766 1 = spdDecode ((stack 32766 1).loadDouble (.real 0x200)) ∧
    (((stack 32766 1).reg 2#4).extractLsb' 0 16).toInt = -1 ∧ (((stack 32766 1).reg 1#4).extractLsb' 0 16).toInt = 0 ∧
    (32766 : Int) - (-1) ≤ 32767 ∧ (0 : Int) ≤ 1 + (-1) := by decide +kernel
/-- A stack with no space and no words, both limits inhibited, whose words and pointer are locked. -/
def inhibitedStack : State := lockedPage (small [] [(0x200, 0x300#32), (0x201, 0x80008000#32)])
-- a push meets the space limit, a pull the word limit
theorem witness_StackLimits_inhibited : inhibitedStack.effDouble (direct 0x200) = .ok 0x100#16 inhibitedStack ∧
    inhibitedStack.readDouble 0x100#16 .read = .ok 0x0000030080008000#64 inhibitedStack ∧
    (spdDecode 0x0000030080008000#64).SpaceLimit 1 ∧ (spdDecode 0x0000030080008000#64).ts = true ∧
    ¬(spdDecode 0x0000030080008000#64).SpaceLimit (-1) ∧ (spdDecode 0x0000030080008000#64).WordLimit (-1) ∧
    (spdDecode 0x0000030080008000#64).tw = true ∧ inhibitedStack.resolve 0x301#17 .write = .error trapProtection :=
  ⟨rfl, rfl, by decide⟩
-- each limit, one beyond; the words and the pointer of the shortest change of each kind may be accessed
theorem witness_StackLimits : (stack 0 0).effDouble (direct 0x200) = .ok 0x100#16 (stack 0 0) ∧
    (stack 0 0).readDouble 0x100#16 .read = .ok ((stack 0 0).loadDouble (.real 0x200)) (stack 0 0) ∧
    (stack 1 32767).effDouble (direct 0x200) = .ok 0x100#16 (stack 1 32767) ∧
    (stack 1 32767).readDouble 0x100#16 .read = .ok ((stack 1 32767).loadDouble (.real 0x200)) (stack 1 32767) ∧
    stackAt 0 0 = spdDecode ((stack 0 0).loadDouble (.real 0x200)) ∧
    (stack 0 0).resolve (0x100#16 ++ 0#1) .write = .ok (.real 0x200) ∧
    (stack 1 32767).resolve (0x100#16 ++ 0#1) .write = .ok (.real 0x200) ∧
    (stack 0 0).resolve ((stackAt 0 0).tsa + 1#17 + BitVec.ofNat 17 0) .write = .ok (.real 0x301) ∧
    (stack 0 0).resolve ((stackAt 0 0).tsa + BitVec.ofInt 17 (-1) + 1#17 + BitVec.ofNat 17 0) .read = .ok (.real 0x300) ∧
    ¬(0 ≤ ((stackAt 0 0).space.toNat : Int) - 1) ∧ ¬(0 ≤ ((stackAt 0 0).words.toNat : Int) + (-1)) ∧
    ¬(((stackAt 1 32767).words.toNat : Int) + 1 ≤ 32767) ∧
    ¬(((stackAt 32767 1).space.toNat : Int) - (-1) ≤ 32767) ∧ (((stack 0 0).reg 2#4).extractLsb' 0 16).toInt ≠ 0 :=
  ⟨rfl, rfl, rfl, rfl, by decide⟩

/-! Floating point. -/

theorem witness_FloatInstructions : operands.config.floatOption = true ∧ operands.config.floatInstance = 0 ∧
    operands.WordOperand (direct 0x200) 0x80001234#32 operands ∧
    operands.DoubleOperand (direct 0x200) 0x80001234FFFFFFFF#64 operands ∧
    floatArith .div 0x41100000#32 0#32 false false false false none = .divzero ∧
    floatArith .sub 0x41100000#32 0x40FFFFFF#32 true false false false none = .sig 0x3B100000#32 :=
  ⟨by decide, by decide, ⟨_, _, rfl, rfl⟩, ⟨_, _, rfl, rfl⟩, by decide, by decide +kernel⟩
theorem witness_FloatInstructions_absent : (withoutFloat operands).config.floatOption = false := by decide
-- 1.0 * 1.0 is in range
theorem witness_FloatResults_range : floatValue 0x41100000#32 = 16 ^ 70 ∧
    (16 ^ (64 + 6) * 16 ^ (6 - 1) ≤ ((16 : Int) ^ 70 * 16 ^ 70).natAbs) ∧
    ((16 : Int) ^ 70 * 16 ^ 70).natAbs < 16 ^ (64 + 6) * 16 ^ (127 + 6) := by decide +kernel
-- the largest number doubled overflows, the smallest normalized one squared underflows
theorem witness_FloatResults_overflow :
    1 * 16 ^ (127 + 6) ≤ (floatValue 0x7FFFFFFF#32 + floatValue 0x7FFFFFFF#32).natAbs := by decide +kernel
theorem witness_FloatResults_underflow : floatValue 0x00100000#32 * floatValue 0x00100000#32 ≠ 0 ∧
    (floatValue 0x00100000#32 * floatValue 0x00100000#32).natAbs < 16 ^ (64 + 6) * 16 ^ (6 - 1) := by decide +kernel
-- a zero result, and a divisor of zero; the long form
theorem witness_FloatResults_zero : floatValue 0x41100000#32 - floatValue 0x41100000#32 = 0 ∧
    floatValue 0x41000000#32 = 0 ∧ floatValue 0x4110000000000000#64 = 16 ^ 78 ∧
    floatValue 0xBEF0000000000000#64 = -16 ^ 78 := by decide +kernel
-- 2/3 rounded up in its last digit, and a product whose last digits are all ones, rounded up to the next characteristic
theorem witness_FloatResults_up :
    floatArith .div 0x41200000#32 0x41300000#32 false false false true none = .ok 0x40AAAAAB#32 ∧
    floatArith .div 0x41200000#32 0x41300000#32 false false false false none = .ok 0x40AAAAAA#32 ∧
    floatArith .sub 0x41100000#32 0x39000001#32 false false false true none = .ok 0x41100000#32 := by decide +kernel
-- 1.0 + -1/16 unnormalized: proposed as X'410F0000', which has the exact value, and as another word
theorem witness_FloatResults_proposed :
    floatValue 0x41100000#32 - floatValue 0x40100000#32 = floatValue 0x410F0000#32 ∧
    floatArith .sub 0x41100000#32 0x40100000#32 false false true false (some 0x410F0000#32) = .ok 0x410F0000#32 ∧
    floatArith .sub 0x41100000#32 0x40100000#32 false false true false (some 0x410E0000#32) = .ok 0x40F00000#32 := by
  decide +kernel
-- SF: left 1, right 64 beyond the largest characteristic, the short and the long operand
theorem witness_ShiftFloating_short : (small [(1#4, 0x41010000#32)] []).config.floatOption = true ∧
    (small [(1#4, 0x41010000#32)] []).effWord (direct 1) = .ok 1#17 (small [(1#4, 0x41010000#32)] []) ∧ (1#17)[8] = false ∧
    ((1#17).extractLsb' 0 7).toInt = 1 ∧ FloatShiftsTo 1 0x41010000#32 64 0x100000 ∧
    FloatShiftsTo (-64) 0x41010000#32 129 0 := by
  refine ⟨by decide, rfl, by decide, by decide, ⟨1, by decide, by decide, by decide, by decide, ?_⟩, ?_⟩
  · intro j hj
    obtain rfl : j = 0 := by omega
    decide +kernel
  · exact ⟨by decide +kernel, by decide +kernel⟩
theorem witness_ShiftFloating_absent : (withoutFloat operands).config.floatOption = false := by decide
-- a fraction of 0 shifted right by 1
theorem witness_ShiftFloating_zero : FloatShiftsTo (-1) 0x45000000#32 70 0 :=
  ⟨by decide +kernel, by decide +kernel⟩
theorem witness_ShiftFloating_long : (small [(2#4, 0x41010000#32)] []).effWord (direct 0x100) =
      .ok 0x100#17 (small [(2#4, 0x41010000#32)] []) ∧
    (0x100#17)[8] = true ∧ ((0x100#17).extractLsb' 0 7).toInt = 0 ∧
    (small [(2#4, 0x41010000#32)] []).reg 2#4 ++ (small [(2#4, 0x41010000#32)] []).reg (ru1 2#4) =
      0x4101000000000000#64 ∧
    FloatShiftsTo 0 0x4101000000000000#64 65 0x01000000000000 :=
  ⟨rfl, by decide, by decide, by decide, by decide +kernel, by decide +kernel⟩

/-! Byte strings: two bytes at X'800' (source or table), two at X'C00' (destination). -/

/-- Source byte address X'800' and two bytes of destination at X'C00'; the destination bytes are 1 and 0. -/
def strings : State :=
  small [(2#4, 0xFF000800#32), (3#4, 0x02000C00#32)] [(0x200, 0xAABB0000#32), (0x300, 0x01000000#32)]
/-- Memory after k bytes of a move of `strings`. -/
def moved : Nat → Memory
  | 0 => strings.mem
  | k + 1 => (moved k).write (0xC00 + k) ((moved k).read (0x800 + k))
/-- Memory after k bytes of a translation of `strings`. -/
def translated : Nat → Memory
  | 0 => strings.mem
  | k + 1 => (translated k).write (0xC00 + k) ((translated k).read (0x800 + ((translated k).read (0xC00 + k)).toNat))

-- a count of 0, a source that cannot be read, and a destination that may be read and is locked
theorem witness_MoveAndTranslate_stops : (small [] []).stringCount 2#4 = 0 ∧ 0 < strings.stringCount 2#4 ∧
    (onePage strings).readByte
      (strings.stringSource 2#4 + stringDisp 0) .read =
      .trap trapNoMemory (onePage strings) ∧
    strings.readByte (strings.stringSource 2#4 + stringDisp 0) .read = .ok 0xAA#8 strings ∧
    (lockedPage strings).resolve
      ((strings.stringDest 2#4).extractLsb' 2 17) .write = .error trapProtection :=
  ⟨by decide, by decide, rfl, rfl, by decide⟩
theorem witness_MoveAndTranslate_step : (2#4)[0] = false ∧ 0 < strings.stringCount 2#4 ∧
    strings.readByte (strings.stringSource 2#4 + stringDisp 0) .read = .ok 0xAA#8 strings ∧
    ∃ t, strings.writeByte (strings.stringDest 2#4) 0xAA#8 = .ok () t :=
  ⟨by decide, by decide, rfl, ⟨_, rfl⟩⟩
theorem witness_MoveAndTranslate_move :
    0x800#19 = (strings.reg 2#4).extractLsb' 0 19 ∧ 2 = ((strings.reg (ru1 2#4)).extractLsb' 24 8).toNat ∧
    moved 0 = strings.mem ∧ ∀ k, k < 2 →
      strings.RealByte (0x800#19 + (0#20).setWidth 19 + BitVec.ofNat 19 k) .read (0x800 + k) ∧
      strings.RealByte ((strings.reg (ru1 2#4)).extractLsb' 0 19 + BitVec.ofNat 19 k) .write (0xC00 + k) ∧
      moved (k + 1) = (moved k).write (0xC00 + k) ((moved k).read (0x800 + k)) := by
  refine ⟨by decide, by decide, rfl, fun k hk => ?_⟩
  obtain rfl | rfl : k = 0 ∨ k = 1 := by omega
  · exact ⟨⟨0x200, by decide, by decide⟩, ⟨0x300, by decide, by decide⟩, rfl⟩
  · exact ⟨⟨0x200, by decide, by decide⟩, ⟨0x300, by decide, by decide⟩, rfl⟩
theorem witness_MoveAndTranslate_translate : ∀ k, k < 2 →
    strings.RealByte ((strings.reg (ru1 2#4)).extractLsb' 0 19 + BitVec.ofNat 19 k) .read (0xC00 + k) ∧
    strings.RealByte ((strings.reg (ru1 2#4)).extractLsb' 0 19 + BitVec.ofNat 19 k) .write (0xC00 + k) ∧
    strings.RealByte (0x800#19 + (0#20).setWidth 19 + ((translated k).read (0xC00 + k)).setWidth 19) .read
      (0x800 + ((translated k).read (0xC00 + k)).toNat) ∧
    translated (k + 1) = (translated k).write (0xC00 + k)
      ((translated k).read (0x800 + ((translated k).read (0xC00 + k)).toNat)) := by
  intro k hk
  obtain rfl | rfl : k = 0 ∨ k = 1 := by omega
  · exact ⟨⟨0x300, by decide, by decide⟩, ⟨0x300, by decide, by decide⟩, ⟨0x200, by decide, by decide⟩, rfl⟩
  · exact ⟨⟨0x300, by decide, by decide⟩, ⟨0x300, by decide, by decide⟩, ⟨0x200, by decide, by decide⟩, rfl⟩
/-- Strings of two bytes from these addresses; the byte at X'400' is 0, the one at X'401' is 1. -/
def edge (src dst : Word) : State := small [(2#4, src), (3#4, 0x02000000#32 ||| dst)] [(0x100, 0x00010000#32)]
-- byte 1 that traps: the source and the destination beyond memory, the destination locked; and byte 0 that does
theorem witness_MoveAndTranslate_move_traps :
    (onePage (edge 0x7FF 0x400)).RealByte (0x7FF#19 + (0#20).setWidth 19 + BitVec.ofNat 19 0) .read 0x7FF ∧
    (onePage (edge 0x7FF 0x400)).RealByte (0x400#19 + BitVec.ofNat 19 0) .write 0x400 ∧
    (onePage (edge 0x7FF 0x400)).resolve ((0x7FF#19 + (0#20).setWidth 19 + BitVec.ofNat 19 1).extractLsb' 2 17) .read =
      .error trapNoMemory ∧
    (lockedPage (edge 0x400 0x7FF)).RealByte (0x400#19 + (0#20).setWidth 19 + BitVec.ofNat 19 1) .read 0x401 ∧
    (lockedPage (edge 0x400 0x7FF)).RealByte (0x7FF#19 + BitVec.ofNat 19 0) .write 0x7FF ∧
    (lockedPage (edge 0x400 0x7FF)).resolve ((0x7FF#19 + BitVec.ofNat 19 1).extractLsb' 2 17) .write =
      .error trapProtection ∧
    (onePage (edge 0x800 0x400)).resolve ((0x800#19 + (0#20).setWidth 19 + BitVec.ofNat 19 0).extractLsb' 2 17) .read =
      .error trapNoMemory :=
  ⟨⟨0x1FF, by decide, by decide⟩, ⟨0x100, by decide, by decide⟩, by decide, ⟨0x100, by decide, by decide⟩,
    ⟨0x1FF, by decide, by decide⟩, by decide, by decide⟩
-- byte 1 beyond memory; its table byte beyond memory; its store locked
theorem witness_MoveAndTranslate_translate_traps :
    (onePage (edge 0x400 0x7FF)).RealByte (0x7FF#19 + BitVec.ofNat 19 0) .write 0x7FF ∧
    (onePage (edge 0x400 0x7FF)).resolve ((0x7FF#19 + BitVec.ofNat 19 1).extractLsb' 2 17) .read = .error trapNoMemory ∧
    (onePage (edge 0x7FF 0x400)).RealByte (0x400#19 + BitVec.ofNat 19 1) .read 0x401 ∧
    (onePage (edge 0x7FF 0x400)).resolve ((0x7FF#19 + (0#20).setWidth 19 +
      (((edge 0x7FF 0x400).mem.write 0x400 0#8).read 0x401).setWidth 19).extractLsb' 2 17) .read = .error trapNoMemory ∧
    (lockedPage (edge 0x400 0x7FF)).RealByte (0x7FF#19 + BitVec.ofNat 19 1) .read 0x800 ∧
    (lockedPage (edge 0x400 0x7FF)).RealByte (0x400#19 + (0#20).setWidth 19 + (0#8).setWidth 19) .read 0x400 ∧
    (lockedPage (edge 0x400 0x7FF)).resolve ((0x7FF#19 + BitVec.ofNat 19 1).extractLsb' 2 17) .write =
      .error trapProtection :=
  ⟨⟨0x1FF, by decide, by decide⟩, by decide, ⟨0x100, by decide, by decide⟩, by decide, ⟨0x200, by decide, by decide⟩,
    ⟨0x100, by decide, by decide⟩, by decide⟩
-- CBS: byte 0 equal, byte 1 beyond memory in the source or in the destination; TTBS: byte 1 or its table byte beyond memory
theorem witness_CompareAndTest_traps :
    (edge 0x7FF 0x400).mem.read 0x7FF = (edge 0x7FF 0x400).mem.read 0x400 ∧
    (onePage (edge 0x7FF 0x400)).resolve ((0x7FF#19 + (0#20).setWidth 19 + BitVec.ofNat 19 1).extractLsb' 2 17) .read =
      .error trapNoMemory ∧
    (onePage (edge 0x400 0x7FF)).RealByte (0x400#19 + (0#20).setWidth 19 + BitVec.ofNat 19 1) .read 0x401 ∧
    (onePage (edge 0x400 0x7FF)).resolve ((0x7FF#19 + BitVec.ofNat 19 1).extractLsb' 2 17) .read = .error trapNoMemory ∧
    0xFF#8 = ((onePage (edge 0xFF0007FF 0x400)).reg 2#4).extractLsb' 24 8 ∧
    (edge 0xFF0007FF 0x400).mem.read 0x7FF &&& 0xFF#8 = 0#8 ∧
    (onePage (edge 0xFF0007FF 0x400)).RealByte (0x400#19 + BitVec.ofNat 19 1) .read 0x401 ∧
    (onePage (edge 0xFF0007FF 0x400)).resolve ((0x7FF#19 + (0#20).setWidth 19 +
      ((edge 0xFF0007FF 0x400).mem.read 0x401).setWidth 19).extractLsb' 2 17) .read = .error trapNoMemory :=
  ⟨by decide, by decide, ⟨0x100, by decide, by decide⟩, by decide, by decide, by decide, ⟨0x100, by decide, by decide⟩,
    by decide⟩
-- the strings differ at byte 0 (j = 0), and a string compared with itself is equal to its end (j = 2)
theorem witness_CompareAndTest_differ :
    strings.RealByte (0x800#19 + (0#20).setWidth 19 + BitVec.ofNat 19 0) .read 0x800 ∧
    strings.RealByte ((strings.reg (ru1 2#4)).extractLsb' 0 19 + BitVec.ofNat 19 0) .read 0xC00 ∧
    strings.mem.read 0x800 ≠ strings.mem.read 0xC00 :=
  ⟨⟨0x200, by decide, by decide⟩, ⟨0x300, by decide, by decide⟩, by decide⟩
theorem witness_CompareAndTest_equal : ∀ k, k < 2 → k ≤ 2 →
    strings.RealByte (0x800#19 + (0x400#20).setWidth 19 + BitVec.ofNat 19 k) .read (0xC00 + k) ∧
    strings.RealByte ((strings.reg (ru1 2#4)).extractLsb' 0 19 + BitVec.ofNat 19 k) .read (0xC00 + k) := by
  intro k hk _
  obtain rfl | rfl : k = 0 ∨ k = 1 := by omega
  · exact ⟨⟨0x300, by decide, by decide⟩, ⟨0x300, by decide, by decide⟩⟩
  · exact ⟨⟨0x300, by decide, by decide⟩, ⟨0x300, by decide, by decide⟩⟩
-- TTBS with mask X'FF': byte 0's table byte X'BB' stops it; with a table of zeros at X'1000' it runs to the end
theorem witness_CompareAndTest_test :
    0xFF#8 = (strings.reg 2#4).extractLsb' 24 8 ∧
    strings.RealByte ((strings.reg (ru1 2#4)).extractLsb' 0 19 + BitVec.ofNat 19 0) .read 0xC00 ∧
    strings.RealByte (0x800#19 + (0#20).setWidth 19 + (strings.mem.read 0xC00).setWidth 19) .read 0x801 ∧
    strings.mem.read 0x801 &&& 0xFF#8 ≠ 0#8 ∧
    strings.RealByte (0x800#19 + (0x800#20).setWidth 19 + (strings.mem.read 0xC00).setWidth 19) .read 0x1001 ∧
    strings.RealByte (0x800#19 + (0x800#20).setWidth 19 + (strings.mem.read 0xC01).setWidth 19) .read 0x1000 ∧
    strings.mem.read 0x1001 &&& 0xFF#8 = 0#8 ∧ strings.mem.read 0x1000 &&& 0xFF#8 = 0#8 :=
  ⟨by decide, ⟨0x300, by decide, by decide⟩, ⟨0x200, by decide, by decide⟩, by decide, ⟨0x400, by decide, by decide⟩,
    ⟨0x400, by decide, by decide⟩, by decide, by decide⟩

/-! Decimal. -/

/-- With the option, +12 in the accumulator and these words at X'200'. -/
def decimals (l : List (Nat × Word)) : State := withDecimalOption (small [(15#4, 0x12C#32)] l)

theorem witness_DecimalUnimplemented : (small [] []).config.decimalOption = false := by decide
/-- A packed field of 5 at X'200'. -/
def packedFive : State := decimals [(0x200, 0x00005C00#32)]
theorem witness_DecimalArithmetic : packedFive.config.decimalOption = true ∧
    packedFive.effByte (direct 0x200) = .ok 0x800#19 packedFive ∧
    readField 3 0x800#19 packedFive = .ok [0#8, 0#8, 0x5C#8] packedFive ∧
    packedValue [0#8, 0#8, 0x5C#8] = some 5 ∧ packedFive.accValue = some 12 ∧
    ((12 : Int) * 5).natAbs < 10 ^ 31 ∧ ((12 : Int).tdiv 5).natAbs < 10 ^ 15 :=
  ⟨by decide, rfl, rfl, by decide +kernel⟩
-- the nibbles of that field, an illegal digit, an illegal sign, and the six signs
theorem witness_DecimalArithmetic_format :
    ([0#8, 0x5C#8] : List Byte).flatMap (fun b => [b.extractLsb' 4 4, b.extractLsb' 0 4]) = [0#4, 0#4, 5#4] ++ [0xC#4] ∧
    9 < (0xA#4).toNat ∧ (9#4).toNat < 10 ∧ packedValue [0x5A#8] = some 5 ∧ packedValue [0x5B#8] = some (-5) ∧
    packedValue [0x5D#8] = some (-5) ∧ packedValue [0x5E#8] = some 5 ∧ packedValue [0x5F#8] = some 5 := by decide
theorem witness_DecimalArithmetic_field : packedFive.between = [] ∧
    ∀ k, k < 3 → packedFive.peekByte (0x800#19 + BitVec.ofNat 19 k) = [0#8, 0#8, 0x5C#8][k]? := by decide
-- a shift of 29 keeps the digits 1 and 2, a shift of 30 loses one
theorem witness_DecimalArithmetic_shift :
    (decimals []).effWord (direct 29) = .ok 29#17 (decimals []) ∧ ((29#17).extractLsb' 0 7).toInt = 29 ∧
    (decimals []).accValue = some 12 ∧ ¬10 ^ 31 ≤ 12 * 10 ^ 29 ∧ 10 ^ 31 ≤ 12 * 10 ^ 30 :=
  ⟨rfl, by decide +kernel⟩
theorem witness_DecimalFields_store : (decimals []).mem.wf = true ∧ (decimals []).between = [] ∧
    (decimals []).effByte (direct 0x200) = .ok 0x800#19 (decimals []) ∧
    (decimals []).accValue = some 12 ∧ (12 : Int).natAbs < 10 ^ (2 * 2 - 1) ∧
    ∀ k, k < 2 → (decimals []).resolve ((0x800#19 + BitVec.ofNat 19 k).extractLsb' 2 17) .write = .ok (.real 0x200) :=
  ⟨by decide, by decide, rfl, by decide +kernel⟩
/-- A zoned -123 at X'200'. -/
def zoned : State := decimals [(0x200, 0xF1F2D300#32)]
theorem witness_DecimalFields_pack : zoned.effByte (direct 0x200) = .ok 0x800#19 zoned ∧
    readField (2 * 2 - 1) 0x800#19 zoned = .ok [0xF1#8, 0xF2#8, 0xD3#8] zoned ∧
    (∀ b ∈ [0xF1#8, 0xF2#8, 0xD3#8], (b.extractLsb' 0 4).toNat ≤ 9) ∧
    10 ≤ ((([0xF1#8, 0xF2#8, 0xD3#8] : List Byte).getLastD 0#8).extractLsb' 4 4).toNat :=
  ⟨rfl, rfl, by decide⟩
/-- A packed -123 at X'200'. -/
def packed : State := decimals [(0x200, 0x123D0000#32)]
theorem witness_DecimalFields_unpack : packed.effByte (direct 0x200) = .ok 0x800#19 packed ∧
    readField 2 0x800#19 packed = .ok [0x12#8, 0x3D#8] packed ∧
    (∀ g ∈ (nibbles [0x12#8, 0x3D#8]).dropLast, g.toNat ≤ 9) ∧
    10 ≤ ((nibbles [0x12#8, 0x3D#8]).getLastD 0#4).toNat ∧
    ∀ k, k < 2 * 2 - 1 → packed.resolve ((0x800#19 + BitVec.ofNat 19 k).extractLsb' 2 17) .write =
      .ok (.real 0x200) :=
  ⟨rfl, rfl, by decide⟩
/-- `strings` with the option. -/
def edited : State := withDecimalOption strings
theorem witness_DecimalFields_edit : 2 = ((edited.reg (ru1 2#4)).extractLsb' 24 8).toNat ∧ ∀ k, k < 2 →
    edited.RealByte ((edited.reg (ru1 2#4)).extractLsb' 0 19 + BitVec.ofNat 19 k) .read (0xC00 + k) ∧
    edited.RealByte ((edited.reg (ru1 2#4)).extractLsb' 0 19 + BitVec.ofNat 19 k) .write (0xC00 + k) ∧
    edited.RealByte ((edited.reg 2#4).extractLsb' 0 19 + (0#20).setWidth 19 + BitVec.ofNat 19 k) .read (0x800 + k) := by
  refine ⟨by decide, fun k hk => ?_⟩
  obtain rfl | rfl : k = 0 ∨ k = 1 := by omega
  · exact ⟨⟨0x300, by decide, by decide⟩, ⟨0x300, by decide, by decide⟩, ⟨0x200, by decide, by decide⟩⟩
  · exact ⟨⟨0x300, by decide, by decide⟩, ⟨0x300, by decide, by decide⟩, ⟨0x200, by decide, by decide⟩⟩
-- an illegal digit in the field, in the accumulator, in a zoned string; a stored value one digit too long
theorem witness_DecimalFaults : (decimals [(0x200, 0xAC000000#32)]).effByte (direct 0x200) =
      .ok 0x800#19 (decimals [(0x200, 0xAC000000#32)]) ∧
    readField 1 0x800#19 (decimals [(0x200, 0xAC000000#32)]) = .ok [0xAC#8] (decimals [(0x200, 0xAC000000#32)]) ∧
    packedValue [0xAC#8] = none ∧ packedValue [0x12#8] = none ∧ (withDecimalOption (small [] [])).accValue = none ∧
    (decimals []).accValue = some 12 ∧ 10 ^ (2 * 1 - 1) ≤ (12 : Int).natAbs ∧
    9 < ((0xFA#8).extractLsb' 0 4).toNat ∧ ((0x91#8).extractLsb' 4 4).toNat < 10 ∧
    (∀ k, k < 2 * 1 - 1 → (decimals []).resolve ((0x800#19 + BitVec.ofNat 19 k).extractLsb' 2 17) .write =
      .ok (.real 0x200)) ∧
    (∀ k, k < 1 → (decimals [(0x200, 0xAC000000#32)]).resolve ((0x800#19 + BitVec.ofNat 19 k).extractLsb' 2 17) .write =
      .ok (.real 0x200)) :=
  ⟨rfl, rfl, by decide +kernel⟩
-- sums and differences of 32 digits, and the DM and DD limits
theorem witness_DecimalFaults_overflow :
    (withDecimalOption (small [(12#4, 0x99999999#32), (13#4, 0x99999999#32), (14#4, 0x99999999#32), (15#4, 0x9999999C#32)]
      [])).accValue = some (10 ^ 31 - 1) ∧ 10 ^ 31 ≤ ((10 ^ 31 - 1 : Int) + 1).natAbs ∧
    10 ^ 31 ≤ ((10 ^ 31 - 1 : Int) - (-1)).natAbs ∧ packedValue [0x1C#8] = some 1 ∧ packedValue [0x1D#8] = some (-1) ∧
    10 ^ 16 ≤ (10 ^ 31 - 1 : Int).natAbs ∧ 10 ^ 15 ≤ ((10 ^ 31 - 1 : Int).tdiv 1).natAbs ∧ packedValue [0x0C#8] = some 0 := by
  decide +kernel

/-! Control. -/

theorem witness_PsdInstructions_load : (small [] []).psd.ms = false ∧ operands.config.sizes = Sizes.standard ∧
    operands.DoubleOperand (direct 0x201) 0x80001234FFFFFFFF#64 operands ∧
    (∀ L : Fin 32, operands.ic.active[L] = false) :=
  ⟨by decide, rfl, ⟨_, _, rfl, rfl⟩, by decide⟩
-- level 31 is the only active one
theorem witness_PsdInstructions_clear :
    (operands.ic.active.set 31 true)[31] = true ∧
    ∀ L : Fin 32, L < 31 → (operands.ic.active.set 31 true)[L] = false := by decide
theorem witness_PsdInstructions_exchange : operands.effDouble (direct 0x200) = .ok 0x100#16 operands ∧
    operands.resolve (0x100#16 ++ 0#1) .write = .ok (.real 0x200) ∧
    operands.resolve ((0x100#16 + 1#16) ++ 0#1) .read = .ok (.real 0x202) ∧ operands.config.sizes = Sizes.standard :=
  ⟨rfl, by decide, by decide, rfl⟩
theorem witness_PsdInstructions_pointer : operands.WordOperand (direct 0x200) 0x80001234#32 operands ∧
    operands.psd.ms = false ∧ operands.config.sizes = Sizes.standard :=
  ⟨⟨_, _, rfl, rfl⟩, by decide, rfl⟩
-- one image word for each function, and a count of 0, which is 256
/-- An image at X'200', for one word from page X'FF' on. -/
def image : State := small [(2#4, 0x200#32), (3#4, 0x0101FE00#32)] []
theorem witness_MemoryControl :
    (image.config.sizes = Sizes.standard ∧
    image.between = [] ∧ image.psd.ms = false ∧ 0x200#17 = (image.reg 2#4).extractLsb' 0 17 ∧
      0xFF#8 = (image.reg (ru1 2#4)).extractLsb' 9 8 ∧ (image.reg (ru1 2#4)).extractLsb' 24 8 = 1#8 ∧
      ∀ i, i < 1 → image.readWord (0x200#17 + BitVec.ofNat 17 i) .read = .ok 0#32 image) ∧
    (((small [(2#4, 0x200#32)] []).reg (ru1 2#4)).extractLsb' 24 8 = 0#8 ∧
      ∀ i, i < 256 → operands.readWord (0x300#17 + BitVec.ofNat 17 i) .read = .ok 0#32 operands) := by
  refine ⟨⟨rfl, rfl, by decide, by decide, by decide, by decide, fun i h => ?_⟩, by decide, fun i h => ?_⟩
  · obtain rfl : i = 0 := by omega
    rfl
  · exact readWord_quiet (p := .real (0x300 + i)) rfl ((by decide +kernel : ∀ i, i < 256 →
      operands.resolve (0x300#17 + BitVec.ofNat 17 i) .read = .ok (.real (0x300 + i)) ∧
      operands.loadWord (.real (0x300 + i)) = 0#32) i h)
-- an analyzed word of each class, and its address
theorem witness_CallsWaitInterpretAnalyze :
    (∀ w ∈ [0x223FFFFF#32, 0x72000300#32, 0x52000300#32, 0x12000300#32, 0x32000300#32, 0x00000300#32],
      (small [] [(0x200, w)]).WordOperand (direct 0x200) w (small [] [(0x200, w)])) ∧
    ((0x223FFFFF#32).extractLsb' 24 7).toNat ∈ immediateOpcodes ∧ 0x70 ≤ ((0x72000300#32).extractLsb' 24 7).toNat ∧
    ((0#32).extractLsb' 24 7).toNat ∈ unassignedOpcodes ∧
    operands.effByte (direct 0x300) = .ok 0xC00#19 operands ∧ operands.effHalf (direct 0x300) = .ok 0x600#18 operands ∧
    operands.effDouble (direct 0x300) = .ok 0x180#16 operands ∧ operands.effWord (direct 0x300) = .ok 0x300#17 operands := by
  refine ⟨fun w hw => ?_, by decide, by decide, by decide, rfl, rfl, rfl, rfl⟩
  simp only [List.mem_cons, List.not_mem_nil, or_false] at hw
  rcases hw with rfl | rfl | rfl | rfl | rfl | rfl <;> exact ⟨_, _, rfl, rfl⟩
theorem witness_HostRequests : operands.psd.ms = false ∧ operands.effWord (direct 0x81) = .ok 0x81#17 operands ∧
    (0x81#17).extractLsb' 12 4 ≠ 1#4 := ⟨by decide, rfl, by decide⟩
-- function 7 (trigger) of group 1, mask X'8001': levels 16 and 31, of which 16 is armed
/-- The mask, and level 16 armed. -/
def triggers : State :=
  { small [(2#4, 0x8001#32)] [] with ic := { IntCtl.reset with armed := IntCtl.reset.armed.set 16 true } }
theorem witness_InterruptControlByWd : triggers.config.sizes = Sizes.standard ∧ triggers.psd.ms = false ∧
    triggers.effWord (direct 0x1701) = .ok 0x1701#17 triggers ∧ (0x1701#17).extractLsb' 12 4 = 1#4 ∧
    ((0x1701#17).extractLsb' 8 3).toNat = 7 ∧ ((0x1701#17).extractLsb' 0 4).toNat = 1 ∧
    (∀ L : Fin 32, decide (L = 16 ∨ L = 31) =
      (decide (L.val / 16 = 1) && (triggers.reg 2#4).getLsbD (15 - L.val % 16))) ∧
    triggers.ic.armed[(16 : Fin 32)] = true ∧ triggers.config.coalesce[(16 : Fin 32)] = false ∧ triggers.ic.Sorted :=
  ⟨rfl, by decide, rfl, by decide, by decide, by decide, by decide, by decide, by decide, List.Pairwise.nil⟩
theorem witness_PrivilegedInSlave : (inSlave (small [] [])).psd.ms = true := by decide
theorem witness_NonexistentInstructions : ∀ i : Instr, decode 0#32 ≠ .ok i := by
  intro i h
  have : decode 0#32 = .error .unassignedOpcode := by decide
  rw [this] at h
  cases h

/-! Addresses and memory. -/

-- direct and indexed by -1; indirect through X'200'; and an indirect word that does not exist
theorem witness_EffectiveAddresses :
    ((small [(2#4, 0xFFFFFFFF#32)] []).reg ((2#3).setWidth 4)).toNat = 2 ^ 32 - 1 ∧
    (∃ w, operands.readWord 0x200#17 .read = .ok w operands ∧ 0x1234#17 = w.extractLsb' 0 17) ∧
    (onePage operands).readWord 0x200#17 .read =
      .trap trapNoMemory (onePage operands) :=
  ⟨by decide, ⟨0x80001234#32, rfl, by decide⟩, rfl⟩
-- the last register address and the first real one; the extended half; a denied, a locked and an absent word
theorem witness_Translation : operands.config.sizes = Sizes.standard ∧
    operands.config.regAsMemory = true ∧ (15#17).toNat < 16 ∧ 16 ≤ (16#17).toNat ∧
    operands.psd.mm = false ∧ operands.psd.ma = false ∧ 2 ^ 16 ≤ (0x10000#17).toNat ∧
    operands.resolve 0x1FFFF#17 .read = .ok (.real 0x1FFFF) ∧
    (onePage operands).resolve 0x200#17 .read = .error trapNoMemory ∧
    (lockedPage operands).resolve 0x200#17 .write = .error trapProtection := by decide
theorem witness_ReadAfterWrite : operands.config.sizes = Sizes.standard ∧ operands.between = [] ∧ operands.mem.wf = true ∧
    (∃ t, operands.writeWord 0x200#17 7#32 = .ok () t) ∧ (∃ t, operands.writeWord 15#17 7#32 = .ok () t) ∧
    (∃ t, operands.writeDouble 0x100#16 7#64 = .ok () t) ∧ (∃ t, operands.writeDouble 7#16 7#64 = .ok () t) ∧
    (1#4 ≠ operands.psd.rp) :=
  ⟨rfl, rfl, by decide, ⟨_, rfl⟩, ⟨_, rfl⟩, ⟨_, rfl⟩, ⟨_, rfl⟩, by decide⟩
-- each clause of Interference: another agent's access before, between and in front of the CPU's
theorem witness_Interference : busy.between = [.deviceStore .word 0x200 5#64] :: [] ∧
    ({ operands with between := [[], [.deviceStore .word 0x200 5#64]] } : State).resolve 0x200#17 .write =
      .ok (.real 0x200) ∧
    ({ operands with between := [[.deviceModify .word 0x200 5#64]] } : State).resolve 0x200#17 .write = .ok (.real 0x200) ∧
    busy.resolve 0x200#17 .read = .ok (.real 0x200) ∧ busy.mem.wf = true ∧
    ({ operands with psd := { operands.psd with cc := 2#4 } } : State).resolve 0x200#17 .read = .ok (.real 0x200) ∧
    ({ operands with psd := { operands.psd with cc := 2#4 } } : State).resolve (0x200#17 + 1#17) .read =
      .ok (.real 0x201) ∧
    ({ operands with clock := .cell 0 .word 0x200#17 7, between := [[.clockAct 0]] } : State).resolve 0x200#17 .write =
      .ok (.real 0x200) ∧ (0x200#17).toNat = 0x200 :=
  ⟨rfl, by decide⟩

/-! The machine. -/

theorem witness_ResetKeepsMemory : { operands with agenda := [.reset] }.agenda = .reset :: [] := rfl
theorem witness_invariant : State.reset.Inv :=
  ⟨⟨by decide, by decide⟩, List.Pairwise.nil, ⟨by decide, by decide, by decide⟩, by decide, rfl⟩
-- StepKeepsInv and StepGoesOn: a step from a state with the invariant, and the one step that stops
theorem witness_StepKeepsInv : State.reset.Inv ∧ ∃ t, step State.reset = .next t := ⟨witness_invariant, ⟨_, rfl⟩⟩
theorem witness_StepGoesOn : { operands with agenda := [.powerOff] }.agenda = .powerOff :: [] := rfl
/-- An `LI,3 -1` at the program counter. -/
def ready : State := small [] [(0x100, 0x223FFFFF#32)]
-- with an empty agenda, and in a cycle with another agent's store before its one access, the fetch
theorem witness_StepRunsDecoded : ready.agenda = [] ∧ 0 < ready.config.sizes.nCpu ∧
    { ready with agenda := [.cpuCycle 0 [[.deviceStore .word 0x200 5#64]]] }.agenda =
      .cpuCycle 0 [[.deviceStore .word 0x200 5#64]] :: [] ∧
    ready.fatal = none ∧ ready.running = true ∧ ready.trapPending = none ∧ ready.poll = none ∧ ready.waiting = false ∧
    ({ ready with exuDepth := 0, branchOutcome := none } : State).readWord 0x100#17 .execute =
      .ok 0x223FFFFF#32 { ready with exuDepth := 0, branchOutcome := none } ∧
    decode 0x223FFFFF#32 = .ok (.li 3#4 0xFFFFF#20) ∧
    ∃ t, exec (.li 3#4 0xFFFFF#20) { ready with
      lastInstr := 0x223FFFFF#32, psd := { ready.psd with ia := 0x101#17 } } = .next t :=
  ⟨by decide, by decide, rfl, by decide, by decide, by decide, by decide, by decide, rfl, by decide, ⟨_, rfl⟩⟩
/-- A fetch beyond memory. -/
def beyond : State :=
  { small [] [] with psd := { Psd.reset with ia := 0x1FFFF#17 }, config := { Config.standard with memPages := 1 } }
-- a fetch beyond memory; a stopped machine; a waiting one; the first processor there is not
theorem witness_QuietCycles : beyond.readWord 0x1FFFF#17 .execute = .trap trapNoMemory beyond ∧
    State.reset.agenda = [] ∧ State.reset.running = false ∧ { small [] [] with waiting := true }.poll = none ∧
    { small [] [] with agenda := [.cpuCycle 1 []] }.agenda = .cpuCycle 1 [] :: [] ∧ (small [] []).config.sizes.nCpu ≤ 1 :=
  ⟨rfl, rfl, rfl, by decide, rfl, by decide⟩

/-- Vectors X'40' (a trap's) and X'5F' (level 15's) hold an XPSD at X'200', X'52' (level 2's) an MTW of delta -1 on
X'300', which holds 1; a new PSD at X'202'. -/
def vectors : State := small [] [(0x40, 0x0F000200#32), (0x52, 0x33F00300#32), (0x5F, 0x0F000200#32),
  (0x202, 0x00000500#32), (0x300, 1#32)]

/-- A pending trap. -/
def trapped : State := { vectors with trapPending := some ⟨0x40, 0b1000#4, false⟩ }
/-- What the entry starts from. -/
def entering : State := { trapped with exuDepth := 0, branchOutcome := none, trapPending := none }

-- a direct XPSD; one through the real word X'202', which names X'500'; one indexed by 1 doubleword
theorem witness_TrapEntry : trapped.config.sizes = Sizes.standard ∧
    trapped.agenda = [] ∧ trapped.between = [] ∧ trapped.fatal = none ∧ trapped.running = true ∧
    trapped.trapPending = some ⟨0x40, 0b1000#4, false⟩ ∧ 4 * 0x40 < trapped.config.memPages * 2048 ∧
    decodeFields (trapped.mem.readWord (4 * 0x40)) = ⟨false, 0x0F#7, 0#4, 0#3, 0x200#17⟩ ∧ trapped.mem.wf = true ∧
    entering.ExchangeAt ⟨false, 0x0F#7, 0#4, 0#3, 0x200#17⟩ 0x100 ∧
    entering.ExchangeAt ⟨true, 0x0F#7, 0#4, 0#3, 0x202#17⟩ 0x280 ∧
    (entering.setReg 2#4 1#32).ExchangeAt ⟨false, 0x0F#7, 0#4, 2#3, 0x200#17⟩ 0x101 ∧
    8 * 0x100 + 16 ≤ trapped.config.memPages * 2048 ∧ trapped.writeAllowed (8 * 0x100 / 2048) = true ∧
    (decodeFields (trapped.mem.readWord (4 * 0x41))).op ≠ 0x0F#7 :=
  ⟨rfl, by decide, by decide, by decide, by decide, by decide, by decide, by decide, by decide,
    ⟨_, .inl ⟨rfl, rfl⟩, by decide⟩, ⟨0x500#17, .inr ⟨rfl, by decide, by decide⟩, by decide⟩,
    ⟨_, .inl ⟨rfl, rfl⟩, by decide⟩, by decide, by decide, by decide⟩
-- the exchange's own faults: an indirect word and doublewords beyond a memory of one page, and a locked page
theorem witness_TrapEntry_fatal :
    (onePage trapped).config.memPages * 2048 ≤
      4 * (0x200#17).toNat ∧
    (onePage trapped).config.memPages * 2048 < 8 * 0x100 + 16 ∧
    (lockedPage trapped).writeAllowed (8 * 0x100 / 2048) = false := by
  decide

/-- An entry of a level. -/
def entry (level : Fin 32) : IntEntry := ⟨0, level, 0, .host, none, none⟩
/-- The machine with one level armed, enabled and waiting. -/
def waitingLevel (level : Fin 32) : State :=
  { vectors with ic := { IntCtl.reset with
      armed := IntCtl.reset.armed.set level true, enabled := IntCtl.reset.enabled.set level true, queue := [entry level] } }

theorem witness_InterruptScan : (waitingLevel 15).ic.queue = [] ++ entry 15 :: [] ∧
    (waitingLevel 15).ic.enabled[(15 : Fin 32)] = true ∧ (waitingLevel 15).config.levelClass[(15 : Fin 32)] = .none ∧
    (waitingLevel 15).intSuppress = 0 ∧ (waitingLevel 15).psd.ci = false ∧
    (∀ L : Fin 32, (waitingLevel 15).ic.active[L] = true → 15 < L) ∧ (waitingLevel 15).ic.Sorted := by
  refine ⟨rfl, by decide, by decide, by decide, by decide, by decide, ?_⟩
  exact List.pairwise_singleton _ _
-- an XPSD level, and a level whose vector holds no XPSD; the exchange's places are those of witness_TrapEntry
theorem witness_InterruptEntry :
    (waitingLevel 15).config.sizes = Sizes.standard ∧
    (waitingLevel 15).agenda = [] ∧ (waitingLevel 15).between = [] ∧ (waitingLevel 15).fatal = none ∧
    (waitingLevel 15).running = true ∧ (waitingLevel 15).trapPending = none ∧ (waitingLevel 15).mem.wf = true ∧
    (∃ ic, (waitingLevel 15).poll = some (15, ic)) ∧ (∃ ic, (waitingLevel 16).poll = some (16, ic)) ∧
    (decodeFields (vectors.mem.readWord (4 * (0x50 + 15)))).op = 0x0F#7 ∧
    (waitingLevel 15).ExchangeAt (decodeFields (vectors.mem.readWord (4 * (0x50 + 15)))) 0x100 ∧
    (decodeFields (vectors.mem.readWord (4 * (0x50 + 16)))).op = 0#7 ∧
    vectors.writeAllowed (8 * 0x100 / 2048) = true :=
  ⟨rfl, by decide, by decide, by decide, by decide, by decide, by decide, ⟨_, rfl⟩, ⟨_, rfl⟩, by decide,
    ⟨0x200#17, .inl ⟨by decide, by decide⟩, by decide⟩, by decide, by decide⟩
-- level 2 counts X'300' from 1 to 0
theorem witness_Counters : decodeFields (vectors.mem.readWord (4 * (0x50 + 2))) = ⟨false, 0x33#7, 0xF#4, 0#3, 0x300#17⟩ ∧
    (waitingLevel 2).CellAt ⟨false, 0x33#7, 0xF#4, 0#3, 0x300#17⟩ .word 0xC00 ∧
    vectors.mem.valueAt .word 0xC00 = 1#64 ∧ vectors.running = true ∧
    vectors.writeAllowed (0xC00 / 2048) = true ∧ (waitingLevel 2).ic.armed[(2 : Fin 32)] = true ∧
    (waitingLevel 2).ic.enabled[(2 : Fin 32)] = true ∧ vectors.ic.armed[(2 : Fin 32)] = false ∧
    (∃ ic, (waitingLevel 2).poll = some (2, ic)) ∧ (waitingLevel 2).config.sizes = Sizes.standard :=
  ⟨by decide, ⟨_, .inl ⟨rfl, rfl⟩, by decide⟩, by decide, by decide, by decide, by decide, by decide, by decide,
    ⟨_, rfl⟩, rfl⟩
-- an indirect MTB, an indexed MTH, the R = 0 form, a cell out of range and a locked one
theorem witness_Counters_forms :
    (vectors.setReg 2#4 1#32).CellAt ⟨true, 0x73#7, 1#4, 2#3, 0x202#17⟩ .byte 0x1401 ∧
    (vectors.setReg 2#4 1#32).CellAt ⟨false, 0x53#7, 0#4, 2#3, 0x300#17⟩ .half 0xC02 ∧
    (onePage vectors).config.memPages * 2048 ≤ 0xC00 ∧
    (lockedPage vectors).writeAllowed (0xC00 / 2048) = false :=
  ⟨⟨0x500#17, .inr ⟨rfl, by decide, by decide⟩, by decide⟩, ⟨_, .inl ⟨rfl, rfl⟩, by decide⟩, by decide, by decide⟩
/-- The clock agent about to count X'300' by -1 for counter 1. -/
def counting : State := { waitingLevel 2 with clock := .cell 0 .word 0x300#17 (-1) }
-- an act that begins a tick, one that finds another word at level 3's vector, one that counts; and, with one page of
-- memory, one whose cell does not exist
theorem witness_Counters_clock : { waitingLevel 2 with agenda := [.access (.clockAct 0)] }.agenda =
      .access (.clockAct 0) :: [] ∧ (waitingLevel 2).clock = .idle ∧
    (decodeFields (vectors.mem.readWord (4 * (0x50 + 3)))).op = 0#7 ∧ (waitingLevel 3).ic.armed[(3 : Fin 32)] = true ∧
    counting.clock = .cell 0 .word 0x300#17 (-1) ∧
    0xC00 = 4 * (0x300#17).toNat ∧ 0xC00 < counting.config.memPages * 2048 ∧
    (onePage counting).config.memPages * 2048 ≤ 0xC00 ∧ (onePage (waitingLevel 2)).running = true ∧
    (onePage (waitingLevel 2)).ic.armed[(2 : Fin 32)] = true ∧ (onePage (waitingLevel 2)).ic.enabled[(2 : Fin 32)] = true ∧
    decodeFields ((onePage (waitingLevel 2)).mem.readWord (4 * (0x50 + 2))) = ⟨false, 0x33#7, 0xF#4, 0#3, 0x300#17⟩ :=
  ⟨rfl, by decide⟩
-- T16's vector read, act by act: the tick begins, and the word X'33F00300' names the cell
theorem test_tick_begins : ((waitingLevel 2).clockAct 0).clock = .vector 0 ∧
    (((waitingLevel 2).setClock (.vector 0)).clockAct 3).clock = .cell 0 .word 0x300#17 (-1) := by decide
-- a CPU store of 9 to the cell, and of another delta to the vector, after the vector was read: the old delta counts the 9
theorem test_tick_interleaved :
    ((counting.setMem ((vectors.mem.writeWord 0xC00 9#32).writeWord 0x148 0x33100300#32)).clockAct 0).mem.readWord 0xC00 =
      8#32 := by decide
-- T17, T18: the count gives zero; level 8 is to be posted only with CI = 0
theorem test_tick_zero : (counting.clockAct 0).clock = .zero 0 ∧
    ((counting.setClock (.zero 0)).clockAct 0).clock = .post 8 := by decide

-- level 16 does not coalesce, level 0 does; 31 is the last level
theorem witness_PostsAndLevels : (waitingLevel 16).ic.armed[(16 : Fin 32)] = true ∧
    (waitingLevel 16).config.coalesce[(16 : Fin 32)] = false ∧ (waitingLevel 0).config.coalesce[(0 : Fin 32)] = true ∧
    (∃ e ∈ (waitingLevel 0).ic.queue, e.level = 0) ∧ vectors.ic.armed[(0 : Fin 32)] = false ∧
    (waitingLevel 16).ic.Sorted ∧ { vectors with agenda := [.access (.post 16 0 .host none none)] }.agenda =
      .access (.post 16 0 .host none none) :: [] ∧ (31 : Fin 32).val < vectors.config.sizes.nLevels :=
  ⟨by decide, by decide, by decide, ⟨entry 0, by decide, rfl⟩, by decide, List.pairwise_singleton _ _, rfl, by decide⟩
-- the last word of memory and the first beyond it, for a device and for tooling; page X'FF' of the map, which is real page
-- 0, and no page
theorem witness_AgentStores : operands.config.sizes = Sizes.standard ∧ operands.mem.wf = true ∧
    Width.word.bytes * (0x3FFFF + 1) ≤ operands.config.memPages * 2048 ∧
    operands.config.memPages * 2048 < Width.word.bytes * (0x40000 + 1) ∧
    Width.word.bytes * 0x3FFFF + Width.word.bytes ≤ operands.config.memPages * 2048 ∧
    operands.config.memPages * 2048 < Width.word.bytes * 0x40000 + Width.word.bytes ∧
    Width.half.bytes * 0x3FFFF / 2048 = (0xFF#8).toNat ∧
    0x7FE = (operands.map[(0xFF#8).toNat]).toNat * 2048 + Width.half.bytes * 0x3FFFF % 2048 ∧
    0x7FE + Width.half.bytes ≤ operands.config.memPages * 2048 ∧ 256 * 2048 ≤ Width.half.bytes * 0x40000 ∧
    { operands with agenda := [.access (.deviceModify .byte 7 255#64)] }.agenda =
      .access (.deviceModify .byte 7 255#64) :: [] ∧
    { operands with agenda := [.access (.toolStore .mapped .half 0x3FFFF 1#64)] }.agenda =
      .access (.toolStore .mapped .half 0x3FFFF 1#64) :: [] := by decide
theorem witness_HostControl : { operands with agenda := [.setPsd Psd.reset] }.agenda = .setPsd Psd.reset :: [] ∧
    operands.running = true ∧ State.reset.running = false ∧
    { operands with agenda := [.start (.steps 0)] }.agenda = .start (.steps 0) :: [] ∧
    { operands with fatal := some .exuLimit }.fatal = some .exuLimit ∧
    { operands with agenda := [.log ""] }.agenda = .log "" :: [] := ⟨rfl, rfl, rfl, rfl, rfl, rfl⟩
-- the last page with a lock, the first without; and a configuration with a lock for real page 256
theorem witness_HostControl_locks : { operands with agenda := [.setWriteLock 255 2#2] }.agenda =
      .setWriteLock 255 2#2 :: [] ∧ 255 < operands.config.wlockPages ∧ operands.config.wlockPages ≤ 256 ∧
    ({ operands with config := { operands.config with wlockPages := 8192 } }.setLock 256 2#2).lockOf 256 = 2#2 := by
  decide
theorem witness_SlaveIsolation : (inSlave operands).config.sizes = Sizes.standard ∧
    (inSlave operands).psd.ms = true ∧ (inSlave operands).between = [] ∧
    (∃ t, exec (.stw 1#4 (direct 0x200)) (inSlave operands) = .next t) ∧ (inSlave operands).agenda = [] ∧
    (inSlave operands).trapPending = none ∧ (inSlave operands).poll = none ∧ ∃ t, step (inSlave operands) = .next t :=
  ⟨rfl, by decide, by decide, ⟨_, rfl⟩, by decide, by decide, by decide, ⟨_, rfl⟩⟩
theorem witness_PreciseTraps : ∃ t T, (inSlave operands).trapPending = none ∧
    exec (.wait 0#4 (direct 0)) (inSlave operands) = .next t ∧ t.trapPending = some T ∧ T.vector = 0x40 :=
  ⟨_, _, by decide, rfl, rfl, rfl⟩
-- an operand of each width read beyond memory or stored to a locked page, a subject beyond memory, an indirect word beyond
-- memory, STS's word read and locked, and ANLZ's analyzed indirect word beyond memory
theorem witness_PreciseTraps_operand :
    (onePage operands).ByteTraps (direct 0x200) .read trapNoMemory (onePage operands) ∧
    (lockedPage operands).ByteTraps (direct 0x200) .write trapProtection (lockedPage operands) ∧
    (onePage operands).HalfTraps (direct 0x200) .read trapNoMemory (onePage operands) ∧
    (lockedPage operands).HalfTraps (direct 0x200) .write trapProtection (lockedPage operands) ∧
    (onePage operands).WordTraps (direct 0x200) .read trapNoMemory (onePage operands) ∧
    (lockedPage operands).WordTraps (direct 0x200) .write trapProtection (lockedPage operands) ∧
    (onePage operands).WordTraps (direct 0x200) .execute trapNoMemory (onePage operands) ∧
    (onePage operands).DoubleTraps (direct 0x200) .read trapNoMemory (onePage operands) ∧
    (lockedPage operands).DoubleTraps (direct 0x200) .write trapProtection (lockedPage operands) :=
  ⟨.inr ⟨_, _, rfl, by decide, rfl⟩, .inr ⟨_, _, rfl, by decide, rfl⟩, .inr ⟨_, _, rfl, by decide, rfl⟩,
    .inr ⟨_, _, rfl, by decide, rfl⟩, .inr ⟨_, _, rfl, by decide, rfl⟩, .inr ⟨_, _, rfl, by decide, rfl⟩,
    .inr ⟨_, _, rfl, by decide, rfl⟩, .inr ⟨_, _, rfl, by decide, rfl⟩, .inr ⟨_, _, rfl, by decide, rfl⟩⟩
theorem witness_PreciseTraps_address :
    (onePage operands).WordTraps ⟨true, 0#3, 0x200#17⟩ .read trapNoMemory (onePage operands) ∧
    (onePage operands).effWord ⟨true, 0#3, 0x200#17⟩ = .trap trapNoMemory (onePage operands) ∧
    (onePage operands).effDouble ⟨true, 0#3, 0x200#17⟩ = .trap trapNoMemory (onePage operands) ∧
    (onePage (decimals [])).effByte ⟨true, 0#3, 0x200#17⟩ = .trap trapNoMemory (onePage (decimals [])) ∧
    (lockedPage operands).effWord (direct 0x200) = .ok 0x200#17 (lockedPage operands) ∧
    (lockedPage operands).readWord 0x200#17 .read = .ok 0x80001234#32 (lockedPage operands) ∧
    (lockedPage operands).resolve 0x200#17 .write = .error trapProtection ∧
    (onePage (small [] [(0x100, 0xB2000200#32)])).WordOperand (direct 0x100) 0xB2000200#32
      (onePage (small [] [(0x100, 0xB2000200#32)])) ∧ (0xB2000200#32)[31] = true ∧
    (onePage (small [] [(0x100, 0xB2000200#32)])).readWord ((0xB2000200#32).extractLsb' 0 17) .read =
      .trap trapNoMemory (onePage (small [] [(0x100, 0xB2000200#32)])) :=
  ⟨.inl rfl, rfl, rfl, rfl, rfl, rfl, by decide, ⟨_, _, rfl, rfl⟩, by decide, rfl⟩
/-- A stack whose pointer is at `place`, with the top at `top`, space 1 and words 1. -/
def stackOf (place : Nat) (top : Word) : State :=
  small [(2#4, 0xFFFF#32)] [(place, top), (place + 1, 0x00010001#32)]
-- tables, images and fields that start before the end of memory or before a locked page and reach into it
theorem witness_PreciseTraps_first :
    (onePage operands).FirstFault 32 (fun _ => True) (fun k => 0x1FF#17 + BitVec.ofNat 17 k) .read trapNoMemory ∧
    (lockedPage (decimals [])).FirstFault 2 (fun _ => True)
      (fun k => (0x7FF#19 + BitVec.ofNat 19 k).extractLsb' 2 17) .write trapProtection ∧
    (lockedPage (stackOf 0x100 0x200)).FirstFault 1 (fun _ => True) (fun k => 0x200#17 + 1#17 + BitVec.ofNat 17 k) .write
      trapProtection ∧
    (onePage (stackOf 0x100 0x200)).FirstFault 1 (fun _ => True)
      (fun k => 0x200#17 - BitVec.ofNat 17 1 + 1#17 + BitVec.ofNat 17 k) .read trapNoMemory := by
  refine ⟨⟨1, by decide, trivial, by decide, fun j hj _ => ?_⟩, ⟨1, by decide, trivial, by decide, fun j hj _ => ?_⟩,
    ⟨0, by decide, trivial, by decide, fun j hj => absurd hj (Nat.not_lt_zero j)⟩,
    ⟨0, by decide, trivial, by decide, fun j hj => absurd hj (Nat.not_lt_zero j)⟩⟩ <;>
  obtain rfl : j = 0 := by omega
  · exact ⟨.real 0x1FF, by decide⟩
  · exact ⟨.real 0x1FF, by decide⟩
-- what is to be stored there is legal: two bytes of the accumulator, three zoned digits, two packed bytes
theorem witness_PreciseTraps_decimal : (lockedPage (decimals [])).accValue = some 12 ∧
    (12 : Int).natAbs < 10 ^ (2 * 2 - 1) ∧
    readField (2 * 2 - 1) 0x7FF#19 (lockedPage (decimals [(0x1FF, 0xF1#32), (0x200, 0xF2C30000#32)])) =
      .ok [0xF1#8, 0xF2#8, 0xC3#8] (lockedPage (decimals [(0x1FF, 0xF1#32), (0x200, 0xF2C30000#32)])) ∧
    readField 2 0x7FF#19 (lockedPage (decimals [(0x1FF, 0x12#32), (0x200, 0x3C000000#32)])) =
      .ok [0x12#8, 0x3C#8] (lockedPage (decimals [(0x1FF, 0x12#32), (0x200, 0x3C000000#32)])) ∧
    (∀ b ∈ [0xF1#8, 0xF2#8, 0xC3#8], (b.extractLsb' 0 4).toNat ≤ 9) ∧ 10 ≤ ((0xC3#8).extractLsb' 4 4).toNat ∧
    packedValue [0x12#8, 0x3C#8] ≠ none :=
  ⟨by decide +kernel, by decide, rfl, rfl, by decide, by decide, by decide +kernel⟩
-- a stack pointer that is locked where its words are not, and the places of an XPSD
theorem witness_PreciseTraps_pointer :
    (lockedPage (stackOf 0x200 0x400)).effDouble (direct 0x200) = .ok 0x100#16 (lockedPage (stackOf 0x200 0x400)) ∧
    (lockedPage (stackOf 0x200 0x400)).resolve (0x100#16 ++ 0#1) .read = .ok (.real 0x200) ∧
    (lockedPage (stackOf 0x200 0x400)).resolve (0x100#16 ++ 0#1) .write = .error trapProtection ∧
    (lockedPage (stackOf 0x200 0x400)).resolve (0x400#17 + 1#17 + BitVec.ofNat 17 0) .write = .ok (.real 0x401) ∧
    (lockedPage (stackOf 0x200 0x400)).resolve (0x400#17 - BitVec.ofNat 17 1 + 1#17 + BitVec.ofNat 17 0) .read =
      .ok (.real 0x400) ∧
    (((lockedPage (stackOf 0x200 0x400)).reg 2#4).extractLsb' 0 16).toInt = -1 ∧
    ¬(spdDecode ((lockedPage (stackOf 0x200 0x400)).loadDouble (.real 0x200))).Inhibited 1 ∧
    ¬(spdDecode ((lockedPage (stackOf 0x200 0x400)).loadDouble (.real 0x200))).Inhibited (-1) ∧
    (onePage operands).resolve (0xFF#16 ++ 0#1) .write = .ok (.real 0x1FE) ∧
    (onePage operands).resolve ((0xFF#16 + 1#16) ++ 0#1) .read = .error trapNoMemory :=
  ⟨rfl, by decide⟩

end Sys2Proof.Tests
end

section
/-! The condition-code helpers of R17. Each of the three is the sign code of one exact integer: of the value itself, or of
the difference of the operands, read unsigned or signed. -/

namespace Sys2Proof.Machine

/-- The sign code of a difference compares its two sides, with R17's pairs in R17's order. -/
theorem ccSignInt_sub (x y : Int) :
    ccSignInt (x - y) = if x = y then 0b00#2 else if y < x then 0b01#2 else 0b10#2 := by
  unfold ccSignInt
  rcases lt_trichotomy x y with hlt | rfl | hgt
  · rw [if_neg (by omega), if_pos (by omega), if_neg (by omega), if_neg (by omega)]
  · rw [if_pos (by omega), if_pos rfl]
  · rw [if_neg (by omega), if_neg (by omega), if_neg (by omega), if_pos hgt]

/-- `ccsign` reads its value signed: the sign bit stands for `v.toInt < 0`. -/
theorem ccSign_eq_ccSignInt {n : Nat} (v : BitVec n) : ccSign v = ccSignInt v.toInt := by
  have hzero : v = 0 ↔ v.toInt = 0 := by rw [← BitVec.toInt_inj]; simp
  simp only [ccSign, ccSignInt, hzero, BitVec.msb_eq_toInt, decide_eq_true_eq]

theorem ccUcmp_eq_ccSignInt {n : Nat} (a b : BitVec n) : ccUcmp a b = ccSignInt (a.toNat - b.toNat) := by
  simp only [ccSignInt_sub, ccUcmp, ← BitVec.toNat_inj, Nat.cast_inj, Nat.cast_lt]

theorem ccScmp_eq_ccSignInt {n : Nat} (a b : BitVec n) : ccScmp a b = ccSignInt (a.toInt - b.toInt) := by
  simp only [ccSignInt_sub, ccScmp, ← BitVec.toInt_inj]

/-- Settles O8: each helper is the sign code of an exact difference (`ccsign` against 0), so `ccSignInt_sub` gives its
pairs. -/
theorem conditionCodeHelpers : Obligations.ConditionCodeHelpers := by
  intro n a b
  refine ⟨?sign, ?unsigned, ?signed⟩
  case sign => rw [ccSign_eq_ccSignInt, ← ccSignInt_sub, sub_zero]
  case unsigned => simp only [ccUcmp_eq_ccSignInt, ccSignInt_sub, Nat.cast_inj, Nat.cast_lt]
  case signed => rw [ccScmp_eq_ccSignInt, ccSignInt_sub]

end Sys2Proof.Machine
end

section
/-! The invariant of every step (O47, O48). Within a step, other agents' accesses may still be left over and EXU may nest;
what holds throughout is `State.Sound`. Each elementary effect keeps it, hence every instruction (`exec_reaches`); the entries
of traps and interrupts and the events are followed access by access. -/

namespace Sys2Proof.Machine

/-! ## What holds throughout a step -/

/-- The part of the invariant that holds within a step too. -/
def State.Sound (s : State) : Prop := s.MemoryInv ∧ s.ic.Good s.config

/-- Sound and with no EXU nesting: what holds at every access outside an instruction. -/
def State.Rests (s : State) : Prop := s.Sound ∧ s.exuDepth = 0

theorem State.inv_iff {s : State} : s.Inv ↔ s.Rests ∧ s.between = [] := by
  simp only [State.Inv, State.Rests, State.Sound, IntCtl.Good, and_assoc]

theorem State.Sound.setMem {s : State} (h : s.Sound) {m : Memory} (hwf : m.wf = true) (hb : Memory.Below s.memBytes m) :
    (s.setMem m).Sound := ⟨⟨hwf, hb⟩, h.2⟩

theorem State.Sound.setIc {s : State} (h : s.Sound) {ic : IntCtl} (hic : ic.Good s.config) : (s.setIc ic).Sound :=
  ⟨h.1, hic⟩

/-! ## The other agents -/

theorem State.Sound.realStore {s : State} (h : s.Sound) {width : Width} {ra : Nat} (hra : ra + width.bytes ≤ s.memBytes)
    (v : Double) : (s.realStore width ra v).Sound := by
  obtain ⟨hwf, hb⟩ := h.1
  cases width with
  | byte => exact h.setMem (Memory.wf_write hwf ..) (Memory.Below.write hb hra _)
  | half => exact h.setMem (Memory.wf_writeHalf hwf ..) (Memory.Below.writeHalf hb hra _)
  | word => exact h.setMem (Memory.wf_writeWord hwf ..) (Memory.Below.writeWord hb hra _)
  | double => exact h.setMem (Memory.wf_writeDouble hwf ..) (Memory.Below.writeDouble hb hra _)

/-- A doubleword cell is left alone, so it need not exist. -/
theorem State.Sound.realModify {s : State} (h : s.Sound) {width : Width} {ra : Nat}
    (hra : width ≠ .double → ra + width.bytes ≤ s.memBytes) (delta : Double) : (s.realModify width ra delta).1.Sound := by
  obtain ⟨hwf, hb⟩ := h.1
  cases width with
  | byte => exact h.setMem (Memory.wf_write hwf ..) (Memory.Below.write hb (hra nofun) _)
  | half => exact h.setMem (Memory.wf_writeHalf hwf ..) (Memory.Below.writeHalf hb (hra nofun) _)
  | word => exact h.setMem (Memory.wf_writeWord hwf ..) (Memory.Below.writeWord hb (hra nofun) _)
  | double => exact h

theorem State.Sound.post {s : State} (h : s.Sound) (L : Fin 32) (pr : Nat) (o : Origin) (l : Option Nat) (ch : Option Byte) :
    (s.post L pr o l ch).Sound := by
  rcases s.post_cases L pr o l ch with hs | ⟨ic, hp, hs⟩
  · rw [hs]; exact h
  · rw [hs]; exact ⟨h.1, h.2.post? hp⟩

/-- A cell of the clock agent that begins in real memory ends there: memory is a whole number of doublewords. -/
theorem State.cellOf_fits {s : State} {width : Width} {ref : WordAddr} (h : cellOf width ref < s.memBytes)
    (hw : width ≠ .double) : cellOf width ref + width.bytes ≤ s.memBytes := by
  have hm := s.memBytes_mod
  cases width with
  | double => exact absurd rfl hw
  | _ => simp only [cellOf, Width.bytes] at h ⊢; omega

theorem State.Sound.clockAct {s : State} (h : s.Sound) (k : Fin 4) : (s.clockAct k).Sound := by
  rcases s.clockAct_cases k with ⟨-, hs | hs⟩ | ⟨j, -, p, hs⟩ | ⟨j, width, ref, delta, -, hs | ⟨hlt, p, hs⟩⟩ |
    ⟨j, -, p, hs⟩ |
    ⟨L, -, hs⟩
  case inr.inr.inl.inr => rw [hs]; exact h.realModify (State.cellOf_fits hlt) delta
  case inr.inr.inr.inr => rw [hs]; exact h.post ..
  all_goals rw [hs]; exact h

theorem State.toolByte_fits {s : State} {space : Space} {width : Width} {index ra : Nat}
    (h : s.toolByte space width index = some ra) : ra + width.bytes ≤ s.memBytes := by
  obtain ⟨rb, -, hrb⟩ := Option.bind_eq_some_iff.1 h
  split at hrb
  · cases hrb; assumption
  · cases hrb

theorem State.Sound.agentAccess {s : State} (h : s.Sound) (a : AgentAccess) : (s.agentAccess a).Sound := by
  cases a with
  | clockAct k => exact h.clockAct k
  | post L pr o l ch => exact h.post ..
  | deviceStore width index v =>
    simp only [State.agentAccess, State.deviceStore]
    split
    · exact h
    · exact h.realStore (by rw [← Nat.mul_add_one]; omega) v
  | deviceModify width index delta =>
    simp only [State.agentAccess, State.deviceModify]
    split
    · exact h
    · exact h.realModify (fun _ => by rw [← Nat.mul_add_one]; omega) delta
  | toolLoad space width index =>
    simp only [State.agentAccess, State.toolLoad]
    split <;> exact h
  | toolStore space width index v =>
    simp only [State.agentAccess, State.toolStore]
    split
    · exact h
    · exact h.realStore (State.toolByte_fits ‹_›) v

theorem State.Rests.agentAccess {s : State} (h : s.Rests) (a : AgentAccess) : (s.agentAccess a).Rests :=
  ⟨h.1.agentAccess a, (s.othersOnly_agentAccess a).exuDepth.trans h.2⟩
theorem State.Sound.settle {s : State} (h : s.Sound) : s.settle.Sound :=
  State.settle_keeps (P := State.Sound) (fun _ a g => g.agentAccess a) (fun _ _ g => g) h
theorem State.Rests.others {s : State} (h : s.Rests) : s.others.Rests :=
  State.others_keeps (P := State.Rests) (fun _ a g => g.agentAccess a) (fun _ _ g => g) h

/-- Settled, a state at rest has the invariant. -/
theorem State.Rests.settle_inv {s : State} (h : s.Rests) : s.settle.Inv :=
  State.inv_iff.2 ⟨State.settle_keeps (P := State.Rests) (fun _ a g => g.agentAccess a) (fun _ _ g => g) h, s.settle_between⟩

/-! ## Instructions -/

/-- Every elementary effect of an instruction keeps a state sound. -/
theorem Effect.sound {s t : State} (e : Effect s t) (h : s.Sound) : t.Sound := by
  cases e with
  | storeByte k v hp =>
    exact ⟨h.1.storeByte (State.resolve_placeOk hp) k v, by rw [State.storeByte_ic, State.storeByte_config]; exact h.2⟩
  | storeHalf k v hp =>
    exact ⟨h.1.storeHalf (State.resolve_placeOk hp) k v, by rw [State.storeHalf_ic, State.storeHalf_config]; exact h.2⟩
  | storeWord v hp =>
    exact ⟨h.1.storeWord (State.resolve_placeOk hp) v, by rw [State.storeWord_ic, State.storeWord_config]; exact h.2⟩
  | storeDouble v hp =>
    exact ⟨h.1.storeDouble (State.resolve_doubleOk hp) v, by rw [State.storeDouble_ic, State.storeDouble_config]; exact h.2⟩
  | control ic hm hc => exact h.setIc (h.2.control hc)
  | post L hm => exact h.post ..
  | agent a => exact h.agentAccess a
  | _ => exact h

theorem Reaches.sound {s t : State} (r : Reaches s t) (h : s.Sound) : t.Sound :=
  r.rec' h fun _ _ g e => e.sound g

theorem State.Sound.executeWord {s t : State} (h : s.Sound) {w : Word} (he : s.executeWord w = .next t) : t.Sound := by
  unfold State.executeWord at he
  split at he
  · cases he; exact h
  · rename_i i _
    obtain ⟨u, hu, hr⟩ := exec_reaches i s
    cases hu.symm.trans he
    exact hr.sound h

theorem State.stepMode_between (s : State) : s.stepMode.between = s.between := by
  unfold State.stepMode; split <;> rfl

theorem State.Rests.stepMode {s : State} (h : s.Rests) : s.stepMode.Rests := by
  unfold State.stepMode; split <;> exact h

/-- The end of an instruction: whatever its nesting was, no step leaves any. -/
theorem State.Sound.finish_inv {s : State} (h : s.Sound) : s.finish.Inv :=
  State.inv_iff.2 ⟨State.Rests.stepMode ⟨h.settle, rfl⟩, (State.stepMode_between _).trans s.settle_between⟩

/-- A read that traps has let the other agents act, and no more. -/
theorem State.others_of_readWord_trap {s t : State} {a : WordAddr} {m : Access} {e : Trap}
    (h : s.readWord a m = .trap e t) : s.others = t := by
  cases hp : s.resolve a m with
  | ok p => rw [State.readWord, State.access_of hp] at h; cases h
  | error x => rw [State.readWord, State.access_trap hp] at h; cases h; rfl

theorem State.Rests.fetchExecute_inv {s t : State} (h : s.Rests) (hs : s.fetchExecute = .next t) : t.Inv := by
  unfold State.fetchExecute at hs
  split at hs
  case h_1 e u hr =>
    cases hs
    have hu : u.Rests := State.others_of_readWord_trap hr ▸ h.others
    exact State.Rests.settle_inv (s := { u with trapPending := some ⟨e.vector, e.cc, true⟩ }) hu
  case h_2 w u hr =>
    obtain ⟨p, -, -, rfl⟩ := State.readWord_ok.1 hr
    split at hs <;> cases hs
    exact State.Sound.finish_inv (State.Sound.executeWord (s := s.others.advance w) h.others.1 ‹_›)

/-! ## Traps and interrupts -/

theorem State.Rests.raiseFatal {s : State} (h : s.Rests) (c : FatalCause) : (s.raiseFatal c).Rests := h

/-- The accesses of the address of an XPSD are reads. -/
theorem State.Rests.exchangeAddress {s : State} (h : s.Rests) (f : Fields) : (s.exchangeAddress f).2.Rests := by
  unfold State.exchangeAddress
  dsimp only
  split
  · exact h.others
  · exact h

theorem State.Rests.exchange {s : State} (h : s.Rests) (w : Word) (cc : BitVec 4) (sIA : WordAddr) :
    (s.exchange w cc sIA).Rests := by
  have ha := h.exchangeAddress (decodeFields w)
  unfold State.exchange
  split
  · rename_i t ht
    replace ha : t.Rests := by rw [ht] at ha; exact ha
    exact ha.raiseFatal _
  · rename_i ea t ht
    replace ha : t.Rests := by rw [ht] at ha; exact ha
    dsimp only
    split
    · exact ha.raiseFatal _
    · rename_i hok
      simp only [Bool.or_eq_true, decide_eq_true_eq, not_or, Nat.not_lt] at hok
      have ho := ha.others
      have hst : (t.others.setMem (t.others.mem.writeDouble (8 * ea.toNat) (Psd.encode { t.psd with ia := sIA }))).Rests :=
        ⟨ho.1.setMem (Memory.wf_writeDouble ho.1.1.1 ..)
          (Memory.Below.writeDouble ho.1.1.2 (by rw [State.others_memBytes]; omega) _), ho.2⟩
      exact hst.others

theorem State.Rests.trapEntry {s : State} (h : s.Rests) (v : Nat) (cc : BitVec 4) (sIA : WordAddr) :
    (s.trapEntry v cc sIA).Rests := by
  unfold State.trapEntry
  dsimp only
  split
  · exact h.others.raiseFatal _
  · split
    · exact h.others.exchange ..
    · exact h.others.raiseFatal _

theorem State.Rests.takeTrap {s : State} (h : s.Rests) (x : TrapData) : (s.takeTrap x).Rests := by
  have he := State.Rests.trapEntry (s := { s with trapPending := none }) h x.vector x.cc (s.savedIA x)
  unfold State.takeTrap
  dsimp only
  split
  · exact he
  · exact he

theorem State.Rests.post {s : State} (h : s.Rests) (L : Fin 32) (pr : Nat) (o : Origin) (l : Option Nat)
    (ch : Option Byte) : (s.post L pr o l ch).Rests := h.agentAccess (.post L pr o l ch)

theorem State.Rests.countDone {s : State} (h : s.Rests) (L : Fin 32) (zero : Bool) : (s.countDone L zero).Rests := by
  have ht : (s.setIc (s.ic.deactivate L)).Rests := ⟨h.1.setIc (h.1.2.deactivate L), h.2⟩
  unfold State.countDone
  dsimp only
  split
  · exact ht.post ..
  · exact ht

/-- The index of a count-pulse MTx counts units of its width, so its cell is aligned. -/
theorem State.realCell_aligned {s t : State} {f : Fields} {width : Width} {ra : Nat}
    (h : s.realCell f width = (some ra, t)) (hw : width ≠ .double) : ra % width.bytes = 0 := by
  have half (n : Nat) : 2 * n % 2 = 0 := Nat.mul_mod_right 2 n
  have word (n : Nat) : 4 * n % 4 = 0 := Nat.mul_mod_right 4 n
  cases width with
  | byte => exact Nat.mod_one ra
  | double => exact absurd rfl hw
  | _ =>
    simp only [State.realCell] at h
    split at h <;> simp only [Prod.mk.injEq, Option.map_eq_some_iff, Option.some.injEq] at h
    · obtain ⟨⟨w, -, rfl⟩, -⟩ := h
      simp only [Width.bytes, half, word]
    · obtain ⟨rfl, -⟩ := h
      simp only [Width.bytes, half, word]

/-- Where it begins in real memory it ends there. -/
theorem State.realCell_fits {s t : State} {f : Fields} {width : Width} {ra : Nat} (h : s.realCell f width = (some ra, t))
    (hra : ra < t.memBytes) (hw : width ≠ .double) : ra + width.bytes ≤ t.memBytes := by
  have hm := t.memBytes_mod
  have hal := State.realCell_aligned h hw
  cases width <;> simp only [Width.bytes] at hal ⊢ <;> omega

theorem State.Rests.realCell {s : State} (h : s.Rests) (f : Fields) (width : Width) : (s.realCell f width).2.Rests := by
  unfold State.realCell
  dsimp only
  split
  · exact h.others
  · exact h

theorem State.realModify_exuDepth (s : State) (width : Width) (ra : Nat) (delta : Double) :
    (s.realModify width ra delta).1.exuDepth = s.exuDepth := by cases width <;> rfl

theorem State.Rests.singleInstruction {s : State} (h : s.Rests) (L : Fin 32) (w : Word) (width : Width) :
    (s.singleInstruction L w width).Rests := by
  have hc := h.realCell (decodeFields w) width
  unfold State.singleInstruction
  split
  · rename_i t ht
    replace hc : t.Rests := by rw [ht] at hc; exact hc
    exact hc.raiseFatal _
  · rename_i ra t ht
    replace hc : t.Rests := by rw [ht] at hc; exact hc
    repeat' split
    · exact hc.raiseFatal _
    · exact hc.others.countDone ..
    · exact hc.raiseFatal _
    · rename_i u zero hu
      have ho := hc.others
      have hm : (t.others.realModify width ra ((decodeFields w).r.signExtend 64)).1.Rests :=
        ⟨ho.1.realModify (by rw [State.others_memBytes]; exact State.realCell_fits ht (by omega)) _,
          (State.realModify_exuDepth ..).trans ho.2⟩
      rw [hu] at hm
      exact hm.countDone ..

theorem State.Rests.interruptEntry {s : State} (h : s.Rests) (L : Fin 32) : (s.interruptEntry L).Rests := by
  unfold State.interruptEntry
  dsimp only
  repeat' split
  · exact h.others.raiseFatal _
  · exact h.others.exchange ..
  · exact h.others.singleInstruction ..
  · exact h.others.raiseFatal _
  · exact h.others.raiseFatal _

theorem State.Rests.takeInterrupt {s : State} (h : s.Rests) {L : Fin 32} {ic : IntCtl} (hp : s.poll = some (L, ic)) :
    (s.takeInterrupt L ic).Rests := by
  have hic : ic.Good s.config := by
    unfold State.poll at hp
    split at hp
    · exact h.1.2.newActive hp
    · cases hp
  have he := State.Rests.interruptEntry (s := s.setIc ic) ⟨h.1.setIc hic, h.2⟩ L
  unfold State.takeInterrupt
  dsimp only
  split
  · exact he
  · exact he

/-! ## The step -/

theorem State.Rests.cycle_inv {s t : State} (h : s.Rests) (hs : s.cycle = .next t) : t.Inv := by
  have hb : s.beginCycle.Rests := ⟨h.1, rfl⟩
  unfold State.cycle at hs
  repeat' split at hs
  · cases hs; exact h.settle_inv
  · cases hs; exact (hb.takeTrap _).settle_inv
  · cases hs; exact (hb.takeInterrupt ‹_›).settle_inv
  · cases hs; exact State.Rests.settle_inv (s := s.beginCycle.waitCycle) hb
  · exact hb.fetchExecute_inv hs

theorem State.setLock_inv {s : State} (h : s.Inv) (p : Nat) (v : BitVec 2) : (s.setLock p v).Inv := by
  rw [State.setLock_frame]; exact h

theorem State.Inv.setIc {s : State} (h : s.Inv) {ic : IntCtl} (hic : ic.Good s.config) : (s.setIc ic).Inv := by
  obtain ⟨hr, hb⟩ := State.inv_iff.1 h
  exact State.inv_iff.2 ⟨⟨hr.1.setIc hic, hr.2⟩, hb⟩

theorem IntCtl.reset_good (c : Config) : IntCtl.reset.Good c := by
  refine ⟨.nil, nofun, fun L hL => ?_, fun L _ => ⟨Nat.zero_le 1, fun _ => rfl⟩⟩
  simp [IntCtl.reset] at hL

theorem State.Inv.event_inv {s t : State} (h : s.Inv) {e : AgentEvent} (hs : s.event e = .next t) : t.Inv := by
  obtain ⟨hr, hb⟩ := State.inv_iff.1 h
  have hic := hr.1.2
  cases e with
  | cpuCycle cpu between =>
    simp only [State.event] at hs
    split at hs
    · exact State.Rests.cycle_inv (s := { s with between := between }) hr hs
    · cases hs; exact h
  | access a => cases hs; exact State.inv_iff.2 ⟨hr.agentAccess a, (s.agentAccess_between a).trans hb⟩
  | arm L => cases hs; exact h.setIc (hic.arm L)
  | disarm L => cases hs; exact h.setIc (hic.disarm L)
  | enable L => cases hs; exact h.setIc (hic.enable L)
  | disable L => cases hs; exact h.setIc (hic.disable L)
  | setWriteLock p v => cases hs; exact State.setLock_inv h p v
  | setPsd p =>
    cases hs
    unfold State.hostPsd
    split <;> exact h
  | reset => cases hs; exact State.inv_iff.2 ⟨⟨⟨hr.1.1, IntCtl.reset_good _⟩, rfl⟩, rfl⟩
  | powerOff => cases hs
  | _ => cases hs; exact h

/-- Settles O47. -/
theorem resetInv : Obligations.ResetInv := by
  have h (c : Config) : (State.resetWith c).Inv :=
    State.inv_iff.2 ⟨⟨⟨⟨rfl, nofun⟩, IntCtl.reset_good c⟩, rfl⟩, rfl⟩
  exact ⟨h _, h⟩

/-- Settles O48, by the turn that is taken: an event of the agenda or a CPU cycle. -/
theorem stepKeepsInv : Obligations.StepKeepsInv := by
  intro s t h hs
  unfold step State.turn at hs
  split at hs
  · exact (State.inv_iff.1 h).1.cycle_inv hs
  · rename_i e rest _
    exact State.Inv.event_inv (s := { s with agenda := rest }) h hs

end Sys2Proof.Machine
end

section
/-! Reset as an event (O46). -/

namespace Sys2Proof.Machine

/-- After a reset no page is locked, whichever table holds its lock (R88, R700). -/
theorem State.lockOf_resetKeeping (s : State) (p : Nat) : s.resetKeeping.lockOf p = 0#2 := by
  unfold State.lockOf
  split
  · exact Vector.getElem_replicate ..
  · rfl

/-- Settles O46. -/
theorem resetKeepsMemory : Obligations.ResetKeepsMemory := by
  intro s rest hs
  have hstep : step s = .next ({ s with agenda := rest } : State).resetKeeping := by
    unfold step State.turn
    rw [hs]
    rfl
  refine ⟨_, hstep, (by decide : Psd.encode Psd.reset = 0#64), rfl, rfl, fun p => ⟨?_, ?_⟩,
    State.lockOf_resetKeeping _, fun L => ⟨?_, ?_, ?_⟩, rfl, rfl, rfl,
    rfl, rfl, rfl, rfl, rfl, rfl, rfl, rfl, rfl, rfl, rfl, rfl⟩
  all_goals exact Vector.getElem_replicate ..

end Sys2Proof.Machine
end

section
/-! The layout of the PSD (O30). `encode` appends the fields, so `decode` takes each of them out again, and the other way round
`encode` of what `decode` takes out is the doubleword with its reserved bits cleared. -/

namespace Sys2Proof.Machine

/-- An append as a number: the upper part counts in units of the lower part's width. -/
theorem toNat_append_eq_add {m n : Nat} (x : BitVec m) (y : BitVec n) : (x ++ y).toNat = x.toNat * 2 ^ n + y.toNat := by
  rw [BitVec.toNat_append, ← Nat.shiftLeft_add_eq_or_of_lt y.isLt, Nat.shiftLeft_eq]

/-- The bits of a doubleword that no field of the PSD holds are cleared (R36, R50). -/
theorem Psd.encode_decode (d : Double) : Psd.encode (Psd.decode d) = d &&& 0xF7F1FFFF37BFFFF0#64 := by
  apply BitVec.eq_of_getLsbD_eq
  intro i hi
  simp only [Psd.encode, Psd.decode, BitVec.getLsbD_append, BitVec.getLsbD_extractLsb', BitVec.getLsbD_ofBool,
    BitVec.getLsbD_and]
  interval_cases i <;> simp

theorem Psd.encode_toNat (p : Psd) :
    (Psd.encode p).toNat = p.cc.toNat * 2 ^ 60 + p.fs.toNat * 2 ^ 58 + p.fz.toNat * 2 ^ 57 + p.fn.toNat * 2 ^ 56 +
      p.ms.toNat * 2 ^ 55 + p.mm.toNat * 2 ^ 54 + p.dm.toNat * 2 ^ 53 + p.am.toNat * 2 ^ 52 + p.ia.toNat * 2 ^ 32 +
      p.wk.toNat * 2 ^ 28 + p.ci.toNat * 2 ^ 26 + p.ii.toNat * 2 ^ 25 + p.ei.toNat * 2 ^ 24 + p.ma.toNat * 2 ^ 23 +
      p.ext.toNat * 2 ^ 16 + p.tsf.toNat * 2 ^ 8 + p.rp.toNat * 2 ^ 4 := by
  simp only [Psd.encode, toNat_append_eq_add, BitVec.toNat_ofBool, BitVec.toNat_ofNat]
  ring

theorem Psd.decode_encode (p : Psd) : Psd.decode (Psd.encode p) = p := by
  obtain ⟨cc, fs, fz, fn, ms, mm, dm, am, ia, wk, ci, ii, ei, ma, ext, tsf, rp⟩ := p
  simp only [Psd.decode, Psd.mk.injEq]
  refine ⟨?cc, ?_, ?_, ?_, ?_, ?_, ?_, ?_, ?ia, ?wk, ?_, ?_, ?_, ?_, ?ext, ?tsf, ?rp⟩
  case cc | ia | wk | ext | tsf | rp =>
    apply BitVec.eq_of_getLsbD_eq
    intro i hi
    simp only [Psd.encode, BitVec.getLsbD_extractLsb', BitVec.getLsbD_append]
    grind
  all_goals
    simp only [← BitVec.getLsbD_eq_getElem, Psd.encode, BitVec.getLsbD_append, BitVec.getLsbD_ofBool]
    simp

/-- Settles O30. -/
theorem psdLayout : Obligations.PsdLayout := by
  refine ⟨fun p => ⟨p.decode_encode, p.encode_toNat⟩, fun d e => ?_⟩
  rw [← Psd.encode_decode, ← Psd.encode_decode]
  exact ⟨congrArg Psd.encode, fun h => by simpa only [Psd.decode_encode] using congrArg Psd.decode h⟩

end Sys2Proof.Machine
end

section
/-! Reading what was stored (O44). A byte, a halfword and a word of a place are extracts of the word or doubleword there, so
reading a part back follows from reading the whole back; and an address that may be written may be read. -/

namespace Sys2Proof.Machine

/-! ## The big-endian parts of memory (R81) -/

/-- An extract that lies in the upper part of an append. -/
theorem extract_append_of_le {m n : Nat} (x : BitVec m) (y : BitVec n) {k : Nat} (h : n ≤ k) (w : Nat) :
    (x ++ y).extractLsb' k w = x.extractLsb' (k - n) w := by
  apply BitVec.eq_of_getLsbD_eq
  intro i hi
  simp only [BitVec.getLsbD_extractLsb', BitVec.getLsbD_append, show ¬k + i < n by omega, if_false, hi, decide_true,
    Bool.true_and, show k + i - n = k - n + i by omega]

/-- An extract that lies in the lower part of an append. -/
theorem extract_append_of_add_le {m n : Nat} (x : BitVec m) (y : BitVec n) {k w : Nat} (h : k + w ≤ n) :
    (x ++ y).extractLsb' k w = y.extractLsb' k w := by
  apply BitVec.eq_of_getLsbD_eq
  intro i hi
  simp only [BitVec.getLsbD_extractLsb', BitVec.getLsbD_append, show k + i < n by omega, if_true]

theorem wordByte_eq_extract (w : Word) (k : BitVec 2) : wordByte w k = w.extractLsb' (24 - 8 * k.toNat) 8 := by
  obtain rfl | rfl | rfl | rfl : k = 0 ∨ k = 1 ∨ k = 2 ∨ k = 3 := by revert k; decide
  all_goals rfl

theorem wordHalf_eq_extract (w : Word) (k : BitVec 1) : wordHalf w k = w.extractLsb' (16 - 16 * k.toNat) 16 := by
  obtain rfl | rfl : k = 0 ∨ k = 1 := by revert k; decide
  all_goals rfl

theorem Memory.readHalf_eq_wordHalf (m : Memory) (a : Nat) (k : BitVec 1) :
    m.readHalf (a + 2 * k.toNat) = wordHalf (m.readWord a) k := by
  obtain rfl | rfl : k = 0 ∨ k = 1 := by revert k; decide
  · exact (extract_append_high _ _).symm
  · exact (extract_append_low _ _).symm

theorem Memory.read_eq_wordByte (m : Memory) (a : Nat) (k : BitVec 2) :
    m.read (a + k.toNat) = wordByte (m.readWord a) k := by
  have hhigh (k : Nat) (hk : 16 ≤ k) : (m.readWord a).extractLsb' k 8 = (m.readHalf a).extractLsb' (k - 16) 8 :=
    extract_append_of_le _ _ hk 8
  have hlow (k : Nat) (hk : k + 8 ≤ 16) : (m.readWord a).extractLsb' k 8 = (m.readHalf (a + 2)).extractLsb' k 8 :=
    extract_append_of_add_le _ _ hk
  rw [wordByte_eq_extract]
  obtain rfl | rfl | rfl | rfl : k = 0 ∨ k = 1 ∨ k = 2 ∨ k = 3 := by revert k; decide
  · rw [hhigh _ (by decide)]; exact (extract_append_high (m.read a) _).symm
  · rw [hhigh _ (by decide)]; exact (extract_append_low _ (m.read (a + 1))).symm
  · rw [hlow _ (by decide)]; exact (extract_append_high (m.read (a + 2)) _).symm
  · rw [hlow _ (by decide)]; exact (extract_append_low _ (m.read (a + 2 + 1))).symm

theorem State.loadByte_eq (s : State) (p : Place) (k : BitVec 2) :
    s.loadByte p k = (s.loadWord p).extractLsb' (24 - 8 * k.toNat) 8 := by
  rw [← wordByte_eq_extract]
  cases p with
  | reg i => rfl
  | real rw => exact s.mem.read_eq_wordByte _ k

theorem State.loadHalf_eq (s : State) (p : Place) (k : BitVec 1) :
    s.loadHalf p k = (s.loadWord p).extractLsb' (16 - 16 * k.toNat) 16 := by
  rw [← wordHalf_eq_extract]
  cases p with
  | reg i => rfl
  | real rw => exact s.mem.readHalf_eq_wordHalf _ k

/-- The place of the word after the one at a place. -/
def Place.next : Place → Place
  | .reg i => .reg (i + 1#4)
  | .real rw => .real (rw + 1)

theorem State.loadDouble_eq (s : State) (p : Place) : s.loadDouble p = s.loadWord p ++ s.loadWord p.next := by
  cases p with
  | reg i => rfl
  | real rw => rfl

/-! ## Addresses -/

/-- An access code that lets a program write lets it read (R97). -/
theorem State.translate_read_of_write {s : State} {vw : WordAddr} {rw : Nat} (h : s.translate vw .write = .ok rw) :
    s.translate vw .read = .ok rw := by
  unfold State.translate State.mapWord at *
  split
  · rename_i hm
    rw [if_pos hm] at h
    split at h
    · cases h
    · rename_i hacc
      rw [← h, if_neg]
      simp only [Bool.and_eq_true, decide_eq_true_eq, not_and, Nat.not_lt] at hacc ⊢
      exact fun hms => (hacc hms).trans (Nat.zero_le 1)
  · rename_i hm
    rwa [if_neg hm] at h

/-- An address that may be written may be read, at the same place. -/
theorem State.resolve_read_of_write {s : State} {vw : WordAddr} {p : Place} (h : s.resolve vw .write = .ok p) :
    s.resolve vw .read = .ok p := by
  cases p with
  | reg i =>
    obtain ⟨hr, rfl⟩ := State.resolve_reg h
    simp [State.resolve, hr]
  | real rw =>
    obtain ⟨hr, ht, hlt, -⟩ := State.resolve_real h
    simp [State.resolve, hr, State.translate_read_of_write ht, hlt]

theorem toNat_append_zero (d : DoubleAddr) : (d ++ 0#1).toNat = 2 * d.toNat := by
  rw [toNat_append_eq_add, Nat.mul_comm]; rfl

theorem toNat_append_one (d : DoubleAddr) : (d ++ 1#1).toNat = 2 * d.toNat + 1 := by
  rw [toNat_append_eq_add, Nat.mul_comm]; rfl

/-- R10's pages are whole doublewords, so both words of one stand in one page. -/
theorem State.translate_next {s : State} (hz : s.config.sizes = Sizes.standard) {d : DoubleAddr} {m : Access} {rw : Nat}
    (h : s.translate (d ++ 0#1) m = .ok rw) : s.translate (d ++ 1#1) m = .ok (rw + 1) := by
  have hpage : s.pageOf (d ++ 1#1) = s.pageOf (d ++ 0#1) := by
    apply Fin.ext
    simp only [State.pageOf, State.virtualWord_standard hz, State.pageWords_standard hz, hz, toNat_append_zero,
      toNat_append_one]
    omega
  have htop : (d ++ 1#1)[16] = (d ++ 0#1)[16] := by
    simp only [← BitVec.getLsbD_eq_getElem, BitVec.getLsbD_append]
    rfl
  unfold State.translate State.mapWord at *
  simp only [hpage, htop, State.virtualWord_standard hz, State.pageWords_standard hz,
    toNat_append_zero, toNat_append_one] at h ⊢
  split at h
  · split at h
    · cases h
    · rename_i hm hacc
      rw [if_pos hm, if_neg hacc]
      cases h
      exact congrArg Except.ok (by omega)
  · rename_i hm
    rw [if_neg hm]
    split at h
    · rename_i hx
      rw [if_pos hx]
      cases h
      refine congrArg Except.ok ?_
      rw [toNat_append_eq_add, toNat_append_eq_add s.psd.ext, BitVec.extractLsb'_toNat, BitVec.extractLsb'_toNat,
        toNat_append_zero, toNat_append_one]
      omega
    · rename_i hx
      rw [if_neg hx]
      cases h
      rfl

/-- The second word of a doubleword is next to the first, and under the same lock. -/
theorem State.resolve_next {s : State} (hz : s.config.sizes = Sizes.standard) {d : DoubleAddr} {m : Access} {p : Place}
    (h : s.resolve (d ++ 0#1) m = .ok p) : s.resolve (d ++ 1#1) m = .ok p.next := by
  have hreg : s.isRegister (d ++ 1#1) = s.isRegister (d ++ 0#1) := by
    unfold State.isRegister
    rw [toNat_append_zero, toNat_append_one]
    congr 2
    apply propext
    omega
  cases p with
  | reg i =>
    obtain ⟨hr, rfl⟩ := State.resolve_reg h
    rw [State.resolve, hreg, if_pos hr]
    congr 2
    apply BitVec.eq_of_toNat_eq
    simp only [BitVec.extractLsb'_toNat, toNat_append_zero, toNat_append_one, BitVec.toNat_add, BitVec.toNat_ofNat]
    omega
  | real rw =>
    obtain ⟨hr, ht, hlt, hlock⟩ := State.resolve_real h
    have heven := State.translate_even ht
    have hmem := s.memBytes_mod
    have hpage : (rw + 1) / s.pageWords = rw / s.pageWords := by rw [State.pageWords_standard hz]; omega
    rw [State.resolve, hreg, if_neg (by simp [hr]), State.translate_next hz ht]
    dsimp only
    rw [if_neg (by omega), if_neg, Place.next]
    rw [hpage, Bool.and_eq_true, decide_eq_true_eq, Bool.not_eq_true', not_and, Bool.not_eq_false]
    exact hlock

/-! ## The statement -/

theorem State.writeWord_readBack {s t : State} {ea : WordAddr} {v : Word} (hb : s.between = []) (hw : s.mem.wf = true)
    (h : s.writeWord ea v = .ok () t) :
    ∃ p, t.resolve ea .read = .ok p ∧ t.others = t ∧ t.loadWord p = v := by
  obtain ⟨p, hp, rfl⟩ := State.writeWord_ok.1 h
  rw [State.others_nil hb]
  refine ⟨p, ?_, State.others_nil ?_, State.loadWord_storeWord hw p v⟩
  · rw [State.resolve_storeWord]; exact State.resolve_read_of_write hp
  · rw [State.storeWord_between]; exact hb

theorem State.writeDouble_readBack {s t : State} {ea : DoubleAddr} {v : Double} (hb : s.between = [])
    (hw : s.mem.wf = true) (h : s.writeDouble ea v = .ok () t) :
    ∃ p, t.resolve (ea ++ 0#1) .read = .ok p ∧ t.others = t ∧ t.loadDouble p = v ∧ t.config = s.config := by
  obtain ⟨p, hp, rfl⟩ := State.writeDouble_ok.1 h
  rw [State.others_nil hb]
  refine ⟨p, ?_, State.others_nil ?_, State.loadDouble_storeDouble hw p v, State.storeDouble_config ..⟩
  · rw [State.resolve_storeDouble]; exact State.resolve_read_of_write hp
  · rw [State.storeDouble_between]; exact hb

/-- Settles O44. -/
theorem readAfterWrite : Obligations.ReadAfterWrite := by
  refine ⟨?word, ?double, ?register⟩
  case word =>
    intro s t ea v hb hw h
    obtain ⟨p, hp, ho, hv⟩ := State.writeWord_readBack hb hw h
    refine ⟨State.readWord_ok.2 ⟨p, hp, by rw [ho, hv], ho⟩, fun k => State.readByte_ok.2 ⟨p, ?_, ?_, ho⟩,
      fun k => State.readHalf_ok.2 ⟨p, ?_, ?_, ho⟩⟩
    · rw [extract_append_high]; exact hp
    · rw [extract_append_low, ho, State.loadByte_eq, hv]
    · rw [extract_append_high]; exact hp
    · rw [extract_append_low, ho, State.loadHalf_eq, hv]
  case double =>
    intro s t ea v hb hw hz h
    obtain ⟨p, hp, ho, hv, hc⟩ := State.writeDouble_readBack hb hw h
    have hn := State.resolve_next (hc ▸ hz) hp
    have hparts := hv
    rw [State.loadDouble_eq] at hparts
    refine ⟨State.readDouble_ok.2 ⟨p, hp, by rw [ho, hv], ho⟩, State.readWord_ok.2 ⟨p, hp, ?_, ho⟩,
      State.readWord_ok.2 ⟨p.next, hn, ?_, ho⟩⟩
    · rw [ho, ← hparts, extract_append_high]
    · rw [ho, ← hparts, extract_append_low]
  case register =>
    exact fun s b i j v => ⟨rfl, s.reg_setReg i j v, fun hb => by rw [State.blockReg_setReg, if_neg (hb ·.1)]⟩

end Sys2Proof.Machine
end

section
/-! What an instruction in slave mode can change (O59). `exec_reaches` says what it can do while the other agents act; here none
acts, and what is left is `Confined`: a frame around the fields a program may change, and two statements that say where in
registers and memory. The operations of an instruction keep it one by one, the privileged instructions end in their trap, and an
EXU chain beyond its limit adds the fatal fault at the very end (`Ends`). -/

namespace Sys2Proof.Machine

/-! ## What may change -/

/-- Outside of registers and memory only CC, the floating modes, pc, the pending trap, the branch outcome, the EXU depth and the
count of free values differ. -/
def State.ProgramOnly (s t : State) : Prop :=
  t = { s with
    psd := { s.psd with cc := t.psd.cc, fs := t.psd.fs, fz := t.psd.fz, fn := t.psd.fn, ia := t.psd.ia }
    regs := t.regs
    mem := t.mem
    trapPending := t.trapPending
    branchOutcome := t.branchOutcome
    exuDepth := t.exuDepth
    freeCount := t.freeCount }

/-- Byte a of real memory is in a word that some address the program may store to leads to. -/
def State.Storable (s : State) (a : Nat) : Prop :=
  ∃ vw : WordAddr, ∃ rw : Nat, s.resolve vw .write = .ok (.real rw) ∧ 4 * rw ≤ a ∧ a < 4 * rw + 4

/-- The machine t is what a slave-mode program, alone and on a machine of R10's sizes, may have made of s. -/
structure Confined (s t : State) : Prop where
  slave : s.psd.ms = true
  alone : s.between = []
  sized : s.config.sizes = Sizes.standard
  only : s.ProgramOnly t
  blocks : ∀ b j : BitVec 4, b ≠ s.psd.rp → t.blockReg b j = s.blockReg b j
  bytes : ∀ a : Nat, t.mem.read a ≠ s.mem.read a → s.Storable a

theorem Confined.refl {s : State} (hm : s.psd.ms = true) (hb : s.between = []) (hz : s.config.sizes = Sizes.standard) :
    Confined s s :=
  ⟨hm, hb, hz, rfl, fun _ _ _ => rfl, fun _ h => absurd rfl h⟩

section
variable {s t : State} (h : s.ProgramOnly t)
include h

theorem State.ProgramOnly.trans {u : State} (g : t.ProgramOnly u) : s.ProgramOnly u := by
  unfold State.ProgramOnly at *
  rw [g, h]
theorem State.ProgramOnly.psd :
    t.psd = { s.psd with cc := t.psd.cc, fs := t.psd.fs, fz := t.psd.fz, fn := t.psd.fn, ia := t.psd.ia } :=
  congrArg State.psd (show t = _ from h)
theorem State.ProgramOnly.ms : t.psd.ms = s.psd.ms := by rw [h.psd]
theorem State.ProgramOnly.rp : t.psd.rp = s.psd.rp := by rw [h.psd]
theorem State.ProgramOnly.map : t.map = s.map := by rw [show t = _ from h]
theorem State.ProgramOnly.acc : t.acc = s.acc := by rw [show t = _ from h]
theorem State.ProgramOnly.locks : t.locks = s.locks := by rw [show t = _ from h]
theorem State.ProgramOnly.highLocks : t.highLocks = s.highLocks := by rw [show t = _ from h]
theorem State.ProgramOnly.ic : t.ic = s.ic := by rw [show t = _ from h]
theorem State.ProgramOnly.clock : t.clock = s.clock := by rw [show t = _ from h]
theorem State.ProgramOnly.waiting : t.waiting = s.waiting := by rw [show t = _ from h]
theorem State.ProgramOnly.intSuppress : t.intSuppress = s.intSuppress := by rw [show t = _ from h]
theorem State.ProgramOnly.hostCalls : t.hostCalls = s.hostCalls := by rw [show t = _ from h]
theorem State.ProgramOnly.between : t.between = s.between := by rw [show t = _ from h]
theorem State.ProgramOnly.config : t.config = s.config := by rw [show t = _ from h]
theorem State.ProgramOnly.resolve (vw : WordAddr) (m : Access) : t.resolve vw m = s.resolve vw m := by
  rw [show t = _ from h]; rfl

end

/-! ## One operation -/

section
variable {s t : State} (h : Confined s t)
include h

theorem Confined.ms : t.psd.ms = true := h.only.ms.trans h.slave
theorem Confined.others_eq : t.others = t := State.others_nil (h.only.between.trans h.alone)

/-- A store at a place of words that may all be stored to. -/
theorem Confined.store {u : State} (hu : t.ProgramOnly u) {p : Place} {off n : Nat} (hk : t.KeptOutside u p off n)
    (hp : ∀ rw, p = .real rw → ∀ a, 4 * rw + off ≤ a → a < 4 * rw + off + n → t.Storable a) : Confined s u := by
  have hregs : ∀ b j : BitVec 4, b ≠ s.psd.rp → u.blockReg b j = t.blockReg b j := fun b j hb => by
    rw [← h.only.rp] at hb
    cases p with
    | reg i => exact hk.1 b j fun he => absurd he hb
    | real rw => exact hk.1 b j fun he => absurd he hb
  have hbytes : ∀ a, u.mem.read a ≠ t.mem.read a → t.Storable a := fun a ha => by
    cases p with
    | reg i => exact absurd (hk.2 a) ha
    | real rw =>
      by_contra hn
      refine ha (hk.2 a ?_)
      by_contra hin
      exact hn (hp rw rfl a (by omega) (by omega))
  refine ⟨h.slave, h.alone, h.sized, h.only.trans hu, fun b j hb => (hregs b j hb).trans (h.blocks b j hb), fun a ha => ?_⟩
  by_cases hat : u.mem.read a = t.mem.read a
  · exact h.bytes a (hat ▸ ha)
  · obtain ⟨vw, rw, hr, hin⟩ := hbytes a hat
    exact ⟨vw, rw, (h.only.resolve vw .write).symm.trans hr, hin⟩

/-- An operation that leaves registers and memory alone. -/
theorem Confined.update {u : State} (hu : t.ProgramOnly u) (hr : u.regs = t.regs) (hm : u.mem = t.mem) : Confined s u :=
  h.store hu (p := .reg 0#4) (off := 0) (n := 4)
    ⟨fun b j _ => by unfold State.blockReg; rw [hr], fun a => by rw [hm]⟩ nofun

theorem Confined.setReg {i : RegNum} {v : Word} : Confined s (t.setReg i v) :=
  h.store (p := .reg i) (off := 0) (n := 4) rfl (t.keptOutside_storeWord (.reg i) v) nofun
theorem Confined.setCC {c : BitVec 4} : Confined s (t.setCC c) := h.update rfl rfl rfl
theorem Confined.setPc {a : WordAddr} : Confined s (t.setPc a) := h.update rfl rfl rfl
theorem Confined.raise {x : Trap} : Confined s (t.raise x) := h.update rfl rfl rfl
theorem Confined.draw : Confined s t.draw := h.update rfl rfl rfl
theorem Confined.nest {n : Nat} : Confined s { t with exuDepth := n } := h.update rfl rfl rfl
theorem Confined.loadControls {r : RegNum} {b : Byte} : Confined s (t.loadControls r b) := h.update rfl rfl rfl

theorem Confined.storeByte {vw : WordAddr} {p : Place} (hp : t.resolve vw .write = .ok p) (k : BitVec 2) (v : Byte) :
    Confined s (t.storeByte p k v) :=
  h.store (by cases p <;> rfl) (t.keptOutside_storeByte p k v) fun rw e a _ _ =>
    ⟨vw, rw, e ▸ hp, by omega, by have := k.isLt; omega⟩
theorem Confined.storeHalf {vw : WordAddr} {p : Place} (hp : t.resolve vw .write = .ok p) (k : BitVec 1) (v : Half) :
    Confined s (t.storeHalf p k v) :=
  h.store (by cases p <;> rfl) (t.keptOutside_storeHalf p k v) fun rw e a _ _ =>
    ⟨vw, rw, e ▸ hp, by omega, by have := k.isLt; omega⟩
theorem Confined.storeWord {vw : WordAddr} {p : Place} (hp : t.resolve vw .write = .ok p) (v : Word) :
    Confined s (t.storeWord p v) :=
  h.store (by cases p <;> rfl) (t.keptOutside_storeWord p v) fun rw e a _ _ => ⟨vw, rw, e ▸ hp, by omega, by omega⟩
/-- Both words of the doubleword may be stored to. -/
theorem Confined.storeDouble {d : DoubleAddr} {p : Place} (hp : t.resolve (d ++ 0#1) .write = .ok p) (v : Double) :
    Confined s (t.storeDouble p v) := by
  have hn := State.resolve_next (h.only.config ▸ h.sized) hp
  refine h.store (by cases p <;> rfl) (t.keptOutside_storeDouble p v) fun rw e a _ _ => ?_
  subst e
  by_cases ha : a < 4 * rw + 4
  · exact ⟨_, rw, hp, by omega, ha⟩
  · exact ⟨_, rw + 1, hn, by omega, by omega⟩

end

theorem Confined.ite {s t u : State} {c : Prop} [Decidable c] (h : Confined s t) (g : Confined s u) :
    Confined s (if c then t else u) := by split <;> assumption

/-! ## Accesses -/

section
variable {s t : State} (h : Confined s t)
include h

theorem confined_access {α : Type} {vw : WordAddr} {m : Access} {k : State → Place → Res α}
    (hk : ∀ p, t.resolve vw m = .ok p → (k t p).Ends (Confined s)) : (t.access vw m k).Ends (Confined s) := by
  unfold State.access
  rw [h.others_eq]
  cases hp : t.resolve vw m with
  | ok p => exact hk p hp
  | error e => exact h

theorem confined_readByte {a : ByteAddr} {m : Access} : (t.readByte a m).Ends (Confined s) := confined_access h fun _ _ => h
theorem confined_readHalf {a : HalfAddr} {m : Access} : (t.readHalf a m).Ends (Confined s) := confined_access h fun _ _ => h
theorem confined_readWord {a : WordAddr} {m : Access} : (t.readWord a m).Ends (Confined s) := confined_access h fun _ _ => h
theorem confined_readDouble {a : DoubleAddr} {m : Access} : (t.readDouble a m).Ends (Confined s) :=
  confined_access h fun _ _ => h
theorem confined_writeByte {a : ByteAddr} {v : Byte} : (t.writeByte a v).Ends (Confined s) :=
  confined_access h fun _ hp => h.storeByte hp _ _
theorem confined_writeHalf {a : HalfAddr} {v : Half} : (t.writeHalf a v).Ends (Confined s) :=
  confined_access h fun _ hp => h.storeHalf hp _ _
theorem confined_writeWord {a : WordAddr} {v : Word} : (t.writeWord a v).Ends (Confined s) :=
  confined_access h fun _ hp => h.storeWord hp _
theorem confined_writeDouble {a : DoubleAddr} {v : Double} : (t.writeDouble a v).Ends (Confined s) :=
  confined_access h fun _ hp => h.storeDouble hp _
theorem confined_modifyByte {a : ByteAddr} {v : Byte} : (t.modifyByte a v).Ends (Confined s) :=
  confined_access h fun _ hp => h.storeByte hp _ _
theorem confined_modifyHalf {a : HalfAddr} {v : Half} : (t.modifyHalf a v).Ends (Confined s) :=
  confined_access h fun _ hp => h.storeHalf hp _ _
theorem confined_modifyWord {a : WordAddr} {v : Word} : (t.modifyWord a v).Ends (Confined s) :=
  confined_access h fun _ hp => h.storeWord hp _
theorem confined_exchangeWord {a : WordAddr} {v : Word} : (t.exchangeWord a v).Ends (Confined s) :=
  confined_access h fun _ hp => h.storeWord hp _
theorem confined_refOf {a : AddrField} : (t.refOf a).Ends (Confined s) := by
  unfold State.refOf
  split
  · exact (confined_readWord h).andThen fun _ _ g => g
  · exact h
theorem confined_effWord {a : AddrField} : (t.effWord a).Ends (Confined s) := (confined_refOf h).andThen fun _ _ g => g
theorem confined_effHalf {a : AddrField} : (t.effHalf a).Ends (Confined s) := (confined_refOf h).andThen fun _ _ g => g
theorem confined_effByte {a : AddrField} : (t.effByte a).Ends (Confined s) := (confined_refOf h).andThen fun _ _ g => g
theorem confined_effDouble {a : AddrField} : (t.effDouble a).Ends (Confined s) := (confined_refOf h).andThen fun _ _ g => g

end

/-! ## Sequencing -/

theorem confined_orTrap {α : Type} {s : State} {x : Res α} {k : α → State → Out} (hx : x.Ends (Confined s))
    (hk : ∀ v u, Confined s u → Answers (Confined s) (k v u)) : Answers (Confined s) (orTrap x k) := by
  cases x with
  | ok v u => exact hk v u hx
  | trap e u => exact Confined.raise hx

section
variable {s t : State} (h : Confined s t)
include h

theorem confined_orRaise {x : Option Trap} {k : Out} (hk : Answers (Confined s) k) : Answers (Confined s) (orRaise t x k) :=
  .orRaise (fun _ _ => h.raise) fun _ => hk
theorem confined_word {a : AddrField} {k : Word → State → Out} (hk : ∀ w u, Confined s u → Answers (Confined s) (k w u)) :
    Answers (Confined s) (withWord t a k) :=
  confined_orTrap (confined_effWord h) fun _ _ g => confined_orTrap (confined_readWord g) hk
theorem confined_half {a : AddrField} {k : Half → State → Out} (hk : ∀ w u, Confined s u → Answers (Confined s) (k w u)) :
    Answers (Confined s) (withHalf t a k) :=
  confined_orTrap (confined_effHalf h) fun _ _ g => confined_orTrap (confined_readHalf g) hk
theorem confined_byte {a : AddrField} {k : Byte → State → Out} (hk : ∀ w u, Confined s u → Answers (Confined s) (k w u)) :
    Answers (Confined s) (withByte t a k) :=
  confined_orTrap (confined_effByte h) fun _ _ g => confined_orTrap (confined_readByte g) hk
theorem confined_double {a : AddrField} {k : Double → State → Out}
    (hk : ∀ w u, Confined s u → Answers (Confined s) (k w u)) : Answers (Confined s) (withDouble t a k) :=
  confined_orTrap (confined_effDouble h) fun _ _ g => confined_orTrap (confined_readDouble g) hk
/-- A privileged opcode ends in its trap. -/
theorem confined_privileged {k : Out} : Answers (Confined s) (privileged t k) := by
  rw [privileged_slave h.ms]
  exact h.raise

/-! ## Results -/

theorem Confined.setPair {r : RegNum} {d : Double} : Confined s (t.setPair r d) := h.setReg.setReg
theorem Confined.overflowTrap {ov : Bool} : Confined s (t.overflowTrap ov) := .ite h.raise h
theorem Confined.loadResult {r : RegNum} {v : Word} : Confined s (t.loadResult r v) := h.setReg.setCC
theorem Confined.loadResultOv {r : RegNum} {v : Word} {ov : Bool} : Confined s (t.loadResultOv r v ov) :=
  Confined.overflowTrap h.setReg.setCC
theorem Confined.loadPairOv {r : RegNum} {v : Double} {ov : Bool} : Confined s (t.loadPairOv r v ov) :=
  Confined.overflowTrap h.setPair.setCC
theorem Confined.arithResult {r : RegNum} {x : Sum 32} : Confined s (t.arithResult r x) :=
  Confined.overflowTrap h.setReg.setCC
theorem Confined.arithPair {r : RegNum} {x : Sum 64} : Confined s (t.arithPair r x) :=
  Confined.overflowTrap h.setPair.setCC
theorem Confined.multiplyResult {r : RegNum} {p : Double} : Confined s (t.multiplyResult r p) :=
  Confined.setCC (.ite h.setReg h.setPair)
theorem Confined.divideOverflow : Confined s t.divideOverflow := Confined.overflowTrap h.setCC
theorem Confined.branchIf {b : Bool} {a : WordAddr} : Confined s (t.branchIf b a) :=
  Confined.update (t := if b then t.setPc a else t) (.ite h.setPc h) rfl rfl rfl
theorem Confined.floatFault : Confined s t.floatFault := h.draw.setCC.raise
theorem Confined.applyShort {r : RegNum} {x : FloatResult 32} : Confined s (t.applyShort r x) := by
  cases x with
  | ok w => exact h.setReg.setCC
  | sig w => exact h.setReg.setCC.raise
  | _ => exact h.floatFault
theorem Confined.applyLong {r : RegNum} {x : FloatResult 64} : Confined s (t.applyLong r x) := by
  cases x with
  | ok w => exact h.setPair.setCC
  | sig w => exact h.setPair.setCC.raise
  | _ => exact h.floatFault
theorem Confined.putSource {r : RegNum} {a : ByteAddr} : Confined s (t.putSource r a) := .ite h h.setReg
theorem Confined.putDest {r : RegNum} {n : Nat} {a : ByteAddr} : Confined s (t.putDest r n a) := h.setReg
theorem Confined.testStop {r : RegNum} {m : Byte} : Confined s (t.testStop r m) := Confined.setCC (.ite h h.setReg)
theorem Confined.setDecAcc {v : BitVec 128} : Confined s (t.setDecAcc v) := h.setReg.setReg.setReg.setReg
theorem Confined.decimalFault {f : DecimalFault} : Confined s (t.decimalFault f) := by
  refine .ite h.raise ?_
  cases f with
  | lengthOrDivide => exact .ite h.draw.setCC h.draw.setCC
  | _ => exact h.setCC
theorem Confined.decimalResult {v : Int} : Confined s (t.decimalResult v) := .ite h.decimalFault h.setDecAcc.setCC

end

/-! ## Instructions of several accesses -/

theorem confined_loadWords {s t : State} (h : Confined s t) (n : Nat) (r : RegNum) (ea : WordAddr) :
    (loadWords n r ea t).Ends (Confined s) := by
  induction n generalizing r ea t with
  | zero => exact h
  | succ n ih => exact (confined_readWord h).andThen fun _ _ g => ih g.setReg _ _

theorem confined_unloadWords {s t : State} (h : Confined s t) (o : State) (keep : Nat → Bool) (r : RegNum) (n : Nat) :
    Confined s (o.unloadWords keep r n t) := by
  induction n generalizing t with
  | zero => exact h
  | succ n ih => exact ih (.ite h h.setReg)

theorem confined_lm {s t : State} (h : Confined s t) (r : RegNum) (a : AddrField) :
    Answers (Confined s) (execLm r a t) := by
  refine confined_orTrap (confined_effWord h) fun ea u g => ?_
  have hl := confined_loadWords g (ccCount u.psd.cc) r ea
  split
  · rename_i hok; rw [hok] at hl; exact hl
  · rename_i htrap; rw [htrap] at hl; exact (confined_unloadWords (Confined.draw hl) _ _ _ _).raise

theorem confined_storeWords {s t : State} (h : Confined s t) (keep : Nat → Bool) (n k : Nat) (r : RegNum) (ea : WordAddr)
    (all : State) : (storeWords keep n k r ea all t).Ends (Confined s) := by
  induction n generalizing k r ea all t with
  | zero => exact h
  | succ n ih =>
    refine (confined_access h fun p hp => ?_).andThen fun _ _ g => ih g _ _ _ _
    exact Confined.ite (h.storeWord hp _) h

theorem confined_stm {s t : State} (h : Confined s t) (r : RegNum) (a : AddrField) :
    Answers (Confined s) (execStm r a t) :=
  confined_orTrap (confined_effWord h) fun _ _ g =>
    .ite (confined_orTrap (confined_storeWords g ..) fun _ _ f => f)
      (confined_orTrap (confined_storeWords g.draw ..) fun _ _ f => f)

theorem confined_convertAdd {s t : State} (h : Confined s t) (v : Word) (n : Nat) (ea : WordAddr) (sum : Word) (c : Bool) :
    (convertAdd v n ea sum c t).Ends (Confined s) := by
  induction n generalizing ea sum c t with
  | zero => exact h
  | succ n ih =>
    rw [convertAdd]
    split
    · exact (confined_readWord h).andThen fun _ _ g => ih g _ _ _
    · exact ih h _ _ _

theorem confined_convertSub {s t : State} (h : Confined s t) (n : Nat) (ea : WordAddr) (rem res : Word) :
    (convertSub n ea rem res t).Ends (Confined s) := by
  induction n generalizing ea rem res t with
  | zero => exact h
  | succ n ih =>
    refine (confined_readWord h).andThen fun _ _ g => ?_
    split
    · exact ih g _ _ _
    · exact ih g _ _ _

theorem confined_stackLimit {s t : State} (h : Confined s t) {p : StackPointer} {n : Int} {x : Option Trap} {k : Out}
    (hk : Answers (Confined s) k) : Answers (Confined s) (stackLimit t p n x k) := by
  rcases stackLimit_cases t p n x k with ⟨-, -, e⟩ | ⟨-, -, e⟩ | ⟨-, -, -, e⟩ | ⟨-, -, -, e⟩ |
    ⟨-, -, e⟩ <;> rw [e]
  · exact h.setCC
  · exact confined_orRaise h h.raise
  · exact h.setCC
  · exact confined_orRaise h h.raise
  · exact confined_orRaise h hk

theorem confined_pushWords {s t : State} (h : Confined s t) (n : Nat) (r : RegNum) (top : WordAddr) :
    (pushWords n r top t).Ends (Confined s) := by
  induction n generalizing r top t with
  | zero => exact h
  | succ n ih => exact (confined_writeWord h).andThen fun _ _ g => ih g _ _

theorem confined_movePointer {s t : State} (h : Confined s t) {ea : DoubleAddr} {p : StackPointer} {n : Int}
    {k : State → State} (hk : ∀ u, Confined s u → Confined s (k u)) : Answers (Confined s) (movePointer t ea p n k) :=
  confined_orTrap (confined_writeDouble h) fun _ _ g => (hk _ g).setCC

theorem confined_pushStack {s t : State} (h : Confined s t) (ea : DoubleAddr) (r : RegNum) (n : Nat) :
    Answers (Confined s) (pushStack t ea r n) :=
  confined_orTrap (confined_readDouble h) fun _ _ g => confined_stackLimit g
    (confined_orTrap (confined_pushWords g _ _ _) fun _ _ f => confined_movePointer f fun _ x => x)

theorem confined_moveBytes {s t : State} (h : Confined s t) (r : RegNum) (disp : ByteAddr) (n : Nat) (src dst : ByteAddr) :
    Answers (Confined s) (moveBytes r disp n src dst t) := by
  induction n generalizing src dst t with
  | zero => exact h
  | succ n ih =>
    exact confined_orTrap (confined_readByte h) fun _ _ g => confined_orTrap (confined_writeByte g) fun _ _ f =>
      ih f.putSource.putDest _ _

theorem confined_compareBytes {s t : State} (h : Confined s t) (r : RegNum) (disp : ByteAddr) (n : Nat)
    (src dst : ByteAddr) : Answers (Confined s) (compareBytes r disp n src dst t) := by
  induction n generalizing src dst t with
  | zero => exact h.setCC
  | succ n ih =>
    exact confined_orTrap (confined_readByte h) fun _ _ g => confined_orTrap (confined_readByte g) fun _ _ f =>
      .ite (ih f.putSource.putDest _ _) f.setCC

theorem confined_translateBytes {s t : State} (h : Confined s t) (r : RegNum) (tb : ByteAddr) (n : Nat) (dst : ByteAddr) :
    Answers (Confined s) (translateBytes r tb n dst t) := by
  induction n generalizing dst t with
  | zero => exact h
  | succ n ih =>
    exact confined_orTrap (confined_readByte h) fun _ _ g => confined_orTrap (confined_readByte g) fun _ _ f =>
      confined_orTrap (confined_writeByte f) fun _ _ e => ih e.putDest _

theorem confined_testBytes {s t : State} (h : Confined s t) (r : RegNum) (tb : ByteAddr) (m : Byte) (n : Nat)
    (dst : ByteAddr) : Answers (Confined s) (testBytes r tb m n dst t) := by
  induction n generalizing dst t with
  | zero => exact h.setCC
  | succ n ih =>
    exact confined_orTrap (confined_readByte h) fun _ _ g => confined_orTrap (confined_readByte g) fun _ _ f =>
      .ite (ih f.putDest _) f.testStop

theorem confined_endDecimal {s t : State} (h : Confined s t) {x : Option Trap} {f : DecimalFault} :
    Answers (Confined s) (endDecimal t x f) :=
  .ite (confined_orRaise h h.decimalFault) h.decimalFault

theorem confined_orIllegal {s t : State} (h : Confined s t) {x : Option Trap} {v : Option Int} {k : Int → Out}
    (hk : ∀ n, Answers (Confined s) (k n)) : Answers (Confined s) (orIllegal t x v k) := by
  cases v with
  | none => exact confined_endDecimal h
  | some n => exact hk n

theorem confined_readField {s t : State} (h : Confined s t) (n : Nat) (a : ByteAddr) :
    (readField n a t).Ends (Confined s) := by
  induction n generalizing a t with
  | zero => exact h
  | succ n ih => exact (confined_readByte h).andThen fun _ _ g => (ih g _).andThen fun _ _ f => f

theorem confined_writeBytes {s t : State} (h : Confined s t) (bs : List Byte) (a : ByteAddr) :
    (writeBytes bs a t).Ends (Confined s) := by
  induction bs generalizing a t with
  | nil => exact h
  | cons b bs ih => exact (confined_writeByte h).andThen fun _ _ g => ih g _

theorem confined_writeField {s t : State} (h : Confined s t) {x : Option Trap} {bs : List Byte} {a : ByteAddr} :
    Answers (Confined s) (writeField t x bs a) :=
  confined_orRaise h (confined_orTrap (confined_writeBytes h _ _) fun _ _ g => g)

theorem confined_field {s t : State} (h : Confined s t) {a : AddrField} {n : Nat} {k : ByteAddr → List Byte → State → Out}
    (hk : ∀ ea bs u, Confined s u → Answers (Confined s) (k ea bs u)) : Answers (Confined s) (withField t a n k) :=
  confined_orTrap (confined_effByte h) fun _ _ g => confined_orTrap (confined_readField g _ _) (hk _)

theorem confined_decimals {s t : State} (h : Confined s t) {r : RegNum} {a : AddrField} {k : Int → Int → State → Out}
    (hk : ∀ x y u, Confined s u → Answers (Confined s) (k x y u)) : Answers (Confined s) (withDecimals r a t k) :=
  confined_field h fun _ _ _ g => confined_orIllegal g fun _ => confined_orIllegal g fun _ => hk _ _ _ g

theorem confined_editPattern {s t : State} (h : Confined s t) (e : Edit) (p : Byte) :
    (editPattern e p t).Ends (Confined s) := by
  have hd (f : Edit) : (editDigit f t).Ends (Confined s) := by
    unfold editDigit
    split
    · exact h
    · refine (confined_readByte h).andThen fun _ _ g => ?_
      split <;> exact g
  unfold editPattern
  dsimp only
  split
  · exact h
  · exact hd _
  · exact hd _
  · exact h

theorem confined_editScan {s t : State} (h : Confined s t) (n : Nat) (dst : ByteAddr) (e : Edit) :
    Confined s (editScan n dst e t).2.2.2 := by
  induction n generalizing dst e t with
  | zero => exact h
  | succ n ih =>
    have hx : ((t.readByte dst .read).andThen fun p t => editPattern e p t).Ends (Confined s) :=
      (confined_readByte h).andThen fun _ _ g => confined_editPattern g _ _
    rw [editScan]
    split
    · rename_i hr; rw [hr] at hx; exact hx
    · rename_i hr; rw [hr] at hx; exact hx
    · rename_i hr; rw [hr] at hx; exact ih hx _ _

theorem confined_editWrite {s t : State} (h : Confined s t) (r : RegNum) (bs : List Byte) (n : Nat) (dst : ByteAddr) :
    (editWrite r bs n dst t).Ends (Confined s) := by
  induction bs generalizing n dst t with
  | nil => exact h
  | cons b bs ih => exact (confined_writeByte h).andThen fun _ _ g => ih g.putDest _ _

theorem confined_ebs {s t : State} (h : Confined s t) (r : RegNum) (v : BitVec 20) :
    Answers (Confined s) (execEbs r v t) := by
  refine .needsDecimal h.raise ?_
  have hscan := confined_editScan h (t.stringCount r) (t.stringDest r) (editStart (t.stringSource r + stringDisp v))
  split
  · rename_i hs
    rw [hs] at hscan
    split
    · exact Confined.decimalFault hscan
    · exact confined_orTrap (confined_editWrite hscan ..) fun _ _ g => g.raise
  · rename_i hs
    rw [hs] at hscan
    exact confined_orTrap (confined_editWrite hscan ..) fun _ _ g => g.setCC
  · rename_i hs
    rw [hs] at hscan
    exact confined_orTrap (confined_editWrite hscan ..) fun _ _ g => g.raise

theorem confined_sf {s t : State} (h : Confined s t) (r : RegNum) (a : AddrField) :
    Answers (Confined s) (execSf r a t) := by
  refine .needsFloat h.raise (confined_orTrap (confined_effWord h) fun _ _ g => ?_)
  repeat' split
  · exact g.setPair.setCC
  · exact g.draw.setCC
  · exact g.setReg.setCC
  · exact g.draw.setCC

theorem confined_analyzedAddress {s t : State} (h : Confined s t) (c : AnalyzeClass) (a : AddrField) :
    (t.analyzedAddress c a).Ends (Confined s) := by
  cases c with
  | byte => exact (confined_effByte h).andThen fun _ _ g => g
  | noAddress => exact h
  | half => exact (confined_effHalf h).andThen fun _ _ g => g
  | word => exact (confined_effWord h).andThen fun _ _ g => g
  | double => exact (confined_effDouble h).andThen fun _ _ g => g

theorem confined_anlz {s t : State} (h : Confined s t) (r : RegNum) (a : AddrField) :
    Answers (Confined s) (execAnlz r a t) := by
  refine confined_word h fun _ _ g => confined_orTrap (confined_analyzedAddress g _ _) fun x _ f => ?_
  cases x with
  | none => exact f.setCC
  | some v => exact f.setCC.setReg

theorem confined_mmc {s t : State} (h : Confined s t) (r : RegNum) (f : BitVec 3) (z : BitVec 17) :
    Answers (Confined s) (execMmc r f z t) := .ite (confined_privileged h) h.raise

/-! ## Every instruction -/

/-- In slave mode, no other agent acting, an instruction other than EXU stays confined. -/
theorem execWith_confined {s t : State} (h : Confined s t) (exu : RegNum → AddrField → State → Out) (i : Instr)
    (hi : ∀ r a, i ≠ .exu r a) : Answers (Confined s) (execWith exu i t) :=
  match i with
  | .exu r a => absurd rfl (hi r a)
  | .lcfi .. => h.loadControls
  | .cal1 .. | .cal2 .. | .cal3 .. | .cal4 .. => h.raise
  | .lpsd .. | .xpsd .. | .lrp .. | .wait .. | .rd .. | .wd .. => confined_privileged h
  | .sio .. | .tio .. | .tdv .. | .hio .. | .aio .. => confined_privileged h
  | .mmc r f z => confined_mmc h r f z
  | .psw .. | .psm .. => confined_orTrap (confined_effDouble h) fun _ _ g => confined_pushStack g ..
  | .plw .. => confined_orTrap (confined_effDouble h) fun _ _ g => confined_orTrap (confined_readDouble g) fun _ _ g =>
      confined_stackLimit g (confined_orTrap (confined_readWord g) fun _ _ g => confined_movePointer g fun _ x => x.setReg)
  | .plm .. => confined_orTrap (confined_effDouble h) fun _ _ g => confined_orTrap (confined_readDouble g) fun _ _ g =>
      confined_stackLimit g (confined_orTrap (confined_loadWords g ..) fun _ _ g => confined_movePointer g fun _ x => x)
  | .msp .. => confined_orTrap (confined_effDouble h) fun _ _ g => confined_orTrap (confined_readDouble g) fun _ _ g =>
      Answers.ite (show Answers (Confined s) (.next _) from g.setCC)
        (confined_stackLimit g (confined_movePointer g fun _ x => x))
  | .ad .. | .sd .. => confined_double h fun _ _ g => g.arithPair
  | .cd .. | .clm .. => confined_double h fun _ _ g => g.setCC
  | .ld .. => confined_double h fun _ _ g => g.setPair.setCC
  | .lcd .. | .lad .. => confined_double h fun _ _ g => g.loadPairOv
  | .std .. => confined_orTrap (confined_effDouble h) fun _ _ g => confined_orTrap (confined_writeDouble g) fun _ _ f => f
  | .fsl .. | .fal .. | .fdl .. | .fml .. => .needsFloat h.raise (confined_double h fun _ _ g => g.applyLong)
  | .fss .. | .fas .. | .fds .. | .fms .. => .needsFloat h.raise (confined_word h fun _ _ g => g.applyShort)
  | .sf .. => confined_sf h ..
  | .ai .. => h.arithResult
  | .ci .. => h.setCC
  | .li .. => h.loadResult
  | .mi .. => h.multiplyResult
  | .s .. => confined_orTrap (confined_effWord h) fun _ _ g =>
      .ite g.raise (.ite g.draw.setReg.setCC g.draw.setPair.setCC)
  | .cvs .. => confined_orTrap (confined_effWord h) fun _ _ g => confined_orTrap (confined_convertSub g ..) fun _ _ f =>
      f.setReg.setReg.setCC
  | .cva .. => confined_orTrap (confined_effWord h) fun _ _ g => confined_orTrap (confined_convertAdd g ..) fun _ _ f =>
      f.setReg.setCC
  | .lm .. => confined_lm h ..
  | .stm .. => confined_stm h ..
  | .aw .. | .sw .. => confined_word h fun _ _ g => g.arithResult
  | .cw .. | .cs .. | .clr .. => confined_word h fun _ _ g => g.setCC
  | .lw .. | .ls .. | .and .. | .or .. | .eor .. => confined_word h fun _ _ g => g.loadResult
  | .lcw .. | .law .. => confined_word h fun _ _ g => g.loadResultOv
  | .mw .. => confined_word h fun _ _ g => g.multiplyResult
  | .dw .. => confined_word h fun _ _ g => .ite g.divideOverflow (Confined.setCC (.ite g.setReg g.setReg.setReg))
  | .int .. => confined_word h fun _ _ g => g.setReg.setReg.setCC
  | .anlz .. => confined_anlz h ..
  | .stw .. => confined_orTrap (confined_effWord h) fun _ _ g => confined_orTrap (confined_writeWord g) fun _ _ f => f
  | .sts .. => confined_orTrap (confined_effWord h) fun _ _ g => confined_orTrap (confined_readWord g) fun _ _ g =>
      confined_orTrap (confined_writeWord g) fun _ _ f => f
  | .xw .. => confined_orTrap (confined_effWord h) fun _ _ g => confined_orTrap (confined_exchangeWord g) fun _ _ f =>
      f.loadResult
  | .awm .. => confined_orTrap (confined_effWord h) fun _ _ g => confined_orTrap (confined_modifyWord g) fun _ _ f =>
      Confined.overflowTrap f.setCC
  | .mtw .. => confined_orTrap (confined_effWord h) fun _ _ g => .ite (confined_orTrap (confined_readWord g) fun _ _ f => f.setCC)
      (confined_orTrap (confined_modifyWord g) fun _ _ f => Confined.overflowTrap f.setCC)
  | .bcr .. | .bcs .. => confined_orTrap (confined_effWord h) fun _ _ g => g.branchIf
  | .bal .. | .bdr .. | .bir .. => confined_orTrap (confined_effWord h) fun _ _ g => g.setReg.branchIf
  | .ah .. | .sh .. => confined_half h fun _ _ g => g.arithResult
  | .ch .. => confined_half h fun _ _ g => g.setCC
  | .lh .. | .lch .. | .lah .. => confined_half h fun _ _ g => g.loadResult
  | .mh .. => confined_half h fun _ _ g => g.setReg.setCC
  | .dh .. => confined_half h fun _ _ g => .ite g.divideOverflow g.setReg.setCC
  | .sth .. => confined_orTrap (confined_effHalf h) fun _ _ g => confined_orTrap (confined_writeHalf g) fun _ _ f =>
      Confined.ite f.setCC f
  | .mth .. => confined_orTrap (confined_effHalf h) fun _ _ g => .ite (confined_orTrap (confined_readHalf g) fun _ _ f => f.setCC)
      (confined_orTrap (confined_modifyHalf g) fun _ _ f => Confined.overflowTrap f.setCC)
  | .lcf .. => confined_byte h fun _ _ g => g.loadControls
  | .cb .. => confined_byte h fun _ _ g => g.setCC
  | .lb .. => confined_byte h fun _ _ g => g.loadResult
  | .stcf .. | .stb .. => confined_orTrap (confined_effByte h) fun _ _ g => confined_orTrap (confined_writeByte g) fun _ _ f => f
  | .mtb .. => confined_orTrap (confined_effByte h) fun _ _ g => .ite (confined_orTrap (confined_readByte g) fun _ _ f => f.setCC)
      (confined_orTrap (confined_modifyByte g) fun _ _ f => f.setCC)
  | .ttbs .. => confined_testBytes h ..
  | .tbs .. => confined_translateBytes h ..
  | .cbs .. => confined_compareBytes h ..
  | .mbs .. => confined_moveBytes h ..
  | .ebs .. => confined_ebs h ..
  | .pack .. | .unpk .. => .needsDecimal h.raise (confined_field h
      fun _ _ _ g => confined_orIllegal g fun _ => confined_writeField g)
  | .da .. | .ds .. => .needsDecimal h.raise (confined_decimals h fun _ _ _ g => g.decimalResult)
  | .dm .. => .needsDecimal h.raise (confined_decimals h fun _ _ _ g => .ite g.decimalFault g.decimalResult)
  | .dd .. => .needsDecimal h.raise (confined_decimals h fun _ _ _ g => .ite g.decimalFault g.setDecAcc)
  | .dc .. => .needsDecimal h.raise (confined_decimals h fun _ _ _ g => g.setCC)
  | .dsa .. => .needsDecimal h.raise (confined_orTrap (confined_effWord h) fun _ _ g =>
      confined_orIllegal g fun _ => g.setDecAcc.setCC)
  | .dl .. => .needsDecimal h.raise (confined_field h fun _ _ _ g => confined_orIllegal g fun _ => g.setDecAcc.setCC)
  | .dst .. => .needsDecimal h.raise (confined_orTrap (confined_effByte h) fun _ _ g => confined_orIllegal g fun _ =>
      .ite (confined_endDecimal g) (confined_writeField g))

/-- How an instruction ends: confined, or with the fatal fault of an EXU chain beyond its limit on top (R345, R612). -/
def Ends (s t : State) : Prop := Confined s t ∨ ∃ u, Confined s u ∧ t = u.raiseFatal .exuLimit

theorem Confined.ends {s t : State} (h : Confined s t) : Ends s t := .inl h

theorem ends_orTrap {α : Type} {s : State} {x : Res α} {k : α → State → Out} (hx : x.Ends (Confined s))
    (hk : ∀ v u, Confined s u → Answers (Ends s) (k v u)) : Answers (Ends s) (orTrap x k) := by
  cases x with
  | ok v u => exact hk v u hx
  | trap e u => exact (Confined.raise hx).ends

theorem execWith_ends {s t : State} (h : Confined s t) {exu : RegNum → AddrField → State → Out}
    (hx : ∀ r a, Answers (Ends s) (exu r a t)) (i : Instr) : Answers (Ends s) (execWith exu i t) := by
  by_cases hi : ∃ r a, i = .exu r a
  · obtain ⟨r, a, rfl⟩ := hi
    exact hx r a
  · exact (execWith_confined h exu i fun r a e => hi ⟨r, a, e⟩).mono fun _ => Confined.ends

theorem execSubjects_ends {s t : State} (h : Confined s t) (fuel : Nat) (a : AddrField) :
    Answers (Ends s) (execSubjects fuel a t) := by
  induction fuel generalizing a t with
  | zero =>
    exact ends_orTrap (confined_effWord h) fun _ _ g => ends_orTrap (confined_readWord g) fun _ u f =>
      .inr ⟨{ u with exuDepth := u.exuDepth + 1 }, f.nest, rfl⟩
  | succ fuel ih =>
    refine ends_orTrap (confined_effWord h) fun _ _ g => ends_orTrap (confined_readWord g) fun _ u f => ?_
    split
    · exact f.nest.raise.ends
    · exact execWith_ends f.nest (fun _ b => ih f.nest b) _

theorem exec_ends {s t : State} (hm : s.psd.ms = true) (hb : s.between = []) (hz : s.config.sizes = Sizes.standard)
    {i : Instr} (he : exec i s = .next t) : Ends s t := by
  rw [exec_eq_execWith] at he
  have h := Confined.refl hm hb hz
  exact (execWith_ends h (fun _ a => execSubjects_ends h _ a) i).of_next he

/-! ## Slave mode is left by a trap or an interrupt only -/

/-- Installing a PSD is an effect of master mode. -/
theorem Effect.slave {s t : State} (e : Effect s t) (h : s.psd.ms = true) : t.psd.ms = true := by
  cases e with
  | install p hm => rw [h] at hm; cases hm
  | storeByte k v hp => rw [State.storeByte_psd]; exact h
  | storeHalf k v hp => rw [State.storeHalf_psd]; exact h
  | storeWord v hp => rw [State.storeWord_psd]; exact h
  | storeDouble v hp => rw [State.storeDouble_psd]; exact h
  | post L hm => rw [h] at hm; cases hm
  | agent a => rw [(s.othersOnly_agentAccess a).psd]; exact h
  | _ => exact h

theorem Reaches.slave {s t : State} (r : Reaches s t) (h : s.psd.ms = true) : t.psd.ms = true :=
  r.rec' h fun _ _ g e => e.slave g

theorem State.settle_psd (s : State) : s.settle.psd = s.psd := s.othersOnly_settle.psd

theorem State.stepMode_psd (s : State) : s.stepMode.psd = s.psd := by
  unfold State.stepMode; split <;> rfl

theorem State.finish_psd (s : State) : s.finish.psd = s.psd := (State.stepMode_psd _).trans s.settle_psd

theorem State.executeWord_slave {s t : State} (h : s.psd.ms = true) {w : Word} (he : s.executeWord w = .next t) :
    t.psd.ms = true := by
  unfold State.executeWord at he
  split at he
  · cases he; exact h
  · rename_i i _
    obtain ⟨u, hu, hr⟩ := exec_reaches i s
    cases hu.symm.trans he
    exact hr.slave h

theorem State.fetchExecute_slave {s t : State} (h : s.psd.ms = true) (hs : s.fetchExecute = .next t) : t.psd.ms = true := by
  unfold State.fetchExecute at hs
  split at hs
  case h_1 e u hr =>
    cases hs
    rw [State.settle_psd, ← State.others_of_readWord_trap hr]
    exact s.others_psd ▸ h
  case h_2 w u hr =>
    obtain ⟨p, -, -, rfl⟩ := State.readWord_ok.1 hr
    split at hs <;> cases hs
    rw [State.finish_psd]
    exact State.executeWord_slave (s := s.others.advance w) (s.othersOnly_others.psd ▸ h : s.others.psd.ms = true) ‹_›

/-- A cycle with no trap to enter and no interrupt to take. -/
theorem State.cycle_slave {s t : State} (h : s.psd.ms = true) (ht : s.trapPending = none) (hp : s.poll = none)
    (hs : s.cycle = .next t) : t.psd.ms = true := by
  have ht' : s.beginCycle.trapPending = none := ht
  have hp' : s.beginCycle.poll = none := hp
  unfold State.cycle at hs
  rw [ht', hp'] at hs
  dsimp only at hs
  repeat' split at hs
  · cases hs; rw [State.settle_psd]; exact h
  · cases hs; rw [State.settle_psd]; exact h
  · exact State.fetchExecute_slave (s := s.beginCycle) h hs

/-- Settles O59. -/
theorem slaveIsolation : Obligations.SlaveIsolation := by
  refine ⟨fun i s t hz hb hm he => ?_, fun s t b rest hm ha ht hp hs => ?_⟩
  · obtain h | ⟨u, h, rfl⟩ := exec_ends hm hb hz he
    · have ho := h.only
      exact ⟨ho.psd, ho.map, ho.acc, ho.locks, ho.highLocks, ho.ic, ho.waiting, ho.intSuppress, ho.config,
        .inl ho.hostCalls, ho.clock, h.blocks, h.bytes⟩
    · have ho := h.only
      exact ⟨ho.psd, ho.map, ho.acc, ho.locks, ho.highLocks, ho.ic, ho.waiting, ho.intSuppress, ho.config,
        .inr ⟨rfl, congrArg _ ho.hostCalls⟩, ho.clock, h.blocks, h.bytes⟩
  · unfold step State.turn at hs
    obtain ha | ⟨p, ha⟩ := ha
    · rw [ha] at hs
      exact State.cycle_slave hm ht hp hs
    · rw [ha] at hs
      simp only [State.event] at hs
      split at hs
      · exact State.cycle_slave (s := { s with agenda := rest, between := b }) hm ht hp hs
      · cases hs; exact hm

end Sys2Proof.Machine
end

section
/-! Decimal arithmetic (O27). A packed value is tied to numbers: bytes, most significant first, are the number `bytesValue`, the
nibbles of a number are `nibbleList`, and the number whose nibbles are the decimal digits of n is `bcd`. So a field of value y
is exactly the number of its digits and sign (`packedValue_eq_some_iff`), the packed results of the instructions are of that
form, and a shift of digits multiplies or divides by powers of 16 on one side and of 10 on the other. -/

namespace Sys2Proof.Machine

/-! ## Digits and numbers -/

theorem digitsValue_append (ds es : List (BitVec 4)) (n : Nat) :
    digitsValue (ds ++ es) n = (digitsValue ds n).bind (digitsValue es) := by
  induction ds generalizing n with
  | nil => rfl
  | cons d ds ih =>
    simp only [List.cons_append, digitsValue]
    split
    · rfl
    · exact ih _

theorem digitsValue_eq_none {ds : List (BitVec 4)} (h : ∃ d ∈ ds, 9 < d.toNat) (n : Nat) : digitsValue ds n = none := by
  induction ds generalizing n with
  | nil => simp at h
  | cons d ds ih =>
    rw [digitsValue]
    split
    · rfl
    · rename_i hd
      obtain ⟨e, he, h9⟩ := h
      obtain rfl | he := List.mem_cons.1 he
      · exact absurd h9 hd
      · exact ih ⟨e, he, h9⟩ _

theorem digitsValue_eq_foldl {ds : List (BitVec 4)} (h : ∀ d ∈ ds, d.toNat ≤ 9) (n : Nat) :
    digitsValue ds n = some (ds.foldl (fun n d => 10 * n + d.toNat) n) := by
  induction ds generalizing n with
  | nil => rfl
  | cons d ds ih =>
    rw [digitsValue, if_neg (Nat.not_lt.2 (h d (List.mem_cons_self ..)))]
    exact ih (fun e he => h e (List.mem_cons_of_mem _ he)) _

/-- The number whose k nibbles are the k low decimal digits of n. -/
def bcd : Nat → Nat → Nat
  | 0, _ => 0
  | k + 1, n => 16 * bcd k (n / 10) + n % 10

/-- The k low nibbles of a number, the lowest last. -/
def nibbleList : Nat → Nat → List (BitVec 4)
  | 0, _ => []
  | k + 1, n => nibbleList k (n / 16) ++ [BitVec.ofNat 4 n]

theorem bcd_lt (k n : Nat) : bcd k n < 16 ^ k := by
  induction k generalizing n with
  | zero => exact Nat.one_pos
  | succ k ih => have := ih (n / 10); rw [bcd, Nat.pow_succ]; omega

/-- Digits above those a number has are 0. -/
theorem bcd_of_le {k l n : Nat} (hn : n < 10 ^ k) (hl : k ≤ l) : bcd l n = bcd k n := by
  induction k generalizing l n with
  | zero =>
    obtain rfl : n = 0 := by omega
    clear hl hn
    induction l with
    | zero => rfl
    | succ l ih => simpa [bcd] using ih
  | succ k ih =>
    obtain ⟨l, rfl⟩ : ∃ m, l = m + 1 := ⟨l - 1, by omega⟩
    rw [bcd, bcd, ih (by rw [Nat.pow_succ] at hn; omega) (by omega)]

/-- Only the k low digits count. -/
theorem bcd_mod (k n : Nat) : bcd k (n % 10 ^ k) = bcd k n := by
  induction k generalizing n with
  | zero => rfl
  | succ k ih =>
    rw [bcd, bcd, Nat.pow_succ, Nat.mod_mul_left_mod, Nat.mul_comm (10 ^ k) 10, Nat.mod_mul_right_div_self, ih]

theorem bcd_succ_mod (k n : Nat) : bcd (k + 1) n % 16 ^ k = bcd k n := by
  induction k generalizing n with
  | zero => exact Nat.mod_one _
  | succ k ih =>
    have := ih (n / 10)
    show (16 * bcd (k + 1) (n / 10) + n % 10) % 16 ^ (k + 1) = 16 * bcd k (n / 10) + n % 10
    rw [Nat.pow_succ', Nat.mod_mul, show (16 * bcd (k + 1) (n / 10) + n % 10) / 16 = bcd (k + 1) (n / 10) by omega]
    omega

theorem bcd_mul_ten (k n : Nat) : bcd k (n * 10) = 16 * bcd k n % 16 ^ k := by
  cases k with
  | zero => rfl
  | succ k =>
    rw [Nat.pow_succ, Nat.mul_comm (16 ^ k) 16, Nat.mul_mod_mul_left, bcd_succ_mod, bcd, Nat.mul_div_left n (by decide),
      Nat.mul_mod_left, Nat.add_zero]

/-- A digit shift to the left: `k` digits stay, and nothing of what is shifted out. -/
theorem bcd_mul_pow (k c n : Nat) : bcd k (n * 10 ^ c) = 16 ^ c * bcd k n % 16 ^ k := by
  induction c generalizing n with
  | zero => simp [Nat.mod_eq_of_lt (bcd_lt k n)]
  | succ c ih =>
    rw [Nat.pow_succ, ← Nat.mul_assoc, bcd_mul_ten, ih, Nat.mul_mod_mod, ← Nat.mul_assoc, Nat.pow_succ']

/-- A digit shift to the right. -/
theorem bcd_div_pow {k n : Nat} (hn : n < 10 ^ k) (c : Nat) : bcd k (n / 10 ^ c) = bcd k n / 16 ^ c := by
  induction c generalizing n with
  | zero => simp
  | succ c ih =>
    have h1 : bcd k (n / 10) = bcd k n / 16 := by
      rw [← bcd_of_le hn (Nat.le_succ k), bcd]
      omega
    rw [Nat.pow_succ', ← Nat.div_div_eq_div_mul, ih ((Nat.div_le_self ..).trans_lt hn), h1, Nat.pow_succ',
      Nat.div_div_eq_div_mul]

/-- A number of k nibbles has the decimal value n exactly if its nibbles are the digits of n. -/
theorem digitsValue_nibbleList {k N n : Nat} (hN : N < 16 ^ k) :
    digitsValue (nibbleList k N) 0 = some n ↔ N = bcd k n ∧ n < 10 ^ k := by
  induction k generalizing N n with
  | zero => simp [nibbleList, digitsValue, bcd]; omega
  | succ k ih =>
    rw [nibbleList, digitsValue_append, Option.bind_eq_some_iff]
    have hN' : N / 16 < 16 ^ k := by rw [Nat.pow_succ] at hN; omega
    simp only [ih hN', digitsValue, BitVec.toNat_ofNat, bcd, Nat.pow_succ 10 k, show 2 ^ 4 = 16 from rfl]
    constructor
    · rintro ⟨m, ⟨hm, hlt⟩, h⟩
      split at h
      · cases h
      · cases h
        rw [show (10 * m + N % 16) / 10 = m by omega, ← hm]
        omega
    · rintro ⟨rfl, hlt⟩
      refine ⟨n / 10, ⟨by omega, by omega⟩, ?_⟩
      rw [if_neg (by omega)]
      congr 1
      omega

/-- A number of k digits and a sign nibble, of value y. -/
def Packed (k N : Nat) (y : Int) : Prop :=
  ∃ (n : Nat) (g : BitVec 4), N = 16 * bcd k n + g.toNat ∧ n < 10 ^ k ∧ 10 ≤ g.toNat ∧
    y = if signNegative g then -(n : Int) else n

theorem Packed.natAbs_lt {k N : Nat} {y : Int} (h : Packed k N y) : y.natAbs < 10 ^ k := by
  obtain ⟨n, g, -, hn, -, rfl⟩ := h
  split <;> simpa using hn

/-- More digits, all of them 0, change no value. -/
theorem Packed.mono {k l N : Nat} {y : Int} (h : Packed k N y) (hl : k ≤ l) : Packed l N y := by
  obtain ⟨n, g, hN, hn, hg, hy⟩ := h
  exact ⟨n, g, by rw [bcd_of_le hn hl, hN], hn.trans_le (Nat.pow_le_pow_right (by decide) hl), hg, hy⟩

/-! ## Bytes and numbers -/

theorem bytesValue_concat (bs : List Byte) (b : Byte) :
    bytesValue (bs ++ [b]) = (bytesValue bs <<< 8) ||| b.setWidth 128 := by
  simp [bytesValue]

theorem bytesValue_toNat_concat {bs : List Byte} (b : Byte) (h : (bytesValue bs).toNat < 256 ^ 15) :
    (bytesValue (bs ++ [b])).toNat = 256 * (bytesValue bs).toNat + b.toNat := by
  rw [bytesValue_concat, BitVec.toNat_or, BitVec.toNat_shiftLeft, BitVec.toNat_setWidth,
    Nat.mod_eq_of_lt (a := b.toNat) (by have := b.isLt; omega), Nat.mod_eq_of_lt (by rw [Nat.shiftLeft_eq]; omega),
    ← Nat.shiftLeft_add_eq_or_of_lt b.isLt, Nat.shiftLeft_eq]
  omega

theorem bytesValue_toNat_lt {bs : List Byte} (h : bs.length ≤ 16) : (bytesValue bs).toNat < 256 ^ bs.length := by
  induction bs using List.reverseRecOn with
  | nil => exact Nat.one_pos
  | append_singleton bs b ih =>
    rw [List.length_append, List.length_singleton] at h ⊢
    have hlt := ih (by omega)
    have hle : 256 ^ bs.length ≤ 256 ^ 15 := Nat.pow_le_pow_right (by decide) (by omega)
    rw [bytesValue_toNat_concat b (by omega), Nat.pow_succ]
    have := b.isLt
    omega

/-- With room for one more byte. -/
theorem bytesValue_toNat_concat_of_lt {bs : List Byte} (h : bs.length < 16) (b : Byte) :
    (bytesValue (bs ++ [b])).toNat = 256 * (bytesValue bs).toNat + b.toNat :=
  bytesValue_toNat_concat b ((bytesValue_toNat_lt (by omega)).trans_le (Nat.pow_le_pow_right (by decide) (by omega)))

theorem nibbles_eq_nibbleList {bs : List Byte} (h : bs.length ≤ 16) :
    nibbles bs = nibbleList (2 * bs.length) (bytesValue bs).toNat := by
  induction bs using List.reverseRecOn with
  | nil => rfl
  | append_singleton bs b ih =>
    rw [List.length_append, List.length_singleton] at h ⊢
    have hb := b.isLt
    rw [bytesValue_toNat_concat_of_lt (by omega), Nat.mul_add_one, nibbleList, nibbleList, Nat.div_div_eq_div_mul,
      show (256 * (bytesValue bs).toNat + b.toNat) / (16 * 16) = (bytesValue bs).toNat by omega, ← ih (by omega),
      nibbles, List.flatMap_append, List.append_assoc]
    congr 1
    simp only [List.flatMap_cons, List.flatMap_nil, List.append_nil, List.singleton_append, List.cons.injEq, and_true]
    constructor <;> apply BitVec.eq_of_toNat_eq <;>
      simp only [BitVec.extractLsb'_toNat, BitVec.toNat_ofNat, Nat.shiftRight_eq_div_pow] <;> omega

/-- The last nibble of a field. -/
theorem bytesValue_extract_sign {bs : List Byte} (h : bs ≠ []) :
    (bytesValue bs).extractLsb' 0 4 = (bs.getLastD 0#8).extractLsb' 0 4 := by
  obtain ⟨cs, b, rfl⟩ := (List.eq_nil_or_concat' bs).resolve_left h
  rw [bytesValue_concat, List.getLastD_concat]
  apply BitVec.eq_of_getLsbD_eq
  intro i hi
  simp [show i < 8 by omega, show i < 128 by omega, hi]

theorem signedValue_eq_some_iff {ds : List (BitVec 4)} {g : BitVec 4} {y : Int} : signedValue ds g = some y ↔
    10 ≤ g.toNat ∧ ∃ n : Nat, digitsValue ds 0 = some n ∧ y = if signNegative g then -(n : Int) else n := by
  unfold signedValue
  split
  · simp only [reduceCtorEq, false_iff, not_and]; omega
  · cases digitsValue ds 0 with
    | none => simp
    | some n =>
      have hg : 10 ≤ g.toNat := by omega
      simp only [Option.some.injEq, exists_eq_left', hg, true_and]
      exact ⟨fun h => (Option.some.inj h).symm, fun h => congrArg some h.symm⟩

theorem packedValue_of_nibbles {bs : List Byte} {ds : List (BitVec 4)} {g : BitVec 4} (h : nibbles bs = ds ++ [g]) :
    packedValue bs = signedValue ds g := by
  rw [packedValue, h, List.dropLast_concat, List.getLastD_concat]

/-- Bytes that are the same number have the same packed value. -/
theorem packedValue_congr {bs cs : List Byte} (hl : bs.length = cs.length) (hb : bs.length ≤ 16)
    (h : bytesValue bs = bytesValue cs) : packedValue bs = packedValue cs := by
  rw [packedValue, packedValue, nibbles_eq_nibbleList hb, nibbles_eq_nibbleList (hl ▸ hb), hl, h]

theorem packedValue_eq_some_iff {bs : List Byte} {y : Int} {k : Nat} (hl : bs.length ≤ 16) (hk : k + 1 = 2 * bs.length) :
    packedValue bs = some y ↔ Packed k (bytesValue bs).toNat y := by
  have hlt : (bytesValue bs).toNat < 16 ^ (k + 1) := by
    rw [hk, pow_mul]; exact bytesValue_toNat_lt hl
  have hn : nibbles bs = nibbleList k ((bytesValue bs).toNat / 16) ++ [BitVec.ofNat 4 (bytesValue bs).toNat] := by
    rw [nibbles_eq_nibbleList hl, ← hk, nibbleList]
  have hlt' : (bytesValue bs).toNat / 16 < 16 ^ k := by rw [Nat.pow_succ] at hlt; omega
  rw [packedValue_of_nibbles hn, signedValue_eq_some_iff]
  constructor
  · rintro ⟨hg, n, hd, hy⟩
    obtain ⟨hN, hn⟩ := (digitsValue_nibbleList hlt').1 hd
    refine ⟨n, _, ?_, hn, hg, hy⟩
    rw [← hN, BitVec.toNat_ofNat]
    omega
  · rintro ⟨n, g, hN, hn, hg, hy⟩
    have hg16 := g.isLt
    have hgN : BitVec.ofNat 4 (bytesValue bs).toNat = g :=
      BitVec.eq_of_toNat_eq (by rw [BitVec.toNat_ofNat, hN]; omega)
    rw [hgN]
    exact ⟨hg, n, (digitsValue_nibbleList hlt').2 ⟨by omega, hn⟩, hy⟩

/-! ## The accumulator -/

/-- The four bytes of a word, most significant first. -/
def wordBytes (w : Word) : List Byte := [24, 16, 8, 0].map fun k => w.extractLsb' k 8

theorem bytesValue_toNat_word {bs : List Byte} (h : bs.length + 4 ≤ 16) (w : Word) :
    (bytesValue (bs ++ wordBytes w)).toNat = 2 ^ 32 * (bytesValue bs).toNat + w.toNat := by
  have hw := w.isLt
  rw [show bs ++ wordBytes w = bs ++ [w.extractLsb' 24 8] ++ [w.extractLsb' 16 8] ++ [w.extractLsb' 8 8] ++
    [w.extractLsb' 0 8] by simp [wordBytes]]
  rw [bytesValue_toNat_concat_of_lt (by simp; omega), bytesValue_toNat_concat_of_lt (by simp; omega),
    bytesValue_toNat_concat_of_lt (by simp; omega), bytesValue_toNat_concat_of_lt (by omega)]
  simp only [BitVec.extractLsb'_toNat, Nat.shiftRight_eq_div_pow]
  omega

theorem accBytes_length (v : BitVec 128) : (accBytes v).length = 16 := by simp [accBytes]

/-- The accumulator's bytes are the bytes of its number. -/
theorem bytesValue_accBytes (v : BitVec 128) : bytesValue (accBytes v) = v := by
  have h (n : Nat) (hn : n ≤ 16) : (bytesValue ((List.range n).map fun k => v.extractLsb' (8 * (15 - k)) 8)).toNat =
      v.toNat / 2 ^ (8 * (16 - n)) := by
    induction n with
    | zero => exact (Nat.div_eq_of_lt v.isLt).symm
    | succ n ih =>
      rw [List.range_succ, List.map_append, List.map_singleton, bytesValue_toNat_concat_of_lt (by simp; omega),
        ih (by omega), BitVec.extractLsb'_toNat, Nat.shiftRight_eq_div_pow, show 16 - (n + 1) = 15 - n by omega,
        show 8 * (16 - n) = 8 * (15 - n) + 8 by omega, Nat.pow_add, ← Nat.div_div_eq_div_mul]
      omega
  exact BitVec.eq_of_toNat_eq ((h 16 (Nat.le_refl _)).trans (Nat.div_one _))

theorem State.accValue_eq_some_iff (s : State) (x : Int) : s.accValue = some x ↔ Packed 31 s.decAcc.toNat x := by
  rw [State.accValue, packedValue_eq_some_iff (k := 31) (by rw [accBytes_length]) (by rw [accBytes_length]),
    bytesValue_accBytes]

theorem State.decAcc_toNat (s : State) : s.decAcc.toNat =
    ((((s.reg 12#4).toNat * 2 ^ 32 + (s.reg 13#4).toNat) * 2 ^ 32 + (s.reg 14#4).toNat) * 2 ^ 32) + (s.reg 15#4).toNat := by
  simp only [State.decAcc, toNat_append_eq_add]

theorem State.accValue_eq_registers (s : State) :
    s.accValue = packedValue ([12#4, 13#4, 14#4, 15#4].flatMap fun i => wordBytes (s.reg i)) := by
  have he : [12#4, 13#4, 14#4, 15#4].flatMap (fun i => wordBytes (s.reg i)) =
      [] ++ wordBytes (s.reg 12#4) ++ wordBytes (s.reg 13#4) ++ wordBytes (s.reg 14#4) ++ wordBytes (s.reg 15#4) := by
    simp
  rw [he]
  refine packedValue_congr (by simp [accBytes_length, wordBytes]) (by rw [accBytes_length])
    (BitVec.eq_of_toNat_eq ?_)
  rw [bytesValue_accBytes, bytesValue_toNat_word (by simp [wordBytes]), bytesValue_toNat_word (by simp [wordBytes]),
    bytesValue_toNat_word (by simp [wordBytes]), bytesValue_toNat_word (by simp), s.decAcc_toNat]
  simp only [bytesValue, List.foldl_nil, BitVec.ofNat_eq_ofNat, BitVec.toNat_ofNat]
  ring

theorem State.reg_setDecAcc (s : State) (v : BitVec 128) :
    (s.setDecAcc v).reg 12#4 = v.extractLsb' 96 32 ∧ (s.setDecAcc v).reg 13#4 = v.extractLsb' 64 32 ∧
    (s.setDecAcc v).reg 14#4 = v.extractLsb' 32 32 ∧ (s.setDecAcc v).reg 15#4 = v.extractLsb' 0 32 := by
  simp [State.setDecAcc, State.reg_setReg]

@[simp] theorem State.decAcc_setDecAcc (s : State) (v : BitVec 128) : (s.setDecAcc v).decAcc = v := by
  obtain ⟨h12, h13, h14, h15⟩ := s.reg_setDecAcc v
  have hv := v.isLt
  apply BitVec.eq_of_toNat_eq
  rw [State.decAcc_toNat, h12, h13, h14, h15]
  simp only [BitVec.extractLsb'_toNat, Nat.shiftRight_eq_div_pow]
  omega

/-- The low nibble of a word of the accumulator. -/
theorem extract_sign (v : BitVec 128) (k : Nat) : (v.extractLsb' k 32).extractLsb' 0 4 = v.extractLsb' k 4 := by
  apply BitVec.eq_of_getLsbD_eq
  intro i hi
  simp [hi, show i < 32 by omega]

theorem State.writes_setCC (s : State) (c : BitVec 4) : s.Writes (s.setCC c) [] c s.trapPending :=
  ⟨s.regsKept_refl _, fun _ => rfl, rfl, rfl, rfl⟩

theorem State.writes_setDecAcc (s : State) (v : BitVec 128) (c : BitVec 4) :
    s.Writes ((s.setDecAcc v).setCC c) [12#4, 13#4, 14#4, 15#4] c s.trapPending := by
  have hregs := State.regsKept_trans (State.regsKept_trans (State.regsKept_trans
    (s.regsKept_setReg 12#4 (v.extractLsb' 96 32)) (State.regsKept_setReg _ 13#4 (v.extractLsb' 64 32)) rfl)
    (State.regsKept_setReg _ 14#4 (v.extractLsb' 32 32)) rfl) (State.regsKept_setReg _ 15#4 (v.extractLsb' 0 32)) rfl
  exact ⟨hregs, fun _ => rfl, rfl, rfl, rfl⟩

/-! ## Packed results -/

theorem packDigits_toNat {k : Nat} (hk : k ≤ 31) (n : Nat) : (packDigits k n).toNat = bcd k n := by
  induction k generalizing n with
  | zero => rfl
  | succ k ih =>
    have hlt : bcd k (n / 10) < 16 ^ 30 := (bcd_lt k _).trans_le (Nat.pow_le_pow_right (by decide) (by omega))
    rw [packDigits, BitVec.toNat_or, BitVec.toNat_shiftLeft, ih (by omega), BitVec.toNat_ofNat,
      Nat.mod_eq_of_lt (a := n % 10) (by omega), Nat.mod_eq_of_lt (by rw [Nat.shiftLeft_eq]; omega),
      ← Nat.shiftLeft_add_eq_or_of_lt (by omega), Nat.shiftLeft_eq, bcd]
    omega

theorem resultSign_signNegative (v : Int) : signNegative (resultSign v) = decide (v < 0) := by
  unfold resultSign
  split <;> simp_all [signNegative]

theorem resultSign_signNibble (v : Int) : SignNibble v (resultSign v) := by
  unfold resultSign
  constructor <;> intro h
  · rw [if_neg (by omega)]
  · rw [if_pos h]

/-- Digits and the sign nibble of a result hold the result. -/
theorem packed_resultSign {k : Nat} {v : Int} (h : v.natAbs < 10 ^ k) :
    Packed k (16 * bcd k v.natAbs + (resultSign v).toNat) v := by
  refine ⟨v.natAbs, resultSign v, rfl, h, ?_, ?_⟩
  · unfold resultSign
    split <;> decide
  · rw [resultSign_signNegative]
    by_cases hv : v < 0
    · rw [if_pos (by simpa using hv)]; omega
    · rw [if_neg (by simpa using hv)]; omega

theorem packed31_toNat (v : Int) : (packed31 v).toNat = 16 * bcd 31 v.natAbs + (resultSign v).toNat := by
  rw [packed31, toNat_append_eq_add, packDigits_toNat (Nat.le_refl _)]
  omega

theorem packed15_toNat (v : Int) : (packed15 v).toNat = 16 * bcd 15 v.natAbs + (resultSign v).toNat := by
  have := bcd_lt 15 v.natAbs
  rw [packed15, toNat_append_eq_add, BitVec.extractLsb'_toNat, packDigits_toNat (by decide)]
  omega

theorem State.setDecAcc_packed31 (s : State) {v : Int} (h : v.natAbs < 10 ^ 31) (c : BitVec 4) :
    ((s.setDecAcc (packed31 v)).setCC c).accValue = some v ∧
    SignNibble v ((((s.setDecAcc (packed31 v)).setCC c).reg 15#4).extractLsb' 0 4) := by
  refine ⟨(State.accValue_eq_some_iff _ _).2 ?_, ?_⟩
  · show Packed 31 (s.setDecAcc (packed31 v)).decAcc.toNat v
    rw [State.decAcc_setDecAcc, packed31_toNat]
    exact packed_resultSign h
  · rw [State.reg_setCC, (s.reg_setDecAcc _).2.2.2, extract_sign, packed31, extract_append_low]
    exact resultSign_signNibble v

/-- Two words side by side. -/
theorem extract_append_words (v : BitVec 128) (k : Nat) :
    v.extractLsb' (k + 32) 32 ++ v.extractLsb' k 32 = v.extractLsb' k 64 := by
  apply BitVec.eq_of_getLsbD_eq
  intro i hi
  simp only [BitVec.getLsbD_append, BitVec.getLsbD_extractLsb', hi, decide_true, Bool.true_and]
  split
  · simp [*]
  · simp [show i - 32 < 32 by omega, show k + 32 + (i - 32) = k + i by omega]

/-- The packed value of two registers, as that of the doubleword they hold. -/
theorem packedValue_registers_eq_some_iff (x y : Word) (v : Int) :
    packedValue (wordBytes x ++ wordBytes y) = some v ↔ Packed 15 (x ++ y).toNat v := by
  rw [packedValue_eq_some_iff (k := 15) (by simp [wordBytes]) (by simp [wordBytes]),
    bytesValue_toNat_word (by simp [wordBytes]), ← List.nil_append (wordBytes x), bytesValue_toNat_word (by simp),
    toNat_append_eq_add]
  have h0 : (bytesValue []).toNat = 0 := rfl
  rw [h0, Nat.mul_zero, Nat.zero_add, Nat.mul_comm]

/-! ## Digit shifts -/

theorem shiftDigits_toNat {n : Nat} (hn : n < 10 ^ 31) {d : BitVec 124} (hd : d.toNat = bcd 31 n) (count : Int) :
    (shiftDigits count d).toNat =
      bcd 31 (if 0 ≤ count then n * 10 ^ count.natAbs % 10 ^ 31 else n / 10 ^ count.natAbs) := by
  unfold shiftDigits
  split
  · rw [bcd_mod, bcd_mul_pow, BitVec.toNat_shiftLeft, hd, Nat.shiftLeft_eq, Nat.mul_comm, pow_mul]
    rfl
  · rw [bcd_div_pow hn, BitVec.toNat_ushiftRight, hd, Nat.shiftRight_eq_div_pow, pow_mul]
    rfl

theorem bcd_inj {m n : Nat} (hm : m < 10 ^ 31) (hn : n < 10 ^ 31) (h : bcd 31 m = bcd 31 n) : m = n :=
  Option.some.inj (((digitsValue_nibbleList (bcd_lt 31 m)).2 ⟨rfl, hm⟩).symm.trans
    ((digitsValue_nibbleList (bcd_lt 31 m)).2 ⟨h, hn⟩))

/-- Shifted left and back, a number is the same exactly if there was room for it. -/
theorem mul_mod_div_eq_iff {n c m : Nat} (hc : 0 < c) (hm : 0 < m) : n * c % m / c = n ↔ n * c < m := by
  constructor
  · intro h
    calc n * c = n * c % m / c * c := by rw [h]
      _ ≤ n * c % m := Nat.div_mul_le_self ..
      _ < m := Nat.mod_lt _ hm
  · intro h
    rw [Nat.mod_eq_of_lt h, Nat.mul_div_left _ hc]

theorem digitsLost_eq {n : Nat} (hn : n < 10 ^ 31) {d : BitVec 124} (hd : d.toNat = bcd 31 n) (count : Int) :
    digitsLost count d = decide (0 ≤ count ∧ 10 ^ 31 ≤ n * 10 ^ count.natAbs) := by
  unfold digitsLost
  obtain hc | rfl | hc := lt_trichotomy count 0
  · simp [show ¬0 < count by omega, show ¬0 ≤ count by omega]
  · simpa using hn
  · have hout := shiftDigits_toNat hn hd count
    rw [if_pos hc.le] at hout
    have hlt : n * 10 ^ count.natAbs % 10 ^ 31 < 10 ^ 31 := Nat.mod_lt _ (by decide)
    have hback := shiftDigits_toNat hlt hout (-count)
    rw [if_neg (by omega), Int.natAbs_neg] at hback
    have hsame : shiftDigits (-count) (shiftDigits count d) = d ↔ n * 10 ^ count.natAbs < 10 ^ 31 := by
      rw [← BitVec.toNat_inj, hback, hd, ← mul_mod_div_eq_iff (Nat.pow_pos (by decide)) (by decide)]
      exact ⟨bcd_inj ((Nat.div_le_self ..).trans_lt hlt) hn, congrArg (bcd 31)⟩
    have hne : (shiftDigits (-count) (shiftDigits count d) != d) = decide (10 ^ 31 ≤ n * 10 ^ count.natAbs) := by
      rw [Bool.eq_iff_iff, bne_iff_ne, ne_eq, hsame, Nat.not_lt, decide_eq_true_eq]
    rw [hne, decide_eq_true hc, Bool.true_and]
    simp only [hc.le, true_and]

/-! ## Fields -/

theorem readField_ok_cons {s t : State} {n : Nat} {a : ByteAddr} {bs : List Byte}
    (h : readField (n + 1) a s = .ok bs t) :
    ∃ b cs u, bs = b :: cs ∧ s.readByte a .read = .ok b u ∧ readField n (a + 1#19) u = .ok cs t := by
  obtain ⟨b, u, hb, h⟩ := Res.andThen_ok h
  obtain ⟨cs, v, hcs, h⟩ := Res.andThen_ok h
  cases h
  exact ⟨b, cs, u, rfl, hb, hcs⟩

theorem readField_length {s t : State} {n : Nat} {a : ByteAddr} {bs : List Byte} (h : readField n a s = .ok bs t) :
    bs.length = n := by
  induction n generalizing a s bs with
  | zero => cases h; rfl
  | succ n ih =>
    obtain ⟨b, cs, u, rfl, -, hcs⟩ := readField_ok_cons h
    rw [List.length_cons, ih hcs]

/-- No other agent acting, a byte is read exactly if it is there. -/
theorem State.readByte_alone {s : State} (hb : s.between = []) {a : ByteAddr} {b : Byte} {t : State} :
    s.readByte a .read = .ok b t ↔ s.peekByte a = some b ∧ s = t := by
  rw [State.readByte_ok, State.others_nil hb, State.peekByte]
  cases s.resolve (a.extractLsb' 2 17) .read <;> simp

theorem readField_alone {s : State} (hb : s.between = []) (bs : List Byte) (ea : ByteAddr) :
    readField bs.length ea s = .ok bs s ↔ ∀ k, k < bs.length → s.peekByte (ea + BitVec.ofNat 19 k) = bs[k]? := by
  induction bs generalizing ea with
  | nil => exact ⟨fun _ k hk => absurd hk (Nat.not_lt_zero k), fun _ => rfl⟩
  | cons b bs ih =>
    have htail : (∀ k, k < bs.length → s.peekByte (ea + BitVec.ofNat 19 (k + 1)) = (b :: bs)[k + 1]?) ↔
        readField bs.length (ea + 1#19) s = .ok bs s := by
      rw [ih]
      simp only [offset_succ, List.getElem?_cons_succ]
    rw [List.length_cons, Nat.forall_lt_succ_left, htail, BitVec.add_zero, List.getElem?_cons_zero]
    constructor
    · intro h
      obtain ⟨c, cs, u, he, hc, hcs⟩ := readField_ok_cons h
      cases he
      obtain ⟨hp, rfl⟩ := (State.readByte_alone hb).1 hc
      exact ⟨hp, hcs⟩
    · rintro ⟨hp, hcs⟩
      rw [readField, (State.readByte_alone hb).2 ⟨hp, rfl⟩, Res.andThen, hcs, Res.andThen]

/-! ## The instructions -/

theorem withField_ok {s v u : State} {a : AddrField} {n : Nat} {ea : ByteAddr} {bs : List Byte}
    (he : s.effByte a = .ok ea v) (hf : readField n ea v = .ok bs u) (k : ByteAddr → List Byte → State → Out) :
    withField s a n k = k ea bs u := by
  rw [withField, he, orTrap_ok, hf, orTrap_ok]

theorem withDecimals_ok {s v u : State} {r : RegNum} {a : AddrField} {ea : ByteAddr} {bs : List Byte} {x y : Int}
    (he : s.effByte a = .ok ea v) (hf : readField (decimalLength r) ea v = .ok bs u) (hx : u.accValue = some x)
    (hy : packedValue bs = some y) (k : Int → Int → State → Out) : withDecimals r a s k = k x y u := by
  rw [withDecimals, withField_ok he hf, hx, hy]
  rfl

theorem State.decimalResult_fits {s : State} {v : Int} (h : v.natAbs < 10 ^ 31) :
    s.decimalResult v = (s.setDecAcc (packed31 v)).setCC (ccOf (cc1 s.psd.cc) (cc2 s.psd.cc) (ccSignInt v)) := by
  rw [State.decimalResult, if_neg (by omega)]
  rfl

theorem decimalLength_bounds (r : RegNum) : 1 ≤ decimalLength r ∧ decimalLength r ≤ 16 := by
  revert r; decide

theorem execDl_ok {s v u : State} {r : RegNum} {a : AddrField} {ea : ByteAddr} {bs : List Byte} {y : Int}
    (ho : s.config.decimalOption = true) (he : s.effByte a = .ok ea v) (hf : readField (decimalLength r) ea v = .ok bs u)
    (hy : packedValue bs = some y) :
    ∃ t, exec (.dl r a) s = .next t ∧ t.accValue = some y ∧
      (t.reg 15#4).extractLsb' 0 4 = (bs.getLastD 0#8).extractLsb' 0 4 ∧
      u.Writes t [12#4, 13#4, 14#4, 15#4] (ccOf (cc1 u.psd.cc) (cc2 u.psd.cc) (ccSignInt y)) u.trapPending := by
  obtain ⟨hl1, hl16⟩ := decimalLength_bounds r
  have hlen := readField_length hf
  refine ⟨(u.setDecAcc (bytesValue bs)).setCC (ccOf (cc1 u.psd.cc) (cc2 u.psd.cc) (ccSignInt y)), ?_, ?_, ?_,
    u.writes_setDecAcc ..⟩
  · show execDl r a s = _
    rw [execDl, needsDecimal_present ho, withField_ok he hf, hy]
    rfl
  · rw [State.accValue_eq_some_iff]
    show Packed 31 (u.setDecAcc (bytesValue bs)).decAcc.toNat y
    rw [State.decAcc_setDecAcc]
    have hp := (packedValue_eq_some_iff (k := 2 * bs.length - 1) (by omega) (by omega)).1 hy
    exact hp.mono (by omega)
  · rw [State.reg_setCC, (u.reg_setDecAcc _).2.2.2, extract_sign]
    exact bytesValue_extract_sign (by rintro rfl; simp at hlen; omega)

/-- The result of DA, DS and DM, when it has at most 31 digits. -/
theorem decimalResult_ok {i : Instr} {s u : State} {v : Int} (he : exec i s = .next (u.decimalResult v))
    (hv : v.natAbs < 10 ^ 31) :
    ∃ t, exec i s = .next t ∧ t.accValue = some v ∧ SignNibble v ((t.reg 15#4).extractLsb' 0 4) ∧
      u.Writes t [12#4, 13#4, 14#4, 15#4] (ccOf (cc1 u.psd.cc) (cc2 u.psd.cc) (ccSignInt v)) u.trapPending := by
  rw [State.decimalResult_fits hv] at he
  obtain ⟨hacc, hsign⟩ := u.setDecAcc_packed31 hv (ccOf (cc1 u.psd.cc) (cc2 u.psd.cc) (ccSignInt v))
  exact ⟨_, he, hacc, hsign, u.writes_setDecAcc ..⟩

/-- What DD leaves: the remainder in x12 and x13, the quotient in x14 and x15. -/
theorem State.setDecAcc_packed15 (u : State) {m q : Int} (hm : m.natAbs < 10 ^ 15) (hq : q.natAbs < 10 ^ 15) :
    packedValue ([14#4, 15#4].flatMap fun i => wordBytes ((u.setDecAcc (packed15 m ++ packed15 q)).reg i)) = some q ∧
    SignNibble q (((u.setDecAcc (packed15 m ++ packed15 q)).reg 15#4).extractLsb' 0 4) ∧
    packedValue ([12#4, 13#4].flatMap fun i => wordBytes ((u.setDecAcc (packed15 m ++ packed15 q)).reg i)) = some m ∧
    SignNibble m (((u.setDecAcc (packed15 m ++ packed15 q)).reg 13#4).extractLsb' 0 4) := by
  obtain ⟨h12, h13, h14, h15⟩ := u.reg_setDecAcc (packed15 m ++ packed15 q)
  have hhigh := congrArg BitVec.toNat (extract_append_high (packed15 m) (packed15 q))
  have hlow := congrArg BitVec.toNat (extract_append_low (packed15 m) (packed15 q))
  simp only [List.flatMap_cons, List.flatMap_nil, List.append_nil, packedValue_registers_eq_some_iff, h12, h13, h14, h15,
    extract_sign, extract_append_words, Nat.reduceAdd, hhigh, hlow, packed15_toNat]
  refine ⟨packed_resultSign hq, ?_, packed_resultSign hm, ?_⟩
  · rw [extract_append_of_add_le _ _ (by decide), packed15, extract_append_low]
    exact resultSign_signNibble q
  · rw [extract_append_of_le _ _ (by decide), packed15, extract_append_low]
    exact resultSign_signNibble m

theorem execDd_ok {s u v : State} {r : RegNum} {a : AddrField} {ea : ByteAddr} {bs : List Byte} {x y : Int}
    (ho : s.config.decimalOption = true) (he : s.effByte a = .ok ea v) (hf : readField (decimalLength r) ea v = .ok bs u)
    (hx : u.accValue = some x) (hy : packedValue bs = some y) (hl : decimalLength r ≤ 8) (hy0 : y ≠ 0)
    (hq : (x.tdiv y).natAbs < 10 ^ 15) :
    exec (.dd r a) s = .next (u.setDecAcc (packed15 (x.tmod y) ++ packed15 (x.tdiv y))) := by
  show execDd r a s = _
  rw [execDd, needsDecimal_present ho, withDecimals_ok he hf hx hy, if_neg (by omega)]

/-- The accumulator's digits, its sign nibble, and the machine after DSA has shifted the digits. -/
theorem execDsa_ok {s u : State} {r : RegNum} {a : AddrField} {ea : WordAddr} {x : Int} (ho : s.config.decimalOption = true)
    (he : s.effWord a = .ok ea u) (hx : u.accValue = some x) :
    exec (.dsa r a) s = .next ((u.setDecAcc (shiftDigits (shiftCount ea) (u.decAcc.extractLsb' 4 124) ++
      u.decAcc.extractLsb' 0 4)).setCC2 (digitsLost (shiftCount ea) (u.decAcc.extractLsb' 4 124))) := by
  show execDsa r a s = _
  rw [execDsa, needsDecimal_present ho, he, orTrap_ok, hx]
  rfl

theorem State.decAcc_extract_sign (s : State) : s.decAcc.extractLsb' 0 4 = (s.reg 15#4).extractLsb' 0 4 :=
  extract_append_of_add_le _ _ (by decide)

/-- The digits and the sign nibble of an accumulator of value x. -/
theorem State.decAcc_of_accValue {s : State} {x : Int} (h : s.accValue = some x) :
    (s.decAcc.extractLsb' 4 124).toNat = bcd 31 x.natAbs ∧ x.natAbs < 10 ^ 31 ∧
      10 ≤ ((s.reg 15#4).extractLsb' 0 4).toNat := by
  have hp := (s.accValue_eq_some_iff x).1 h
  refine ⟨?_, hp.natAbs_lt, ?_⟩
  all_goals
    obtain ⟨n, g, hN, -, hg, rfl⟩ := hp
    have hb := bcd_lt 31 n
    have hg16 := g.isLt
  · have hn : (if signNegative g then -(n : Int) else n).natAbs = n := by split <;> simp
    rw [hn, BitVec.extractLsb'_toNat, Nat.shiftRight_eq_div_pow, hN]
    omega
  · rw [← State.decAcc_extract_sign, BitVec.extractLsb'_toNat, Nat.shiftRight_eq_div_pow, hN]
    omega

/-- A field of at most 8 bytes has at most 15 digits. -/
theorem packedValue_natAbs_lt {bs : List Byte} {y : Int} (h : packedValue bs = some y) (h0 : 1 ≤ bs.length)
    (h8 : bs.length ≤ 8) : y.natAbs < 10 ^ 15 :=
  (((packedValue_eq_some_iff (k := 2 * bs.length - 1) (by omega) (by omega)).1 h).mono (l := 15) (by omega)).natAbs_lt

/-- Settles O27. -/
theorem decimalArithmetic : Obligations.DecimalArithmetic := by
  refine ⟨?format, State.accValue_eq_registers, ?field, ?arithmetic, ?shift⟩
  case format =>
    rintro bs ds g n h rfl
    have hplus : ∀ g ∈ [0xA#4, 0xC#4, 0xE#4, 0xF#4], 10 ≤ g.toNat ∧ signNegative g = false := by decide
    have hminus : ∀ g ∈ [0xB#4, 0xD#4], 10 ≤ g.toNat ∧ signNegative g = true := by decide
    rw [packedValue_of_nibbles h]
    refine ⟨fun hbad => ?_, fun hds hg => ?_, fun hds hg => ?_⟩
    · refine Option.eq_none_iff_forall_ne_some.2 fun y hy => ?_
      obtain ⟨hg, m, hm, -⟩ := signedValue_eq_some_iff.1 hy
      obtain hd | hg' := hbad
      · rw [digitsValue_eq_none hd] at hm; cases hm
      · omega
    · obtain ⟨h10, hs⟩ := hplus g hg
      exact signedValue_eq_some_iff.2 ⟨h10, _, digitsValue_eq_foldl hds 0, by rw [hs]; rfl⟩
    · obtain ⟨h10, hs⟩ := hminus g hg
      exact signedValue_eq_some_iff.2 ⟨h10, _, digitsValue_eq_foldl hds 0, by rw [hs]; rfl⟩
  case field => exact fun s ea bs hb => readField_alone hb bs ea
  case arithmetic =>
    rintro s r a ea len bs y v u ho rfl he hf hy
    have hlen : bs.length = decimalLength r := readField_length hf
    have hr1 := (decimalLength_bounds r).1
    refine ⟨execDl_ok ho he hf hy, fun x hx => ⟨?da, ?ds, ?dm, ?dd, ?dc⟩⟩
    case da =>
      refine decimalResult_ok ?_
      show execDa r a s = _
      rw [execDa, needsDecimal_present ho, withDecimals_ok he hf hx hy]
    case ds =>
      refine decimalResult_ok ?_
      show execDs r a s = _
      rw [execDs, needsDecimal_present ho, withDecimals_ok he hf hx hy]
    case dm =>
      intro hl hx16
      change decimalLength r ≤ 8 at hl
      have hy15 := packedValue_natAbs_lt hy (by omega) (by omega)
      refine decimalResult_ok ?_ ?_
      · show execDm r a s = _
        rw [execDm, needsDecimal_present ho, withDecimals_ok he hf hx hy, if_neg (by omega)]
      · rw [Int.natAbs_mul]
        exact (Nat.mul_lt_mul'' hx16 hy15).trans_eq (by norm_num)
    case dd =>
      intro hl hy0 hq
      change decimalLength r ≤ 8 at hl
      have hm : (x.tmod y).natAbs < 10 ^ 15 := by
        rw [Int.natAbs_tmod]
        exact (Nat.mod_lt _ (Int.natAbs_pos.2 hy0)).trans (packedValue_natAbs_lt hy (by omega) (by omega))
      obtain ⟨hquot, hqs, hrem, hrs⟩ := u.setDecAcc_packed15 hm hq
      exact ⟨_, execDd_ok ho he hf hx hy hl hy0 hq, hquot, hqs, hrem, hrs, u.writes_setDecAcc _ u.psd.cc⟩
    case dc =>
      refine ⟨_, ?_, u.writes_setCC _⟩
      show execDc r a s = _
      rw [execDc, needsDecimal_present ho, withDecimals_ok he hf hx hy]
      rfl
  case shift =>
    rintro s r a ea count x ds u ho he rfl hx rfl
    obtain ⟨hd, hx31, hg⟩ := State.decAcc_of_accValue hx
    refine ⟨_, execDsa_ok ho he hx, ?_, ?_, ?_⟩
    · rw [State.accValue_eq_some_iff]
      show Packed 31 (u.setDecAcc _).decAcc.toNat _
      rw [State.decAcc_setDecAcc, toNat_append_eq_add, shiftDigits_toNat hx31 hd, State.decAcc_extract_sign]
      refine ⟨_, _, by rw [Nat.mul_comm]; rfl, ?_, hg, rfl⟩
      split
      · exact Nat.mod_lt _ (by decide)
      · exact (Nat.div_le_self ..).trans_lt hx31
    · show ((u.setDecAcc _).reg 15#4).extractLsb' 0 4 = _
      rw [(u.reg_setDecAcc _).2.2.2, extract_sign, extract_append_low, State.decAcc_extract_sign]
    · rw [digitsLost_eq hx31 hd]
      exact u.writes_setDecAcc ..

end Sys2Proof.Machine
end

section
/-! The host's control events and the status snapshot (O58). -/

namespace Sys2Proof.Machine

/-- An event of the agenda is the whole step. -/
theorem step_event {s : State} {e : AgentEvent} {rest : List AgentEvent} (h : s.agenda = e :: rest) :
    step s = ({ s with agenda := rest } : State).event e := by
  unfold step State.turn
  rw [h]

theorem getElem_setPage {w : Nat} (t : PageTable w) (p : Byte) (v : BitVec w) (q : Fin 256) :
    (setPage t p v)[q] = if q.val = p.toNat then v else t[q] := by
  simp only [setPage, Fin.getElem_fin, Vector.getElem_set, eq_comm]

/-- Settles O58: each event is its own equation, and of a lock `State.lockOf_setLock` says which page it changes. -/
theorem hostControl : Obligations.HostControl := by
  refine ⟨?events, ?snapshot⟩
  case events =>
    rintro s d rest rfl
    refine ⟨fun p v h => ⟨_, step_event h, rfl, fun q => getElem_setPage ..⟩,
      fun p v h => ⟨_, step_event h, rfl, fun q => getElem_setPage ..⟩, fun p v h => ⟨fun hp => ?_, fun hp => ?_⟩,
      fun p h => step_event h, fun n h => step_event h, fun m h => step_event h, fun m h => ?_, fun h => step_event h⟩
    · rw [step_event h, State.event, State.setLock, if_pos hp]
    · refine ⟨_, step_event h, State.setLock_frame .., fun q => ?_⟩
      rw [State.lockOf_setLock]
      exact if_congr (and_iff_left hp) rfl rfl
    · rw [step_event h, State.event, State.start]
      simp only [beq_eq_decide, ne_eq, decide_not]
  case snapshot =>
    refine fun s => ⟨rfl, rfl, Option.isSome_iff_ne_none, fun c h => ?_, fun h => ?_⟩
    · exact congrArg (Option.map FatalCause.message) h
    · exact congrArg (Option.map FatalCause.message) h

end Sys2Proof.Machine
end

section
/-! Translation and the checks of one access (O43). An address that is no register leads to a mapped, extended or plain real
word; each of the three is an equation of `State.translate`, and the checks on top of it are one of `State.resolve`. -/

namespace Sys2Proof.Machine

theorem State.writeAllowed_eq_false_iff {s : State} {p : Nat} : s.writeAllowed p = false ↔
    p < s.config.wlockPages ∧ s.lockOf p ≠ 0#2 ∧ s.lockOf p ≠ s.psd.wk ∧
      ¬(s.config.wk0IsMaster = true ∧ s.psd.wk = 0#2) := by
  simp [State.writeAllowed, and_assoc]

theorem State.isRegister_eq_true_iff {s : State} {vw : WordAddr} :
    s.isRegister vw = true ↔ s.config.regAsMemory = true ∧ vw.toNat < 16 := by
  simp [State.isRegister]

theorem State.isRegister_eq_false {s : State} {vw : WordAddr} (h : s.config.regAsMemory = false ∨ 16 ≤ vw.toNat) :
    s.isRegister vw = false := by
  rw [← Bool.not_eq_true, State.isRegister_eq_true_iff]
  rintro ⟨hreg, hlt⟩
  rcases h with h | h
  · rw [h] at hreg; cases hreg
  · omega

/-- The map and the access code of the page (R97, R98). -/
theorem State.mapWord_standard {s : State} (hz : s.config.sizes = Sizes.standard) (vw : WordAddr) (mode : Access) :
    s.mapWord vw mode =
      if s.psd.ms && decide ((s.acc[(vw.extractLsb' 9 8).toNat]).toNat > mode.ord) then .error trapProtection
      else .ok ((s.map[(vw.extractLsb' 9 8).toNat]).toNat * 512 + vw.toNat % 512) := by
  simp only [State.mapWord, Fin.getElem_fin, State.pageOf_standard hz, State.pageWords_standard hz,
    State.virtualWord_standard hz, gt_iff_lt]

theorem State.translate_mapped {s : State} (hm : s.psd.mm = true) (vw : WordAddr) (mode : Access) :
    s.translate vw mode = s.mapWord vw mode := if_pos hm

theorem State.translate_extended {s : State} (hm : s.psd.mm = false) (ha : s.psd.ma = true) {vw : WordAddr}
    (hv : 2 ^ 16 ≤ vw.toNat) (mode : Access) :
    s.translate vw mode = .ok (s.psd.ext.toNat * 2 ^ 16 + vw.toNat % 2 ^ 16) := by
  have h16 : vw[16] = true := by
    have := vw.isLt
    simp only [BitVec.getElem_eq_testBit_toNat, Nat.testBit_eq_decide_div_mod_eq, decide_eq_true_eq]
    omega
  have ht : s.translate vw mode = .ok (s.psd.ext ++ vw.extractLsb' 0 16).toNat := by
    simp [State.translate, hm, ha, h16]
  rw [ht, toNat_append_eq_add, BitVec.extractLsb'_toNat]
  rfl

theorem State.translate_plain {s : State} (hz : s.config.sizes = Sizes.standard) (hm : s.psd.mm = false) {vw : WordAddr}
    (h : s.psd.ma = false ∨ vw.toNat < 2 ^ 16) (mode : Access) : s.translate vw mode = .ok vw.toNat := by
  have hx : (s.psd.ma && vw[16]) = false := by
    rcases h with h | h
    · rw [h, Bool.false_and]
    · rw [Bool.and_eq_false_iff, BitVec.getElem_eq_testBit_toNat, Nat.testBit_lt_two_pow h]
      exact .inr rfl
  simp [State.translate, hm, hx, State.virtualWord_standard hz]

/-- The checks of an address that is no register, in their order (R100): the access code, the range, the lock. -/
theorem State.resolve_of_translate {s : State} {vw : WordAddr} {mode : Access} {rw : Nat} {deny : Bool}
    (hz : s.config.sizes = Sizes.standard) (hr : s.isRegister vw = false)
    (ht : s.translate vw mode = if deny then .error trapProtection else .ok rw) :
    s.resolve vw mode =
      if deny then .error trapProtection
      else if s.config.memPages * 2048 ≤ 4 * rw then .error trapNoMemory
      else if mode = .write ∧ s.writeAllowed (rw / 512) = false then .error trapProtection
      else .ok (.real rw) := by
  rw [State.resolve, hr, ht, State.memBytes_standard hz, State.pageWords_standard hz]
  cases deny with
  | true => rfl
  | false => simp

/-- Settles O43: by where the address leads (mapped, extended or plain), then by the checks. -/
theorem translation : Obligations.Translation := by
  refine ⟨fun s vw mode hreg hlt => if_pos (State.isRegister_eq_true_iff.2 ⟨hreg, hlt⟩), ?_⟩
  intro s vw mode rw deny hz hreg hmapped hextended hplain hdeny
  have ht : s.translate vw mode = if deny then .error trapProtection else .ok rw := by
    cases hm : s.psd.mm with
    | true =>
      rw [State.translate_mapped hm, State.mapWord_standard hz, hmapped hm, hdeny, hm, Bool.true_and]
      cases mode <;> rfl
    | false =>
      rw [hdeny, hm]
      by_cases hx : s.psd.ma = true ∧ 2 ^ 16 ≤ vw.toNat
      · exact hextended hm hx.1 hx.2 ▸ State.translate_extended hm hx.1 hx.2 mode
      · have hx' : s.psd.ma = false ∨ vw.toNat < 2 ^ 16 := by
          rwa [not_and_or, Bool.not_eq_true, Nat.not_le] at hx
        exact hplain hm hx' ▸ State.translate_plain hz hm hx' mode
  rw [State.resolve_of_translate hz (State.isRegister_eq_false hreg) ht]
  simp only [State.writeAllowed_eq_false_iff]
  rfl

end Sys2Proof.Machine
end

section
/-! Cells of real memory (R81, R84, R91) and the stores and modifications of the agents (O57). An `AtomicModify` of a cell is the
store of its sum, so what a store of a width holds and leaves alone is said once. -/

namespace Sys2Proof.Machine

/-! ## Cells -/

theorem State.realStore_frame (s : State) (width : Width) (ra : Nat) (v : Double) :
    s.realStore width ra v = { s with mem := (s.realStore width ra v).mem } := by
  cases width <;> rfl

/-- What a store at a real address does (R81, R84): the cell holds the value, and every other byte is as it was. -/
theorem State.realStore_stores {s : State} (hwf : s.mem.wf = true) (width : Width) (ra : Nat) (v : Double) :
    (s.realStore width ra v).mem.Holds width ra v ∧ s.MemKeptBut (s.realStore width ra v) ra width.bytes := by
  cases width with
  | byte =>
    refine ⟨(Memory.read_write hwf ..).trans (if_pos rfl), fun a ha => Memory.read_write_ne _ _ ?_⟩
    simp only [Width.bytes] at ha
    omega
  | half => exact ⟨Memory.readHalf_writeHalf hwf .., fun a ha => Memory.read_writeHalf_ne _ _ ha⟩
  | word => exact ⟨Memory.readWord_writeWord hwf .., fun a ha => Memory.read_writeWord_ne _ _ ha⟩
  | double => exact ⟨Memory.readDouble_writeDouble hwf .., fun a ha => Memory.read_writeDouble_ne _ _ ha⟩

/-- The low bits of a sum, one side of which has no others. -/
theorem extract_setWidth_add {n : Nat} (hn : n ≤ 64) (x : BitVec n) (v : Double) :
    (x.setWidth 64 + v).extractLsb' 0 n = x + v.extractLsb' 0 n := by
  have hlow (y : Double) : y.extractLsb' 0 n = y.setWidth n := BitVec.eq_of_toNat_eq (by simp)
  rw [hlow, hlow, BitVec.setWidth_add _ _ hn, BitVec.setWidth_setWidth_of_le _ hn, BitVec.setWidth_eq]

/-- `AtomicModify` stores the sum. -/
theorem State.realModify_eq_realStore (s : State) {width : Width} (hw : width ≠ .double) (ra : Nat) (delta : Double) :
    (s.realModify width ra delta).1 = s.realStore width ra (s.mem.valueAt width ra + delta) := by
  cases width with
  | double => exact absurd rfl hw
  | _ =>
    simp only [State.realModify, State.realStore, Memory.valueAt]
    rw [extract_setWidth_add (by decide)]

/-- No cell is wider than 64 bits, so its value is 0 only if it holds 0. -/
theorem setWidth_eq_zero_iff {n : Nat} (hn : n ≤ 64) (x : BitVec n) : x.setWidth 64 = 0#64 ↔ x = 0#n := by
  have hx : x.toNat < 2 ^ 64 := x.isLt.trans_le (Nat.pow_le_pow_right (by decide) hn)
  simp only [← BitVec.toNat_inj, BitVec.toNat_setWidth, BitVec.toNat_ofNat, Nat.zero_mod, Nat.mod_eq_of_lt hx]

/-- It answers whether the cell is zero then (R91). -/
theorem State.realModify_zero {s : State} (hwf : s.mem.wf = true) {width : Width} (hw : width ≠ .double) (ra : Nat)
    (delta : Double) :
    (s.realModify width ra delta).2 = decide ((s.realModify width ra delta).1.mem.valueAt width ra = 0#64) := by
  cases width with
  | double => exact absurd rfl hw
  | byte =>
    simp only [State.realModify, Memory.valueAt, State.setMem_mem, Memory.read_write hwf, if_true,
      setWidth_eq_zero_iff (show 8 ≤ 64 by decide), beq_eq_decide]
  | half =>
    simp only [State.realModify, Memory.valueAt, State.setMem_mem, Memory.readHalf_writeHalf hwf,
      setWidth_eq_zero_iff (show 16 ≤ 64 by decide), beq_eq_decide]
  | word =>
    simp only [State.realModify, Memory.valueAt, State.setMem_mem, Memory.readWord_writeWord hwf,
      setWidth_eq_zero_iff (show 32 ≤ 64 by decide), beq_eq_decide]

/-! ## Devices and tooling -/

theorem State.deviceStore_absent {s : State} {width : Width} {i : Nat} (h : s.memBytes < width.bytes * (i + 1))
    (v : Double) : s.deviceStore width i v = s := if_pos h

theorem State.deviceStore_present {s : State} {width : Width} {i : Nat} (h : width.bytes * (i + 1) ≤ s.memBytes)
    (v : Double) : s.deviceStore width i v = s.realStore width (width.bytes * i) v := if_neg (Nat.not_lt.2 h)

theorem State.deviceModify_absent {s : State} {width : Width} {i : Nat}
    (h : width = .double ∨ s.memBytes < width.bytes * (i + 1)) (v : Double) : s.deviceModify width i v = s := by
  rw [State.deviceModify]
  split
  · rfl
  · obtain rfl := h.resolve_right ‹_›
    rfl

theorem State.deviceModify_present {s : State} {width : Width} (hw : width ≠ .double) {i : Nat}
    (h : width.bytes * (i + 1) ≤ s.memBytes) (v : Double) :
    s.deviceModify width i v =
      s.realStore width (width.bytes * i) (s.mem.valueAt width (width.bytes * i) + v) := by
  rw [State.deviceModify, if_neg (Nat.not_lt.2 h), State.realModify_eq_realStore s hw]

section
variable {s : State} (hz : s.config.sizes = Sizes.standard)
include hz

/-- The real byte of a virtual one through the map, with R10's sizes (R98). -/
theorem State.mapByte_standard {va : Nat} {p : Byte} (h : va / 2048 = p.toNat) :
    s.mapByte va = some ((s.map[p.toNat]).toNat * 2048 + va % 2048) := by
  have hp := p.isLt
  simp only [State.mapByte, State.pageBytes_standard hz, hz, h]
  rw [if_pos (by constructor <;> omega), Vector.getElem?_eq_getElem hp]
  rfl

theorem State.mapByte_beyond {va : Nat} (h : 256 * 2048 ≤ va) : s.mapByte va = none := by
  rw [State.mapByte, State.pageBytes_standard hz, hz]
  exact if_neg (by dsimp only; omega)

/-- The cell that tooling names, where it begins at ra. -/
theorem State.toolByte_standard {space : Space} {width : Width} {i ra : Nat}
    (h : space = .real ∧ ra = width.bytes * i ∨ space = .mapped ∧ ∃ p : Byte,
      width.bytes * i / 2048 = p.toNat ∧ ra = (s.map[p.toNat]).toNat * 2048 + width.bytes * i % 2048) :
    s.toolByte space width i = if ra + width.bytes ≤ s.memBytes then some ra else none := by
  obtain ⟨rfl, rfl⟩ | ⟨rfl, p, hp, rfl⟩ := h
  · rfl
  · rw [State.toolByte, State.mapByte_standard hz hp]
    rfl

end

theorem State.toolLoad_absent {s : State} {space : Space} {width : Width} {i : Nat} (h : s.toolByte space width i = none) :
    s.toolLoad space width i = s.report .fault := by
  rw [State.toolLoad, h]

theorem State.toolLoad_present {s : State} {space : Space} {width : Width} {i ra : Nat}
    (h : s.toolByte space width i = some ra) :
    s.toolLoad space width i = s.report (.loaded (s.mem.valueAt width ra)) := by
  rw [State.toolLoad, h]

theorem State.toolStore_absent {s : State} {space : Space} {width : Width} {i : Nat} (h : s.toolByte space width i = none)
    (v : Double) : s.toolStore space width i v = s.report .fault := by
  rw [State.toolStore, h]

theorem State.toolStore_present {s : State} {space : Space} {width : Width} {i ra : Nat}
    (h : s.toolByte space width i = some ra) (v : Double) :
    s.toolStore space width i v = (s.realStore width ra v).report .stored := by
  rw [State.toolStore, h]

/-- Settles O57: of each access, whether its cell exists; where it does, a store is `State.realStore_stores`. -/
theorem agentStores : Obligations.AgentStores := by
  rintro s d rest width i v hz hwf hd
  have hz' : d.config.sizes = Sizes.standard := by rw [hd]; exact hz
  have hm : s.config.memPages * 2048 = d.memBytes := by rw [State.memBytes_standard hz', hd]
  have hstep {a : AgentAccess} (h : s.agenda = .access a :: rest) : step s = .next (d.agentAccess a) :=
    (step_event h).trans (by rw [hd]; rfl)
  have hmem : s.mem = d.mem := by rw [hd]
  have hmap : s.map = d.map := by rw [hd]
  have hreports : s.toolReports = d.toolReports := by rw [hd]
  have hstore (ra : Nat) (v' : Double) : (d.realStore width ra v').mem.Holds width ra v' ∧
      s.MemKeptBut (d.realStore width ra v') ra width.bytes := by
    rw [State.MemKeptBut, hmem]
    exact State.realStore_stores (hmem ▸ hwf) ..
  rw [hm, hmem, hmap, hreports]
  refine ⟨fun h => ⟨fun habs => ?_, fun hin => ?_⟩, fun h => ⟨fun habs => ?_, fun hw hin => ?_⟩,
    fun space ra hra => ⟨fun h => ?_, fun h => ⟨fun habs => ?_, fun hin => ?_⟩⟩, ?beyond⟩
  · rw [hstep h, State.agentAccess, State.deviceStore_absent habs]
  · refine ⟨_, hstep h, ?_⟩
    rw [State.agentAccess, State.deviceStore_present hin]
    exact ⟨State.realStore_frame .., hstore _ _⟩
  · rw [hstep h, State.agentAccess, State.deviceModify_absent habs]
  · refine ⟨_, hstep h, ?_⟩
    rw [State.agentAccess, State.deviceModify_present hw hin]
    exact ⟨State.realStore_frame .., hstore _ _⟩
  · have hb := State.toolByte_standard hz' hra
    rw [hstep h, State.agentAccess]
    by_cases hin : ra + width.bytes ≤ d.memBytes
    · rw [State.toolLoad_present (hb.trans (if_pos hin)), if_pos hin]
      rfl
    · rw [State.toolLoad_absent (hb.trans (if_neg hin)), if_neg hin]
      rfl
  · have hb := (State.toolByte_standard hz' hra).trans (if_neg (Nat.not_le.2 habs))
    rw [hstep h, State.agentAccess, State.toolStore_absent hb]
    rfl
  · have hb := (State.toolByte_standard hz' hra).trans (if_pos hin)
    refine ⟨_, (hstep h).trans (congrArg _ (State.toolStore_present hb v)), ?_, hstore ra v⟩
    rw [State.realStore_frame]
    rfl
  case beyond =>
    intro h hva
    have hb : d.toolByte .mapped width i = none := by
      rw [State.toolByte, State.mapByte_beyond hz' hva]
      rfl
    obtain h | h := h
    · rw [hstep h, State.agentAccess, State.toolLoad_absent hb]
      rfl
    · rw [hstep h, State.agentAccess, State.toolStore_absent hb]
      rfl

end Sys2Proof.Machine
end

section
/-! Accesses between the accesses of one instruction (O45). Up to its operand an instruction has changed nothing itself
(`State.Untouched`). Then the agents' batches are taken one by one: each clause names what stands in the batch before each access
of the CPU, and so what that access finds. -/

namespace Sys2Proof.Machine

/-! ## Before an instruction has an effect -/

/-- From s to t only the other agents acted, and t is s where they do nothing. -/
def State.Untouched (s t : State) : Prop := s.OthersOnly t ∧ (s.between = [] → t = s)

theorem State.Untouched.refl {s : State} : s.Untouched s := ⟨rfl, fun _ => rfl⟩

section
variable {s t : State} (h : s.Untouched t)
include h

theorem State.Untouched.others : s.Untouched t.others :=
  ⟨h.1.trans t.othersOnly_others, fun hb => by rw [h.2 hb]; exact State.others_nil hb⟩

theorem untouched_access {α : Type} {vw : WordAddr} {m : Access} {k : State → Place → Res α}
    (hk : ∀ p, t.resolve vw m = .ok p → (k t.others p).Ends s.Untouched) : (t.access vw m k).Ends s.Untouched := by
  cases hp : t.resolve vw m with
  | ok p => rw [State.access_of hp]; exact hk p hp
  | error e => rw [State.access_trap hp]; exact h.others

theorem untouched_readByte {a : ByteAddr} {m : Access} : (t.readByte a m).Ends s.Untouched :=
  untouched_access h fun _ _ => h.others
theorem untouched_readHalf {a : HalfAddr} {m : Access} : (t.readHalf a m).Ends s.Untouched :=
  untouched_access h fun _ _ => h.others
theorem untouched_readWord {a : WordAddr} {m : Access} : (t.readWord a m).Ends s.Untouched :=
  untouched_access h fun _ _ => h.others
theorem untouched_readDouble {a : DoubleAddr} {m : Access} : (t.readDouble a m).Ends s.Untouched :=
  untouched_access h fun _ _ => h.others
theorem untouched_refOf {a : AddrField} : (t.refOf a).Ends s.Untouched := by
  unfold State.refOf
  split
  · exact (untouched_readWord h).andThen fun _ _ g => g
  · exact h
theorem untouched_effByte {a : AddrField} : (t.effByte a).Ends s.Untouched := (untouched_refOf h).andThen fun _ _ g => g
theorem untouched_effHalf {a : AddrField} : (t.effHalf a).Ends s.Untouched := (untouched_refOf h).andThen fun _ _ g => g
theorem untouched_effWord {a : AddrField} : (t.effWord a).Ends s.Untouched := (untouched_refOf h).andThen fun _ _ g => g
theorem untouched_effDouble {a : AddrField} : (t.effDouble a).Ends s.Untouched :=
  (untouched_refOf h).andThen fun _ _ g => g

end

/-! ## What falls before an access -/

theorem State.effWord_direct {a : AddrField} (hi : a.ind = false) (hx : a.x = 0#3) (s : State) :
    s.effWord a = .ok a.ref s := by
  simp [State.effWord, State.refOf, hi, Res.andThen, State.index, hx]

theorem State.others_cons {s : State} {b : List AgentAccess} {rest : List (List AgentAccess)} (h : s.between = b :: rest) :
    s.others = b.foldl State.agentAccess { s with between := rest } := by
  rw [State.others, h]

/-- A device's store to a word that the CPU may access. -/
theorem State.deviceStore_word {s : State} {rw : Nat} (h : s.PlaceOk (.real rw)) (v : Double) :
    s.deviceStore .word rw v = s.storeWord (.real rw) (v.extractLsb' 0 32) := by
  have hok : 4 * rw + 4 ≤ s.memBytes := h
  exact State.deviceStore_present hok v

/-- A store to the word before an access of it. -/
theorem State.others_store {s : State} {rw : Nat} {v : Double} {rest : List (List AgentAccess)} (h : s.PlaceOk (.real rw))
    (hb : s.between = [.deviceStore .word rw v] :: rest) :
    s.others = ({ s with between := rest } : State).storeWord (.real rw) (v.extractLsb' 0 32) :=
  (State.others_cons hb).trans (State.deviceStore_word (s := { s with between := rest }) h v)

/-- An addition to the word before an access of it, by a device or by the clock agent, whose delta it read before (R91,
R632). -/
theorem State.others_add {s : State} {rw : Nat} {v : Double} {rest : List (List AgentAccess)} (h : s.PlaceOk (.real rw))
    (hb : s.between = [.deviceModify .word rw v] :: rest ∨ ∃ (k : Fin 4) (ref : WordAddr), ref.toNat = rw ∧
      s.clock = .cell k .word ref v ∧ s.between = [.clockAct k] :: rest) :
    s.others.mem = s.mem.writeWord (4 * rw) (s.mem.readWord (4 * rw) + v.extractLsb' 0 32) := by
  have hok : 4 * rw + 4 ≤ s.memBytes := h
  obtain hb | ⟨k, ref, rfl, hc, hb⟩ := hb
  · rw [State.others_cons hb]
    exact congrArg State.mem (if_neg (Nat.not_lt.2 hok))
  · have hcount : ({ s with between := rest } : State).clockAct k =
        ({ s with between := rest } : State).clockCount k .word (4 * ref.toNat) v := by
      rw [State.clockAct, hc]
      rfl
    rw [State.others_cons hb]
    refine (congrArg State.mem hcount).trans (congrArg State.mem (if_neg ?_))
    show ¬s.memBytes ≤ 4 * ref.toNat
    omega

/-! ## The instructions -/

theorem select_getLsbD (mask new old : Word) {k : Nat} (hk : k < 32) :
    (select mask new old).getLsbD k = if mask.getLsbD k then new.getLsbD k else old.getLsbD k := by
  simp only [select, BitVec.getLsbD_or, BitVec.getLsbD_and, BitVec.getLsbD_not, hk, decide_true, Bool.true_and]
  cases mask.getLsbD k <;> simp

theorem regNum_ne_succ (r : RegNum) : r ≠ r + 1#4 := by
  revert r; decide

/-- An instruction that ends with the atomic add of a word (R91, R258, R261). -/
theorem modifyWord_end {s : State} {ea : WordAddr} {p : Place} (hp : s.resolve ea .write = .ok p) (delta : Word) :
    ∃ t, orTrap (s.modifyWord ea delta) (fun x t => .next ((t.setCC (arithCC x)).overflowTrap x.ov)) = .next t ∧
      t.between = s.others.between ∧ t.mem = (s.others.storeWord p (s.others.loadWord p + delta)).mem := by
  refine ⟨_, by rw [State.modifyWord, State.access_of hp]; rfl, ?_⟩
  unfold State.overflowTrap
  split <;> exact ⟨State.storeWord_between .., rfl⟩

section
variable {s : State} {a : AddrField} (hi : a.ind = false) (hx : a.x = 0#3)
include hi hx

theorem exec_lw_direct {p : Place} (hp : s.resolve a.ref .read = .ok p) (r : RegNum) :
    exec (.lw r a) s = .next (s.others.loadResult r (s.others.loadWord p)) :=
  withWord_operand ⟨_, _, s.effWord_direct hi hx, State.readWord_ok.2 ⟨p, hp, rfl, rfl⟩⟩ _

theorem exec_sts_direct {p : Place} (hr : s.resolve a.ref .read = .ok p) (hw : s.resolve a.ref .write = .ok p) (r : RegNum) :
    exec (.sts r a) s = .next (s.others.others.storeWord p (select (s.reg (ru1 r)) (s.reg r) (s.others.loadWord p))) := by
  have hold := State.readWord_ok.2 ⟨p, hr, rfl, rfl⟩
  have hw' : s.others.resolve a.ref .write = .ok p := (s.others_resolve ..).trans hw
  have hnew (v : Word) := State.writeWord_ok (v := v) (x := ()).2 ⟨p, hw', rfl⟩
  show execSts r a s = _
  simp only [execSts, s.effWord_direct hi hx, orTrap_ok, hold, hnew, State.others_reg]

theorem exec_awm_direct {p : Place} (hp : s.resolve a.ref .write = .ok p) (r : RegNum) : ∃ t, exec (.awm r a) s = .next t ∧
    t.between = s.others.between ∧ t.mem = (s.others.storeWord p (s.others.loadWord p + s.reg r)).mem := by
  show ∃ t, execAwm r a s = .next t ∧ _
  rw [execAwm, s.effWord_direct hi hx, orTrap_ok]
  exact modifyWord_end hp (s.reg r)

theorem exec_mtw_direct {p : Place} (hp : s.resolve a.ref .write = .ok p) {r : RegNum} (hr : r ≠ 0#4) :
    ∃ t, exec (.mtw r a) s = .next t ∧ t.between = s.others.between ∧
      t.mem = (s.others.storeWord p (s.others.loadWord p + r.signExtend 32)).mem := by
  show ∃ t, execMtw r a s = .next t ∧ _
  rw [execMtw, s.effWord_direct hi hx, orTrap_ok, if_neg hr]
  exact modifyWord_end hp (deltaOf r)

theorem exec_xw_direct {p : Place} (hp : s.resolve a.ref .write = .ok p) (r : RegNum) :
    exec (.xw r a) s = .next ((s.others.storeWord p (s.reg r)).loadResult r (s.others.loadWord p)) := by
  show execXw r a s = _
  rw [execXw, s.effWord_direct hi hx, orTrap_ok, State.exchangeWord, State.access_of hp, orTrap_ok]

/-- An LM of two words. -/
theorem exec_lm_two_direct {p q : Place} (hcc : s.psd.cc = 2#4) (hp : s.resolve a.ref .read = .ok p)
    (hq : s.resolve (a.ref + 1#17) .read = .ok q) (r : RegNum) : exec (.lm r a) s =
      .next ((s.others.setReg r (s.others.loadWord p)).others.setReg (r + 1#4)
        ((s.others.setReg r (s.others.loadWord p)).others.loadWord q)) := by
  have hfirst := State.readWord_ok.2 ⟨p, hp, rfl, rfl⟩
  have hq' (w : Word) : (s.others.setReg r w).resolve (a.ref + 1#17) .read = .ok q := (s.others_resolve ..).trans hq
  have hsecond (w : Word) := State.readWord_ok.2 ⟨q, hq' w, rfl, rfl⟩
  show execLm r a s = _
  rw [execLm, s.effWord_direct hi hx, orTrap_ok, hcc, show ccCount 2#4 = 2 from rfl]
  simp only [loadWords, hfirst, hsecond, Res.andThen]

end

/-- Settles O45. -/
theorem interference : Obligations.Interference := by
  refine ⟨?operands, ?word, ?two⟩
  case operands =>
    rintro s u a (⟨v, ea, t, he, hr⟩ | ⟨v, ea, t, he, hr⟩ | ⟨v, ea, t, he, hr⟩ | ⟨v, ea, t, he, hr⟩)
    · exact (untouched_readByte ((untouched_effByte .refl).of_ok he)).of_ok hr
    · exact (untouched_readHalf ((untouched_effHalf .refl).of_ok he)).of_ok hr
    · exact (untouched_readWord ((untouched_effWord .refl).of_ok he)).of_ok hr
    · exact (untouched_readDouble ((untouched_effDouble .refl).of_ok he)).of_ok hr
  case word =>
    intro s r a rw v rest hwf hi hx hw
    have hok := State.resolve_placeOk hw
    refine ⟨fun hb hr => ?lw, fun hb hr => ?sts, fun hb => ?modify⟩
    case lw =>
      have hload := Memory.readWord_writeWord hwf (4 * rw) (v.extractLsb' 0 32)
      refine ⟨_, exec_lw_direct hi hx hr r, ?_, ?_, ?_⟩
      · rw [State.others_store hok hb]
        exact (State.reg_setReg_same ..).trans hload
      · exact (s.others_between).trans (congrArg List.tail hb)
      · rw [State.others_store hok hb]
        exact hload
    case sts =>
      have h1 : s.others = { s with between := [.deviceStore .word rw v] :: rest } := State.others_cons hb
      have h2 := State.others_store (s := s.others) (rw := rw) (v := v) (rest := rest) (by rw [h1]; exact hok) (by rw [h1])
      have hwf2 : s.others.others.mem.wf = true := by rw [h2, h1]; exact Memory.wf_writeWord hwf ..
      refine ⟨_, exec_sts_direct hi hx hr hw r, ?_, fun b hb => ?_, fun k hk => ?_⟩
      · rw [State.storeWord_between, h2]
        rfl
      · refine (Memory.read_writeWord_ne _ _ hb).trans ?_
        rw [h2, h1]
        exact Memory.read_writeWord_ne _ _ hb
      · refine (congrArg (BitVec.getLsbD · k) (Memory.readWord_writeWord hwf2 ..)).trans ?_
        rw [select_getLsbD _ _ _ hk, h1]
        rfl
    case modify =>
      have hrest : s.others.between = rest := by
        rw [s.others_between]
        obtain hb | ⟨k, ref, -, -, hb⟩ := hb <;> rw [hb] <;> rfl
      have hmem := State.others_add hok hb
      have hwf' : s.others.mem.wf = true := by rw [hmem]; exact Memory.wf_writeWord hwf ..
      have hold : s.others.mem.readWord (4 * rw) = s.mem.readWord (4 * rw) + v.extractLsb' 0 32 := by
        rw [hmem]; exact Memory.readWord_writeWord hwf ..
      refine ⟨?awm, fun hr => ?mtw, ?xw⟩
      case awm =>
        obtain ⟨t, ht, htb, htm⟩ := exec_awm_direct hi hx hw r
        refine ⟨t, ht, htb.trans hrest, ?_⟩
        rw [htm, ← hold]
        exact Memory.readWord_writeWord hwf' ..
      case mtw =>
        obtain ⟨t, ht, htb, htm⟩ := exec_mtw_direct hi hx hw hr
        refine ⟨t, ht, htb.trans hrest, ?_⟩
        rw [htm, ← hold]
        exact Memory.readWord_writeWord hwf' ..
      case xw =>
        exact ⟨_, exec_xw_direct hi hx hw r, hrest, (State.reg_setReg_same ..).trans hold,
          Memory.readWord_writeWord hwf' ..⟩
  case two =>
    intro s r a x y v w rest hwf hi hx hcc hp hq hb
    have hokx := State.resolve_placeOk hp
    have hoky := State.resolve_placeOk hq
    have h1 : s.others = { s with between := [.deviceStore .word x v, .deviceStore .word y w] :: rest } :=
      State.others_cons hb
    have h2 (z : Word) : (s.others.setReg r z).others =
        ((({ s with between := rest } : State).setReg r z).storeWord (.real x) (v.extractLsb' 0 32)).storeWord (.real y)
          (w.extractLsb' 0 32) := by
      rw [h1]
      refine (State.others_cons rfl).trans ?_
      show ((({ s with between := rest } : State).setReg r z).deviceStore .word x v).deviceStore .word y w = _
      rw [State.deviceStore_word (rw := x) (by exact hokx), State.deviceStore_word (rw := y) (by exact hoky)]
    refine ⟨_, exec_lm_two_direct hi hx hcc hp hq r, ?_, ?_, ?_⟩
    · rw [State.reg_setReg_ne _ _ (regNum_ne_succ r), State.others_reg, State.reg_setReg_same, h1]
      rfl
    · rw [State.reg_setReg_same, h2]
      exact Memory.readWord_writeWord (Memory.wf_writeWord hwf ..) ..
    · rw [h2]
      rfl

end Sys2Proof.Machine
end

section
/-! Counting (O55): the single-instruction interrupt of a count-pulse level, and the acts of the clock agent. Each operation has
one equation per case of the rules (R629, R632); the statement is the case split of those. -/

namespace Sys2Proof.Machine

/-! ## Vectors and cells -/

theorem mtxWidth_of {op : BitVec 7} {width : Width}
    (h : op = 0x73#7 ∧ width = .byte ∨ op = 0x53#7 ∧ width = .half ∨ op = 0x33#7 ∧ width = .word) :
    mtxWidth op = some width := by
  obtain ⟨rfl, rfl⟩ | ⟨rfl, rfl⟩ | ⟨rfl, rfl⟩ := h <;> rfl

theorem mtxWidth_eq_none {op : BitVec 7} (h : op ≠ 0x73#7 ∧ op ≠ 0x53#7 ∧ op ≠ 0x33#7) : mtxWidth op = none := by
  obtain ⟨hbyte, hhalf, hword⟩ := h
  rw [mtxWidth, if_neg hbyte, if_neg hhalf, if_neg hword]

section
variable {s : State} (hz : s.config.sizes = Sizes.standard)
include hz

theorem State.realWord_present {rw : Nat} (h : 4 * rw < s.config.memPages * 2048) :
    s.realWord rw = some (s.mem.readWord (4 * rw)) := by
  rw [State.realWord, State.memBytes_standard hz, if_pos h]

theorem State.realWord_absent {rw : Nat} (h : s.config.memPages * 2048 ≤ 4 * rw) : s.realWord rw = none := by
  rw [State.realWord, State.memBytes_standard hz, if_neg (Nat.not_lt.2 h)]

end

theorem State.indexAt_eq (s : State) (f : Fields) : s.indexAt f = (s.index f.x).toNat := by
  unfold State.indexAt State.index
  split <;> rfl

/-- The place of the cell from its reference (R629), in the unit of its width. -/
def State.cellAddress (s : State) (f : Fields) (width : Width) (ref : WordAddr) : Nat :=
  match width with
  | .byte => ((ref ++ 0#2) + (s.index f.x).setWidth 19).toNat
  | .half => 2 * ((ref ++ 0#1) + (s.index f.x).setWidth 18).toNat
  | _ => 4 * (ref + (s.index f.x).setWidth 17).toNat

theorem State.realCell_direct {s : State} {f : Fields} (hi : f.ind = false) (width : Width) :
    s.realCell f width = (some (s.cellAddress f width f.ref), s) := by
  rw [State.realCell, hi]
  cases width <;> rfl

theorem State.realCell_indirect {s : State} (hb : s.between = []) {f : Fields} (hi : f.ind = true) (width : Width) :
    s.realCell f width = ((s.realWord f.ref.toNat).map fun w => s.cellAddress f width (w.extractLsb' 0 17), s) := by
  rw [State.realCell, hi, State.others_nil hb]
  cases width <;> rfl

theorem State.realCell_of_cellAt {s : State} (hz : s.config.sizes = Sizes.standard) (hb : s.between = []) {f : Fields}
    {width : Width} {ra : Nat} (h : s.CellAt f width ra) : s.realCell f width = (some ra, s) ∧ width ≠ .double := by
  obtain ⟨ref, href, hra⟩ := h
  have hcell : s.cellAddress f width ref = ra ∧ width ≠ .double := by
    cases width with
    | double => exact hra.elim
    | _ =>
      simp only [hra, State.cellAddress, State.indexAt_eq, BitVec.toNat_add, BitVec.toNat_setWidth, toNat_append_eq_add,
        BitVec.toNat_ofNat]
      refine ⟨?_, nofun⟩
      omega
  refine ⟨?_, hcell.2⟩
  rw [← hcell.1]
  obtain ⟨hi, rfl⟩ | ⟨hi, hex, rfl⟩ := href
  · exact State.realCell_direct hi width
  · rw [State.realCell_indirect hb hi, State.realWord_present hz hex]
    rfl

theorem State.realCellZero_eq (s : State) (width : Width) (ra : Nat) :
    s.realCellZero width ra = decide (s.mem.valueAt width ra = 0#64) := by
  cases width with
  | byte => simp only [State.realCellZero, Memory.valueAt, setWidth_eq_zero_iff (show 8 ≤ 64 by decide), beq_eq_decide]
  | half => simp only [State.realCellZero, Memory.valueAt, setWidth_eq_zero_iff (show 16 ≤ 64 by decide), beq_eq_decide]
  | word => simp only [State.realCellZero, Memory.valueAt, setWidth_eq_zero_iff (show 32 ≤ 64 by decide), beq_eq_decide]
  | double => rfl

/-! ## The single-instruction interrupt (R629) -/

section
variable {s : State} (hb : s.between = []) {L : Fin 32} {w : Word} {width : Width}

theorem State.singleInstruction_noCell (h : s.realCell (decodeFields w) width = (none, s)) :
    s.singleInstruction L w width = s.Halted .singleInstruction := by
  rw [State.singleInstruction, h]
  rfl

section
variable {ra : Nat} (hc : s.realCell (decodeFields w) width = (some ra, s))
include hc

theorem State.singleInstruction_fault
    (h : s.memBytes ≤ ra ∨ (decodeFields w).r ≠ 0#4 ∧ s.writeAllowed (ra / s.pageBytes) = false) :
    s.singleInstruction L w width = s.Halted .singleInstruction := by
  rw [State.singleInstruction, hc]
  dsimp only
  split
  · rfl
  · obtain ⟨hr, hlock⟩ := h.resolve_left ‹_›
    rw [if_neg hr, hlock]
    rfl

include hb

theorem State.singleInstruction_test (hra : ra < s.memBytes) (hr : (decodeFields w).r = 0#4) :
    s.singleInstruction L w width = s.countDone L (decide (s.mem.valueAt width ra = 0#64)) := by
  rw [State.singleInstruction, hc]
  dsimp only
  rw [if_neg (Nat.not_le.2 hra), if_pos hr, State.others_nil hb, State.realCellZero_eq]

theorem State.singleInstruction_count (hra : ra < s.memBytes) (hr : (decodeFields w).r ≠ 0#4)
    (hlock : s.writeAllowed (ra / s.pageBytes) = true) :
    s.singleInstruction L w width = (s.realModify width ra ((decodeFields w).r.signExtend 64)).1.countDone L
      (s.realModify width ra ((decodeFields w).r.signExtend 64)).2 := by
  rw [State.singleInstruction, hc]
  dsimp only
  rw [if_neg (Nat.not_le.2 hra), if_neg hr, hlock, State.others_nil hb]
  rfl

end
end

theorem State.post_waiting (s : State) (L : Fin 32) (pr : Nat) (o : Origin) (l : Option Nat) (ch : Option Byte) (b : Bool) :
    ({ s.post L pr o l ch with waiting := b } : State) = ({ s with waiting := b } : State).post L pr o l ch := by
  unfold State.post
  dsimp only
  split <;> rfl

/-- The count-pulse level L is done: the level is cleared, it stays armed, and a WAIT ends (R623, R629). -/
def State.counted (s : State) (L : Fin 32) : State := { s with waiting := false, ic := s.ic.deactivate L }

theorem State.countDone_ends {s : State} (L : Fin 32) (zero : Bool) :
    (s.countDone L zero).fatal = s.fatal ∧ { s.countDone L zero with waiting := false } =
      if zero then (s.counted L).post (zeroLevel L) 0 .cpu none none else s.counted L := by
  unfold State.countDone
  cases zero with
  | true => exact ⟨(State.othersOnly_agentAccess _ (.post ..)).fatal, State.post_waiting ..⟩
  | false => exact ⟨rfl, rfl⟩

/-- The step that takes an interrupt. -/
theorem step_interrupt {s : State} {L : Fin 32} {ic : IntCtl} (ha : s.agenda = []) (hf : s.fatal = none)
    (hr : s.running = true) (ht : s.trapPending = none) (hp : s.poll = some (L, ic)) :
    step s = .next (s.beginCycle.takeInterrupt L ic).settle := by
  have ht' : s.beginCycle.trapPending = none := ht
  have hp' : s.beginCycle.poll = some (L, ic) := hp
  unfold step State.turn State.cycle
  rw [ha, hf, hr, ht', hp']
  rfl

/-- The entry of a count-pulse level with an MTx at its vector. -/
theorem State.interruptEntry_count {s : State} (hz : s.config.sizes = Sizes.standard) (hb : s.between = []) {L : Fin 32}
    {w : Word} {width : Width} (hL : 4 * (0x50 + L.val) < s.config.memPages * 2048) (hw : w = s.mem.readWord (4 * (0x50 + L.val)))
    (hm : mtxWidth (decodeFields w).op = some width) (hc : isCountPulse L = true) :
    s.interruptEntry L = s.singleInstruction L w width := by
  have hx : (decodeFields w).op ≠ 0x0F#7 := by
    rintro h
    rw [h] at hm
    cases hm
  rw [State.interruptEntry, State.others_nil hb, State.realWord_present hz hL, ← hw]
  dsimp only
  rw [if_neg hx, hm]
  dsimp only
  rw [if_pos hc]

/-- An entry that stops the machine for good. -/
theorem State.takeInterrupt_halted {s e : State} {L : Fin 32} {ic : IntCtl} {x : FatalCause} (hb : e.between = [])
    (h : (s.setIc ic).interruptEntry L = e.Halted x) : (s.takeInterrupt L ic).settle = e.Halted x := by
  have hh : s.takeInterrupt L ic = e.Halted x := by
    rw [State.takeInterrupt, h]
    rfl
  rw [hh]
  exact State.settle_nil hb

/-- An entry that has counted. -/
theorem State.takeInterrupt_counted {s u : State} {L : Fin 32} {ic : IntCtl} {zero : Bool} (hf : u.fatal = none)
    (hb : u.between = []) (h : (s.setIc ic).interruptEntry L = u.countDone L zero) :
    (s.takeInterrupt L ic).settle = if zero then (u.counted L).post (zeroLevel L) 0 .cpu none none else u.counted L := by
  obtain ⟨hfatal, hends⟩ := u.countDone_ends L zero
  have hd : s.takeInterrupt L ic =
      if zero then (u.counted L).post (zeroLevel L) 0 .cpu none none else u.counted L := by
    have hgoes : ¬(u.countDone L zero).fatal.isSome = true := by
      rw [hfatal, hf]
      exact Bool.false_ne_true
    rw [State.takeInterrupt, h]
    exact (if_neg hgoes).trans hends
  rw [hd]
  refine State.settle_nil ?_
  split
  · exact ((u.counted L).agentAccess_between (.post ..)).trans hb
  · exact hb

theorem zeroLevel_eq {L zero : Fin 32} {k : Fin 4} (hL : L.val = 2 + k.val) (hzero : zero.val = 8 + k.val) :
    zeroLevel L = zero := by
  apply Fin.ext
  show (L.val + 6) % 32 = zero.val
  omega

theorem pulseLevel_eq {L : Fin 32} {k : Fin 4} (hL : L.val = 2 + k.val) : pulseLevel k = L := by
  apply Fin.ext
  rw [pulseLevel, Fin.val_add, hL]
  simp only [Fin.val_castLE]
  omega

/-! ## The clock agent (R632) -/

section
variable {s : State} {j : Fin 4}

theorem State.clockAct_idle (h : s.clock = .idle) : s.clockAct j = s.clockBegin j := by rw [State.clockAct, h]
theorem State.clockAct_vector {k : Fin 4} (h : s.clock = .vector k) : s.clockAct j = s.clockVector k := by
  rw [State.clockAct, h]
theorem State.clockAct_cell {k : Fin 4} {width : Width} {ref : WordAddr} {delta : Double}
    (h : s.clock = .cell k width ref delta) : s.clockAct j = s.clockCount k width (cellOf width ref) delta := by
  rw [State.clockAct, h]
theorem State.clockAct_zero {k : Fin 4} (h : s.clock = .zero k) :
    s.clockAct j = s.setClock (if s.psd.ci then .idle else .post (zeroLevel (pulseLevel k))) := by
  rw [State.clockAct, h]
theorem State.clockAct_post {M : Fin 32} (h : s.clock = .post M) :
    s.clockAct j = (s.post M 0 .clock none none).setClock .idle := by
  rw [State.clockAct, h]

end

theorem State.clockBegin_eq (s : State) {k : Fin 4} {L : Fin 32} (hL : pulseLevel k = L) : s.clockBegin k =
    if s.fatal = none ∧ s.running = true ∧ s.ic.armed[L] = true ∧ s.ic.enabled[L] = true then
      s.setClock (.vector k) else s := by
  subst hL
  unfold State.clockBegin
  cases s.fatal <;> cases s.running <;> cases s.ic.armed[pulseLevel k] <;> cases s.ic.enabled[pulseLevel k] <;> simp

/-- The cell exists: it is counted as it is now, and the result is looked at. -/
theorem State.clockCount_present {s : State} (hwf : s.mem.wf = true) {width : Width} (hw : width ≠ .double) {ra : Nat}
    (hra : ra < s.memBytes) (k : Fin 4) (delta : Double) {t : State} (ht : t = s.clockCount k width ra delta) :
    t.mem.Holds width ra (s.mem.valueAt width ra + delta) ∧ s.MemKeptBut t ra width.bytes ∧
      t = { s with mem := t.mem, clock := if t.mem.valueAt width ra = 0#64 then .zero k else .idle } := by
  obtain ⟨hholds, hkept⟩ := State.realStore_stores hwf width ra (s.mem.valueAt width ra + delta)
  rw [State.clockCount, if_neg (Nat.not_le.2 hra), State.realModify_zero hwf hw, State.realModify_eq_realStore s hw] at ht
  subst ht
  refine ⟨hholds, hkept, ?_⟩
  rw [State.setClock, State.realStore_frame]
  simp only [decide_eq_true_eq]

theorem clockPlan_cell {k : Fin 4} {w : Word} {width : Width} (hm : mtxWidth (decodeFields w).op = some width)
    (hi : (decodeFields w).ind = false) (hx : (decodeFields w).x = 0#3) (hr : (decodeFields w).r ≠ 0#4) :
    clockPlan k w = .cell k width (decodeFields w).ref ((decodeFields w).r.signExtend 64) := by
  simp [clockPlan, hm, hi, hx, hr]

theorem clockPlan_post {k : Fin 4} {w : Word}
    (h : (decodeFields w).ind = true ∨ (decodeFields w).x ≠ 0#3 ∨ (decodeFields w).r = 0#4 ∨
      mtxWidth (decodeFields w).op = none) : clockPlan k w = .post (pulseLevel k) := by
  unfold clockPlan
  split
  · rfl
  · rename_i width hm
    rw [if_pos]
    simpa [hm, or_assoc] using h

/-- Settles O55: of the interrupt, the entry's end for each case of its cell; of the tick, the act of each phase. -/
theorem counters : Obligations.Counters := by
  intro s k L zero w f width hz hL hzero hpages hwf hb hw hf
  have hk := k.isLt
  have hvector : 4 * (0x50 + L.val) < s.config.memPages * 2048 := by omega
  refine ⟨?interrupt, ?clock⟩
  case interrupt =>
    intro e d ic ha hfatal hrun htrap hpoll hop he hd
    have hze : e.config.sizes = Sizes.standard := by rw [he]; exact hz
    have hbe : e.between = [] := by rw [he]; exact hb
    have hme : e.mem = s.mem := by rw [he]
    have hfe : e.fatal = none := by rw [he]; exact hfatal
    have hbytes : e.memBytes = s.config.memPages * 2048 := by rw [State.memBytes_standard hze, he]
    have hlock (p : Nat) : e.writeAllowed p = s.writeAllowed p := by rw [he]; rfl
    have hcount : isCountPulse L = true := by
      rw [isCountPulse, decide_eq_true_eq]
      omega
    have hdone : e.counted L = d := by rw [hd, he]; rfl
    have hentry : (s.beginCycle.setIc ic).interruptEntry L = e.singleInstruction L w width := by
      have hsame : s.beginCycle.setIc ic = e := he.symm
      rw [hsame]
      refine State.interruptEntry_count hze hbe ?_ (hw.trans (by rw [hme])) (hf ▸ mtxWidth_of hop) hcount
      rw [← State.memBytes_standard hze, hbytes]
      exact hvector
    have hstep := step_interrupt ha hfatal hrun htrap hpoll
    have hhalt (h : e.singleInstruction L w width = e.Halted .singleInstruction) :
        step s = .next (e.Halted .singleInstruction) := by
      rw [hstep, State.takeInterrupt_halted hbe (hentry.trans h)]
    refine ⟨fun hi habs => hhalt ?absent, fun ra hcell => ?_⟩
    case absent =>
      refine State.singleInstruction_noCell ?_
      rw [← hf, State.realCell_indirect hbe hi, State.realWord_absent hze]
      · rfl
      · rw [← State.memBytes_standard hze, hbytes]
        exact habs
    obtain ⟨hreal, hwidth⟩ := State.realCell_of_cellAt hze hbe hcell
    rw [hf] at hreal
    rw [hf, ← hbytes, ← hlock, ← State.pageBytes_standard hze]
    refine ⟨fun h => hhalt (State.singleInstruction_fault hreal h), fun hra hr => ?test, fun hra hr hw => ?count⟩
    case test =>
      rw [hstep, State.takeInterrupt_counted hfe hbe
        (hentry.trans (State.singleInstruction_test hbe hreal hra hr)), hdone, zeroLevel_eq hL hzero, hme]
      simp only [decide_eq_true_eq]
    case count =>
      have hzeroBit := State.realModify_zero (s := e) (hme ▸ hwf) hwidth ra ((decodeFields w).r.signExtend 64)
      have hsum := State.realModify_eq_realStore e hwidth ra ((decodeFields w).r.signExtend 64)
      obtain ⟨hholds, hkept⟩ := State.realStore_stores (s := e) (hme ▸ hwf) width ra
        (e.mem.valueAt width ra + (decodeFields w).r.signExtend 64)
      have hframe := State.realStore_frame e width ra (e.mem.valueAt width ra + (decodeFields w).r.signExtend 64)
      have hend := State.singleInstruction_count (L := L) hbe hreal hra hr hw
      rw [hzeroBit, hsum] at hend
      generalize e.realStore width ra (e.mem.valueAt width ra + (decodeFields w).r.signExtend 64) = v at hend hholds hkept hframe
      refine ⟨_, v.counted L, hstep.trans (congrArg _ (State.takeInterrupt_counted ?_ ?_ (hentry.trans hend))), ?_,
        hme ▸ hholds, ?_, ?_⟩
      · rw [hframe]; exact hfe
      · rw [hframe]; exact hbe
      · rw [← hdone, hframe]; rfl
      · rw [State.MemKeptBut, ← hme]; exact hkept
      · rw [zeroLevel_eq hL hzero]
        simp only [decide_eq_true_eq]
        rfl
  case clock =>
    intro j rest d ha hd
    have hzd : d.config.sizes = Sizes.standard := by rw [hd]; exact hz
    have hmd : d.mem = s.mem := by rw [hd]
    have hbytes : d.memBytes = s.config.memPages * 2048 := by rw [State.memBytes_standard hzd, hd]
    have hstep : step s = .next (d.clockAct j) := (step_event ha).trans (by rw [hd]; rfl)
    have hclock : d.clock = s.clock := by rw [hd]
    rw [← hclock, hstep]
    refine ⟨?begin, ?vector, ?cell, ?zero, ?post⟩
    case begin =>
      rintro hc rfl
      rw [State.clockAct_idle hc, State.clockBegin_eq d (pulseLevel_eq hL), hd]
      refine ⟨fun h => congrArg _ (if_neg ?_), fun hfatal hrun harm hen => congrArg _ (if_pos ⟨hfatal, hrun, harm, hen⟩)⟩
      rintro ⟨hfatal, hrun, harm, hen⟩
      obtain h | h | h | h := h
      · exact h hfatal
      · exact Bool.false_ne_true (h.symm.trans hrun)
      · exact Bool.false_ne_true (h.symm.trans harm)
      · exact Bool.false_ne_true (h.symm.trans hen)
    case vector =>
      intro hc
      have hword : d.realWord (0x50 + L.val) = some w := by
        rw [State.realWord_present hzd, hmd, hw]
        rw [← State.memBytes_standard hzd, hbytes]
        exact hvector
      rw [State.clockAct_vector hc, State.clockVector, pulseLevel_eq hL, hword, Option.map_some, Option.getD_some, hf]
      refine ⟨fun hi hx hr hop => ?_, fun h => ?_⟩
      · rw [clockPlan_cell (mtxWidth_of hop) hi hx hr]
        rfl
      · rw [clockPlan_post, pulseLevel_eq hL]
        · rfl
        · exact h.imp_right (.imp_right (.imp_right mtxWidth_eq_none))
    case cell =>
      intro ref delta ra hc hra
      have hcell : cellOf width ref = ra ∧ width ≠ .double := by
        obtain ⟨rfl, rfl⟩ | ⟨rfl, rfl⟩ | ⟨rfl, rfl⟩ := hra <;> exact ⟨rfl, nofun⟩
      rw [State.clockAct_cell hc, hcell.1, ← hbytes, ← hmd]
      refine ⟨fun habs => congrArg _ (if_pos habs), fun hin => ⟨_, rfl, ?_⟩⟩
      rw [State.MemKeptBut, ← hmd]
      exact State.clockCount_present (hmd ▸ hwf) hcell.2 hin k delta rfl
    case zero =>
      intro hc
      rw [State.clockAct_zero hc, pulseLevel_eq hL, zeroLevel_eq hL hzero, hd]
      rfl
    case post => exact fun M hc => congrArg _ (State.clockAct_post hc)

end Sys2Proof.Machine
end

section
/-! Precise traps (O60). Up to its first effect an instruction has left the machine to the other agents (`State.Untouched`), and
after that no trap of the vectors X'40' and X'41' becomes pending (`State.Calm`): instructions that store more than once check
all their accesses first. The other clauses follow one access that traps to the end of its instruction. -/

namespace Sys2Proof.Machine

/-! ## Traps after an effect -/

/-- No trap of the vectors X'40' and X'41' is pending. -/
def State.Calm (t : State) : Prop := ∀ T, t.trapPending = some T → T.vector ≠ 0x40 ∧ T.vector ≠ 0x41

/-- A trap on top of what the other agents did alone, or no trap of the vectors X'40' and X'41'. -/
def State.Precise (s t : State) : Prop := (∃ x u, s.Untouched u ∧ t = u.raise x) ∨ t.Calm

theorem State.calm_of_none {t : State} (h : t.trapPending = none) : t.Calm := fun T hT => by rw [h] at hT; cases hT

theorem State.Untouched.calm {s t : State} (h : s.Untouched t) (h0 : s.trapPending = none) : t.Calm :=
  State.calm_of_none (h.1.trapPending.trans h0)

theorem State.calm_raise {t : State} {x : Trap} (h : 0x42 ≤ x.vector) : (t.raise x).Calm := by
  rintro T ⟨⟩
  exact ⟨by show x.vector ≠ _; omega, by show x.vector ≠ _; omega⟩

section
variable {t : State} (h : t.Calm)
include h

theorem State.Calm.of_eq {u : State} (e : u.trapPending = t.trapPending) : u.Calm := fun T hT => h T (e ▸ hT)
theorem State.Calm.ite {u v : State} {c : Prop} [Decidable c] (hu : u.trapPending = t.trapPending)
    (hv : v.trapPending = t.trapPending) : (if c then u else v).Calm := by
  split
  · exact h.of_eq hu
  · exact h.of_eq hv
theorem State.Calm.overflowTrap {u : State} {ov : Bool} (e : u.trapPending = t.trapPending) : (u.overflowTrap ov).Calm := by
  unfold State.overflowTrap
  split
  · exact State.calm_raise (by decide)
  · exact h.of_eq e
theorem State.Calm.decimalFault {f : DecimalFault} : (t.decimalFault f).Calm := by
  unfold State.decimalFault
  split
  · exact State.calm_raise (by decide)
  · cases f with
    | lengthOrDivide => exact h.ite rfl rfl
    | _ => exact h
theorem State.Calm.decimalResult {v : Int} : (t.decimalResult v).Calm := by
  unfold State.decimalResult
  split
  · exact h.decimalFault
  · exact h
theorem State.Calm.applyShort {r : RegNum} {x : FloatResult 32} : (t.applyShort r x).Calm := by
  cases x with
  | ok w => exact h
  | _ => exact State.calm_raise (by decide)
theorem State.Calm.applyLong {r : RegNum} {x : FloatResult 64} : (t.applyLong r x).Calm := by
  cases x with
  | ok w => exact h
  | _ => exact State.calm_raise (by decide)
theorem State.Calm.multiplyResult {r : RegNum} {p : Double} : (t.multiplyResult r p).Calm := by
  unfold State.multiplyResult
  split <;> exact h
theorem State.Calm.branchIf {u : State} {b : Bool} {a : WordAddr} (e : u.trapPending = t.trapPending) :
    (u.branchIf b a).Calm := by
  unfold State.branchIf
  split <;> exact h.of_eq e
theorem State.Calm.ioResult {r : RegNum} {x : BitVec 4 × Word × Word} : (t.ioResult r x).Calm := by
  unfold State.ioResult
  split <;> exact h
theorem State.Calm.applyImage {f : BitVec 3} {p : Byte} {ws : List Word} : (t.applyImage f p ws).Calm := by
  unfold State.applyImage
  repeat' split
  all_goals exact h
theorem State.Calm.wdLevel {fn : BitVec 3} {sel : Bool} {L : Fin Sizes.standard.nLevels} : (t.wdLevel fn sel L).Calm := by
  have hpost : (t.post L 0 .cpu none none).Calm := h.of_eq (by unfold State.post; split <;> rfl)
  unfold State.wdLevel
  repeat' split
  case h_7 => exact hpost
  all_goals exact h
theorem State.Calm.interruptControl {da : BitVec 16} {v : Word} : (t.interruptControl da v).Calm := by
  unfold State.interruptControl
  exact List.foldlRecOn _ _ h fun _ g _ _ => g.wdLevel
end

/-! ## What an access answers -/

/-- An answer with which an instruction's effects begin: a trap before any, or a state with no access trap pending. -/
def Res.Last {α : Type} (s : State) : Res α → Prop
  | .ok _ t => t.Calm
  | .trap _ t => s.Untouched t

section
variable {s t : State} (h0 : s.trapPending = none) (h : s.Untouched t)
include h0 h

theorem last_access {α : Type} {vw : WordAddr} {m : Access} {k : State → Place → Res α}
    (hk : ∀ u p, u.Calm → (k u p).Last s) : (t.access vw m k).Last s := by
  cases hp : t.resolve vw m with
  | ok p => rw [State.access_of hp]; exact hk _ _ (h.others.calm h0)
  | error e => rw [State.access_trap hp]; exact h.others

theorem last_writeByte {a : ByteAddr} {v : Byte} : (t.writeByte a v).Last s :=
  last_access h0 h fun _ _ g => g.of_eq (State.storeByte_trapPending ..)
theorem last_writeHalf {a : HalfAddr} {v : Half} : (t.writeHalf a v).Last s :=
  last_access h0 h fun _ _ g => g.of_eq (State.storeHalf_trapPending ..)
theorem last_writeWord {a : WordAddr} {v : Word} : (t.writeWord a v).Last s :=
  last_access h0 h fun _ _ g => g.of_eq (State.storeWord_trapPending ..)
theorem last_writeDouble {a : DoubleAddr} {v : Double} : (t.writeDouble a v).Last s :=
  last_access h0 h fun _ _ g => g.of_eq (State.storeDouble_trapPending ..)
theorem last_modifyByte {a : ByteAddr} {v : Byte} : (t.modifyByte a v).Last s :=
  last_access h0 h fun _ _ g => g.of_eq (State.storeByte_trapPending ..)
theorem last_modifyHalf {a : HalfAddr} {v : Half} : (t.modifyHalf a v).Last s :=
  last_access h0 h fun _ _ g => g.of_eq (State.storeHalf_trapPending ..)
theorem last_modifyWord {a : WordAddr} {v : Word} : (t.modifyWord a v).Last s :=
  last_access h0 h fun _ _ g => g.of_eq (State.storeWord_trapPending ..)
theorem last_exchangeWord {a : WordAddr} {v : Word} : (t.exchangeWord a v).Last s :=
  last_access h0 h fun _ _ g => g.of_eq (State.storeWord_trapPending ..)

end

/-! ## Accesses that are checked before -/

/-- t answers the checks of every access as s does, and no other trap is pending. -/
def State.SameChecks (s t : State) : Prop := t.trapPending = s.trapPending ∧ ∀ vw m, t.resolve vw m = s.resolve vw m

/-- The answer is no trap, and the checks of later accesses stay as they are. -/
def Res.Made {α : Type} (s : State) (x : Res α) : Prop := ∃ v t, x = .ok v t ∧ s.SameChecks t

theorem State.SameChecks.refl {s : State} : s.SameChecks s := ⟨rfl, fun _ _ => rfl⟩

theorem Res.Made.andThen {α β : Type} {s : State} {x : Res α} {k : α → State → Res β} (hx : x.Made s)
    (hk : ∀ v t, s.SameChecks t → (k v t).Made s) : (x.andThen k).Made s := by
  obtain ⟨v, t, rfl, g⟩ := hx
  exact hk v t g

section
variable {s t : State} (h : s.SameChecks t)
include h

theorem State.SameChecks.calm (g : s.Calm) : t.Calm := g.of_eq h.1
theorem State.SameChecks.of_eq {u : State} (ht : u.trapPending = t.trapPending)
    (hr : ∀ vw m, u.resolve vw m = t.resolve vw m) : s.SameChecks u :=
  ⟨ht.trans h.1, fun vw m => (hr vw m).trans (h.2 vw m)⟩
theorem State.SameChecks.setReg {r : RegNum} {v : Word} : s.SameChecks (t.setReg r v) :=
  h.of_eq rfl fun _ _ => State.resolve_setReg ..

theorem made_access {α : Type} {vw : WordAddr} {m : Access} {k : State → Place → Res α}
    (hr : ∃ p, s.resolve vw m = .ok p) (hk : ∀ u p, s.SameChecks u → (k u p).Made s) : (t.access vw m k).Made s := by
  obtain ⟨p, hp⟩ := hr
  rw [State.access_of ((h.2 vw m).trans hp)]
  exact hk _ _ (h.of_eq t.others_trapPending fun _ _ => State.others_resolve ..)

theorem made_readWord {a : WordAddr} {m : Access} (hr : ∃ p, s.resolve a m = .ok p) : (t.readWord a m).Made s :=
  made_access h hr fun _ _ g => ⟨_, _, rfl, g⟩
theorem made_readDouble {a : DoubleAddr} {m : Access} (hr : ∃ p, s.resolve (a ++ 0#1) m = .ok p) :
    (t.readDouble a m).Made s :=
  made_access h hr fun _ _ g => ⟨_, _, rfl, g⟩
theorem made_writeByte {a : ByteAddr} {v : Byte} (hr : ∃ p, s.resolve (a.extractLsb' 2 17) .write = .ok p) :
    (t.writeByte a v).Made s :=
  made_access h hr fun _ _ g =>
    ⟨_, _, rfl, g.of_eq (State.storeByte_trapPending ..) fun _ _ => State.resolve_storeByte ..⟩
theorem made_writeWord {a : WordAddr} {v : Word} (hr : ∃ p, s.resolve a .write = .ok p) : (t.writeWord a v).Made s :=
  made_access h hr fun _ _ g =>
    ⟨_, _, rfl, g.of_eq (State.storeWord_trapPending ..) fun _ _ => State.resolve_storeWord ..⟩
theorem made_writeDouble {a : DoubleAddr} {v : Double} (hr : ∃ p, s.resolve (a ++ 0#1) .write = .ok p) :
    (t.writeDouble a v).Made s :=
  made_access h hr fun _ _ g =>
    ⟨_, _, rfl, g.of_eq (State.storeDouble_trapPending ..) fun _ _ => State.resolve_storeDouble ..⟩

end

theorem made_pushWords {s t : State} (h : s.SameChecks t) {n : Nat} {r : RegNum} {top : WordAddr}
    (hr : s.faultWords .write n (top + 1#17) = none) : (pushWords n r top t).Made s := by
  induction n generalizing r top t with
  | zero => exact ⟨_, _, rfl, h⟩
  | succ n ih =>
    rw [State.faultWords, Option.or_eq_none_iff, State.faultAt_eq_none] at hr
    exact (made_writeWord h hr.1).andThen fun _ _ g => ih g hr.2

theorem made_loadWords {s t : State} (h : s.SameChecks t) {n : Nat} {r : RegNum} {low : WordAddr}
    (hr : s.faultWords .read n low = none) : (loadWords n r low t).Made s := by
  induction n generalizing r low t with
  | zero => exact ⟨_, _, rfl, h⟩
  | succ n ih =>
    rw [State.faultWords, Option.or_eq_none_iff, State.faultAt_eq_none] at hr
    exact (made_readWord h hr.1).andThen fun _ _ g => ih g.setReg hr.2

theorem made_writeBytes {s t : State} (h : s.SameChecks t) {bs : List Byte} {a : ByteAddr}
    (hr : s.faultBytes .write bs.length a = none) : (writeBytes bs a t).Made s := by
  induction bs generalizing a t with
  | nil => exact ⟨_, _, rfl, h⟩
  | cons b bs ih =>
    rw [List.length_cons, State.faultBytes, Option.or_eq_none_iff, State.faultAt_eq_none] at hr
    exact (made_writeByte h hr.1).andThen fun _ _ g => ih g hr.2

/-! ## How an instruction ends -/

section
variable {s t : State} (h : s.Untouched t)
include h

theorem State.Untouched.precise {x : Trap} : s.Precise (t.raise x) := .inl ⟨x, t, h, rfl⟩

theorem precise_orRaise {x : Option Trap} {k : Out} (hk : x = none → Answers s.Precise k) :
    Answers s.Precise (orRaise t x k) :=
  .orRaise (fun _ _ => h.precise) hk
theorem precise_privileged {k : Out} (hk : Answers s.Precise k) : Answers s.Precise (privileged t k) :=
  .privileged (fun _ => h.precise) fun _ => hk

end

theorem precise_orTrap {α : Type} {s : State} {x : Res α} {k : α → State → Out} (hx : x.Ends s.Untouched)
    (hk : ∀ v u, s.Untouched u → Answers s.Precise (k v u)) : Answers s.Precise (orTrap x k) := by
  cases x with
  | ok v u => exact hk v u hx
  | trap e u => exact State.Untouched.precise hx

theorem Answers.precise {s : State} {o : Out} (h : Answers State.Calm o) : Answers s.Precise o := h.mono fun _ => .inr

theorem precise_last {α : Type} {s : State} {x : Res α} {k : α → State → Out} (hx : x.Last s)
    (hk : ∀ v u, u.Calm → Answers State.Calm (k v u)) : Answers s.Precise (orTrap x k) := by
  cases x with
  | ok v u => exact (hk v u hx).precise
  | trap e u => exact State.Untouched.precise hx

theorem calm_orTrap {α : Type} {s : State} {x : Res α} {k : α → State → Out} (hx : x.Made s)
    (hk : ∀ v u, s.SameChecks u → Answers State.Calm (k v u)) : Answers State.Calm (orTrap x k) := by
  obtain ⟨v, u, rfl, g⟩ := hx
  exact hk v u g

section
variable {s t : State} (h : s.Untouched t)
include h

theorem precise_word {a : AddrField} {k : Word → State → Out} (hk : ∀ w u, s.Untouched u → Answers s.Precise (k w u)) :
    Answers s.Precise (withWord t a k) :=
  precise_orTrap (untouched_effWord h) fun _ _ g => precise_orTrap (untouched_readWord g) hk
theorem precise_half {a : AddrField} {k : Half → State → Out} (hk : ∀ w u, s.Untouched u → Answers s.Precise (k w u)) :
    Answers s.Precise (withHalf t a k) :=
  precise_orTrap (untouched_effHalf h) fun _ _ g => precise_orTrap (untouched_readHalf g) hk
theorem precise_byte {a : AddrField} {k : Byte → State → Out} (hk : ∀ w u, s.Untouched u → Answers s.Precise (k w u)) :
    Answers s.Precise (withByte t a k) :=
  precise_orTrap (untouched_effByte h) fun _ _ g => precise_orTrap (untouched_readByte g) hk
theorem precise_double {a : AddrField} {k : Double → State → Out}
    (hk : ∀ w u, s.Untouched u → Answers s.Precise (k w u)) : Answers s.Precise (withDouble t a k) :=
  precise_orTrap (untouched_effDouble h) fun _ _ g => precise_orTrap (untouched_readDouble g) hk

end

/-! ## Reads of several words or bytes -/

theorem untouched_readField {s t : State} (h : s.Untouched t) (n : Nat) (a : ByteAddr) :
    (readField n a t).Ends s.Untouched := by
  induction n generalizing a t with
  | zero => exact h
  | succ n ih => exact (untouched_readByte h).andThen fun _ _ g => (ih g _).andThen fun _ _ f => f

theorem untouched_readImage {s t : State} (h : s.Untouched t) (n : Nat) (a : WordAddr) :
    (readImage n a t).Ends s.Untouched := by
  induction n generalizing a t with
  | zero => exact h
  | succ n ih => exact (untouched_readWord h).andThen fun _ _ g => (ih g _).andThen fun _ _ f => f

theorem untouched_convertAdd {s t : State} (h : s.Untouched t) (v : Word) (n : Nat) (ea : WordAddr) (sum : Word) (c : Bool) :
    (convertAdd v n ea sum c t).Ends s.Untouched := by
  induction n generalizing ea sum c t with
  | zero => exact h
  | succ n ih =>
    rw [convertAdd]
    split
    · exact (untouched_readWord h).andThen fun _ _ g => ih g _ _ _
    · exact ih h _ _ _

theorem untouched_convertSub {s t : State} (h : s.Untouched t) (n : Nat) (ea : WordAddr) (rem res : Word) :
    (convertSub n ea rem res t).Ends s.Untouched := by
  induction n generalizing ea rem res t with
  | zero => exact h
  | succ n ih =>
    refine (untouched_readWord h).andThen fun _ _ g => ?_
    split
    · exact ih g _ _ _
    · exact ih g _ _ _

theorem untouched_analyzedAddress {s t : State} (h : s.Untouched t) (c : AnalyzeClass) (a : AddrField) :
    (t.analyzedAddress c a).Ends s.Untouched := by
  cases c with
  | byte => exact (untouched_effByte h).andThen fun _ _ g => g
  | noAddress => exact h
  | half => exact (untouched_effHalf h).andThen fun _ _ g => g
  | word => exact (untouched_effWord h).andThen fun _ _ g => g
  | double => exact (untouched_effDouble h).andThen fun _ _ g => g

/-! ## Instructions of several accesses -/

section
variable {s t : State} (h0 : s.trapPending = none) (h : s.Untouched t)
include h0 h

/-- An end without an access, in a state made from t without a trap of X'40' or X'41'. -/
theorem precise_next {u : State} (hu : t.Calm → u.Calm) : Answers s.Precise (.next u) := .inr (hu (h.calm h0))

theorem precise_stackLimit {p : StackPointer} {n : Int} {x : Option Trap} {k : Out}
    (hk : x = none → Answers s.Precise k) : Answers s.Precise (stackLimit t p n x k) := by
  rcases stackLimit_cases t p n x k with ⟨-, -, e⟩ | ⟨-, -, e⟩ | ⟨-, -, -, e⟩ | ⟨-, -, -, e⟩ |
    ⟨-, -, e⟩ <;> rw [e]
  · exact precise_next h0 h fun g => g
  · exact precise_orRaise h fun _ => h.precise
  · exact precise_next h0 h fun g => g
  · exact precise_orRaise h fun _ => h.precise
  · exact precise_orRaise h hk

/-- The pointer's store was checked with the others. -/
theorem calm_movePointer {u : State} (g : t.SameChecks u) {ea : DoubleAddr} (hr : t.faultAt (ea ++ 0#1) .write = none)
    {p : StackPointer} {n : Int} {k : State → State} (hk : ∀ v : State, v.Calm → (k v).Calm) :
    Answers State.Calm (movePointer u ea p n k) :=
  calm_orTrap (made_writeDouble g (State.faultAt_eq_none.1 hr)) fun _ _ f => hk _ (f.calm (h.calm h0))

theorem precise_pushStack (ea : DoubleAddr) (r : RegNum) (n : Nat) : Answers s.Precise (pushStack t ea r n) :=
  precise_orTrap (untouched_readDouble h) fun _ _ g => precise_stackLimit h0 g fun hx => by
    obtain ⟨hw, hp⟩ := Option.or_eq_none_iff.1 hx
    exact .precise (calm_orTrap (made_pushWords .refl hw) fun _ _ f => calm_movePointer h0 g f hp fun _ y => y)

theorem precise_plw (r : RegNum) (a : AddrField) : Answers s.Precise (execPlw r a t) :=
  precise_orTrap (untouched_effDouble h) fun _ _ g => precise_orTrap (untouched_readDouble g) fun _ _ g =>
    precise_stackLimit h0 g fun hx => by
      obtain ⟨hw, hp⟩ := Option.or_eq_none_iff.1 hx
      exact .precise (calm_orTrap (made_readWord .refl (State.faultAt_eq_none.1 hw)) fun _ _ f =>
        calm_movePointer h0 g f hp fun _ y => y)

theorem precise_plm (r : RegNum) (a : AddrField) : Answers s.Precise (execPlm r a t) :=
  precise_orTrap (untouched_effDouble h) fun _ _ g => precise_orTrap (untouched_readDouble g) fun _ _ g =>
    precise_stackLimit h0 g fun hx => by
      obtain ⟨hw, hp⟩ := Option.or_eq_none_iff.1 hx
      exact .precise (calm_orTrap (made_loadWords .refl hw) fun _ _ f => calm_movePointer h0 g f hp fun _ y => y)

theorem precise_msp (r : RegNum) (a : AddrField) : Answers s.Precise (execMsp r a t) :=
  precise_orTrap (untouched_effDouble h) fun _ _ g => precise_orTrap (untouched_readDouble g) fun _ _ g =>
    .ite (precise_next h0 g fun y => y) (precise_stackLimit h0 g fun hx =>
      .precise (calm_movePointer h0 g .refl hx fun _ y => y))

theorem precise_xpsd (r : RegNum) (a : AddrField) : Answers s.Precise (execXpsd r a t) :=
  precise_privileged h (precise_orTrap (untouched_effDouble h) fun _ _ g => precise_orRaise g fun hx => by
    obtain ⟨hw, hr⟩ := Option.or_eq_none_iff.1 hx
    exact .precise (calm_orTrap (made_writeDouble .refl (State.faultAt_eq_none.1 hw)) fun _ _ f =>
      calm_orTrap (made_readDouble f (State.faultAt_eq_none.1 hr)) fun _ _ e => e.calm (g.calm h0)))

theorem precise_lpsd (r : RegNum) (a : AddrField) : Answers s.Precise (execLpsd r a t) :=
  precise_privileged h (precise_double h fun _ _ g => precise_next h0 g fun y => by
    split <;> exact y)

theorem precise_mmc (r : RegNum) (f : BitVec 3) (z : BitVec 17) : Answers s.Precise (execMmc r f z t) :=
  .ite (precise_privileged h (precise_orTrap (untouched_readImage h _ _) fun _ _ g =>
    precise_next h0 g fun y => (y.applyImage : State.Calm _))) h.precise

theorem precise_callBridge (op : IoOp) (r : RegNum) (a : AddrField) : Answers s.Precise (callBridge op r a t) :=
  precise_privileged h (precise_orTrap (untouched_effWord h) fun _ _ g => precise_next h0 g fun y =>
    State.Calm.ioResult (t := State.callHost _ _) y)

theorem precise_rd (r : RegNum) (a : AddrField) : Answers s.Precise (execRd r a t) :=
  precise_privileged h (precise_orTrap (untouched_effWord h) fun _ _ g => precise_next h0 g fun y => by
    split <;> exact y)

theorem precise_wd (r : RegNum) (a : AddrField) : Answers s.Precise (execWd r a t) :=
  precise_privileged h (precise_orTrap (untouched_effWord h) fun _ _ g =>
    .ite (precise_next h0 g fun y => y.interruptControl) (precise_next h0 g fun y => y))

theorem precise_sf (r : RegNum) (a : AddrField) : Answers s.Precise (execSf r a t) := by
  refine .needsFloat h.precise (precise_orTrap (untouched_effWord h) fun _ _ g => ?_)
  repeat' split
  all_goals exact precise_next h0 g fun y => y

theorem precise_anlz (r : RegNum) (a : AddrField) : Answers s.Precise (execAnlz r a t) := by
  refine precise_word h fun _ _ g => precise_orTrap (untouched_analyzedAddress g _ _) fun x _ f => ?_
  cases x with
  | none => exact precise_next h0 f fun y => y
  | some v => exact precise_next h0 f fun y => y

/-! ## Decimal instructions -/

theorem precise_endDecimal {x : Option Trap} {f : DecimalFault} : Answers s.Precise (endDecimal t x f) :=
  .ite (precise_orRaise h fun _ => precise_next h0 h fun y => y.decimalFault) (precise_next h0 h fun y => y.decimalFault)

theorem precise_orIllegal {x : Option Trap} {v : Option Int} {k : Int → Out}
    (hk : ∀ n, v = some n → Answers s.Precise (k n)) : Answers s.Precise (orIllegal t x v k) := by
  cases v with
  | none => exact precise_endDecimal h0 h
  | some n => exact hk n rfl

/-- The stores of a field of n bytes are all checked before the first. -/
theorem precise_writeField {n : Nat} {bs : List Byte} {a : ByteAddr} (hn : bs.length = n) :
    Answers s.Precise (writeField t (t.faultBytes .write n a) bs a) :=
  precise_orRaise h fun hx =>
    .precise (calm_orTrap (made_writeBytes .refl (hn ▸ hx)) fun _ _ f => f.calm (h.calm h0))

omit h0 in
theorem precise_field {a : AddrField} {n : Nat} {k : ByteAddr → List Byte → State → Out}
    (hk : ∀ ea bs u, s.Untouched u → bs.length = n → Answers s.Precise (k ea bs u)) :
    Answers s.Precise (withField t a n k) := by
  refine precise_orTrap (untouched_effByte h) fun ea u g => ?_
  have hf := untouched_readField g n ea
  cases hx : readField n ea u with
  | ok bs v => rw [hx] at hf; exact hk ea bs v hf (readField_length hx)
  | trap e v => rw [hx] at hf; exact State.Untouched.precise hf

theorem precise_decimals {r : RegNum} {a : AddrField} {k : Int → Int → State → Out}
    (hk : ∀ x y u, s.Untouched u → Answers s.Precise (k x y u)) : Answers s.Precise (withDecimals r a t k) :=
  precise_field h fun _ _ _ g _ => precise_orIllegal h0 g fun _ _ => precise_orIllegal h0 g fun _ _ => hk _ _ _ g

end

/-! ### The lengths of stored fields -/

theorem nibbles_length (bs : List Byte) : (nibbles bs).length = 2 * bs.length := by
  induction bs with
  | nil => rfl
  | cons b bs ih => rw [nibbles, List.flatMap_cons, List.length_append, ← nibbles, ih]; simp; omega

theorem zonedNibbles_length (bs : List Byte) : (zonedNibbles bs).length = bs.length + 1 := by simp [zonedNibbles]

theorem nibbles_append (x y : BitVec 4) : [(x ++ y).extractLsb' 4 4, (x ++ y).extractLsb' 0 4] = [x, y] := by
  rw [extract_append_high, extract_append_low]

/-- Nibbles taken two by two come back from the bytes. -/
theorem nibbles_packNibbles (gs : List (BitVec 4)) (h : 2 ∣ gs.length) : nibbles (packNibbles gs) = gs := by
  induction gs using packNibbles.induct with
  | case1 x y rest ih =>
    have hrest : 2 ∣ rest.length := (Nat.dvd_add_right ⟨1, rfl⟩).1 (Nat.add_comm _ 2 ▸ h)
    have hx := nibbles_append x y
    rw [packNibbles, nibbles, List.flatMap_cons, hx]
    exact congrArg (fun l => x :: y :: l) (ih hrest)
  | case2 gs hgs =>
    match gs with
    | [] => rfl
    | [x] => simp at h
    | x :: y :: rest => exact absurd rfl (hgs x y rest)

theorem packNibbles_length (gs : List (BitVec 4)) (h : 2 ∣ gs.length) : (packNibbles gs).length = gs.length / 2 := by
  have := nibbles_length (packNibbles gs)
  rw [nibbles_packNibbles gs h] at this
  omega

theorem zoneDigits_length (g : BitVec 4) (ds : List (BitVec 4)) : (zoneDigits g ds).length = ds.length := by
  induction ds using zoneDigits.induct with
  | case1 => rfl
  | case2 d => rfl
  | case3 d ds hds ih => rw [zoneDigits, List.length_cons, ih, List.length_cons]; exact hds

/-- PACK stores L bytes. -/
theorem packed_zoned_length {bs : List Byte} {r : RegNum} (h : bs.length = 2 * decimalLength r - 1) :
    2 ∣ (zonedNibbles bs).length ∧ (packNibbles (zonedNibbles bs)).length = decimalLength r := by
  have hr := (decimalLength_bounds r).1
  have hd : 2 ∣ (zonedNibbles bs).length := ⟨decimalLength r, by rw [zonedNibbles_length]; omega⟩
  refine ⟨hd, ?_⟩
  rw [packNibbles_length _ hd, zonedNibbles_length]
  omega

/-! ## Every instruction -/

/-- An instruction other than EXU, LM, STM and the byte strings takes a trap of X'40' or X'41' before it has an effect. -/
theorem execWith_precise {s : State} (h0 : s.trapPending = none) (exu : RegNum → AddrField → State → Out) (i : Instr)
    (hm : ∀ r a, i ≠ .lm r a ∧ i ≠ .stm r a ∧ i ≠ .exu r a)
    (hs : ∀ r v, i ≠ .mbs r v ∧ i ≠ .cbs r v ∧ i ≠ .tbs r v ∧ i ≠ .ttbs r v ∧ i ≠ .ebs r v) :
    Answers s.Precise (execWith exu i s) :=
  have h := State.Untouched.refl (s := s)
  match i with
  | .exu r a => absurd rfl (hm r a).2.2
  | .lm r a => absurd rfl (hm r a).1
  | .stm r a => absurd rfl (hm r a).2.1
  | .mbs r v => absurd rfl (hs r v).1
  | .cbs r v => absurd rfl (hs r v).2.1
  | .tbs r v => absurd rfl (hs r v).2.2.1
  | .ttbs r v => absurd rfl (hs r v).2.2.2.1
  | .ebs r v => absurd rfl (hs r v).2.2.2.2
  | .lcfi .. => precise_next h0 h fun y => y
  | .cal1 .. | .cal2 .. | .cal3 .. | .cal4 .. => h.precise
  | .lpsd r a => precise_lpsd h0 h r a
  | .xpsd r a => precise_xpsd h0 h r a
  | .lrp .. => precise_privileged h (precise_word h fun _ _ g => precise_next h0 g fun y => y)
  | .wait .. => precise_privileged h (precise_next h0 h fun y => y)
  | .rd r a => precise_rd h0 h r a
  | .wd r a => precise_wd h0 h r a
  | .sio r a | .tio r a | .tdv r a | .hio r a | .aio r a => precise_callBridge h0 h _ r a
  | .mmc r f z => precise_mmc h0 h r f z
  | .psw .. | .psm .. => precise_orTrap (untouched_effDouble h) fun _ _ g => precise_pushStack h0 g ..
  | .plw r a => precise_plw h0 h r a
  | .plm r a => precise_plm h0 h r a
  | .msp r a => precise_msp h0 h r a
  | .ad .. | .sd .. | .lcd .. | .lad .. => precise_double h fun _ _ g => precise_next h0 g fun y => y.overflowTrap rfl
  | .cd .. | .clm .. | .ld .. => precise_double h fun _ _ g => precise_next h0 g fun y => y
  | .std .. => precise_orTrap (untouched_effDouble h) fun _ _ g => precise_last (last_writeDouble h0 g) fun _ _ f => f
  | .fsl .. | .fal .. | .fdl .. | .fml .. =>
    .needsFloat h.precise (precise_double h fun _ _ g => precise_next h0 g fun y => y.applyLong)
  | .fss .. | .fas .. | .fds .. | .fms .. =>
    .needsFloat h.precise (precise_word h fun _ _ g => precise_next h0 g fun y => y.applyShort)
  | .sf r a => precise_sf h0 h r a
  | .ai .. => precise_next h0 h fun y => y.overflowTrap rfl
  | .ci .. | .li .. => precise_next h0 h fun y => y
  | .mi .. => precise_next h0 h fun y => y.multiplyResult
  | .s .. => precise_orTrap (untouched_effWord h) fun _ _ g =>
      .ite g.precise (.ite (precise_next h0 g fun y => y) (precise_next h0 g fun y => y))
  | .cvs .. => precise_orTrap (untouched_effWord h) fun _ _ g =>
      precise_orTrap (untouched_convertSub g ..) fun _ _ f => precise_next h0 f fun y => y
  | .cva .. => precise_orTrap (untouched_effWord h) fun _ _ g =>
      precise_orTrap (untouched_convertAdd g ..) fun _ _ f => precise_next h0 f fun y => y
  | .aw .. | .sw .. | .lcw .. | .law .. => precise_word h fun _ _ g => precise_next h0 g fun y => y.overflowTrap rfl
  | .cw .. | .cs .. | .clr .. | .lw .. | .ls .. | .and .. | .or .. | .eor .. | .int .. =>
    precise_word h fun _ _ g => precise_next h0 g fun y => y
  | .mw .. => precise_word h fun _ _ g => precise_next h0 g fun y => y.multiplyResult
  | .dw .. => precise_word h fun _ _ g => .ite (precise_next h0 g fun y => y.overflowTrap rfl)
      (precise_next h0 g fun y => by split <;> exact y)
  | .anlz r a => precise_anlz h0 h r a
  | .stw .. => precise_orTrap (untouched_effWord h) fun _ _ g => precise_last (last_writeWord h0 g) fun _ _ f => f
  | .sts .. => precise_orTrap (untouched_effWord h) fun _ _ g => precise_orTrap (untouched_readWord g) fun _ _ g =>
      precise_last (last_writeWord h0 g) fun _ _ f => f
  | .xw .. => precise_orTrap (untouched_effWord h) fun _ _ g => precise_last (last_exchangeWord h0 g) fun _ _ f => f
  | .awm .. => precise_orTrap (untouched_effWord h) fun _ _ g =>
      precise_last (last_modifyWord h0 g) fun _ _ f => f.overflowTrap rfl
  | .mtw .. => precise_orTrap (untouched_effWord h) fun _ _ g => .ite
      (precise_orTrap (untouched_readWord g) fun _ _ f => precise_next h0 f fun y => y)
      (precise_last (last_modifyWord h0 g) fun _ _ f => f.overflowTrap rfl)
  | .bcr .. | .bcs .. | .bal .. | .bdr .. | .bir .. => precise_orTrap (untouched_effWord h) fun _ _ g =>
      precise_next h0 g fun y => y.branchIf rfl
  | .ah .. | .sh .. => precise_half h fun _ _ g => precise_next h0 g fun y => y.overflowTrap rfl
  | .ch .. | .lh .. | .lch .. | .lah .. | .mh .. => precise_half h fun _ _ g => precise_next h0 g fun y => y
  | .dh .. => precise_half h fun _ _ g => .ite (precise_next h0 g fun y => y.overflowTrap rfl)
      (precise_next h0 g fun y => y)
  | .sth .. => precise_orTrap (untouched_effHalf h) fun _ _ g => precise_last (last_writeHalf h0 g) fun _ _ f =>
      f.ite rfl rfl
  | .mth .. => precise_orTrap (untouched_effHalf h) fun _ _ g => .ite
      (precise_orTrap (untouched_readHalf g) fun _ _ f => precise_next h0 f fun y => y)
      (precise_last (last_modifyHalf h0 g) fun _ _ f => f.overflowTrap rfl)
  | .lcf .. | .cb .. | .lb .. => precise_byte h fun _ _ g => precise_next h0 g fun y => y
  | .stcf .. | .stb .. => precise_orTrap (untouched_effByte h) fun _ _ g => precise_last (last_writeByte h0 g) fun _ _ f => f
  | .mtb .. => precise_orTrap (untouched_effByte h) fun _ _ g => .ite
      (precise_orTrap (untouched_readByte g) fun _ _ f => precise_next h0 f fun y => y)
      (precise_last (last_modifyByte h0 g) fun _ _ f => f)
  | .pack .. => .needsDecimal h.precise (precise_field h fun _ _ _ g hl => precise_orIllegal h0 g fun _ _ =>
      precise_writeField h0 g (packed_zoned_length hl).2)
  | .unpk .. => .needsDecimal h.precise (precise_field h fun _ bs _ g hl => precise_orIllegal h0 g fun _ _ =>
      precise_writeField h0 g (by rw [zoneDigits_length, List.length_dropLast, nibbles_length, hl]))
  | .da .. | .ds .. => .needsDecimal h.precise (precise_decimals h0 h fun _ _ _ g =>
      precise_next h0 g fun y => y.decimalResult)
  | .dm .. => .needsDecimal h.precise (precise_decimals h0 h fun _ _ _ g =>
      .ite (precise_next h0 g fun y => y.decimalFault) (precise_next h0 g fun y => y.decimalResult))
  | .dd .. => .needsDecimal h.precise (precise_decimals h0 h fun _ _ _ g =>
      .ite (precise_next h0 g fun y => y.decimalFault) (precise_next h0 g fun y => y))
  | .dc .. => .needsDecimal h.precise (precise_decimals h0 h fun _ _ _ g => precise_next h0 g fun y => y)
  | .dsa .. => .needsDecimal h.precise (precise_orTrap (untouched_effWord h) fun _ _ g =>
      precise_orIllegal h0 g fun _ _ => precise_next h0 g fun y => y)
  | .dl .. => .needsDecimal h.precise (precise_field h fun _ _ _ g _ =>
      precise_orIllegal h0 g fun _ _ => precise_next h0 g fun y => y)
  | .dst r _ => .needsDecimal h.precise (precise_orTrap (untouched_effByte h) fun _ _ g => precise_orIllegal h0 g fun _ _ =>
      .ite (precise_endDecimal h0 g) (precise_writeField h0 g (by
        have := (decimalLength_bounds r).2
        rw [List.length_drop, accBytes_length]
        omega)))

/-- A trap of X'40' or X'41' finds the machine as the other agents left it. -/
theorem exec_precise {i : Instr} {s t : State} {T : TrapData} (h0 : s.trapPending = none) (he : exec i s = .next t)
    (hT : t.trapPending = some T) (hv : T.vector = 0x40 ∨ T.vector = 0x41)
    (hm : ∀ r a, i ≠ .lm r a ∧ i ≠ .stm r a ∧ i ≠ .exu r a)
    (hs : ∀ r v, i ≠ .mbs r v ∧ i ≠ .cbs r v ∧ i ≠ .tbs r v ∧ i ≠ .ttbs r v ∧ i ≠ .ebs r v) :
    s.OthersOnly { t with trapPending := none } ∧ (s.between = [] → t = { s with trapPending := some T }) := by
  rw [exec_eq_execWith] at he
  obtain ⟨x, u, hu, rfl⟩ | hc := (execWith_precise h0 _ i hm hs).of_next he
  · obtain rfl : (⟨x.vector, x.cc, false⟩ : TrapData) = T := Option.some.inj hT
    refine ⟨?_, fun hb => by rw [hu.2 hb]; rfl⟩
    have hn : ({ u with trapPending := none } : State) = u := by rw [← h0, ← hu.1.trapPending]
    exact hn.symm ▸ hu.1
  · obtain ⟨h40, h41⟩ := hc T hT
    omega

/-! ## One access that traps -/

theorem orTrap_of_trap {α : Type} {y : Res α} {x : Trap} {u : State} (h : y = .trap x u) (k : α → State → Out) :
    orTrap y k = .next (u.Pending x) := by
  rw [h]; rfl

theorem orTrap_access {α : Type} {v : State} {vw : WordAddr} {m : Access} {x : Trap} (h : v.resolve vw m = .error x)
    (f : State → Place → Res α) (k : α → State → Out) : orTrap (v.access vw m f) k = .next (v.others.Pending x) :=
  orTrap_of_trap (State.access_trap h f) k

section
variable {s u : State} {r : RegNum} {a : AddrField} {m : Access} {x : Trap}

/-! ### The operand: its address, or the access that comes next -/

theorem byteTraps_end (h : s.ByteTraps a m x u) {k : ByteAddr → State → Out}
    (hk : ∀ ea v, v.resolve (ea.extractLsb' 2 17) m = .error x → k ea v = .next (v.others.Pending x)) :
    orTrap (s.effByte a) k = .next (u.Pending x) := by
  obtain h | ⟨ea, v, he, hr, rfl⟩ := h
  · exact orTrap_of_trap h k
  · rw [he, orTrap_ok, hk ea v hr]
theorem halfTraps_end (h : s.HalfTraps a m x u) {k : HalfAddr → State → Out}
    (hk : ∀ ea v, v.resolve (ea.extractLsb' 1 17) m = .error x → k ea v = .next (v.others.Pending x)) :
    orTrap (s.effHalf a) k = .next (u.Pending x) := by
  obtain h | ⟨ea, v, he, hr, rfl⟩ := h
  · exact orTrap_of_trap h k
  · rw [he, orTrap_ok, hk ea v hr]
theorem wordTraps_end (h : s.WordTraps a m x u) {k : WordAddr → State → Out}
    (hk : ∀ ea v, v.resolve ea m = .error x → k ea v = .next (v.others.Pending x)) :
    orTrap (s.effWord a) k = .next (u.Pending x) := by
  obtain h | ⟨ea, v, he, hr, rfl⟩ := h
  · exact orTrap_of_trap h k
  · rw [he, orTrap_ok, hk ea v hr]
theorem doubleTraps_end (h : s.DoubleTraps a m x u) {k : DoubleAddr → State → Out}
    (hk : ∀ ea v, v.resolve (ea ++ 0#1) m = .error x → k ea v = .next (v.others.Pending x)) :
    orTrap (s.effDouble a) k = .next (u.Pending x) := by
  obtain h | ⟨ea, v, he, hr, rfl⟩ := h
  · exact orTrap_of_trap h k
  · rw [he, orTrap_ok, hk ea v hr]

theorem withByte_traps (h : s.ByteTraps a .read x u) {k : Byte → State → Out} : withByte s a k = .next (u.Pending x) :=
  byteTraps_end h fun _ _ hr => orTrap_access hr _ _
theorem withHalf_traps (h : s.HalfTraps a .read x u) {k : Half → State → Out} : withHalf s a k = .next (u.Pending x) :=
  halfTraps_end h fun _ _ hr => orTrap_access hr _ _
theorem withWord_traps (h : s.WordTraps a .read x u) {k : Word → State → Out} : withWord s a k = .next (u.Pending x) :=
  wordTraps_end h fun _ _ hr => orTrap_access hr _ _
theorem withDouble_traps (h : s.DoubleTraps a .read x u) {k : Double → State → Out} :
    withDouble s a k = .next (u.Pending x) :=
  doubleTraps_end h fun _ _ hr => orTrap_access hr _ _

/-! ### The instructions by operand -/

theorem byteReads_trap (h : s.ByteTraps a .read x u) :
    ∀ i ∈ [Instr.lb r a, .cb r a, .lcf r a, .mtb 0#4 a], exec i s = .next (u.Pending x) := by
  simp only [List.forall_mem_cons]
  exact ⟨withByte_traps h, withByte_traps h, withByte_traps h,
    byteTraps_end h fun _ _ hr => (if_pos rfl).trans (orTrap_access hr _ _), List.forall_mem_nil _⟩

theorem byteWrites_trap (h : s.ByteTraps a .write x u) :
    ∀ i ∈ [Instr.stb r a, .stcf r a], exec i s = .next (u.Pending x) := by
  simp only [List.forall_mem_cons]
  exact ⟨byteTraps_end h fun _ _ hr => orTrap_access hr _ _, byteTraps_end h fun _ _ hr => orTrap_access hr _ _,
    List.forall_mem_nil _⟩

theorem mtb_trap (h : s.ByteTraps a .write x u) (hr0 : r ≠ 0#4) : exec (.mtb r a) s = .next (u.Pending x) :=
  byteTraps_end h fun _ _ hr => (if_neg hr0).trans (orTrap_access hr _ _)

theorem halfReads_trap (h : s.HalfTraps a .read x u) :
    ∀ i ∈ [Instr.lh r a, .lch r a, .lah r a, .ch r a, .ah r a, .sh r a, .mh r a, .dh r a, .mth 0#4 a],
      exec i s = .next (u.Pending x) := by
  simp only [List.forall_mem_cons]
  exact ⟨withHalf_traps h, withHalf_traps h, withHalf_traps h, withHalf_traps h, withHalf_traps h, withHalf_traps h,
    withHalf_traps h, withHalf_traps h, halfTraps_end h fun _ _ hr => (if_pos rfl).trans (orTrap_access hr _ _),
    List.forall_mem_nil _⟩

theorem sth_trap (h : s.HalfTraps a .write x u) : exec (.sth r a) s = .next (u.Pending x) :=
  halfTraps_end h fun _ _ hr => orTrap_access hr _ _

theorem mth_trap (h : s.HalfTraps a .write x u) (hr0 : r ≠ 0#4) : exec (.mth r a) s = .next (u.Pending x) :=
  halfTraps_end h fun _ _ hr => (if_neg hr0).trans (orTrap_access hr _ _)

theorem wordReads_trap (h : s.WordTraps a .read x u) :
    ∀ i ∈ [Instr.lw r a, .ls r a, .and r a, .or r a, .eor r a, .lcw r a, .law r a, .aw r a,
      .sw r a, .mw r a, .dw r a, .cw r a, .cs r a, .clr r a, .mtw 0#4 a, .int r a, .anlz r a, .sts r a],
      exec i s = .next (u.Pending x) := by
  simp only [List.forall_mem_cons]
  exact ⟨withWord_traps h, withWord_traps h, withWord_traps h, withWord_traps h, withWord_traps h, withWord_traps h,
    withWord_traps h, withWord_traps h, withWord_traps h, withWord_traps h, withWord_traps h, withWord_traps h,
    withWord_traps h, withWord_traps h, wordTraps_end h fun _ _ hr => (if_pos rfl).trans (orTrap_access hr _ _),
    withWord_traps h, withWord_traps h, wordTraps_end h fun _ _ hr => orTrap_access hr _ _, List.forall_mem_nil _⟩

theorem floatShort_trap (h : s.WordTraps a .read x u) (ho : s.config.floatOption = true) :
    ∀ i ∈ [Instr.fas r a, .fss r a, .fms r a, .fds r a], exec i s = .next (u.Pending x) := by
  have hk (k : Word → State → Out) : needsFloat s (withWord s a k) = .next (u.Pending x) :=
    (needsFloat_present ho _).trans (withWord_traps h)
  simp only [List.forall_mem_cons]
  exact ⟨hk _, hk _, hk _, hk _, List.forall_mem_nil _⟩

theorem lrp_trap (h : s.WordTraps a .read x u) (hm : s.psd.ms = false) : exec (.lrp r a) s = .next (u.Pending x) :=
  (privileged_master hm _).trans (withWord_traps h)

theorem wordWrites_trap (h : s.WordTraps a .write x u) :
    ∀ i ∈ [Instr.stw r a, .awm r a, .xw r a], exec i s = .next (u.Pending x) := by
  simp only [List.forall_mem_cons]
  exact ⟨wordTraps_end h fun _ _ hr => orTrap_access hr _ _, wordTraps_end h fun _ _ hr => orTrap_access hr _ _,
    wordTraps_end h fun _ _ hr => orTrap_access hr _ _, List.forall_mem_nil _⟩

theorem mtw_trap (h : s.WordTraps a .write x u) (hr0 : r ≠ 0#4) : exec (.mtw r a) s = .next (u.Pending x) :=
  wordTraps_end h fun _ _ hr => (if_neg hr0).trans (orTrap_access hr _ _)

theorem exu_trap (h : s.WordTraps a .execute x u) : exec (.exu r a) s = .next (u.Pending x) := by
  show execSubjects (s.config.exuLimit - s.exuDepth) a s = _
  cases s.config.exuLimit - s.exuDepth with
  | zero => exact wordTraps_end h fun _ _ hr => orTrap_access hr _ _
  | succ fuel => exact wordTraps_end h fun _ _ hr => orTrap_access hr _ _

theorem doubleReads_trap (h : s.DoubleTraps a .read x u) :
    ∀ i ∈ [Instr.ld r a, .lcd r a, .lad r a, .ad r a, .sd r a, .cd r a, .clm r a, .psw r a, .plw r a, .psm r a, .plm r a,
      .msp r a], exec i s = .next (u.Pending x) := by
  have hs {k : DoubleAddr → Double → State → Out} :
      orTrap (s.effDouble a) (fun ea v => orTrap (v.readDouble ea .read) (k ea)) = .next (u.Pending x) :=
    doubleTraps_end h fun _ _ hr => orTrap_access hr _ _
  simp only [List.forall_mem_cons]
  exact ⟨withDouble_traps h, withDouble_traps h, withDouble_traps h, withDouble_traps h, withDouble_traps h,
    withDouble_traps h, withDouble_traps h, doubleTraps_end h fun _ _ hr => orTrap_access hr _ _, hs,
    doubleTraps_end h fun _ _ hr => orTrap_access hr _ _, doubleTraps_end h fun _ _ hr => orTrap_access hr _ _, hs,
    List.forall_mem_nil _⟩

theorem floatLong_trap (h : s.DoubleTraps a .read x u) (ho : s.config.floatOption = true) :
    ∀ i ∈ [Instr.fal r a, .fsl r a, .fml r a, .fdl r a], exec i s = .next (u.Pending x) := by
  have hk (k : Double → State → Out) : needsFloat s (withDouble s a k) = .next (u.Pending x) :=
    (needsFloat_present ho _).trans (withDouble_traps h)
  simp only [List.forall_mem_cons]
  exact ⟨hk _, hk _, hk _, hk _, List.forall_mem_nil _⟩

theorem lpsd_trap (h : s.DoubleTraps a .read x u) (hm : s.psd.ms = false) : exec (.lpsd r a) s = .next (u.Pending x) :=
  (privileged_master hm _).trans (withDouble_traps h)

theorem std_trap (h : s.DoubleTraps a .write x u) : exec (.std r a) s = .next (u.Pending x) :=
  doubleTraps_end h fun _ _ hr => orTrap_access hr _ _

/-! ### An indirect word that traps -/

theorem wordAddresses_trap (h : s.effWord a = .trap x u) :
    ∀ i ∈ [Instr.s r a, .bcr r a, .bcs r a, .bal r a, .bdr r a, .bir r a, .lm r a, .stm r a, .cva r a, .cvs r a],
      exec i s = .next (u.Pending x) := by
  simp only [List.forall_mem_cons]
  exact ⟨orTrap_of_trap h _, orTrap_of_trap h _, orTrap_of_trap h _, orTrap_of_trap h _, orTrap_of_trap h _,
    orTrap_of_trap h _, orTrap_of_trap h _, orTrap_of_trap h _, orTrap_of_trap h _, orTrap_of_trap h _,
    List.forall_mem_nil _⟩

theorem sf_trap (h : s.effWord a = .trap x u) (ho : s.config.floatOption = true) :
    exec (.sf r a) s = .next (u.Pending x) :=
  (needsFloat_present ho _).trans (orTrap_of_trap h _)

theorem directAddresses_trap (h : s.effWord a = .trap x u) (hm : s.psd.ms = false) :
    ∀ i ∈ [Instr.sio r a, .tio r a, .tdv r a, .hio r a, .aio r a, .rd r a, .wd r a], exec i s = .next (u.Pending x) := by
  have hk (k : WordAddr → State → Out) : privileged s (orTrap (s.effWord a) k) = .next (u.Pending x) :=
    (privileged_master hm _).trans (orTrap_of_trap h k)
  simp only [List.forall_mem_cons]
  exact ⟨hk _, hk _, hk _, hk _, hk _, hk _, hk _, List.forall_mem_nil _⟩

theorem xpsd_address_trap (h : s.effDouble a = .trap x u) (hm : s.psd.ms = false) :
    exec (.xpsd r a) s = .next (u.Pending x) :=
  (privileged_master hm _).trans (orTrap_of_trap h _)

theorem dsa_trap (h : s.effWord a = .trap x u) (ho : s.config.decimalOption = true) :
    exec (.dsa r a) s = .next (u.Pending x) :=
  (needsDecimal_present ho _).trans (orTrap_of_trap h _)

theorem decimalAddresses_trap (h : s.effByte a = .trap x u) (ho : s.config.decimalOption = true) :
    ∀ i ∈ [Instr.dl r a, .dst r a, .da r a, .ds r a, .dm r a, .dd r a, .dc r a, .pack r a, .unpk r a],
      exec i s = .next (u.Pending x) := by
  have hk (k : ByteAddr → State → Out) : needsDecimal s (orTrap (s.effByte a) k) = .next (u.Pending x) :=
    (needsDecimal_present ho _).trans (orTrap_of_trap h k)
  simp only [List.forall_mem_cons]
  exact ⟨hk _, hk _, hk _, hk _, hk _, hk _, hk _, hk _, hk _, List.forall_mem_nil _⟩

/-! ### STS's store and ANLZ's indirect word -/

theorem sts_store_trap {v w : State} {ea : WordAddr} {old : Word} (he : s.effWord a = .ok ea v)
    (ho : v.readWord ea .read = .ok old w) (hx : w.resolve ea .write = .error x) :
    exec (.sts r a) s = .next (w.others.Pending x) := by
  show execSts r a s = _
  rw [execSts, he, orTrap_ok, ho, orTrap_ok]
  exact orTrap_access hx _ _

theorem analyzeClass_ne_noAddress {op : BitVec 7} (h1 : op.toNat ∉ immediateOpcodes)
    (h2 : op.toNat ∉ [0x04, 0x05, 0x06, 0x07, 0x2E]) : analyzeClass op ≠ .noAddress := by
  revert op; decide

/-- With the indirect bit the analyzed address begins with the indirect word, whatever the class. -/
theorem State.analyzedAddress_trap {v : State} {c : AnalyzeClass} {b : AddrField} (hc : c ≠ .noAddress)
    (hb : b.ind = true) (h : v.readWord b.ref .read = .trap x u) : v.analyzedAddress c b = .trap x u := by
  have href : v.refOf b = .trap x u := by rw [State.refOf, if_pos hb, h]; rfl
  cases c with
  | byte => rw [State.analyzedAddress, State.effByte, href]; rfl
  | noAddress => exact absurd rfl hc
  | half => rw [State.analyzedAddress, State.effHalf, href]; rfl
  | word => rw [State.analyzedAddress, State.effWord, href]; rfl
  | double => rw [State.analyzedAddress, State.effDouble, href]; rfl

theorem anlz_trap {w : Word} {v : State} (h : s.WordOperand a w v) (h1 : (w.extractLsb' 24 7).toNat ∉ immediateOpcodes)
    (h2 : (w.extractLsb' 24 7).toNat ∉ [0x04, 0x05, 0x06, 0x07, 0x2E]) (hi : w[31] = true)
    (hx : v.readWord (w.extractLsb' 0 17) .read = .trap x u) : exec (.anlz r a) s = .next (u.Pending x) := by
  show execAnlz r a s = _
  rw [execAnlz, withWord_operand h]
  exact orTrap_of_trap (State.analyzedAddress_trap (analyzeClass_ne_noAddress h1 h2) hi hx) _

end

/-! ## The first of several accesses that traps, no other agent acting -/

section
variable {s : State} {r : RegNum} {a : AddrField} {x : Trap}

theorem State.readWord_alone_trap (hb : s.between = []) {vw : WordAddr} {m : Access} (h : s.resolve vw m = .error x) :
    s.readWord vw m = .trap x s := by
  rw [State.readWord, State.access_trap h, State.others_nil hb]
theorem State.readWord_alone_ok (hb : s.between = []) {vw : WordAddr} {m : Access} (h : ∃ p, s.resolve vw m = .ok p) :
    ∃ w, s.readWord vw m = .ok w s := by
  obtain ⟨p, hp⟩ := h
  exact ⟨s.loadWord p, by rw [State.readWord, State.access_of hp, State.others_nil hb]⟩
theorem State.readByte_alone_trap (hb : s.between = []) {ba : ByteAddr} {m : Access}
    (h : s.resolve (ba.extractLsb' 2 17) m = .error x) : s.readByte ba m = .trap x s := by
  rw [State.readByte, State.access_trap h, State.others_nil hb]
theorem State.readByte_alone_ok (hb : s.between = []) {ba : ByteAddr} {m : Access}
    (h : ∃ p, s.resolve (ba.extractLsb' 2 17) m = .ok p) : ∃ b, s.readByte ba m = .ok b s := by
  obtain ⟨p, hp⟩ := h
  exact ⟨s.loadByte p (ba.extractLsb' 0 2), by rw [State.readByte, State.access_of hp, State.others_nil hb]⟩
theorem State.readDouble_alone (hb : s.between = []) {da : DoubleAddr} {m : Access} {p : Place}
    (hp : s.resolve (da ++ 0#1) m = .ok p) : s.readDouble da m = .ok (s.loadDouble p) s := by
  rw [State.readDouble, State.access_of hp, State.others_nil hb]

/-- Of accesses of which some are made, the first that traps is the first access, or one of the rest. -/
theorem State.firstFault_made_succ {n : Nat} {made : Nat → Prop} {f : Nat → WordAddr} {m : Access}
    (h : s.FirstFault (n + 1) made f m x) :
    made 0 ∧ s.resolve (f 0) m = .error x ∨
      (made 0 → ∃ p, s.resolve (f 0) m = .ok p) ∧
        s.FirstFault n (fun k => made (k + 1)) (fun k => f (k + 1)) m x := by
  obtain ⟨k, hk, hm, hx, hok⟩ := h
  cases k with
  | zero => exact .inl ⟨hm, hx⟩
  | succ k => exact .inr ⟨hok 0 k.succ_pos, k, Nat.lt_of_succ_lt_succ hk, hm, hx, fun j hj => hok (j + 1) (Nat.succ_lt_succ hj)⟩

variable (hb : s.between = [])
include hb

/-! ### Reads in order -/

theorem convertSub_trap {n : Nat} {ea : WordAddr} {rem res : Word} (h : s.faultWords .read n ea = some x) :
    convertSub n ea rem res s = .trap x s := by
  induction n generalizing ea rem res with
  | zero => cases h
  | succ n ih =>
    rw [State.faultWords, Option.or_eq_some_iff, State.faultAt_eq_some, State.faultAt_eq_none] at h
    rw [convertSub]
    obtain h | ⟨h, hrest⟩ := h
    · rw [State.readWord_alone_trap hb h]; rfl
    · obtain ⟨w, hw⟩ := State.readWord_alone_ok hb h
      rw [hw, Res.andThen]
      split <;> exact ih hrest

theorem convertAdd_trap {v : Word} {n : Nat} {ea : WordAddr} {sum : Word} {c : Bool}
    (h : s.FirstFault n (fun k => v.getLsbD (n - 1 - k) = true) (fun k => ea + BitVec.ofNat 17 k) .read x) :
    convertAdd v n ea sum c s = .trap x s := by
  induction n generalizing ea sum c with
  | zero => obtain ⟨k, hk, -⟩ := h; exact absurd hk (Nat.not_lt_zero k)
  | succ n ih =>
    have hbit (k : Nat) : n + 1 - 1 - (k + 1) = n - 1 - k := by omega
    rw [convertAdd]
    obtain ⟨hv, hx⟩ | ⟨hok, hrest⟩ := State.firstFault_made_succ h
    · rw [BitVec.add_zero] at hx
      rw [if_pos (c := v.getLsbD n = true) hv, State.readWord_alone_trap hb hx]; rfl
    · have hrest : s.FirstFault n (fun k => v.getLsbD (n - 1 - k) = true) (fun k => ea + 1#17 + BitVec.ofNat 17 k) .read x := by
        simpa only [hbit, offset_succ] using hrest
      split
      case isTrue hv =>
        have hp := hok hv
        rw [BitVec.add_zero] at hp
        obtain ⟨w, hw⟩ := State.readWord_alone_ok hb hp
        rw [hw, Res.andThen]
        exact ih hrest
      case isFalse => exact ih hrest

theorem readImage_trap {n : Nat} {ia : WordAddr} (h : s.faultWords .read n ia = some x) :
    readImage n ia s = .trap x s := by
  induction n generalizing ia with
  | zero => cases h
  | succ n ih =>
    rw [State.faultWords, Option.or_eq_some_iff, State.faultAt_eq_some, State.faultAt_eq_none] at h
    rw [readImage]
    obtain h | ⟨h, hrest⟩ := h
    · rw [State.readWord_alone_trap hb h]; rfl
    · obtain ⟨w, hw⟩ := State.readWord_alone_ok hb h
      rw [hw, Res.andThen, ih hrest, Res.andThen]

theorem readField_trap {n : Nat} {ea : ByteAddr} (h : s.faultBytes .read n ea = some x) :
    readField n ea s = .trap x s := by
  induction n generalizing ea with
  | zero => cases h
  | succ n ih =>
    rw [State.faultBytes, Option.or_eq_some_iff, State.faultAt_eq_some, State.faultAt_eq_none] at h
    rw [readField]
    obtain h | ⟨h, hrest⟩ := h
    · rw [State.readByte_alone_trap hb h]; rfl
    · obtain ⟨b, hw⟩ := State.readByte_alone_ok hb h
      rw [hw, Res.andThen, ih hrest, Res.andThen]

/-! ### Conversions, MMC and XPSD -/

theorem cvs_trap {ea : WordAddr} (he : s.effWord a = .ok ea s)
    (h : s.FirstFault 32 (fun _ => True) (fun k => ea + BitVec.ofNat 17 k) .read x) :
    exec (.cvs r a) s = .next (s.Pending x) := by
  show execCvs r a s = _
  rw [execCvs, he, orTrap_ok]
  exact orTrap_of_trap (convertSub_trap hb ((State.faultWords_eq_some ..).2 h)) _

theorem cva_trap {ea : WordAddr} (he : s.effWord a = .ok ea s)
    (h : s.FirstFault 32 (fun k => (s.reg (ru1 r)).getLsbD (31 - k) = true) (fun k => ea + BitVec.ofNat 17 k) .read x) :
    exec (.cva r a) s = .next (s.Pending x) := by
  show execCva r a s = _
  rw [execCva, he, orTrap_ok]
  exact orTrap_of_trap (convertAdd_trap hb h) _

theorem mmc_trap {f : BitVec 3} {z : BitVec 17} (hm : s.psd.ms = false) (hf : f = 1#3 ∨ f = 2#3 ∨ f = 4#3 ∨ f = 5#3)
    (h : s.FirstFault (s.mmcCount r) (fun _ => True) (fun k => (s.reg r).extractLsb' 0 17 + BitVec.ofNat 17 k) .read x) :
    exec (.mmc r f z) s = .next (s.Pending x) := by
  have hassigned : mmcFunctionAssigned f = true := by revert f; decide
  show execMmc r f z s = _
  rw [execMmc, if_pos hassigned, privileged_master hm]
  exact orTrap_of_trap (readImage_trap hb ((State.faultWords_eq_some ..).2 h)) _

omit hb in
theorem xpsd_trap {ea : DoubleAddr} {p : Place} (hm : s.psd.ms = false) (he : s.effDouble a = .ok ea s)
    (h : s.resolve (ea ++ 0#1) .write = .error x ∨
      s.resolve (ea ++ 0#1) .write = .ok p ∧ s.resolve ((ea + 1#16) ++ 0#1) .read = .error x) :
    exec (.xpsd r a) s = .next (s.Pending x) := by
  have hfault : (s.faultAt (ea ++ 0#1) .write).or (s.faultAt ((ea + 1#16) ++ 0#1) .read) = some x := by
    rw [Option.or_eq_some_iff, State.faultAt_eq_some, State.faultAt_eq_some, State.faultAt_eq_none]
    exact h.imp_right fun ⟨hp, hx⟩ => ⟨⟨p, hp⟩, hx⟩
  show execXpsd r a s = _
  rw [execXpsd, privileged_master hm, he, orTrap_ok, hfault]
  rfl

/-! ### Stack instructions -/

omit hb in
/-- The words of the stack, then the pointer. -/
theorem State.stackFault {n : Nat} {m : Access} {low : WordAddr} {ea : DoubleAddr}
    (h : s.FirstFault n (fun _ => True) (fun k => low + BitVec.ofNat 17 k) m x ∨
      (∀ k, k < n → ∃ p, s.resolve (low + BitVec.ofNat 17 k) m = .ok p) ∧ s.resolve (ea ++ 0#1) .write = .error x) :
    (s.faultWords m n low).or (s.faultAt (ea ++ 0#1) .write) = some x := by
  rw [Option.or_eq_some_iff, State.faultWords_eq_some, State.faultWords_eq_none, State.faultAt_eq_some]
  exact h

omit hb in
theorem stackLimit_trap {p : StackPointer} {n : Int} {f : Option Trap} {k : Out} (hi : ¬p.Inhibited n) (h : f = some x) :
    stackLimit s p n f k = .next (s.Pending x) := by
  subst h
  exact stackLimit_fault hi ..

theorem pushStack_trap {ea : DoubleAddr} {q : Place} {n : Nat} (hq : s.resolve (ea ++ 0#1) .read = .ok q)
    (hi : ¬(spdDecode (s.loadDouble q)).Inhibited n)
    (h : (s.faultWords .write n ((spdDecode (s.loadDouble q)).tsa + 1#17)).or (s.faultAt (ea ++ 0#1) .write) = some x) :
    pushStack s ea r n = .next (s.Pending x) := by
  rw [pushStack, State.readDouble_alone hb hq, orTrap_ok]
  exact stackLimit_trap hi h

theorem plm_trap {ea : DoubleAddr} {q : Place} (he : s.effDouble a = .ok ea s) (hq : s.resolve (ea ++ 0#1) .read = .ok q)
    (hi : ¬(spdDecode (s.loadDouble q)).Inhibited (-(ccCount s.psd.cc : Nat)))
    (h : (s.faultWords .read (ccCount s.psd.cc)
      ((spdDecode (s.loadDouble q)).tsa - BitVec.ofNat 17 (ccCount s.psd.cc) + 1#17)).or (s.faultAt (ea ++ 0#1) .write) =
        some x) :
    exec (.plm r a) s = .next (s.Pending x) := by
  show execPlm r a s = _
  rw [execPlm, he, orTrap_ok, State.readDouble_alone hb hq, orTrap_ok]
  exact stackLimit_trap hi h

theorem plw_trap {ea : DoubleAddr} {q : Place} (he : s.effDouble a = .ok ea s) (hq : s.resolve (ea ++ 0#1) .read = .ok q)
    (hi : ¬(spdDecode (s.loadDouble q)).Inhibited (-1))
    (h : (s.faultWords .read 1 ((spdDecode (s.loadDouble q)).tsa - 1#17 + 1#17)).or (s.faultAt (ea ++ 0#1) .write) =
      some x) :
    exec (.plw r a) s = .next (s.Pending x) := by
  rw [State.faultWords, State.faultWords, Option.or_none, BitVec.sub_add_cancel] at h
  show execPlw r a s = _
  rw [execPlw, he, orTrap_ok, State.readDouble_alone hb hq, orTrap_ok]
  exact stackLimit_trap hi h

theorem msp_trap {ea : DoubleAddr} {q : Place} (he : s.effDouble a = .ok ea s) (hq : s.resolve (ea ++ 0#1) .read = .ok q)
    (h0 : (s.reg r).extractLsb' 0 16 ≠ 0#16)
    (hi : ¬(spdDecode (s.loadDouble q)).Inhibited ((s.reg r).extractLsb' 0 16).toInt)
    (h : s.resolve (ea ++ 0#1) .write = .error x) : exec (.msp r a) s = .next (s.Pending x) := by
  have hm : ((s.reg r).extractLsb' 0 16).toInt ≠ 0 := fun e => h0 (BitVec.toInt_inj.1 (e.trans BitVec.toInt_zero.symm))
  show execMsp r a s = _
  rw [execMsp, he, orTrap_ok, State.readDouble_alone hb hq, orTrap_ok]
  exact (if_neg hm).trans (stackLimit_trap hi (State.faultAt_eq_some.2 h))

/-! ### Decimal instructions -/

theorem withField_trap {ea : ByteAddr} {n : Nat} {k : ByteAddr → List Byte → State → Out} (he : s.effByte a = .ok ea s)
    (h : s.FirstFault n (fun _ => True) (fun k => (ea + BitVec.ofNat 19 k).extractLsb' 2 17) .read x) :
    withField s a n k = .next (s.Pending x) := by
  rw [withField, he, orTrap_ok]
  exact orTrap_of_trap (readField_trap hb ((State.faultBytes_eq_some ..).2 h)) _

theorem decimalReads_trap {ea : ByteAddr} (ho : s.config.decimalOption = true) (he : s.effByte a = .ok ea s)
    (h : s.FirstFault (decimalLength r) (fun _ => True) (fun k => (ea + BitVec.ofNat 19 k).extractLsb' 2 17) .read x) :
    ∀ i ∈ [Instr.dl r a, .da r a, .ds r a, .dm r a, .dd r a, .dc r a, .unpk r a], exec i s = .next (s.Pending x) := by
  have hk (k : ByteAddr → List Byte → State → Out) :
      needsDecimal s (withField s a (decimalLength r) k) = .next (s.Pending x) :=
    (needsDecimal_present ho _).trans (withField_trap hb he h)
  simp only [List.forall_mem_cons]
  exact ⟨hk _, hk _, hk _, hk _, hk _, hk _, hk _, List.forall_mem_nil _⟩

theorem pack_read_trap {ea : ByteAddr} (ho : s.config.decimalOption = true) (he : s.effByte a = .ok ea s)
    (h : s.FirstFault (2 * decimalLength r - 1) (fun _ => True) (fun k => (ea + BitVec.ofNat 19 k).extractLsb' 2 17) .read
      x) : exec (.pack r a) s = .next (s.Pending x) :=
  (needsDecimal_present ho _).trans (withField_trap hb he h)

omit hb

/-- With DM = 1 a fault of the stores comes before the decimal trap. -/
theorem endDecimal_fault (hd : s.psd.dm = true) (f : DecimalFault) : endDecimal s (some x) f = .next (s.Pending x) :=
  if_pos hd

theorem orIllegal_fault {v : Option Int} {k : Int → Out} (hv : s.psd.dm = true ∨ v ≠ none)
    (hk : ∀ n, v = some n → k n = .next (s.Pending x)) : orIllegal s (some x) v k = .next (s.Pending x) := by
  cases v with
  | none => exact endDecimal_fault (hv.resolve_right fun h => h rfl) _
  | some n => exact hk n rfl

theorem dst_store_trap {ea : ByteAddr} (ho : s.config.decimalOption = true) (he : s.effByte a = .ok ea s)
    (hv : s.psd.dm = true ∨ ∃ v, s.accValue = some v ∧ v.natAbs < 10 ^ (2 * decimalLength r - 1))
    (h : s.faultBytes .write (decimalLength r) ea = some x) : exec (.dst r a) s = .next (s.Pending x) := by
  show execDst r a s = _
  rw [execDst, needsDecimal_present ho, he, orTrap_ok, h]
  refine orIllegal_fault (hv.imp_right fun ⟨v, hv, _⟩ => by rw [hv]; exact Option.some_ne_none v) fun n hn => ?_
  split
  case isTrue hbig =>
    refine endDecimal_fault (hv.resolve_right fun ⟨v, hv, hlt⟩ => ?_) _
    obtain rfl := Option.some.inj (hv.symm.trans hn)
    omega
  case isFalse => rfl

/-- The digits are digits and the last zone is a sign. -/
theorem packedValue_zoned {zs : List Byte} {r : RegNum} (hl : zs.length = 2 * decimalLength r - 1)
    (hd : ∀ b ∈ zs, (b.extractLsb' 0 4).toNat ≤ 9) (hg : 10 ≤ ((zs.getLastD 0#8).extractLsb' 4 4).toNat) :
    packedValue (packNibbles (zonedNibbles zs)) ≠ none := by
  have hds : ∀ d ∈ zs.map (fun b => b.extractLsb' 0 4), d.toNat ≤ 9 := by
    intro d hm
    obtain ⟨b, hb, rfl⟩ := List.mem_map.1 hm
    exact hd b hb
  have hvalue : packedValue (packNibbles (zonedNibbles zs)) = _ :=
    packedValue_of_nibbles (nibbles_packNibbles (zonedNibbles zs) (packed_zoned_length hl).1)
  rw [hvalue, signedValue_eq_some_iff.2 ⟨hg, _, digitsValue_eq_foldl hds 0, rfl⟩]
  exact Option.some_ne_none _

theorem pack_store_trap {ea : ByteAddr} {zs : List Byte} (ho : s.config.decimalOption = true) (he : s.effByte a = .ok ea s)
    (hf : readField (2 * decimalLength r - 1) ea s = .ok zs s)
    (hv : s.psd.dm = true ∨
      (∀ b ∈ zs, (b.extractLsb' 0 4).toNat ≤ 9) ∧ 10 ≤ ((zs.getLastD 0#8).extractLsb' 4 4).toNat)
    (h : s.faultBytes .write (decimalLength r) ea = some x) : exec (.pack r a) s = .next (s.Pending x) := by
  show execPack r a s = _
  rw [execPack, needsDecimal_present ho, withField_ok he hf, h]
  exact orIllegal_fault (hv.imp_right fun ⟨hd, hg⟩ => packedValue_zoned (readField_length hf) hd hg) fun _ _ => rfl

theorem unpk_store_trap {ea : ByteAddr} {bs : List Byte} (ho : s.config.decimalOption = true) (he : s.effByte a = .ok ea s)
    (hf : readField (decimalLength r) ea s = .ok bs s) (hv : s.psd.dm = true ∨ packedValue bs ≠ none)
    (h : s.faultBytes .write (2 * decimalLength r - 1) ea = some x) : exec (.unpk r a) s = .next (s.Pending x) := by
  show execUnpk r a s = _
  rw [execUnpk, needsDecimal_present ho, withField_ok he hf, h]
  exact orIllegal_fault hv fun _ _ => rfl

end

/-- Settles O60: an instruction is followed up to its first effect; an access that traps is followed to the end. -/
theorem preciseTraps : Obligations.PreciseTraps := by
  refine ⟨fun i s t T h0 he hT hv => exec_precise h0 he hT hv, fun s r a x u => ?one, fun s r a x hb => ?several⟩
  case one =>
    exact ⟨byteReads_trap, byteWrites_trap, mtb_trap, halfReads_trap, sth_trap, mth_trap, wordReads_trap, floatShort_trap,
      lrp_trap, wordWrites_trap, mtw_trap, exu_trap, doubleReads_trap, floatLong_trap, lpsd_trap, std_trap,
      wordAddresses_trap, sf_trap, directAddresses_trap, xpsd_address_trap, dsa_trap, decimalAddresses_trap,
      fun _ _ _ _ => sts_store_trap, fun _ _ => anlz_trap⟩
  case several =>
    refine ⟨fun ea he => ⟨cvs_trap hb he, cva_trap hb he⟩, ?mmc, fun ea p hm he => xpsd_trap hm he, ?stack, ?decimal⟩
    case mmc =>
      rintro f z _ hm hf rfl h
      exact mmc_trap hb hm hf h
    case stack =>
      rintro ea q _ i n he hq rfl
      refine ⟨?push, ?pull, msp_trap hb he hq⟩
      case push =>
        rintro (⟨rfl, rfl⟩ | ⟨rfl, rfl⟩) hi h
        · show execPsw r a s = _
          rw [execPsw, he, orTrap_ok]
          exact pushStack_trap hb hq hi (State.stackFault h)
        · show execPsm r a s = _
          rw [execPsm, he, orTrap_ok]
          exact pushStack_trap hb hq hi (State.stackFault h)
      case pull =>
        rintro (⟨rfl, rfl⟩ | ⟨rfl, rfl⟩) hi h
        · exact plw_trap hb he hq hi (State.stackFault h)
        · exact plm_trap hb he hq hi (State.stackFault h)
    case decimal =>
      rintro ea _ addr ho he rfl haddr
      obtain rfl : addr = fun k => (ea + BitVec.ofNat 19 k).extractLsb' 2 17 := funext haddr
      exact ⟨decimalReads_trap hb ho he, pack_read_trap hb ho he,
        fun hv h => dst_store_trap ho he hv ((State.faultBytes_eq_some ..).2 h),
        fun zs hf hv h => pack_store_trap ho he hf hv ((State.faultBytes_eq_some ..).2 h),
        fun bs hf hv h => unpk_store_trap ho he hf hv ((State.faultBytes_eq_some ..).2 h)⟩

end Sys2Proof.Machine
end

section
/-! The instruction codec (O37 to O40). The fields of a word and the word of fields are inverse; a row of the opcode map reads a
word by the format of its opcode (`Row`), and the encoder writes that format back, so what decodes encodes to the same word. -/

namespace Sys2Proof.Machine

open Laws.OpcodeField

/-! ## Fields (R145) -/

theorem decodeFields_encodeFields (f : Fields) : decodeFields (encodeFields f) = f := by
  obtain ⟨ind, op, r, x, ref⟩ := f
  simp only [decodeFields, Fields.mk.injEq]
  refine ⟨?ind, ?op, ?r, ?x, extract_append_low _ ref⟩
  case ind =>
    rw [← BitVec.getLsbD_eq_getElem, encodeFields]
    simp only [BitVec.getLsbD_append, BitVec.getLsbD_ofBool]
    simp
  all_goals
    apply BitVec.eq_of_getLsbD_eq
    intro i hi
    simp only [encodeFields, BitVec.getLsbD_extractLsb', BitVec.getLsbD_append]
    grind

theorem encodeFields_decodeFields (w : Word) : encodeFields (decodeFields w) = w := by
  apply BitVec.eq_of_getLsbD_eq
  intro i hi
  simp only [encodeFields, decodeFields, BitVec.getLsbD_append, BitVec.getLsbD_extractLsb', BitVec.getLsbD_ofBool]
  interval_cases i <;> simp

theorem encodeFields_toNat (f : Fields) :
    (encodeFields f).toNat = f.ind.toNat * 2 ^ 31 + f.op.toNat * 2 ^ 24 + f.r.toNat * 2 ^ 20 + f.x.toNat * 2 ^ 17 +
      f.ref.toNat := by
  simp only [encodeFields, toNat_append_eq_add, BitVec.toNat_ofBool]
  ring

theorem encodeImmediate_toNat (op : BitVec 7) (r : RegNum) (v : BitVec 20) :
    (encodeImmediate op r v).toNat = op.toNat * 2 ^ 24 + r.toNat * 2 ^ 20 + v.toNat := by
  simp only [encodeImmediate, toNat_append_eq_add, BitVec.toNat_ofNat]
  ring

/-- The 20-bit value stands in the places of X and REF, and I is 0. -/
theorem encodeImmediate_eq_encodeFields (op : BitVec 7) (r : RegNum) (v : BitVec 20) :
    encodeImmediate op r v = encodeFields ⟨false, op, r, v.extractLsb' 17 3, v.extractLsb' 0 17⟩ := by
  apply BitVec.eq_of_toNat_eq
  rw [encodeImmediate_toNat, encodeFields_toNat]
  simp only [BitVec.extractLsb'_toNat, Bool.toNat_false, Nat.shiftRight_eq_div_pow]
  omega

theorem decodeFields_encodeImmediate (op : BitVec 7) (r : RegNum) (v : BitVec 20) :
    decodeFields (encodeImmediate op r v) = ⟨false, op, r, v.extractLsb' 17 3, v.extractLsb' 0 17⟩ := by
  rw [encodeImmediate_eq_encodeFields, decodeFields_encodeFields]

/-- A word with I = 0 is the immediate word of its opcode, its R field and its low 20 bits. -/
theorem encodeImmediate_extract {w : Word} (h : w[31] = false) :
    encodeImmediate (w.extractLsb' 24 7) (w.extractLsb' 20 4) (w.extractLsb' 0 20) = w := by
  conv_rhs => rw [← encodeFields_decodeFields w]
  rw [encodeImmediate_eq_encodeFields, decodeFields, h]
  congr 2
  all_goals
    apply BitVec.eq_of_getLsbD_eq
    intro i hi
    simp only [BitVec.getLsbD_extractLsb']
    grind

/-- Settles O38: both directions field by field, the encodings as sums. -/
theorem fieldCodec : Obligations.FieldCodec :=
  ⟨fun f => ⟨decodeFields_encodeFields f, encodeFields_toNat f⟩, encodeFields_decodeFields, encodeImmediate_toNat⟩

/-! ## Rows of the opcode map -/

theorem decodeReference_encodeReference (op : BitVec 7) (r : RegNum) (a : AddrField) (k : RegNum → AddrField → Instr) :
    decodeReference (encodeReference op r a) k = .ok (k r a) := by
  show Except.ok (k (decodeFields _).r ⟨(decodeFields _).ind, (decodeFields _).x, (decodeFields _).ref⟩) = _
  rw [encodeReference, decodeFields_encodeFields]

theorem decodeMmc_encodeFields (r : RegNum) (f : BitVec 3) (z : BitVec 17) :
    decodeMmc (encodeFields ⟨false, 0x6F#7, r, f, z⟩) = .ok (.mmc r f z) := by
  show (if (decodeFields _).ind then _ else Except.ok (Instr.mmc (decodeFields _).r (decodeFields _).x (decodeFields _).ref)) = _
  rw [decodeFields_encodeFields, if_neg Bool.false_ne_true]

theorem decodeImmediate_encodeImmediate (op : BitVec 7) (r : RegNum) (v : BitVec 20) (k : RegNum → BitVec 20 → Instr) :
    decodeImmediate (encodeImmediate op r v) k = .ok (k r v) := by
  have hv : (encodeImmediate op r v).extractLsb' 0 20 = v := extract_append_low _ v
  show (if (decodeFields _).ind then _ else Except.ok (k (decodeFields _).r _)) = _
  rw [decodeFields_encodeImmediate, hv, if_neg Bool.false_ne_true]

/-- What a row of the opcode map makes of the word `w`, by the format of its opcode (R131, R132, R134, R144). -/
inductive Row (w : Word) (op : Nat) : Except DecodeReject Instr → Prop
  | mmc (ho : op = 0x6F) : Row w op (decodeMmc w)
  | immediate (k : RegNum → BitVec 20 → Instr) (hk : ∀ r v, encode (k r v) = encodeImmediate (BitVec.ofNat 7 op) r v)
      (ho : op ∈ immediateOpcodes) : Row w op (decodeImmediate w k)
  | reference (k : RegNum → AddrField → Instr) (hk : ∀ r a, encode (k r a) = encodeReference (BitVec.ofNat 7 op) r a)
      (hi : op ∉ immediateOpcodes) (hu : op ∉ unassignedOpcodes) : Row w op (decodeReference w k)
  | unassigned (ho : op ∈ unassignedOpcodes) : Row w op (.error .unassignedOpcode)

theorem decode_row (w : Word) : Row w (w.extractLsb' 24 7).toNat (decode w) := by
  have hlt := (w.extractLsb' 24 7).isLt
  unfold decode
  generalize (w.extractLsb' 24 7).toNat = op at hlt
  split
  case h_107 =>
    refine .unassigned ?_
    interval_cases op
    any_goals decide
    all_goals contradiction
  all_goals with_reducible constructor
  any_goals exact fun _ _ => rfl
  all_goals decide

/-- A word that decodes has an assigned opcode, I = 0 where the format asks for it, and is what the encoder writes. -/
theorem encode_of_decode {w : Word} {i : Instr} (h : decode w = .ok i) :
    encode i = w ∧ (w.extractLsb' 24 7).toNat ∉ unassignedOpcodes ∧
      ((w.extractLsb' 24 7).toNat ∈ immediateOpcodes → w[31] = false) := by
  have hrow := decode_row w
  generalize decode w = d at h hrow
  cases hrow with
  | unassigned => cases h
  | mmc ho =>
    unfold decodeMmc at h
    split at h
    · cases h
    · rename_i hi
      rw [Bool.not_eq_true] at hi
      cases h
      have hop : 0x6F#7 = w.extractLsb' 24 7 := BitVec.eq_of_toNat_eq ho.symm
      refine ⟨?_, by rw [ho]; decide, fun _ => hi⟩
      rw [encode, hop, ← hi]
      exact encodeFields_decodeFields w
  | immediate k hk ho =>
    unfold decodeImmediate at h
    split at h
    · cases h
    · rename_i hi
      rw [Bool.not_eq_true] at hi
      cases h
      refine ⟨?_, fun hu => ?_, fun _ => hi⟩
      · rw [hk, BitVec.ofNat_toNat, BitVec.setWidth_eq, encodeImmediate_extract hi]
      · exact (by decide : ∀ o ∈ immediateOpcodes, o ∉ unassignedOpcodes) _ ho hu
  | reference k hk hi hu =>
    cases h
    refine ⟨?_, hu, fun ho => absurd ho hi⟩
    rw [hk, BitVec.ofNat_toNat, BitVec.setWidth_eq]
    exact encodeFields_decodeFields w

/-! ## The codec -/

theorem decode_encode (i : Instr) : decode (encode i) = .ok i := by
  cases i with
  | lcfi r v | ai r v | ci r v | li r v | mi r v | ttbs r v | tbs r v | cbs r v | mbs r v | ebs r v =>
    rw [encode, decode, opcode_immediate]
    exact decodeImmediate_encodeImmediate ..
  | mmc r f z =>
    have hop : (encodeFields ⟨false, 0x6F#7, r, f, z⟩).extractLsb' 24 7 = 0x6F#7 :=
      congrArg Fields.op (decodeFields_encodeFields _)
    rw [encode, decode, hop]
    exact decodeMmc_encodeFields r f z
  | cal1 r a | cal2 r a | cal3 r a | cal4 r a | plw r a | psw r a | plm r a | psm r a | lpsd r a | xpsd r a | ad r a
  | cd r a | ld r a | msp r a | std r a | sd r a | clm r a | lcd r a | lad r a | fsl r a | fal r a | fdl r a
  | fml r a | sf r a | s r a | cvs r a | cva r a | lm r a | stm r a | wait r a | lrp r a | aw r a | cw r a | lw r a
  | mtw r a | stw r a | dw r a | mw r a | sw r a | clr r a | lcw r a | law r a | fss r a | fas r a | fds r a
  | fms r a | anlz r a | cs r a | xw r a | sts r a | eor r a | or r a | ls r a | and r a | sio r a | tio r a
  | tdv r a | hio r a | ah r a | ch r a | lh r a | mth r a | sth r a | dh r a | mh r a | sh r a | lch r a | lah r a
  | bdr r a | bir r a | awm r a | exu r a | bcr r a | bcs r a | bal r a | int r a | rd r a | wd r a | aio r a
  | lcf r a | cb r a | lb r a | mtb r a | stcf r a | stb r a | pack r a | unpk r a | ds r a | da r a | dd r a
  | dm r a | dsa r a | dc r a | dl r a | dst r a =>
    rw [encode, decode, opcode_reference]
    exact decodeReference_encodeReference ..

/-- Settles O37: an instruction by its constructor, a word by the row of its opcode. -/
theorem decodeEncode : Obligations.DecodeEncode :=
  ⟨decode_encode, fun _ _ h => (encode_of_decode h).1⟩

theorem State.executeWord_undecoded {s : State} {w : Word} (h : ∀ i, decode w ≠ .ok i) :
    s.executeWord w = .next (s.raise trapNonexistent) := by
  unfold State.executeWord
  cases hd : decode w with
  | error e => rfl
  | ok i => exact absurd hd (h i)

/-- Of the words of an assigned opcode, only those with I = 1 in a format that forbids it decode to nothing. -/
theorem decode_undecoded {w : Word} (h : ∀ i, decode w ≠ .ok i) :
    (w.extractLsb' 24 7).toNat ∈ unassignedOpcodes ∨ (w.extractLsb' 24 7).toNat ∈ immediateOpcodes ∧ w[31] = true := by
  have hrow := decode_row w
  generalize decode w = d at h hrow
  cases hrow with
  | unassigned ho => exact .inl ho
  | mmc ho =>
    refine .inr ⟨by rw [ho]; decide, ?_⟩
    by_contra hi
    exact h _ (if_neg hi)
  | immediate k hk ho =>
    refine .inr ⟨ho, ?_⟩
    by_contra hi
    exact h _ (if_neg hi)
  | reference k hk hi hu => exact absurd rfl (h _)

/-- Settles O39: the words by `encode_of_decode` and `decode_undecoded`, which go by the row of the opcode. -/
theorem nonexistentInstructions : Obligations.NonexistentInstructions := by
  refine ⟨fun w => ⟨fun h i hi => ?_, decode_undecoded⟩, fun s w h => s.executeWord_undecoded h, fun s r f z hf => ?_⟩
  · obtain ⟨-, hu, hI⟩ := encode_of_decode hi
    rcases h with h | ⟨h, hw⟩
    · exact hu h
    · simp [hI h] at hw
  · show execMmc r f z s = _
    rcases hf with rfl | rfl | rfl | rfl
    all_goals rfl

/-- Settles O40: each word is the encoding of its instruction. -/
theorem decodeWords : Obligations.DecodeWords :=
  ⟨decode_encode (.li 3#4 0xFFFFF#20), decode_encode (.lw 5#4 ⟨true, 2#3, 0x100#17⟩),
    decode_encode (.cal1 5#4 ⟨false, 0#3, 0#17⟩), decode_encode (.mmc 2#4 4#3 0#17), decode_encode (.lcfi 2#4 0x80#20),
    decode_encode (.bcr 3#4 ⟨false, 0#3, 0x200#17⟩), decode_encode (.mtw 0xF#4 ⟨false, 0#3, 0x50#17⟩)⟩

end Sys2Proof.Machine
end

section
/-! The privileged opcodes in slave mode (O36) and the effective addresses (O42). -/

namespace Sys2Proof.Machine

/-! ## Privileged opcodes -/

theorem exec_privileged_slave {s : State} (hm : s.psd.ms = true) (r : RegNum) (a : AddrField) :
    ∀ i ∈ [Instr.lpsd r a, .xpsd r a, .wait r a, .lrp r a, .sio r a, .tio r a, .tdv r a, .hio r a, .rd r a, .wd r a,
      .aio r a], exec i s = .next (s.raise trapPrivileged) := by
  have hk := privileged_slave hm
  simp only [List.forall_mem_cons]
  exact ⟨hk _, hk _, hk _, hk _, hk _, hk _, hk _, hk _, hk _, hk _, hk _, List.forall_mem_nil _⟩

theorem mmcFunctionAssigned_iff {f : BitVec 3} :
    mmcFunctionAssigned f = true ↔ f = 1#3 ∨ f = 2#3 ∨ f = 4#3 ∨ f = 5#3 := by
  simp [mmcFunctionAssigned, or_assoc]

theorem execMmc_slave {s : State} (hm : s.psd.ms = true) {f : BitVec 3} (hf : mmcFunctionAssigned f = true) (r : RegNum)
    (z : BitVec 17) : exec (.mmc r f z) s = .next (s.raise trapPrivileged) :=
  (if_pos hf).trans (privileged_slave hm _)

/-- Settles O36: MMC's function is assigned, and every other one is privileged whatever its operand. -/
theorem privilegedInSlave : Obligations.PrivilegedInSlave := by
  intro s r a f z i hm hf hi
  obtain hi | rfl : i ∈ [Instr.lpsd r a, .xpsd r a, .wait r a, .lrp r a, .sio r a, .tio r a, .tdv r a, .hio r a, .rd r a,
      .wd r a, .aio r a] ∨ i = .mmc r f z := by simpa [or_assoc] using hi
  · exact exec_privileged_slave hm r a i hi
  · exact execMmc_slave hm (mmcFunctionAssigned_iff.2 hf) r z

/-! ## Effective addresses -/

/-- The four effective addresses of a reference `ref`, found in the machine `u` (R136-R139). -/
theorem State.effAddresses_of_ref {s u : State} {a : AddrField} {ref : WordAddr} (h : s.refOf a = .ok ref u) :
    s.effWord a = .ok (ref + (u.index a.x).setWidth 17) u ∧
    s.effHalf a = .ok ((ref ++ 0#1) + (u.index a.x).setWidth 18) u ∧
    s.effByte a = .ok ((ref ++ 0#2) + (u.index a.x).setWidth 19) u ∧
    s.effDouble a = .ok ((ref + (u.index a.x <<< 1).setWidth 17).extractLsb' 1 16) u := by
  unfold State.effWord State.effHalf State.effByte State.effDouble
  rw [h]
  exact ⟨rfl, rfl, rfl, rfl⟩

/-- A trap of the indirect word is the trap of every effective address. -/
theorem State.effAddresses_of_trap {s u : State} {a : AddrField} {x : Trap} (h : s.refOf a = .trap x u) :
    s.effWord a = .trap x u ∧ s.effHalf a = .trap x u ∧ s.effByte a = .trap x u ∧ s.effDouble a = .trap x u := by
  unfold State.effWord State.effHalf State.effByte State.effDouble
  rw [h]
  exact ⟨rfl, rfl, rfl, rfl⟩

theorem State.refOf_direct {s : State} {a : AddrField} (h : a.ind = false) : s.refOf a = .ok a.ref s := by
  simp [State.refOf, h]

theorem State.refOf_indirect {s u : State} {a : AddrField} {w : Word} (h : a.ind = true)
    (hr : s.readWord a.ref .read = .ok w u) : s.refOf a = .ok (w.extractLsb' 0 17) u := by
  simp [State.refOf, h, hr, Res.andThen]

theorem State.refOf_trap {s u : State} {a : AddrField} {x : Trap} (h : a.ind = true)
    (hr : s.readWord a.ref .read = .trap x u) : s.refOf a = .trap x u := by
  simp [State.refOf, h, hr, Res.andThen]

theorem State.index_toNat (s : State) (x : BitVec 3) :
    (s.index x).toNat = if x = 0#3 then 0 else (s.reg (x.setWidth 4)).toNat := by
  unfold State.index
  split <;> rfl

theorem State.OthersOnly.index {s t : State} (h : s.OthersOnly t) (x : BitVec 3) : t.index x = s.index x := by
  unfold State.index
  rw [h.reg]

theorem wordAddress_toNat (ref : WordAddr) (k : Word) :
    (ref + k.setWidth 17).toNat = (ref.toNat + k.toNat) % 2 ^ 17 := by
  simp only [BitVec.toNat_add, BitVec.toNat_setWidth, Nat.add_mod_mod]

theorem halfAddress_toNat (ref : WordAddr) (k : Word) :
    ((ref ++ 0#1) + k.setWidth 18).toNat = (2 * ref.toNat + k.toNat) % 2 ^ 18 := by
  simp only [BitVec.toNat_add, BitVec.toNat_setWidth, Nat.add_mod_mod, toNat_append_eq_add, BitVec.toNat_ofNat]
  omega

theorem byteAddress_toNat (ref : WordAddr) (k : Word) :
    ((ref ++ 0#2) + k.setWidth 19).toNat = (4 * ref.toNat + k.toNat) % 2 ^ 19 := by
  simp only [BitVec.toNat_add, BitVec.toNat_setWidth, Nat.add_mod_mod, toNat_append_eq_add, BitVec.toNat_ofNat]
  omega

theorem doubleAddress_toNat (ref : WordAddr) (k : Word) :
    ((ref + (k <<< 1).setWidth 17).extractLsb' 1 16).toNat = (ref.toNat + 2 * k.toNat) % 2 ^ 17 / 2 := by
  have hk := k.isLt
  simp only [BitVec.extractLsb'_toNat, BitVec.toNat_add, BitVec.toNat_setWidth, BitVec.toNat_shiftLeft,
    Nat.shiftLeft_eq, Nat.shiftRight_eq_div_pow]
  omega

/-- Settles O42: the reference by its indirection, then each address as a number. -/
theorem effectiveAddresses : Obligations.EffectiveAddresses := by
  refine ⟨?address, fun s a x u hi hr => State.effAddresses_of_trap (State.refOf_trap hi hr)⟩
  intro s a ref k u href hk
  have hr : s.refOf a = .ok ref u := by
    obtain ⟨hi, rfl, rfl⟩ | ⟨hi, w, hr, rfl⟩ := href
    · exact State.refOf_direct hi
    · exact State.refOf_indirect hi hr
  obtain rfl : k = (u.index a.x).toNat := by rw [hk, (State.refOf_othersOnly hr).index, State.index_toNat]
  obtain ⟨hw, hh, hb, hd⟩ := State.effAddresses_of_ref hr
  exact ⟨⟨_, hw, wordAddress_toNat ..⟩, ⟨_, hh, halfAddress_toNat ..⟩, ⟨_, hb, byteAddress_toNat ..⟩,
    ⟨_, hd, doubleAddress_toNat ..⟩⟩

end Sys2Proof.Machine
end

section
/-! The floating-point instructions (O21) and the floating shift (O23). A result is written to a register or a pair and leaves
the frame `State.Writes`; the shift of a word is followed from `FloatShiftsTo` to the model's `shiftFloat`. -/

namespace Sys2Proof.Machine

/-! ## Frames of a result -/

theorem State.Writes.raise {s t : State} {l : List RegNum} {cc : BitVec 4} {tp : Option TrapData} (h : s.Writes t l cc tp)
    (x : Trap) : s.Writes (t.raise x) l cc (some ⟨x.vector, x.cc, false⟩) := by
  obtain ⟨hregs, hmem, hcc, -, hrest⟩ := h
  refine ⟨hregs, hmem, hcc, rfl, ?_⟩
  unfold State.RestKept at *
  unfold State.raise
  rw [hrest]

theorem State.Writes.mono {s t : State} {l m : List RegNum} {cc : BitVec 4} {tp : Option TrapData} (h : s.Writes t l cc tp)
    (hlm : l ⊆ m) : s.Writes t m cc tp :=
  h.imp_left fun hregs b i hi => hregs b i fun hb hl => hi hb (hlm hl)

theorem State.writes_setReg_setCC (s : State) (r : RegNum) (v : Word) (c : BitVec 4) :
    s.Writes ((s.setReg r v).setCC c) [r] c s.trapPending :=
  ⟨s.regsKept_setReg r v, fun _ => rfl, rfl, rfl, rfl⟩

theorem State.writes_setPair_setCC (s : State) (r : RegNum) (d : Double) (c : BitVec 4) :
    s.Writes ((s.setPair r d).setCC c) [r, ru1 r] c s.trapPending :=
  ⟨s.regsKept_setPair r d, fun _ => rfl, rfl, rfl, rfl⟩

/-- What a register pair holds after a doubleword is written to it (R33). -/
theorem State.setPair_holds (s : State) (r : RegNum) (d : Double) (c : BitVec 4) :
    (r[0] = false → ((s.setPair r d).setCC c).reg r = d.extractLsb' 32 32) ∧
    ((s.setPair r d).setCC c).reg (ru1 r) = d.extractLsb' 0 32 := by
  simp only [State.reg_setCC, State.reg_setPair]
  refine ⟨fun h => ?_, if_pos trivial⟩
  rw [if_neg (ru1_even h).2.symm, if_pos trivial]

/-- A floating fault, or an SF out of range, leaves all but CC1, CC2 and the free value drawn. -/
theorem State.writes_shiftOutOfRange (s : State) : ∃ c1 c2 : Bool,
    s.Writes { s.shiftOutOfRange with freeCount := s.freeCount } [] (ccOf c1 c2 (cc34 s.psd.cc)) s.trapPending :=
  ⟨_, _, s.regsKept_refl [], fun _ => rfl, rfl, rfl, rfl⟩

theorem State.writes_floatFault (s : State) : ∃ c1 c2 : Bool,
    s.Writes { s.floatFault with freeCount := s.freeCount } [] (ccOf c1 c2 (cc34 s.psd.cc)) (some ⟨0x44, 0#4, false⟩) :=
  ⟨_, _, s.regsKept_refl [], fun _ => rfl, rfl, rfl, rfl⟩

/-! ## `FLOAT_ARITH` of a configuration -/

/-- The `FLOAT_ARITH` a number names: whether it rounds an inexact result up, and the word it proposes with FN = 1. -/
def floatInstance (k : Nat) (op : FloatOp) (n : Nat) (x y : BitVec n) (fs fz fn : Bool) : Bool × Option (BitVec n) :=
  if k = 0 then (false, none)
  else (Config.floatRoundsUp k op n x y fs fz fn, some (Config.floatUnnormalized k op n x y fs fz))

theorem floatInstance_reference (op : FloatOp) (n : Nat) (x y : BitVec n) (fs fz fn : Bool) :
    floatInstance 0 op n x y fs fz fn = (false, none) := rfl

theorem State.floatArithOf_eq (s : State) (op : FloatOp) {n : Nat} (x y : BitVec n) {f : Bool × Option (BitVec n)}
    (hf : f = floatInstance s.config.floatInstance op n x y s.psd.fs s.psd.fz s.psd.fn) :
    s.floatArithOf op x y = floatArith op x y s.psd.fs s.psd.fz s.psd.fn f.1 f.2 := by
  subst hf
  unfold State.floatArithOf floatInstance
  dsimp only
  split <;> rfl

/-! ## The eight instructions -/

theorem floatShort_operand {s u : State} {r : RegNum} {a : AddrField} {w : Word} (ho : s.config.floatOption = true)
    (h : s.WordOperand a w u) (op : FloatOp) :
    floatShort op r a s = .next (u.applyShort r (u.floatArithOf op (u.reg r) w)) := by
  rw [floatShort, needsFloat_present ho, withWord_operand h]

theorem floatLong_operand {s u : State} {r : RegNum} {a : AddrField} {d : Double} (ho : s.config.floatOption = true)
    (h : s.DoubleOperand a d u) (op : FloatOp) :
    floatLong op r a s = .next (u.applyLong r (u.floatArithOf op (u.reg r ++ u.reg (ru1 r)) d)) := by
  rw [floatLong, needsFloat_present ho, withDouble_operand h]
  rfl

/-- R395 for a short destination: each outcome and its frame. -/
theorem State.applyShort_spec (u : State) (r : RegNum) (res : FloatResult 32) :
    (∀ v, res = .ok v → (u.applyShort r res).reg r = v ∧
      u.Writes (u.applyShort r res) [r] (ccOf false false (ccSign v)) u.trapPending) ∧
    (∀ v, res = .sig v → (u.applyShort r res).reg r = v ∧
      u.Writes (u.applyShort r res) [r] (ccOf false false (ccSign v)) (some ⟨0x44, 0#4, false⟩)) ∧
    (res = .overflow ∨ res = .underflow ∨ res = .divzero → ∃ c1 c2 : Bool,
      u.Writes { u.applyShort r res with freeCount := u.freeCount } [] (ccOf c1 c2 (cc34 u.psd.cc))
        (some ⟨0x44, 0#4, false⟩)) := by
  refine ⟨?ok, ?sig, ?fault⟩
  case ok =>
    rintro v rfl
    exact ⟨u.reg_setReg_same r v, u.writes_setReg_setCC r v _⟩
  case sig =>
    rintro v rfl
    exact ⟨u.reg_setReg_same r v, (u.writes_setReg_setCC r v _).raise trapFloating⟩
  case fault =>
    rintro (rfl | rfl | rfl)
    all_goals exact u.writes_floatFault

/-- R395 for a long destination. -/
theorem State.applyLong_spec (u : State) (r : RegNum) (res : FloatResult 64) :
    (∀ v, res = .ok v →
      (r[0] = false → (u.applyLong r res).reg r = v.extractLsb' 32 32) ∧
      (u.applyLong r res).reg (ru1 r) = v.extractLsb' 0 32 ∧
      u.Writes (u.applyLong r res) [r, ru1 r] (ccOf false false (ccSign v)) u.trapPending) ∧
    (∀ v, res = .sig v →
      (r[0] = false → (u.applyLong r res).reg r = v.extractLsb' 32 32) ∧
      (u.applyLong r res).reg (ru1 r) = v.extractLsb' 0 32 ∧
      u.Writes (u.applyLong r res) [r, ru1 r] (ccOf false false (ccSign v)) (some ⟨0x44, 0#4, false⟩)) ∧
    (res = .overflow ∨ res = .underflow ∨ res = .divzero → ∃ c1 c2 : Bool,
      u.Writes { u.applyLong r res with freeCount := u.freeCount } [] (ccOf c1 c2 (cc34 u.psd.cc))
        (some ⟨0x44, 0#4, false⟩)) := by
  refine ⟨?ok, ?sig, ?fault⟩
  case ok =>
    rintro v rfl
    obtain ⟨hhigh, hlow⟩ := u.setPair_holds r v (ccOf false false (ccSign v))
    exact ⟨hhigh, hlow, u.writes_setPair_setCC r v _⟩
  case sig =>
    rintro v rfl
    obtain ⟨hhigh, hlow⟩ := u.setPair_holds r v (ccOf false false (ccSign v))
    exact ⟨hhigh, hlow, (u.writes_setPair_setCC r v _).raise trapFloating⟩
  case fault =>
    rintro (rfl | rfl | rfl)
    all_goals exact u.writes_floatFault

theorem exec_float_absent {s : State} (ho : s.config.floatOption = false) (r : RegNum) (a : AddrField) :
    ∀ i ∈ [Instr.fas r a, .fss r a, .fms r a, .fds r a, .fal r a, .fsl r a, .fml r a, .fdl r a, .sf r a],
      exec i s = .next (s.raise trapUnimplemented) := by
  have hk := needsFloat_absent ho
  simp only [List.forall_mem_cons]
  exact ⟨hk _, hk _, hk _, hk _, hk _, hk _, hk _, hk _, hk _, List.forall_mem_nil _⟩

theorem exec_floatShort {s : State} {r : RegNum} {a : AddrField} {i : Instr} {op : FloatOp}
    (h : (i, op) ∈ [(Instr.fas r a, FloatOp.add), (.fss r a, .sub), (.fms r a, .mul), (.fds r a, .div)]) :
    exec i s = floatShort op r a s := by
  simp only [List.mem_cons, Prod.mk.injEq, List.not_mem_nil, or_false] at h
  obtain ⟨rfl, rfl⟩ | ⟨rfl, rfl⟩ | ⟨rfl, rfl⟩ | ⟨rfl, rfl⟩ := h
  all_goals rfl

theorem exec_floatLong {s : State} {r : RegNum} {a : AddrField} {i : Instr} {op : FloatOp}
    (h : (i, op) ∈ [(Instr.fal r a, FloatOp.add), (.fsl r a, .sub), (.fml r a, .mul), (.fdl r a, .div)]) :
    exec i s = floatLong op r a s := by
  simp only [List.mem_cons, Prod.mk.injEq, List.not_mem_nil, or_false] at h
  obtain ⟨rfl, rfl⟩ | ⟨rfl, rfl⟩ | ⟨rfl, rfl⟩ | ⟨rfl, rfl⟩ := h
  all_goals rfl

/-- Settles O21: `F` is `floatInstance`, and `State.applyShort_spec` and `State.applyLong_spec` say what becomes of a result. -/
theorem floatInstructions : Obligations.FloatInstructions := by
  refine ⟨⟨floatInstance, floatInstance_reference, ?short, ?long⟩, ?absent⟩
  case short =>
    rintro s r a w u i op f res ho hw hi hf rfl
    rw [← hw.othersOnly.config] at hf
    exact ⟨_, (exec_floatShort hi).trans (floatShort_operand ho hw op),
      u.floatArithOf_eq op _ w hf ▸ u.applyShort_spec r (u.floatArithOf op (u.reg r) w)⟩
  case long =>
    rintro s r a d u i op f res ho hd hi hf rfl
    rw [← hd.othersOnly.config] at hf
    exact ⟨_, (exec_floatLong hi).trans (floatLong_operand ho hd op),
      u.floatArithOf_eq op _ d hf ▸ u.applyLong_spec r (u.floatArithOf op (u.reg r ++ u.reg (ru1 r)) d)⟩
  case absent =>
    exact fun s r a i ho hi => exec_float_absent ho r a i (List.mem_append_left [Instr.sf r a] hi)

/-! ## The floating shift -/

theorem pow16_eq (k : Nat) : pow16 k = 16 ^ k := by
  rw [pow16, Nat.shiftLeft_eq, Nat.one_mul, Nat.pow_mul]

/-- The left shift stops after k digits: because no more are asked for, or because the first digit is not 0. -/
theorem shiftFractionLeft_eq {n k N : Nat} {c : Int} {f : Nat} (hk : k ≤ N)
    (hend : k = N ∨ 16 ^ (fracDigits n - 1) ≤ f * 16 ^ k)
    (hbefore : ∀ j, j < k → f * 16 ^ j < 16 ^ (fracDigits n - 1)) :
    shiftFractionLeft n N c f = (c - k, f * 16 ^ k) := by
  induction k generalizing N c f with
  | zero =>
    cases N with
    | zero => simp [shiftFractionLeft]
    | succ N =>
      have hf : ¬f < pow16 (fracDigits n - 1) := by rw [pow16_eq]; simpa using hend
      simp [shiftFractionLeft, hf]
  | succ k ih =>
    obtain ⟨N, rfl⟩ : ∃ M, N = M + 1 := ⟨N - 1, by omega⟩
    have hf : f < pow16 (fracDigits n - 1) := by rw [pow16_eq]; simpa using hbefore 0 (by omega)
    have hpow (j : Nat) : f * 16 * 16 ^ j = f * 16 ^ (j + 1) := by rw [Nat.pow_succ]; ring
    rw [shiftFractionLeft, if_pos hf, ih (by omega) ?_ fun j hj => ?_]
    · rw [hpow]
      congr 1
      push_cast
      ring
    · rw [hpow]
      exact hend.imp_left (by omega)
    · rw [hpow]
      exact hbefore (j + 1) (by omega)

/-- `FloatShiftsTo` names the characteristic and the fraction `shiftFloat` computes. -/
theorem FloatShiftsTo.shifted {n : Nat} {count c : Int} {v : BitVec n} {f : Nat} (h : FloatShiftsTo count v c f) :
    (if 0 < count then shiftFractionLeft n count.natAbs (characteristic v) (fraction v)
      else ((characteristic v : Int) + count.natAbs, fraction v / pow16 count.natAbs)) = (c, f) := by
  unfold FloatShiftsTo at h
  split
  · rename_i hc
    rw [if_pos hc] at h
    obtain ⟨k, hk, rfl, rfl, hend, hbefore⟩ := h
    exact shiftFractionLeft_eq (by omega) (hend.imp_left (by omega)) hbefore
  · rename_i hc
    rw [if_neg hc] at h
    obtain ⟨rfl, rfl⟩ := h
    rw [pow16_eq]

theorem shiftFloat_in_range {n : Nat} {count c : Int} {v : BitVec n} {f : Nat} (hv : v ≠ 0)
    (h : FloatShiftsTo count v c f) (hc : 0 ≤ c ∧ c ≤ 127) :
    shiftFloat count v = .word (if count < 0 ∧ f = 0 then 0
      else if v.toInt < 0 then 0 - BitVec.ofNat n (c.toNat * 2 ^ (n - 8) + f)
      else BitVec.ofNat n (c.toNat * 2 ^ (n - 8) + f)) := by
  rw [shiftFloat, if_neg hv, h.shifted]
  dsimp only
  rw [if_neg (by omega)]
  split
  · rfl
  · simp only [floatWord, BitVec.msb_eq_toInt, decide_eq_true_eq, BitVec.ofNat_eq_ofNat, BitVec.zero_sub]

theorem shiftFloat_out_of_range {n : Nat} {count c : Int} {v : BitVec n} {f : Nat} (hv : v ≠ 0)
    (h : FloatShiftsTo count v c f) (hc : c < 0 ∨ 127 < c) : shiftFloat count v = .outOfRange := by
  rw [shiftFloat, if_neg hv, h.shifted]
  exact if_pos hc

theorem shiftFloatOr_ne {n : Nat} {count : Int} {v : BitVec n} (hv : v ≠ BitVec.intMin n) (o : Option (BitVec n)) :
    shiftFloatOr count v o = shiftFloat count v := if_neg hv

/-- The word with only the sign bit set: a word, its own by the count 0, or out of range (R391). -/
theorem shiftFloatOr_intMin {n : Nat} {v : BitVec n} (hv : v = BitVec.intMin n) (count : Int) (o : Option (BitVec n)) :
    (∃ w, shiftFloatOr count v o = .word w ∧ (count = 0 → w = v)) ∨ shiftFloatOr count v o = .outOfRange := by
  cases o with
  | none => exact .inr (if_pos hv)
  | some w => exact .inl ⟨_, if_pos hv, fun h => if_pos h⟩

section
variable {s u : State} {r : RegNum} {a : AddrField} {ea : WordAddr}

theorem execSf_short (ho : s.config.floatOption = true) (he : s.effWord a = .ok ea u) (h8 : ea[8] = false) :
    (∀ w, shiftFloatOr (shiftCount ea) (u.reg r) (Config.signOnlyShiftShort (shiftCount ea)) = .word w →
      exec (.sf r a) s = .next ((u.setReg r w).setCC (ccOf false false (ccSign w)))) ∧
    (shiftFloatOr (shiftCount ea) (u.reg r) (Config.signOnlyShiftShort (shiftCount ea)) = .outOfRange →
      exec (.sf r a) s = .next u.shiftOutOfRange) := by
  have hexec : exec (.sf r a) s = execSf r a s := rfl
  rw [hexec, execSf, needsFloat_present ho, he, orTrap_ok, h8, if_neg Bool.false_ne_true]
  exact ⟨fun w h => by rw [h]; rfl, fun h => by rw [h]⟩

theorem execSf_long (ho : s.config.floatOption = true) (he : s.effWord a = .ok ea u) (h8 : ea[8] = true) :
    (∀ w, shiftFloatOr (shiftCount ea) (u.pair r) (Config.signOnlyShiftLong (shiftCount ea)) = .word w →
      exec (.sf r a) s = .next ((u.setPair r w).setCC (ccOf false false (ccSign w)))) ∧
    (shiftFloatOr (shiftCount ea) (u.pair r) (Config.signOnlyShiftLong (shiftCount ea)) = .outOfRange →
      exec (.sf r a) s = .next u.shiftOutOfRange) := by
  have hexec : exec (.sf r a) s = execSf r a s := rfl
  rw [hexec, execSf, needsFloat_present ho, he, orTrap_ok, h8, if_pos rfl]
  exact ⟨fun w h => by rw [h]; rfl, fun h => by rw [h]⟩

end

/-- Writing to a register what it holds changes no register. -/
theorem State.blockReg_setReg_reg (s : State) (r : RegNum) (b j : BitVec 4) :
    (s.setReg r (s.reg r)).blockReg b j = s.blockReg b j := by
  rw [State.blockReg_setReg]
  split
  · rename_i h; obtain ⟨rfl, rfl⟩ := h; rfl
  · rfl

/-- Writing to a pair what it holds changes no register. -/
theorem State.blockReg_setPair_pair (s : State) (r : RegNum) (b j : BitVec 4) :
    (s.setPair r (s.pair r)).blockReg b j = s.blockReg b j := by
  rw [State.blockReg_setPair, State.pair, extract_append_low, extract_append_high]
  split
  · rename_i h; obtain ⟨rfl, rfl⟩ := h; rfl
  · split
    · rename_i h; obtain ⟨rfl, rfl⟩ := h; rfl
    · rfl

/-- Settles O23: the count and the operand decide what `shiftFloatOr` makes of it; `execSf_short` and `execSf_long` say what
becomes of that. -/
theorem shiftFloating : Obligations.ShiftFloating := by
  refine ⟨fun s r a ho => exec_float_absent ho r a _ (by simp), ?short, ?long⟩
  case short =>
    rintro s r a ea _ v u ho he h8 rfl hv
    obtain ⟨hword, hout⟩ := execSf_short (r := r) ho he h8
    obtain rfl : v = u.reg r := hv
    refine ⟨?signOnly, ?zero, fun c f h0 h1 hs => ⟨fun hc => ?inRange, fun hc => ?outOfRange⟩⟩
    case signOnly =>
      intro hm
      obtain ⟨w, hw, hw0⟩ | hx := shiftFloatOr_intMin hm (shiftCount ea) (Config.signOnlyShiftShort (shiftCount ea))
      · exact ⟨_, _, hword w hw, fun h => (u.reg_setReg_same r w).trans (hw0 h), u.writes_setReg_setCC r w _⟩
      · obtain ⟨c1, c2, hkept⟩ := u.writes_shiftOutOfRange
        exact ⟨_, _, hout hx, fun _ => rfl, hkept.mono (List.nil_subset _)⟩
    case zero =>
      intro h0
      have hz := hword 0 (by rw [h0]; rfl)
      refine ⟨_, hz, ?_, fun _ => rfl, rfl, rfl, rfl⟩
      have hkept : u.RegsKept (u.setReg r (u.reg r)) [] := fun b j _ => u.blockReg_setReg_reg r b j
      rwa [h0] at hkept
    case inRange =>
      have hw := hword _ ((shiftFloatOr_ne h1 _).trans (shiftFloat_in_range h0 hs hc))
      refine ⟨_, hw, u.reg_setReg_same r _, ?_⟩
      rw [State.reg_setCC, State.reg_setReg_same]
      exact u.writes_setReg_setCC r _ _
    case outOfRange =>
      obtain ⟨c1, c2, hkept⟩ := u.writes_shiftOutOfRange
      exact ⟨_, c1, c2, hout ((shiftFloatOr_ne h1 _).trans (shiftFloat_out_of_range h0 hs hc)), hkept⟩
  case long =>
    rintro s r a ea _ v u ho he h8 rfl hv
    obtain ⟨hword, hout⟩ := execSf_long (r := r) ho he h8
    obtain rfl : v = u.pair r := hv
    refine ⟨?signOnly, ?zero, fun c f h0 h1 hs => ⟨fun hc => ?inRange, fun hc => ?outOfRange⟩⟩
    case signOnly =>
      intro hm
      obtain ⟨w, hw, hw0⟩ | hx := shiftFloatOr_intMin hm (shiftCount ea) (Config.signOnlyShiftLong (shiftCount ea))
      · refine ⟨_, _, hword w hw, fun h => ?_, u.writes_setPair_setCC r w _⟩
        rw [hw0 h]
        exact ⟨u.blockReg_setPair_pair r _ _, u.blockReg_setPair_pair r _ _⟩
      · obtain ⟨c1, c2, hkept⟩ := u.writes_shiftOutOfRange
        exact ⟨_, _, hout hx, fun _ => ⟨rfl, rfl⟩, hkept.mono (List.nil_subset _)⟩
    case zero =>
      intro h0
      have hz := hword 0 (by rw [h0]; rfl)
      refine ⟨_, hz, ?_, fun _ => rfl, rfl, rfl, rfl⟩
      have hkept : u.RegsKept (u.setPair r (u.pair r)) [] := fun b j _ => u.blockReg_setPair_pair r b j
      rwa [h0] at hkept
    case inRange =>
      have hw := hword _ ((shiftFloatOr_ne h1 _).trans (shiftFloat_in_range h0 hs hc))
      obtain ⟨hhigh, hlow⟩ := u.setPair_holds r _ _
      exact ⟨_, _, hw, rfl, hhigh, hlow, u.writes_setPair_setCC r _ _⟩
    case outOfRange =>
      obtain ⟨c1, c2, hkept⟩ := u.writes_shiftOutOfRange
      exact ⟨_, c1, c2, hout ((shiftFloatOr_ne h1 _).trans (shiftFloat_out_of_range h0 hs hc)), hkept⟩

end Sys2Proof.Machine
end

section
/-! The text form of instructions (O41). A text is read through its two fields: the operation, whose mnemonic and register are
read back one by one, and the operand text, of which `OperandText` says which word it assembles to. -/

namespace Sys2Proof.Machine

/-! ## Fields of a line -/

theorem splitAtChar_of_not_mem {sep : Char} {t : Text} (h : sep ∉ t) : splitAtChar sep t = [t] := by
  induction t with
  | nil => rfl
  | cons c t ih =>
    rw [List.mem_cons, not_or] at h
    rw [splitAtChar, if_neg (Ne.symm h.1), ih h.2]

theorem splitAtChar_append {sep : Char} {t : Text} (h : sep ∉ t) (u : Text) :
    splitAtChar sep (t ++ sep :: u) = t :: splitAtChar sep u := by
  induction t with
  | nil => exact if_pos rfl
  | cons c t ih =>
    rw [List.mem_cons, not_or] at h
    rw [List.cons_append, splitAtChar, if_neg (Ne.symm h.1), ih h.2]

/-- A text that is one field of a line: not empty, and without a blank. -/
def IsField (t : Text) : Prop := t ≠ [] ∧ ' ' ∉ t

theorem textFields_blanks (n : Nat) (t : Text) : textFields (List.replicate n ' ' ++ t) = textFields t := by
  induction n with
  | zero => rfl
  | succ n ih => exact ih

theorem textFields_last {t : Text} (h : IsField t) : textFields t = [t] := by
  rw [textFields, splitAtChar_of_not_mem h.2]
  simp [h.1]

theorem textFields_cons {t : Text} (h : IsField t) (u : Text) : textFields (t ++ ' ' :: u) = t :: textFields u := by
  rw [textFields, splitAtChar_append h.2, List.filter_cons_of_pos (by simp [h.1])]
  rfl

theorem textFields_padded {t : Text} (h : IsField t) (width : Nat) : textFields (padText width t) = [t] := by
  unfold padText
  cases width - t.length with
  | zero => rw [List.replicate_zero, List.append_nil, textFields_last h]
  | succ n =>
    rw [List.replicate_succ, textFields_cons h, ← List.append_nil (List.replicate n ' '), textFields_blanks]
    rfl

theorem textFields_columns {f arg : Text} (hf : IsField f) (ha : IsField arg) {column : Nat} (hc : f.length < column)
    (width : Nat) : textFields (padText column f ++ padText width arg) = [f, arg] := by
  obtain ⟨n, hn⟩ : ∃ n, column - f.length = n + 1 := ⟨column - f.length - 1, by omega⟩
  rw [padText, hn, List.replicate_succ, List.append_assoc, List.cons_append, textFields_cons hf, textFields_blanks,
    textFields_padded ha]

theorem length_padText {width : Nat} {t : Text} (h : t.length ≤ width) : (padText width t).length = width := by
  rw [padText, List.length_append, List.length_replicate]
  omega

/-! ## The operation -/

theorem isLabel_of_comma {f : Text} (h : ',' ∈ f) : isLabel f = false := by
  rw [isLabel, Bool.and_eq_false_iff]
  right
  rw [List.all_eq_false]
  exact ⟨',', h, by decide⟩

/-- A line whose operation has a register is read by its operation and operand: the operation is no label. -/
theorem parse_of_comma {t f arg : Text} (h : textFields t = [f, arg]) (hf : ',' ∈ f) : parse t = parseOperation f arg := by
  rw [parse, h]
  dsimp only [parseInstruction]
  rw [isLabel_of_comma hf]
  cases parseOperation f arg <;> rfl

theorem parseOperation_register {m reg : Text} (hm : ',' ∉ m) (hr : ',' ∉ reg) {op : BitVec 7} {r : RegNum}
    (ho : opcodeOf m = some op) (hreg : parseRegister (textForm op) reg = some r) (arg : Text) :
    parseOperation (m ++ ',' :: reg) arg = assemble op r arg := by
  rw [parseOperation, splitAtChar_append hm, splitAtChar_of_not_mem hr]
  dsimp only
  rw [ho, Option.bind_some, hreg, Option.bind_some]

theorem parseOperation_branch {m : Text} (hm : ',' ∉ m) {op : BitVec 7} {r : RegNum} (ho : opcodeOf m = none)
    (hb : branchTable.find? (fun e => e.1 == m) = some (m, op, r)) (arg : Text) :
    parseOperation m arg = assemble op r arg := by
  rw [parseOperation, splitAtChar_of_not_mem hm]
  dsimp only
  rw [ho, hb]
  rfl

theorem mnemonicOf_assigned {op : BitVec 7} (h : op.toNat ∉ unassignedOpcodes) :
    opcodeOf (mnemonicOf op) = some op ∧ (mnemonicOf op).length ≤ 4 ∧ ' ' ∉ mnemonicOf op ∧ ',' ∉ mnemonicOf op := by
  revert op; decide

theorem parseRegister_registerText (form : TextForm) (r : RegNum) :
    parseRegister form (registerText form r) = some r ∧ (registerText form r).length ≤ 2 ∧
      ' ' ∉ registerText form r ∧ ',' ∉ registerText form r := by
  cases form <;> revert r <;> decide

/-! ## Numbers -/

theorem digitOf_digitChar (d : BitVec 4) : digitOf (digitChar d.toNat) = some d.toNat := by revert d; decide

theorem digitChar_ne (d : BitVec 4) : digitChar d.toNat ≠ ' ' ∧ digitChar d.toNat ≠ ',' := by revert d; decide

theorem digitsOf_digitChar (d : BitVec 4) (t : Text) (n : Nat) :
    digitsOf 16 (digitChar d.toNat :: t) n = digitsOf 16 t (16 * n + d.toNat) := by
  rw [digitsOf, digitOf_digitChar]
  exact if_pos d.isLt

/-- The digits of a hexadecimal constant of five. -/
def hexDigitsText (v : BitVec 20) : Text := [16, 12, 8, 4, 0].map fun k => digitChar (v.extractLsb' k 4).toNat

theorem digitsOf_hexDigitsText (v : BitVec 20) : digitsOf 16 (hexDigitsText v) 0 = some v.toNat := by
  have hv := v.isLt
  simp only [hexDigitsText, List.map_cons, List.map_nil]
  rw [digitsOf_digitChar, digitsOf_digitChar, digitsOf_digitChar, digitsOf_digitChar, digitsOf_digitChar, digitsOf]
  simp only [BitVec.extractLsb'_toNat, Nat.shiftRight_eq_div_pow, Option.some.injEq]
  omega

theorem hexDigitsText_plain (v : BitVec 20) : ' ' ∉ hexDigitsText v ∧ ',' ∉ hexDigitsText v := by
  refine ⟨fun h => ?_, fun h => ?_⟩
  all_goals obtain ⟨k, -, hk⟩ := List.mem_map.1 h
  · exact (digitChar_ne _).1 hk
  · exact (digitChar_ne _).2 hk

theorem hexText_eq (v : BitVec 20) : hexText v = 'X' :: quoteChar :: (hexDigitsText v ++ [quoteChar]) := rfl

theorem hexText_plain (v : BitVec 20) : ' ' ∉ hexText v ∧ ',' ∉ hexText v := by
  have hquote : (' ' : Char) ≠ quoteChar ∧ (',' : Char) ≠ quoteChar := by decide
  simp [hexText_eq, hexDigitsText_plain, hquote]

theorem unsignedOf_hexText (v : BitVec 20) : unsignedOf (hexText v) = some v.toNat := by
  rw [hexText_eq, unsignedOf, if_pos ⟨rfl, rfl⟩, if_pos ⟨by simp [hexDigitsText], List.getLast?_concat ..⟩,
    List.dropLast_concat]
  exact digitsOf_hexDigitsText v

theorem numberOf_hexText (v : BitVec 20) : numberOf (hexText v) = some (v.toNat : Int) := by
  have hX : ('X' : Char) ≠ '-' := by decide
  rw [hexText_eq, numberOf, if_neg hX, ← hexText_eq, unsignedOf_hexText]
  rfl

theorem numberIn_hexText {lo hi : Int} {v : BitVec 20} (hlo : lo ≤ 0) (hhi : (v.toNat : Int) ≤ hi) :
    numberIn lo hi (hexText v) = some (v.toNat : Int) := by
  rw [numberIn, numberOf_hexText, Option.filter_some, if_pos]
  exact decide_eq_true ⟨by omega, hhi⟩

/-! ## The operand -/

theorem numberIn_index (x : BitVec 3) :
    (numberIn 0 7 [digitChar x.toNat]).map (BitVec.ofInt 3) = some x ∧
      digitChar x.toNat ≠ ' ' ∧ digitChar x.toNat ≠ ',' := by
  revert x; decide

theorem numberIn_reference (ref : BitVec 17) :
    (numberIn 0 131071 (hexText (ref.setWidth 20))).map (BitVec.ofInt 17) = some ref := by
  have hlt := ref.isLt
  have hval : (ref.setWidth 20).toNat = ref.toNat := by rw [BitVec.toNat_setWidth]; omega
  rw [numberIn_hexText le_rfl (by omega), Option.map_some, hval]
  simp

theorem numberIn_value (v : BitVec 20) :
    (numberIn (-524288) 1048575 (hexText v)).map (BitVec.ofInt 20) = some v := by
  have hlt := v.isLt
  rw [numberIn_hexText (by decide) (by omega), Option.map_some]
  simp

/-- The mark of an indirect address. -/
def indirectMark (ind : Bool) : Text := if ind then ['*'] else []

theorem indirectMark_read {t : Text} (ht : t.head? ≠ some '*') (ind : Bool) :
    ((indirectMark ind ++ t).head? == some '*') = ind ∧
      (if ind then (indirectMark ind ++ t).tail else indirectMark ind ++ t) = t := by
  cases ind with
  | true => exact ⟨rfl, rfl⟩
  | false => exact ⟨beq_eq_false_iff_ne.2 ht, rfl⟩

theorem parseAddress_direct {t ref : Text} (ht : t.head? ≠ some '*') (hs : splitAtChar ',' t = [ref]) (ind : Bool) :
    parseAddress (indirectMark ind ++ t) =
      (numberIn 0 131071 ref).map fun v => ⟨ind, 0#3, BitVec.ofInt 17 v⟩ := by
  obtain ⟨hhead, htail⟩ := indirectMark_read ht ind
  rw [parseAddress, hhead, htail, hs]

theorem parseAddress_indexed {t ref x : Text} (ht : t.head? ≠ some '*') (hs : splitAtChar ',' t = [ref, x]) (ind : Bool) :
    parseAddress (indirectMark ind ++ t) =
      (numberIn 0 131071 ref).bind fun v => (numberIn 0 7 x).map fun x => ⟨ind, BitVec.ofInt 3 x, BitVec.ofInt 17 v⟩ := by
  obtain ⟨hhead, htail⟩ := indirectMark_read ht ind
  rw [parseAddress, hhead, htail, hs]

theorem hexText_head (v : BitVec 20) (t : Text) : (hexText v ++ t).head? ≠ some '*' :=
  (by decide : some 'X' ≠ some '*')

theorem parseAddress_addressText (f : Fields) : parseAddress (addressText f) = some ⟨f.ind, f.x, f.ref⟩ := by
  obtain ⟨ind, op, r, x, ref⟩ := f
  obtain ⟨v, hv, href⟩ := Option.map_eq_some_iff.1 (numberIn_reference ref)
  have hcomma := (hexText_plain (ref.setWidth 20)).2
  show parseAddress (indirectMark ind ++ hexText (ref.setWidth 20) ++ _) = _
  rw [List.append_assoc]
  by_cases hx : x = 0#3
  · have hs : splitAtChar ',' (hexText (ref.setWidth 20) ++ []) = [hexText (ref.setWidth 20)] := by
      rw [List.append_nil, splitAtChar_of_not_mem hcomma]
    rw [if_pos hx, parseAddress_direct (hexText_head _ _) hs, hv, Option.map_some, href, hx]
  · obtain ⟨hindex, -, hxcomma⟩ := numberIn_index x
    obtain ⟨y, hy, rfl⟩ := Option.map_eq_some_iff.1 hindex
    have hs : splitAtChar ',' (hexText (ref.setWidth 20) ++ [',', digitChar (BitVec.ofInt 3 y).toNat]) =
        [hexText (ref.setWidth 20), [digitChar (BitVec.ofInt 3 y).toNat]] := by
      rw [splitAtChar_append hcomma, splitAtChar_of_not_mem (by simpa using hxcomma.symm)]
    rw [if_neg hx, parseAddress_indexed (hexText_head _ _) hs, hv, Option.bind_some, hy, Option.map_some, href]

theorem addressText_isField (f : Fields) : IsField (addressText f) ∧ (addressText f).length ≤ 11 := by
  have hblank := (hexText_plain (f.ref.setWidth 20)).1
  have hx := (numberIn_index f.x).2.1
  have hlen : (hexText (f.ref.setWidth 20)).length = 8 := rfl
  unfold addressText
  refine ⟨⟨by simp [hexText_eq], ?_⟩, ?_⟩
  · cases f.ind <;> by_cases h : f.x = 0#3 <;> simp [hblank, h, hx.symm]
  · cases f.ind <;> by_cases h : f.x = 0#3 <;> simp [hlen, h]

theorem hexText_isField (v : BitVec 20) : IsField (hexText v) ∧ (hexText v).length ≤ 11 :=
  ⟨⟨List.cons_ne_nil _ _, (hexText_plain v).1⟩, by simp [hexText_eq, hexDigitsText]⟩

/-! ## What an operation and an operand assemble to -/

theorem assemble_address {op : BitVec 7} (hf : textForm op ≠ .immediate) (r : RegNum) {arg : Text} {a : AddrField}
    (ha : parseAddress arg = some a) : assemble op r arg = (decode (encodeFields ⟨a.ind, op, r, a.x, a.ref⟩)).toOption := by
  unfold assemble
  split
  · rename_i h; exact absurd h hf
  all_goals rw [ha]; rfl

theorem assemble_value {op : BitVec 7} (hf : textForm op = .immediate) (r : RegNum) {arg : Text} {v : BitVec 20}
    (hv : (numberIn (-524288) 1048575 arg).map (BitVec.ofInt 20) = some v) :
    assemble op r arg = (decode (encodeImmediate op r v)).toOption := by
  obtain ⟨n, hn, rfl⟩ := Option.map_eq_some_iff.1 hv
  rw [assemble, hf]
  dsimp only
  rw [hn]
  rfl

theorem immediate_of_textForm {op : BitVec 7} (h : textForm op = .immediate) : op.toNat ∈ immediateOpcodes := by
  revert op; decide

/-- The operand of the word `w` as text. -/
def operandText (w : Word) : Text :=
  if textForm (decodeFields w).op = .immediate then hexText (w.extractLsb' 0 20) else addressText (decodeFields w)

theorem operandText_isField (w : Word) : IsField (operandText w) ∧ (operandText w).length ≤ 11 := by
  unfold operandText
  split
  · exact hexText_isField _
  · exact addressText_isField _

/-- The operand of a word that decodes reads back. -/
theorem assemble_operandText {w : Word} {i : Instr} (h : decode w = .ok i) :
    assemble (decodeFields w).op (decodeFields w).r (operandText w) = some i := by
  obtain ⟨-, -, hI⟩ := encode_of_decode h
  unfold operandText
  split
  · rename_i hf
    have hw := encodeImmediate_extract (hI (immediate_of_textForm hf))
    rw [assemble_value hf _ (numberIn_value _)]
    show (decode (encodeImmediate (w.extractLsb' 24 7) (w.extractLsb' 20 4) (w.extractLsb' 0 20))).toOption = _
    rw [hw, h]
    rfl
  · rename_i hf
    rw [assemble_address hf _ (parseAddress_addressText _)]
    show (decode (encodeFields (decodeFields w))).toOption = _
    rw [encodeFields_decodeFields, h]
    rfl

/-! ## Rendering -/

/-- The operation of the word `w` as text. -/
def operationText (w : Word) : Text :=
  mnemonicOf (decodeFields w).op ++ ',' :: registerText (textForm (decodeFields w).op) (decodeFields w).r

theorem render_eq (i : Instr) : render i =
    padText (8 + Config.addressColumn) (operationText (encode i)) ++
      padText (11 + Config.textWidth) (operandText (encode i)) := by
  unfold render operandText
  dsimp only
  congr 2
  cases textForm (decodeFields (encode i)).op <;> rfl

theorem opcode_encode_assigned (i : Instr) : (decodeFields (encode i)).op.toNat ∉ unassignedOpcodes :=
  (encode_of_decode (decode_encode i)).2.1

theorem operationText_isField {w : Word} (h : (decodeFields w).op.toNat ∉ unassignedOpcodes) :
    IsField (operationText w) ∧ (operationText w).length < 8 := by
  obtain ⟨-, hmlen, hmblank, -⟩ := mnemonicOf_assigned h
  obtain ⟨-, hrlen, hrblank, -⟩ := parseRegister_registerText (textForm (decodeFields w).op) (decodeFields w).r
  unfold operationText
  refine ⟨⟨by simp, by simp [hmblank, hrblank]⟩, ?_⟩
  rw [List.length_append, List.length_cons]
  omega

theorem parse_render (i : Instr) : parse (render i) = some i := by
  have hop := opcode_encode_assigned i
  obtain ⟨ho, -, -, hmcomma⟩ := mnemonicOf_assigned hop
  obtain ⟨hr, -, -, hrcomma⟩ := parseRegister_registerText (textForm (decodeFields (encode i)).op) (decodeFields (encode i)).r
  obtain ⟨hfield, hlen⟩ := operationText_isField hop
  rw [render_eq, parse_of_comma (textFields_columns hfield (operandText_isField _).1 (by omega) _)
    (by simp [operationText]), operationText, parseOperation_register hmcomma hrcomma ho hr]
  exact assemble_operandText (decode_encode i)

theorem length_render (i : Instr) : (render i).length = 8 + Config.addressColumn + (11 + Config.textWidth) := by
  obtain ⟨-, hop⟩ := operationText_isField (opcode_encode_assigned i)
  obtain ⟨-, harg⟩ := operandText_isField (encode i)
  rw [render_eq, List.length_append, length_padText (by omega), length_padText (by omega)]

/-! ## Texts written out -/

/-- A line of an operation with a register and an operand, one blank between them. -/
theorem parse_line {m reg arg : Text} {op : BitVec 7} {r : RegNum} (hm : ' ' ∉ m ∧ ',' ∉ m) (hr : ' ' ∉ reg ∧ ',' ∉ reg)
    (ha : IsField arg) (ho : opcodeOf m = some op) (hreg : parseRegister (textForm op) reg = some r) :
    parse (m ++ ',' :: (reg ++ ' ' :: arg)) = assemble op r arg := by
  have hfields : textFields (m ++ ',' :: (reg ++ ' ' :: arg)) = [m ++ ',' :: reg, arg] := by
    rw [← List.cons_append, ← List.append_assoc, textFields_cons ⟨by simp, by simp [hm, hr]⟩, textFields_last ha]
  rw [parse_of_comma hfields (by simp), parseOperation_register hm.2 hr.2 ho hreg]

/-- A line whose operation and operand make an instruction is that instruction, whatever a label could be. -/
theorem parse_of_some {t f arg : Text} (h : textFields t = [f, arg]) {i : Instr} (hi : parseOperation f arg = some i) :
    parse t = some i := by
  rw [parse, h]
  dsimp only [parseInstruction]
  rw [hi]

theorem decode_branch {op : BitVec 7} (hop : op = 0x68#7 ∨ op = 0x69#7) (r : RegNum) (ref : BitVec 17) :
    ∃ i, decode (encodeFields ⟨false, op, r, 0#3, ref⟩) = .ok i := by
  rcases hop with rfl | rfl
  · exact ⟨_, decode_encode (.bcr r ⟨false, 0#3, ref⟩)⟩
  · exact ⟨_, decode_encode (.bcs r ⟨false, 0#3, ref⟩)⟩

theorem parse_branch {m : Text} {op : BitVec 7} {r : RegNum} (hm : IsField m) (hcomma : ',' ∉ m) (ho : opcodeOf m = none)
    (hb : branchTable.find? (fun e => e.1 == m) = some (m, op, r)) (hop : op = 0x68#7 ∨ op = 0x69#7) (ref : BitVec 17) :
    parse (m ++ ' ' :: hexText (ref.setWidth 20)) = (decode (encodeFields ⟨false, op, r, 0#3, ref⟩)).toOption := by
  have hfields : textFields (m ++ ' ' :: hexText (ref.setWidth 20)) = [m, hexText (ref.setWidth 20)] := by
    rw [textFields_cons hm, textFields_last (hexText_isField _).1]
  have haddress : parseAddress (hexText (ref.setWidth 20)) = some ⟨false, 0#3, ref⟩ :=
    parseAddress_addressText ⟨false, op, r, 0#3, ref⟩
  have hform : textForm op ≠ .immediate := by rcases hop with rfl | rfl <;> decide
  obtain ⟨i, hi⟩ := decode_branch hop r ref
  rw [hi]
  refine parse_of_some hfields ?_
  rw [parseOperation_branch hcomma ho hb, assemble_address hform r haddress, hi]
  rfl

/-- The form of `LW,5 *X'100',2` (R148). -/
theorem parse_reference {m : Text} {op : BitVec 7}
    (h : (' ' ∉ m ∧ ',' ∉ m) ∧ opcodeOf m = some op ∧ textForm op = .reference) :
    parse (m ++ [',', '5', ' ', '*', 'X', quoteChar, '1', '0', '0', quoteChar, ',', '2']) =
      (decode (encodeFields ⟨true, op, 5#4, 2#3, 0x100#17⟩)).toOption := by
  obtain ⟨hm, ho, hf⟩ := h
  have hreg : parseRegister (textForm op) ['5'] = some 5#4 := by rw [hf]; decide
  have harg : IsField ['*', 'X', quoteChar, '1', '0', '0', quoteChar, ',', '2'] := ⟨List.cons_ne_nil _ _, by decide⟩
  refine (parse_line hm (by decide) harg ho hreg).trans ?_
  exact assemble_address (a := ⟨true, 2#3, 0x100#17⟩) (by rw [hf]; decide) _ (by decide)

/-- The form of `LI,3 -1`. -/
theorem parse_immediate {m : Text} {op : BitVec 7}
    (h : (' ' ∉ m ∧ ',' ∉ m) ∧ opcodeOf m = some op ∧ textForm op = .immediate) :
    parse (m ++ [',', '3', ' ', '-', '1']) = (decode (encodeImmediate op 3#4 0xFFFFF#20)).toOption := by
  obtain ⟨hm, ho, hf⟩ := h
  have hreg : parseRegister (textForm op) ['3'] = some 3#4 := by rw [hf]; decide
  have harg : IsField ['-', '1'] := ⟨List.cons_ne_nil _ _, by decide⟩
  exact (parse_line hm (by decide) harg ho hreg).trans (assemble_value hf _ (by decide))

/-- The form of `MTW,-8 7,3`. -/
theorem parse_modify {m : Text} {op : BitVec 7}
    (h : (' ' ∉ m ∧ ',' ∉ m) ∧ opcodeOf m = some op ∧ textForm op = .modify) :
    parse (m ++ [',', '-', '8', ' ', '7', ',', '3']) =
      (decode (encodeFields ⟨false, op, 8#4, 3#3, 7#17⟩)).toOption := by
  obtain ⟨hm, ho, hf⟩ := h
  have hreg : parseRegister (textForm op) ['-', '8'] = some 8#4 := by rw [hf]; decide
  have harg : IsField ['7', ',', '3'] := ⟨List.cons_ne_nil _ _, by decide⟩
  refine (parse_line hm (by decide) harg ho hreg).trans ?_
  exact assemble_address (a := ⟨false, 3#3, 7#17⟩) (by rw [hf]; decide) _ (by decide)

/-- Settles O41: `parse_render` and `length_render` for the instructions; for the mnemonics of R149 and R150 the lemma of their
form, its premise on the mnemonic by evaluation of the tables. -/
theorem codecText : Obligations.CodecText := by
  refine ⟨parse_render, fun i j => (length_render i).trans (length_render j).symm, ?branch, fun e he => parse_reference ?_,
    fun e he => parse_immediate ?_, fun e he => parse_modify ?_,
    by decide, by decide, by decide, by decide, by decide, by decide, by decide, by decide, by decide⟩
  case branch =>
    rintro ⟨m, op, r⟩ he ref
    have hspec : ∀ e ∈ branchTable, e.1 ≠ [] ∧ ' ' ∉ e.1 ∧ ',' ∉ e.1 ∧ opcodeOf e.1 = none ∧
        branchTable.find? (fun d => d.1 == e.1) = some e ∧ (e.2.1 = 0x68#7 ∨ e.2.1 = 0x69#7) := by decide
    obtain ⟨hne, hblank, hcomma, ho, hb, hop⟩ := hspec _ he
    exact parse_branch ⟨hne, hblank⟩ hcomma ho hb hop ref
  all_goals
    revert e
    decide

end Sys2Proof.Machine
end

section
/-! Loads, immediate and operand arithmetic, and compares (O1 to O4, O6). Each of them ends in one of a few results: a register
or a pair written with its condition code, or a condition code alone, and then perhaps the overflow trap. A result is described
once, with its frame `State.Writes`; what is left of an instruction is its value in exact integers. -/

namespace Sys2Proof.Machine

/-! ## Results and their frames -/

theorem State.RestKept.am {s t : State} (h : s.RestKept t) : t.psd.am = s.psd.am := by
  rw [show t = _ from h]

@[simp] theorem State.reg_overflowTrap (s : State) (ov : Bool) (i : RegNum) : (s.overflowTrap ov).reg i = s.reg i := by
  unfold State.overflowTrap
  split <;> rfl

/-- The overflow trap comes after a result that leaves AM alone (R250). -/
theorem State.Writes.overflowTrap {s t : State} {l : List RegNum} {cc : BitVec 4} (h : s.Writes t l cc s.trapPending)
    (ov : Bool) : s.Writes (t.overflowTrap ov) l cc (s.overflowPending ov) := by
  have ham : t.psd.am = s.psd.am := by
    obtain ⟨-, -, -, -, hrest⟩ := h
    exact hrest.am
  unfold State.overflowTrap State.overflowPending
  simp only [Bool.and_eq_true, ham]
  split
  · exact h.raise trapOverflow
  · exact h

theorem State.loadResult_spec (s : State) (r : RegNum) (v : Word) : (s.loadResult r v).reg r = v ∧
    s.Writes (s.loadResult r v) [r] (ccOf (cc1 s.psd.cc) (cc2 s.psd.cc) (ccSign v)) s.trapPending :=
  ⟨s.reg_setReg_same r v, s.writes_setReg_setCC r v _⟩

/-- The same in terms of the exact integer that the word holds. -/
theorem State.loadResult_exact (s : State) (r : RegNum) {v : Word} {i : Int} (hi : v.toInt = i) :
    ((s.loadResult r v).reg r).toInt = i ∧
    s.Writes (s.loadResult r v) [r] (ccOf (cc1 s.psd.cc) (cc2 s.psd.cc) (ccSignInt i)) s.trapPending := by
  obtain ⟨hv, hframe⟩ := s.loadResult_spec r v
  rw [ccSign_eq_ccSignInt, hi] at hframe
  exact ⟨by rw [hv, hi], hframe⟩

theorem State.loadResultOv_spec (s : State) (r : RegNum) (v : Word) (ov : Bool) : (s.loadResultOv r v ov).reg r = v ∧
    s.Writes (s.loadResultOv r v ov) [r] (ccOf (cc1 s.psd.cc) ov (ccSign v)) (s.overflowPending ov) :=
  ⟨(State.reg_overflowTrap ..).trans (s.reg_setReg_same r v), (s.writes_setReg_setCC r v _).overflowTrap ov⟩

theorem State.arithResult_spec (s : State) (r : RegNum) (x : Sum 32) : (s.arithResult r x).reg r = x.value ∧
    s.Writes (s.arithResult r x) [r] (arithCC x) (s.overflowPending x.ov) :=
  ⟨(State.reg_overflowTrap ..).trans (s.reg_setReg_same r _), (s.writes_setReg_setCC r _ _).overflowTrap _⟩

/-- A doubleword result goes to the pair: an odd R ends with the low word (R33). -/
theorem State.pairResult_spec (s : State) (r : RegNum) (v : Double) (c : BitVec 4) :
    (r[0] = false → ((s.setPair r v).setCC c).reg r = v.extractLsb' 32 32) ∧
    ((s.setPair r v).setCC c).reg (ru1 r) = v.extractLsb' 0 32 ∧
    s.Writes ((s.setPair r v).setCC c) [r, ru1 r] c s.trapPending := by
  obtain ⟨hhigh, hlow⟩ := s.setPair_holds r v c
  exact ⟨hhigh, hlow, s.writes_setPair_setCC r v c⟩

/-- The same with the overflow trap after it. -/
theorem State.pairResultOv_spec (s : State) (r : RegNum) (v : Double) (c : BitVec 4) (ov : Bool) :
    (r[0] = false → (((s.setPair r v).setCC c).overflowTrap ov).reg r = v.extractLsb' 32 32) ∧
    (((s.setPair r v).setCC c).overflowTrap ov).reg (ru1 r) = v.extractLsb' 0 32 ∧
    s.Writes (((s.setPair r v).setCC c).overflowTrap ov) [r, ru1 r] c (s.overflowPending ov) := by
  obtain ⟨hhigh, hlow, hframe⟩ := s.pairResult_spec r v c
  simp only [State.reg_overflowTrap]
  exact ⟨hhigh, hlow, hframe.overflowTrap ov⟩

/-- R262's result: an odd R takes the low word alone, which is where the low word of a pair ends too. -/
theorem State.multiplyResult_spec (s : State) (r : RegNum) (p : Double) :
    (r[0] = false → (s.multiplyResult r p).reg r = p.extractLsb' 32 32) ∧
    (s.multiplyResult r p).reg (ru1 r) = p.extractLsb' 0 32 ∧
    s.Writes (s.multiplyResult r p) [r, ru1 r]
      (ccOf (cc1 s.psd.cc) (p != (p.extractLsb' 0 32).signExtend 64) (ccSign p)) s.trapPending := by
  unfold State.multiplyResult
  by_cases hr : r[0] = true
  · rw [if_pos hr, ru1_odd hr]
    exact ⟨fun heven => absurd (heven.symm.trans hr) Bool.false_ne_true, s.reg_setReg_same r _,
      (s.writes_setReg_setCC r _ _).mono (List.subset_cons_self _ _)⟩
  · rw [if_neg hr]
    exact s.pairResult_spec r p _

/-! ## Exact values -/

/-- A byte loaded is not negative. -/
theorem ccSign_setWidth_byte (b : Byte) : ccSign (b.setWidth 32) = ccNonzero b := by
  have hzero : b.setWidth 32 = 0 ↔ b = 0 := by
    simp only [← BitVec.toNat_inj, BitVec.toNat_setWidth]
    have := b.isLt
    simp; omega
  have hmsb : (b.setWidth 32).msb = false := by
    rw [BitVec.msb_setWidth]; simp
  simp only [ccSign, ccNonzero, hzero, hmsb, Bool.false_eq_true, if_false]

@[simp] theorem half_signExtend_toInt (h : Half) : (h.signExtend 32).toInt = h.toInt :=
  BitVec.toInt_signExtend_of_le (by decide)

/-- The most negative halfword has a negative in 32 bits (R205). -/
theorem half_neg_toInt (h : Half) : (-(h.signExtend 32)).toInt = -h.toInt := by
  have hlo := h.le_toInt
  have hhi := h.toInt_lt
  rw [BitVec.toInt_neg, half_signExtend_toInt, Int.bmod_eq_of_le] <;> omega

/-- It has an absolute value in 32 bits too (R206). -/
theorem half_abs_toInt (h : Half) : (absN (h.signExtend 32)).toInt = h.toInt.natAbs := by
  rw [absN, BitVec.msb_eq_toInt, half_signExtend_toInt]
  split <;> rename_i hs
  · rw [half_neg_toInt]; simp at hs; omega
  · rw [half_signExtend_toInt]; simp at hs; omega

theorem absN_eq {n : Nat} (v : BitVec n) : absN v = if v.toInt < 0 then 0#n - v else v := by
  rw [absN, BitVec.msb_eq_toInt, BitVec.zero_sub]
  simp only [decide_eq_true_eq]

theorem product_toInt (x y : Word) : (product x y).toInt = x.toInt * y.toInt :=
  BitVec.toInt_ofInt_eq_self (by decide)
    (le_trans (by decide) (BitVec.le_toInt_mul_toInt (x := x) (y := y)))
    (lt_of_le_of_lt (BitVec.toInt_mul_toInt_le (x := x) (y := y)) (by decide))

theorem ofInt_low_toInt {i : Int} (hlo : -2 ^ 31 ≤ i) (hhi : i < 2 ^ 31) :
    ((BitVec.ofInt 64 i).extractLsb' 0 32).toInt = i := by
  rw [BitVec.toInt_extractLsb', Nat.shiftRight_zero, BitVec.toNat_ofInt, Int.bmod_def]
  omega

/-- The product of two halfwords fits 32 bits (R263). -/
theorem half_product_toInt (x y : Half) :
    ((product (x.signExtend 32) (y.signExtend 32)).extractLsb' 0 32).toInt = x.toInt * y.toInt := by
  have hlo := BitVec.le_toInt_mul_toInt (x := x) (y := y)
  have hhi := BitVec.toInt_mul_toInt_le (x := x) (y := y)
  rw [product, half_signExtend_toInt, half_signExtend_toInt]
  exact ofInt_low_toInt (le_trans (by decide) hlo) (lt_of_le_of_lt hhi (by decide))

/-! ## The statements -/

theorem extract_low_byte_high (v : BitVec 20) : (v.extractLsb' 0 8).extractLsb' 4 4 = v.extractLsb' 4 4 := by
  apply BitVec.eq_of_getLsbD_eq
  intro i hi
  simp [hi]

/-- Settles O1. -/
theorem immediateInstructions : Obligations.ImmediateInstructions := by
  intro s r v
  refine ⟨⟨_, rfl, s.loadResult_spec r _⟩, ⟨_, rfl, s.arithResult_spec r _⟩, ⟨_, rfl, s.writes_setCC _⟩,
    ⟨_, _, rfl, ?product, s.multiplyResult_spec r _⟩, ?lcfi⟩
  case product =>
    rw [product_toInt]
    exact congrArg _ (BitVec.toInt_signExtend_of_le (by decide))
  case lcfi =>
    have hbit (k : Nat) (hk : k < 8) : (v.extractLsb' 0 8)[k] = v[k] := by
      rw [BitVec.getElem_extractLsb', Nat.zero_add, BitVec.getLsbD_eq_getElem]
    show Host.Outcome.next (s.loadControls r (v.extractLsb' 0 8)) = _
    rw [State.loadControls, extract_low_byte_high, hbit, hbit, hbit]

/-- Settles O2. -/
theorem byteOperandInstructions : Obligations.ByteOperandInstructions := by
  intro s r a b u h
  refine ⟨⟨_, withByte_operand h _, ?_⟩, ⟨_, withByte_operand h _, u.writes_setCC _⟩, withByte_operand h _⟩
  rw [← ccSign_setWidth_byte]
  exact u.loadResult_spec r _

/-- Settles O3: by `State.loadResult_exact` the sign code of a result is that of its exact value. -/
theorem halfwordInstructions : Obligations.HalfwordInstructions := by
  intro s r a h u ho
  refine ⟨⟨_, withHalf_operand ho _, u.loadResult_exact r (half_signExtend_toInt h)⟩,
    ⟨_, withHalf_operand ho _, u.loadResult_exact r (half_neg_toInt h)⟩,
    ⟨_, withHalf_operand ho _, u.loadResult_exact r (half_abs_toInt h)⟩, ⟨_, withHalf_operand ho _, ?ch⟩,
    ⟨_, withHalf_operand ho _, u.arithResult_spec r _⟩, ⟨_, withHalf_operand ho _, u.arithResult_spec r _⟩,
    ⟨_, withHalf_operand ho _, u.loadResult_exact (ru1 r) (half_product_toInt _ h)⟩⟩
  case ch =>
    rw [← half_signExtend_toInt h, ← ccScmp_eq_ccSignInt]
    exact u.writes_setCC _

/-- Settles O4. -/
theorem wordLoadsAndLogical : Obligations.WordLoadsAndLogical := by
  intro s r a w u h
  refine ⟨⟨_, withWord_operand h _, u.loadResult_spec r _⟩, ⟨_, withWord_operand h _, ?ls⟩,
    ⟨_, withWord_operand h _, u.loadResult_spec r _⟩, ⟨_, withWord_operand h _, u.loadResult_spec r _⟩,
    ⟨_, withWord_operand h _, u.loadResult_spec r _⟩, ⟨_, withWord_operand h _, ?lcw⟩, ⟨_, withWord_operand h _, ?law⟩⟩
  case ls =>
    obtain ⟨hv, hframe⟩ := u.loadResult_spec r (select (u.reg (ru1 r)) w (u.reg r))
    refine ⟨fun k hk => ?_, ?_⟩
    · rw [hv, select_getLsbD _ _ _ hk]
    · rw [hv]; exact hframe
  case lcw =>
    rw [BitVec.zero_sub]
    exact u.loadResultOv_spec r (-w) _
  case law =>
    rw [← absN_eq]
    exact u.loadResultOv_spec r (absN w) _

/-- Settles O6. -/
theorem doublewordInstructions : Obligations.DoublewordInstructions := by
  intro s r a d u h
  refine ⟨⟨_, withDouble_operand h _, u.pairResult_spec r d _⟩, ⟨_, withDouble_operand h _, ?lcd⟩,
    ⟨_, _, withDouble_operand h _, absN_eq d, u.pairResultOv_spec r _ _ _⟩,
    ⟨_, _, withDouble_operand h _, rfl, u.pairResultOv_spec r _ _ _⟩,
    ⟨_, _, withDouble_operand h _, rfl, u.pairResultOv_spec r _ _ _⟩, ⟨_, withDouble_operand h _, ?cd⟩,
    ⟨_, withDouble_operand h _, ?clm⟩⟩
  case lcd =>
    rw [BitVec.zero_sub]
    exact u.pairResultOv_spec r (-d) _ _
  case cd =>
    rw [← ccScmp_eq_ccSignInt]
    exact u.writes_setCC _
  case clm =>
    rw [← ccScmp_eq_ccSignInt, ← ccScmp_eq_ccSignInt]
    exact u.writes_setCC _

end Sys2Proof.Machine
end

section
/-! Stores (O10). Each store instruction ends with one store at the place of its operand, on what the other agents left there;
what a store leaves alone is a frame `State.Stores`, and within the word at the place a store leaves the other bytes. -/

namespace Sys2Proof.Machine

/-! ## The rest of the word -/

/-- Byte k of a word holds its bits 24 - 8k to 31 - 8k. -/
theorem setWordByte_getLsbD (w : Word) (k : BitVec 2) (b : Byte) {i : Nat} (hi : i < 32) :
    (setWordByte w k b).getLsbD i =
      if 24 - 8 * k.toNat ≤ i ∧ i < 32 - 8 * k.toNat then b.getLsbD (i - (24 - 8 * k.toNat)) else w.getLsbD i := by
  obtain rfl | rfl | rfl | rfl : k = 0 ∨ k = 1 ∨ k = 2 ∨ k = 3 := by revert k; decide
  all_goals grind [setWordByte]

theorem wordByte_setWordByte_ne (w : Word) {k j : BitVec 2} (b : Byte) (h : j ≠ k) :
    wordByte (setWordByte w k b) j = wordByte w j := by
  have hne : j.toNat ≠ k.toNat := fun he => h (BitVec.eq_of_toNat_eq he)
  have hj := j.isLt
  have hk := k.isLt
  rw [wordByte_eq_extract, wordByte_eq_extract]
  apply BitVec.eq_of_getLsbD_eq
  intro i hi
  simp only [BitVec.getLsbD_extractLsb']
  rw [setWordByte_getLsbD w k b (by omega), if_neg (by omega)]

theorem wordHalf_setWordHalf_ne (w : Word) {k j : BitVec 1} (x : Half) (h : j ≠ k) :
    wordHalf (setWordHalf w k x) j = wordHalf w j := by
  obtain ⟨rfl, rfl⟩ | ⟨rfl, rfl⟩ : k = 0 ∧ j = 1 ∨ k = 1 ∧ j = 0 := by revert k j; decide
  · exact extract_append_low (n := 16) x _
  · exact extract_append_high (m := 16) _ x

theorem State.loadByte_storeByte_ne (s : State) (p : Place) {k j : BitVec 2} (v : Byte) (h : j ≠ k) :
    (s.storeByte p k v).loadByte p j = s.loadByte p j := by
  cases p with
  | reg i =>
    show wordByte ((s.setReg i _).reg i) j = _
    rw [State.reg_setReg_same]
    exact wordByte_setWordByte_ne _ v h
  | real rw =>
    have hne : j.toNat ≠ k.toNat := fun he => h (BitVec.eq_of_toNat_eq he)
    exact Memory.read_write_ne _ _ (by omega)

theorem State.loadHalf_storeHalf_ne (s : State) (p : Place) {k j : BitVec 1} (v : Half) (h : j ≠ k) :
    (s.storeHalf p k v).loadHalf p j = s.loadHalf p j := by
  cases p with
  | reg i =>
    show wordHalf ((s.setReg i _).reg i) j = _
    rw [State.reg_setReg_same]
    exact wordHalf_setWordHalf_ne _ v h
  | real rw =>
    have hne : j.toNat ≠ k.toNat := fun he => h (BitVec.eq_of_toNat_eq he)
    exact Memory.readHalf_congr fun b _ _ => Memory.read_writeHalf_ne _ _ (by omega)

@[simp] theorem State.loadHalf_setCC (s : State) (c : BitVec 4) (p : Place) (k : BitVec 1) :
    (s.setCC c).loadHalf p k = s.loadHalf p k := by
  cases p <;> rfl

/-! ## The frame of a store -/

theorem State.storeByte_stores (s : State) (p : Place) (k : BitVec 2) (v : Byte) :
    s.Stores (s.storeByte p k v) p k.toNat 1 s.psd.cc s.trapPending :=
  ⟨s.keptOutside_storeByte p k v, by rw [State.storeByte_psd], s.storeByte_trapPending p k v, by cases p <;> rfl⟩

theorem State.storeHalf_stores (s : State) (p : Place) (k : BitVec 1) (v : Half) :
    s.Stores (s.storeHalf p k v) p (2 * k.toNat) 2 s.psd.cc s.trapPending :=
  ⟨s.keptOutside_storeHalf p k v, by rw [State.storeHalf_psd], s.storeHalf_trapPending p k v, by cases p <;> rfl⟩

theorem State.restKept_storeWord (s : State) (p : Place) (v : Word) : s.RestKept (s.storeWord p v) := by
  cases p <;> rfl

theorem State.storeWord_stores (s : State) (p : Place) (v : Word) :
    s.Stores (s.storeWord p v) p 0 4 s.psd.cc s.trapPending :=
  ⟨s.keptOutside_storeWord p v, by rw [State.storeWord_psd], s.storeWord_trapPending p v, s.restKept_storeWord p v⟩

theorem State.storeDouble_stores (s : State) (p : Place) (v : Double) :
    s.Stores (s.storeDouble p v) p 0 8 s.psd.cc s.trapPending :=
  ⟨s.keptOutside_storeDouble p v, by rw [State.storeDouble_psd], s.storeDouble_trapPending p v, by cases p <;> rfl⟩

theorem State.Stores.setCC {s t : State} {p : Place} {off n : Nat} {cc : BitVec 4} {tp : Option TrapData}
    (h : s.Stores t p off n cc tp) (c : BitVec 4) : s.Stores (t.setCC c) p off n c tp := by
  obtain ⟨hkept, -, htrap, hrest⟩ := h
  refine ⟨by cases p <;> exact hkept, rfl, htrap, ?_⟩
  unfold State.RestKept at *
  unfold State.setCC
  rw [hrest]

/-! ## The instructions -/

section
variable {s u : State} {a : AddrField} {p : Place}

theorem exec_stb_target {ea : ByteAddr} (h : s.ByteTarget a ea p u) (r : RegNum) :
    exec (.stb r a) s = .next (u.storeByte p (ea.extractLsb' 0 2) ((u.reg r).extractLsb' 0 8)) := by
  obtain ⟨v, he, rfl, -, hp⟩ := h
  rw [State.others_resolve] at hp
  show execStb r a s = _
  rw [execStb, he, orTrap_ok, State.writeByte, State.access_of hp, orTrap_ok, State.others_reg]

theorem exec_stcf_target {ea : ByteAddr} (h : s.ByteTarget a ea p u) (r : RegNum) :
    exec (.stcf r a) s = .next (u.storeByte p (ea.extractLsb' 0 2) u.psd.controlByte) := by
  obtain ⟨v, he, rfl, -, hp⟩ := h
  rw [State.others_resolve] at hp
  show execStcf r a s = _
  rw [execStcf, he, orTrap_ok, State.writeByte, State.access_of hp, orTrap_ok, State.others_psd]

/-- STH's CC2 looks at the register after the store (R216). -/
theorem exec_sth_target {ea : HalfAddr} (h : s.HalfTarget a ea p u) (r : RegNum) {t : State}
    (ht : t = u.storeHalf p (ea.extractLsb' 0 1) ((u.reg r).extractLsb' 0 16)) :
    exec (.sth r a) s = .next (t.setCC (if u.config.sthSetsCC2 then
      ccOf (cc1 u.psd.cc) (t.reg r != ((t.reg r).extractLsb' 0 16).signExtend 32) (cc34 u.psd.cc) else u.psd.cc)) := by
  obtain ⟨v, he, rfl, -, hp⟩ := h
  rw [State.others_resolve] at hp
  rw [State.others_reg] at ht
  have hpsd : t.psd = v.others.psd := by rw [ht, State.storeHalf_psd]
  have hconfig : t.config = v.others.config := by rw [ht, State.storeHalf_config]
  show execSth r a s = _
  rw [execSth, he, orTrap_ok, State.writeHalf, State.access_of hp, orTrap_ok, ← ht, ← hpsd, ← hconfig]
  split <;> rfl

theorem exec_stw_target {ea : WordAddr} (h : s.WordTarget a ea p u) (r : RegNum) :
    exec (.stw r a) s = .next (u.storeWord p (u.reg r)) := by
  obtain ⟨v, he, rfl, -, hp⟩ := h
  rw [State.others_resolve] at hp
  show execStw r a s = _
  rw [execStw, he, orTrap_ok, State.writeWord, State.access_of hp, orTrap_ok, State.others_reg]

theorem exec_std_target {ea : DoubleAddr} (h : s.DoubleTarget a ea p u) (r : RegNum) :
    exec (.std r a) s = .next (u.storeDouble p (u.reg r ++ u.reg (ru1 r))) := by
  obtain ⟨v, he, rfl, -, hp⟩ := h
  rw [State.others_resolve] at hp
  show execStd r a s = _
  rw [execStd, he, orTrap_ok, State.writeDouble, State.access_of hp, orTrap_ok, State.pair, State.others_reg,
    State.others_reg]

/-- STS reads, then the other agents act again, then it writes (R93, R219). -/
theorem exec_sts_target {ea : WordAddr} {old : Word} {x v : State} (he : s.effWord a = .ok ea x)
    (hr : x.readWord ea .read = .ok old v) (hp : v.resolve ea .write = .ok p) (r : RegNum) :
    exec (.sts r a) s = .next (v.others.storeWord p (select (v.reg (ru1 r)) (v.reg r) old)) := by
  show execSts r a s = _
  rw [execSts, he, orTrap_ok, hr, orTrap_ok, State.writeWord, State.access_of hp, orTrap_ok]

end

/-- Settles O10. -/
theorem storeInstructions : Obligations.StoreInstructions := by
  refine ⟨?byte, ?half, ?word, ?selective, ?double⟩
  case byte =>
    intro s r a ea p u h
    have ⟨_, _, _, hwf, _⟩ := h
    exact ⟨⟨_, exec_stb_target h r, State.loadByte_storeByte hwf .., fun k hk => u.loadByte_storeByte_ne p _ hk,
        u.storeByte_stores ..⟩,
      ⟨_, exec_stcf_target h r, State.loadByte_storeByte hwf .., fun k hk => u.loadByte_storeByte_ne p _ hk,
        u.storeByte_stores ..⟩⟩
  case half =>
    intro s r a ea p u h
    have ⟨_, _, _, hwf, _⟩ := h
    refine ⟨_, exec_sth_target h r rfl, ?_, fun k hk => ?_, (u.storeHalf_stores ..).setCC _⟩
    · rw [State.loadHalf_setCC, State.loadHalf_storeHalf hwf]
    · rw [State.loadHalf_setCC, u.loadHalf_storeHalf_ne p _ hk]
  case word =>
    intro s r a ea p u h
    have ⟨_, _, _, hwf, _⟩ := h
    exact ⟨_, exec_stw_target h r, State.loadWord_storeWord hwf .., u.storeWord_stores ..⟩
  case selective =>
    rintro s r a ea old p x v u he hr rfl hwf hp
    rw [State.others_resolve] at hp
    refine ⟨_, exec_sts_target he hr hp r, fun k hk => ?_, State.storeWord_stores ..⟩
    rw [State.loadWord_storeWord hwf, select_getLsbD _ _ _ hk, State.others_reg, State.others_reg]
  case double =>
    intro s r a ea p u h
    have ⟨_, _, _, hwf, _⟩ := h
    exact ⟨_, exec_std_target h r, State.loadDouble_storeDouble hwf .., u.storeDouble_stores ..⟩

end Sys2Proof.Machine
end

section
/-! LM and STM (O12). LM's transfers are `State.loaded`. STM stores the words `stmWord`, each read when the words before it stand;
a store to a word that is a register is so found again, and where a word traps a part of the stores is left out
(`State.storedWords`). -/

namespace Sys2Proof.Machine

theorem ccCount_le (cc : BitVec 4) : ccCount cc ≤ 16 := by
  revert cc; decide

/-- The registers r, r + 1, … of a transfer and how far from r they are. -/
theorem transfer_sub (r : RegNum) {k : Nat} (hk : k < 16) : (r + BitVec.ofNat 4 k - r).toNat = k := by
  rw [add_sub_cancel_left, BitVec.toNat_ofNat, Nat.mod_eq_of_lt hk]

theorem offset_add_one {w : Nat} (a : BitVec w) (k : Nat) : a + BitVec.ofNat w k + 1#w = a + BitVec.ofNat w (k + 1) := by
  rw [BitVec.add_assoc, BitVec.ofNat_add]

/-- The frame of transfers to registers alone. -/
theorem State.Changes.of_regs {s t : State} {reg : RegNum → Prop} (h : t = { s with regs := t.regs })
    (hregs : ∀ b i : BitVec 4, (b = s.psd.rp → ¬reg i) → t.blockReg b i = s.blockReg b i) :
    s.Changes t reg (fun _ => False) s.psd.cc s.trapPending := by
  refine ⟨hregs, fun b _ => by rw [h], by rw [h], by rw [h], ?_⟩
  unfold State.RestKept
  rw [h]

/-- The frame of an instruction that traps after it has drawn a free value, which is not compared. -/
theorem State.Changes.of_draw_raise {s t : State} {reg : RegNum → Prop} {byte : Nat → Prop} {cc : BitVec 4}
    {tp : Option TrapData} (h : s.draw.Changes t reg byte cc tp) (x : Trap) :
    s.Changes { t.raise x with freeCount := s.freeCount } reg byte cc (some ⟨x.vector, x.cc, false⟩) := by
  obtain ⟨hregs, hmem, hcc, -, hrest⟩ := h
  refine ⟨hregs, hmem, hcc, rfl, ?_⟩
  unfold State.RestKept at *
  unfold State.raise
  rw [hrest]
  rfl

/-! ## LM -/

theorem State.loaded_psd (s : State) (p : Nat → Place) (r : RegNum) (j : Nat) : (s.loaded p r j).psd = s.psd := by
  rw [State.loaded_frame]

theorem State.loaded_mem (s : State) (p : Nat → Place) (r : RegNum) (j : Nat) : (s.loaded p r j).mem = s.mem := by
  rw [State.loaded_frame]

/-- Word k of an LM, as the transfers before it leave it. -/
def State.lmWord (s : State) (p : Nat → Place) (r : RegNum) (k : Nat) : Word := (s.loaded p r k).loadWord (p k)

theorem State.reg_loaded (s : State) (p : Nat → Place) (r : RegNum) {j : Nat} (hj : j ≤ 16) (i : RegNum) :
    (s.loaded p r j).reg i = if (i - r).toNat < j then s.lmWord p r (i - r).toNat else s.reg i := by
  rw [State.reg_eq_blockReg, State.blockReg_loaded s p r hj, State.loaded_psd]
  simp only [true_and]
  rfl

/-- A word that is a register holds what an earlier transfer left there (R212). -/
theorem State.lmWord_eq (s : State) (p : Nat → Place) (r : RegNum) {k : Nat} (hk : k ≤ 16) :
    s.lmWord p r k =
      match p k with
      | .real rw => s.mem.readWord (4 * rw)
      | .reg i => if (i - r).toNat < k then s.lmWord p r (i - r).toNat else s.reg i := by
  unfold State.lmWord State.loadWord
  cases p k with
  | real rw => dsimp only; rw [State.loaded_mem]
  | reg i => exact s.reg_loaded p r hk i

theorem State.loaded_changes (s : State) (p : Nat → Place) (r : RegNum) {n : Nat} (hn : n ≤ 16) :
    s.Changes (s.loaded p r n) (fun i => (i - r).toNat < n) (fun _ => False) s.psd.cc s.trapPending := by
  refine .of_regs (s.loaded_frame p r n) fun b i hi => ?_
  rw [State.blockReg_loaded s p r hn, if_neg fun h => hi h.1 h.2]

/-- What an LM that trapped at word k leaves of its transfers. -/
theorem State.unloadWords_changes (s : State) (p : Nat → Place) (r : RegNum) (keep : Nat → Bool) {k n : Nat} (hk : k ≤ 16)
    (hn : n ≤ 16) : s.draw.Changes (s.unloadWords keep r n (s.loaded p r k).draw) (fun i => (i - r).toNat < k)
      (fun _ => False) s.psd.cc s.trapPending := by
  have hloaded : (s.loaded p r k).draw = { s.draw with regs := (s.loaded p r k).regs } :=
    congrArg State.draw (s.loaded_frame p r k)
  refine .of_regs ?frame fun b i hi => ?regs
  case frame => exact (State.unloadWords_frame ..).trans (by rw [hloaded])
  case regs =>
    rw [State.blockReg_unloadWords _ _ _ _ _ hn]
    split
    · rename_i hu
      obtain ⟨hrp, -⟩ := hu
      rw [hrp.trans (congrArg Psd.rp (s.loaded_psd p r k))]
      rfl
    · obtain ⟨hregs, -⟩ := s.loaded_changes p r hk
      exact hregs b i hi

theorem State.reg_unloadWords (s : State) (p : Nat → Place) (r : RegNum) (keep : Nat → Bool) {k n j : Nat} (hk : k ≤ 16)
    (hn : n ≤ 16) (hj : j < k) :
    (s.unloadWords keep r n (s.loaded p r k).draw).reg (r + BitVec.ofNat 4 j) = s.reg (r + BitVec.ofNat 4 j) ∨
    (s.unloadWords keep r n (s.loaded p r k).draw).reg (r + BitVec.ofNat 4 j) = s.lmWord p r j := by
  rw [State.reg_eq_blockReg, State.blockReg_unloadWords _ _ _ _ _ hn]
  split
  · exact .inl rfl
  · right
    have hp : (s.unloadWords keep r n (s.loaded p r k).draw).psd = (s.loaded p r k).psd := by
      rw [State.unloadWords_frame]; rfl
    rw [hp]
    refine (s.reg_loaded p r hk _).trans ?_
    rw [transfer_sub r (by omega), if_pos hj]

section
variable {s : State} {a : AddrField} {ea : WordAddr} {p : Nat → Place} (hb : s.between = [])
  (he : s.effWord a = .ok ea s)
include hb he

theorem exec_lm_all (r : RegNum)
    (h : ∀ j, j < ccCount s.psd.cc → s.resolve (ea + BitVec.ofNat 17 j) .read = .ok (p j)) :
    exec (.lm r a) s = .next (s.loaded p r (ccCount s.psd.cc)) := by
  show execLm r a s = _
  rw [execLm, he, orTrap_ok, loadWords_all hb h]

theorem exec_lm_trap (r : RegNum) {k : Nat} {x : Trap} (hk : k < ccCount s.psd.cc)
    (h : ∀ j, j < k → s.resolve (ea + BitVec.ofNat 17 j) .read = .ok (p j))
    (hx : s.resolve (ea + BitVec.ofNat 17 k) .read = .error x) :
    exec (.lm r a) s = .next ((s.unloadWords (Config.partialKept s.freeCount) r (ccCount s.psd.cc)
      (s.loaded p r k).draw).raise x) := by
  have hfree : (s.loaded p r k).freeCount = s.freeCount := by rw [State.loaded_frame]
  show execLm r a s = _
  rw [execLm, he, orTrap_ok, loadWords_trap hb hk h hx]
  dsimp only
  rw [hfree]

end

/-! ## STM -/

/-- The machine after the first j words of an STM to the places p. -/
def State.stmDone (s : State) (p : Nat → Place) (r : RegNum) : Nat → State
  | 0 => s
  | j + 1 => (s.stmDone p r j).storeWord (p j) ((s.stmDone p r j).reg (r + BitVec.ofNat 4 j))

/-- Word k of an STM, as the stores before it leave its register. -/
def State.stmWord (s : State) (p : Nat → Place) (r : RegNum) (k : Nat) : Word :=
  (s.stmDone p r k).reg (r + BitVec.ofNat 4 k)

/-- The machine after those of the words v 0, …, v (j - 1) that `keep` names are stored at the places p. -/
def State.storedWords (s : State) (keep : Nat → Bool) (p : Nat → Place) (v : Nat → Word) : Nat → State
  | 0 => s
  | j + 1 =>
    if keep j then (s.storedWords keep p v j).storeWord (p j) (v j) else s.storedWords keep p v j

theorem State.stmDone_eq (s : State) (p : Nat → Place) (r : RegNum) (j : Nat) :
    s.stmDone p r j = s.storedWords (fun _ => true) p (s.stmWord p r) j := by
  induction j with
  | zero => rfl
  | succ j ih =>
    rw [State.storedWords, if_pos rfl, ← ih]
    rfl

/-- A store to another word. -/
theorem State.loadWord_storeWord_ne (s : State) {p q : Place} (h : p ≠ q) (v : Word) :
    (s.storeWord p v).loadWord q = s.loadWord q := by
  cases p with
  | reg i =>
    cases q with
    | reg j => exact State.reg_setReg_ne _ _ fun e => h (congrArg Place.reg e.symm)
    | real rw => rfl
  | real x =>
    cases q with
    | reg j => rfl
    | real y =>
      have hne : x ≠ y := fun e => h (congrArg Place.real e)
      exact Memory.readWord_congr fun b _ _ => Memory.read_writeWord_ne _ _ (by omega)

@[simp] theorem State.loadWord_raise (s : State) (x : Trap) (q : Place) : (s.raise x).loadWord q = s.loadWord q := by
  cases q <;> rfl

@[simp] theorem State.loadWord_draw (s : State) (q : Place) : s.draw.loadWord q = s.loadWord q := by
  cases q <;> rfl

theorem State.Changes.storeWord {s t : State} {reg : RegNum → Prop} {byte : Nat → Prop} {cc : BitVec 4}
    {tp : Option TrapData} (h : s.Changes t reg byte cc tp) (q : Place) (w : Word) (hreg : ∀ i, q = .reg i → reg i)
    (hbyte : ∀ b, q.Covers 4 b → byte b) : s.Changes (t.storeWord q w) reg byte cc tp := by
  obtain ⟨hregs, hmem, hcc, htrap, hrest⟩ := h
  have hrp : t.psd.rp = s.psd.rp := by rw [show t = _ from hrest]
  cases q with
  | reg j =>
    refine ⟨fun b i hi => ?_, hmem, hcc, htrap, ?_⟩
    · refine (State.blockReg_setReg ..).trans ?_
      rw [if_neg]
      · exact hregs b i hi
      · rintro ⟨hb, rfl⟩
        exact hi (hb.trans hrp) (hreg i rfl)
    · unfold State.RestKept at *
      rw [hrest]
      rfl
  | real rw =>
    refine ⟨hregs, fun b hb => ?_, hcc, htrap, ?_⟩
    · have hout : b < 4 * rw ∨ 4 * rw + 4 ≤ b := by
        by_contra hin
        exact hb (hbyte b ⟨by omega, by omega⟩)
      exact (Memory.read_writeWord_ne _ _ hout).trans (hmem b hb)
    · unfold State.RestKept at *
      rw [hrest]
      rfl

section
variable (s : State) (keep : Nat → Bool) (p : Nat → Place) (v : Nat → Word)

/-- A property that every store keeps. -/
theorem State.storedWords_keeps {P : State → Prop} (hP : ∀ t q w, P t → P (t.storeWord q w)) (h : P s) (j : Nat) :
    P (s.storedWords keep p v j) := by
  induction j with
  | zero => exact h
  | succ j ih =>
    rw [State.storedWords]
    split
    · exact hP _ _ _ ih
    · exact ih

theorem State.storedWords_resolve (j : Nat) (vw : WordAddr) (m : Access) :
    (s.storedWords keep p v j).resolve vw m = s.resolve vw m :=
  s.storedWords_keeps keep p v (P := fun t => t.resolve vw m = s.resolve vw m)
    (fun t q w h => (t.resolve_storeWord q w vw m).trans h) rfl j

theorem State.storedWords_between (j : Nat) : (s.storedWords keep p v j).between = s.between :=
  s.storedWords_keeps keep p v (P := fun t => t.between = s.between) (fun t q w h => (t.storeWord_between q w).trans h) rfl j

theorem State.storedWords_wf (hwf : s.mem.wf = true) (j : Nat) : (s.storedWords keep p v j).mem.wf = true :=
  s.storedWords_keeps keep p v (P := fun t => t.mem.wf = true)
    (fun t q w h => by cases q with
      | reg i => exact h
      | real rw => exact Memory.wf_writeWord h _ _) hwf j

theorem State.storedWords_changes {n j : Nat} (hj : j ≤ n) :
    s.Changes (s.storedWords keep p v j) (fun i => ∃ k, k < n ∧ p k = .reg i) (fun b => ∃ k, k < n ∧ (p k).Covers 4 b)
      s.psd.cc s.trapPending := by
  induction j with
  | zero => exact ⟨fun _ _ _ => rfl, fun _ _ => rfl, rfl, rfl, rfl⟩
  | succ j ih =>
    have h := ih (by omega)
    rw [State.storedWords]
    split
    · exact h.storeWord _ _ (fun i hi => ⟨j, by omega, hi⟩) fun b hb => ⟨j, by omega, hb⟩
    · exact h

/-- The word at a place is the old one or one of those stored there. -/
theorem State.loadWord_storedWords (hwf : s.mem.wf = true) (j : Nat) (q : Place) :
    (s.storedWords keep p v j).loadWord q = s.loadWord q ∨
    ∃ m, m < j ∧ p m = q ∧ (s.storedWords keep p v j).loadWord q = v m := by
  induction j with
  | zero => exact .inl rfl
  | succ j ih =>
    have hstep : (∀ w, (s.storedWords keep p v j).loadWord q = w → (s.storedWords keep p v (j + 1)).loadWord q = w) ∨
        p j = q ∧ (s.storedWords keep p v (j + 1)).loadWord q = v j := by
      rw [State.storedWords]
      split
      · by_cases hq : p j = q
        · rw [← hq]
          exact .inr ⟨rfl, State.loadWord_storeWord (s.storedWords_wf keep p v hwf j) _ _⟩
        · exact .inl fun w h => (State.loadWord_storeWord_ne _ hq _).trans h
      · exact .inl fun w h => h
    obtain hsame | ⟨hq, hnew⟩ := hstep
    · obtain hold | ⟨m, hm, hq, hnew⟩ := ih
      · exact .inl (hsame _ hold)
      · exact .inr ⟨m, by omega, hq, hsame _ hnew⟩
    · exact .inr ⟨j, by omega, hq, hnew⟩

/-- Where all words are stored, the last store to a place stands. -/
theorem State.loadWord_storedWords_last (hwf : s.mem.wf = true) {k n : Nat} (hk : k < n)
    (hlast : ∀ m, k < m → m < n → p m ≠ p k) : (s.storedWords (fun _ => true) p v n).loadWord (p k) = v k := by
  induction n with
  | zero => omega
  | succ n ih =>
    rw [State.storedWords, if_pos rfl]
    by_cases hkn : k = n
    · rw [hkn]
      exact State.loadWord_storeWord (s.storedWords_wf _ p v hwf n) _ _
    · rw [State.loadWord_storeWord_ne _ (hlast n (by omega) (by omega))]
      exact ih (by omega) fun m hm hmn => hlast m hm (by omega)

end

/-- No two words of one transfer are the same register. -/
theorem State.resolve_reg_inj {s : State} {ea : WordAddr} {mode : Access} {i : RegNum} {j k : Nat} (hj : j < 16)
    (hk : k < 16) (h : s.resolve (ea + BitVec.ofNat 17 j) mode = .ok (.reg i))
    (g : s.resolve (ea + BitVec.ofNat 17 k) mode = .ok (.reg i)) : j = k := by
  obtain ⟨-, hi⟩ := State.resolve_reg h
  obtain ⟨-, hi'⟩ := State.resolve_reg g
  have he := congrArg BitVec.toNat (hi.symm.trans hi')
  simp only [BitVec.extractLsb'_toNat, BitVec.toNat_add, BitVec.toNat_ofNat, Nat.shiftRight_zero] at he
  omega

theorem State.stmWord_eq_reg {s : State} (hwf : s.mem.wf = true) (p : Nat → Place) (r : RegNum) {k : Nat}
    (h : ∀ m, m < k → p m ≠ .reg (r + BitVec.ofNat 4 k)) : s.stmWord p r k = s.reg (r + BitVec.ofNat 4 k) := by
  rw [State.stmWord, State.stmDone_eq]
  obtain hold | ⟨m, hm, hq, -⟩ :=
    s.loadWord_storedWords (fun _ => true) p (s.stmWord p r) hwf k (.reg (r + BitVec.ofNat 4 k))
  · exact hold
  · exact absurd hq (h m hm)

/-- A register that an earlier store of the same STM reached is stored with what that store left there. -/
theorem State.stmWord_eq_stmWord {s : State} (hwf : s.mem.wf = true) {p : Nat → Place} (r : RegNum) {ea : WordAddr}
    {k m : Nat} (hk : k ≤ 16) (hp : ∀ j, j < k → s.resolve (ea + BitVec.ofNat 17 j) .write = .ok (p j)) (hm : m < k)
    (hq : p m = .reg (r + BitVec.ofNat 4 k)) : s.stmWord p r k = s.stmWord p r m := by
  have honce (j : Nat) (hmj : m < j) (hjk : j < k) : p j ≠ p m := fun hjm =>
    absurd (State.resolve_reg_inj (by omega) (by omega) ((hp j hjk).trans (by rw [hjm, hq])) ((hp m hm).trans (by rw [hq])))
      (by omega)
  have h := s.loadWord_storedWords_last p (s.stmWord p r) hwf hm honce
  rw [hq, ← State.stmDone_eq] at h
  exact h

/-- The words of an STM before the first that traps, no other agent acting: `storeWords` goes on with the rest. -/
theorem storeWords_split {u : State} (hb : u.between = []) (keep : Nat → Bool) (s : State) (p : Nat → Place) (r : RegNum)
    {ea : WordAddr} {k : Nat} (h : ∀ j, j < k → u.resolve (ea + BitVec.ofNat 17 j) .write = .ok (p j)) (n : Nat) :
    storeWords keep (k + n) 0 r ea s u =
      storeWords keep n k (r + BitVec.ofNat 4 k) (ea + BitVec.ofNat 17 k) (s.stmDone p r k)
        (u.storedWords keep p (s.stmWord p r) k) := by
  induction k generalizing n with
  | zero => simp [State.stmDone, State.storedWords]
  | succ k ih =>
    have hp : (u.storedWords keep p (s.stmWord p r) k).resolve (ea + BitVec.ofNat 17 k) .write = .ok (p k) := by
      rw [State.storedWords_resolve]; exact h k (by omega)
    have hb' : (u.storedWords keep p (s.stmWord p r) k).between = [] := (u.storedWords_between ..).trans hb
    rw [show k + 1 + n = k + (n + 1) by omega, ih (fun j hj => h j (by omega)), storeWords, State.access_of hp,
      State.others_nil hb', offset_add_one, offset_add_one]
    rfl

section
variable {s : State} {a : AddrField} {ea : WordAddr} {p : Nat → Place} (hb : s.between = [])
  (he : s.effWord a = .ok ea s)
include hb he

theorem exec_stm_all (r : RegNum)
    (h : ∀ j, j < ccCount s.psd.cc → s.resolve (ea + BitVec.ofNat 17 j) .write = .ok (p j)) :
    exec (.stm r a) s = .next (s.storedWords (fun _ => true) p (s.stmWord p r) (ccCount s.psd.cc)) := by
  have hnone : s.faultWords .write (ccCount s.psd.cc) ea = none :=
    (State.faultWords_eq_none _ _).2 fun k hk => ⟨_, h k hk⟩
  have hall := storeWords_split hb (fun _ => true) s p r h 0
  rw [Nat.add_zero, storeWords] at hall
  show execStm r a s = _
  rw [execStm, he, orTrap_ok]
  dsimp only
  rw [hnone, if_pos Option.isNone_none, hall, orTrap_ok]

theorem exec_stm_trap (r : RegNum) {k : Nat} {x : Trap} (hk : k < ccCount s.psd.cc)
    (h : ∀ j, j < k → s.resolve (ea + BitVec.ofNat 17 j) .write = .ok (p j))
    (hx : s.resolve (ea + BitVec.ofNat 17 k) .write = .error x) :
    exec (.stm r a) s =
      .next ((s.draw.storedWords (Config.partialKept s.freeCount) p (s.stmWord p r) k).raise x) := by
  have hsome : s.faultWords .write (ccCount s.psd.cc) ea = some x :=
    (State.faultWords_eq_some _ _).2 ⟨k, hk, trivial, hx, fun j hj _ => ⟨_, h j hj⟩⟩
  obtain ⟨n, hn⟩ : ∃ n, ccCount s.psd.cc = k + (n + 1) := ⟨ccCount s.psd.cc - k - 1, by omega⟩
  have hbefore := storeWords_split (u := s.draw) hb (Config.partialKept s.freeCount) s p r h (n + 1)
  have hx' : (s.draw.storedWords (Config.partialKept s.freeCount) p (s.stmWord p r) k).resolve
      (ea + BitVec.ofNat 17 k) .write = .error x := by
    rw [State.storedWords_resolve]; exact hx
  have hb' : (s.draw.storedWords (Config.partialKept s.freeCount) p (s.stmWord p r) k).between = [] :=
    (State.storedWords_between ..).trans hb
  show execStm r a s = _
  rw [execStm, he, orTrap_ok]
  dsimp only
  rw [hsome, if_neg (by simp), hn, hbefore, storeWords, State.access_trap hx', State.others_nil hb']
  rfl

end

/-! ## The statement -/

/-- Settles O12: LM's transfers are `State.loaded` and `State.lmWord`, STM's `State.storedWords` and `State.stmWord`. -/
theorem multipleTransfers : Obligations.MultipleTransfers := by
  refine ⟨?load, ?store, ?loadTraps, ?storeTraps⟩
  case load =>
    rintro s r a ea n p hb he (rfl : n = ccCount s.psd.cc) hp
    have hn := ccCount_le s.psd.cc
    have hreg (i : RegNum) {k : Nat} (hk : k ≤ ccCount s.psd.cc) (hi : (i - r).toNat < k) :
        (s.loaded p r (ccCount s.psd.cc)).reg i = s.lmWord p r (i - r).toNat := by
      rw [State.reg_loaded s p r hn, if_pos (by omega)]
    refine ⟨_, exec_lm_all hb he r hp, fun k hk => ?_, s.loaded_changes p r hn⟩
    have hk' := transfer_sub r (show k < 16 by omega)
    rw [hreg _ le_rfl (by omega), hk', State.lmWord_eq s p r (by omega)]
    cases p k with
    | real rw => rfl
    | reg i =>
      dsimp only
      split <;> rename_i hi
      · exact (hreg i hk.le hi).symm
      · rfl
  case store =>
    rintro s r a ea n p hb hwf he (rfl : n = ccCount s.psd.cc) hp
    have hn := ccCount_le s.psd.cc
    exact ⟨_, s.stmWord p r, exec_stm_all hb he r hp, fun k _ h => State.stmWord_eq_reg hwf p r h,
      fun k m hk => State.stmWord_eq_stmWord hwf r (by omega) fun j hj => hp j (by omega),
      fun k hk hlast => s.loadWord_storedWords_last p _ hwf hk hlast, s.storedWords_changes _ p _ le_rfl⟩
  case loadTraps =>
    rintro s r a ea n k p x hb he (rfl : n = ccCount s.psd.cc) hk hp hx
    have hn := ccCount_le s.psd.cc
    exact ⟨_, s.lmWord p r, exec_lm_trap hb he r hk hp hx, fun j hj => s.lmWord_eq p r (by omega),
      fun j hj => s.reg_unloadWords p r _ (by omega) hn hj, (s.unloadWords_changes p r _ (by omega) hn).of_draw_raise x⟩
  case storeTraps =>
    rintro s r a ea n k p x hb hwf he (rfl : n = ccCount s.psd.cc) hk hp hx
    have hn := ccCount_le s.psd.cc
    refine ⟨_, s.stmWord p r, exec_stm_trap hb he r hk hp hx, fun j _ h => State.stmWord_eq_reg hwf p r h,
      fun j m hj => State.stmWord_eq_stmWord hwf r (by omega) fun i hi => hp i (by omega), fun j hj => ?_,
      (s.draw.storedWords_changes _ p _ le_rfl).of_draw_raise x⟩
    rw [State.loadWord_raise, ← s.loadWord_draw]
    exact s.draw.loadWord_storedWords _ p _ hwf k (p j)

end Sys2Proof.Machine
end

section
/-! Sums and carries (O7). The model's overflow bit of a sum or a difference is the one that the library defines by exact
integers. -/

namespace Sys2Proof.Machine

@[simp] theorem cc1_ccOf (c d : Bool) (p : BitVec 2) : cc1 (ccOf c d p) = c := by
  revert c d p; decide

@[simp] theorem cc2_ccOf (c d : Bool) (p : BitVec 2) : cc2 (ccOf c d p) = d := by
  revert c d p; decide

@[simp] theorem cc34_ccOf (c d : Bool) (p : BitVec 2) : cc34 (ccOf c d p) = p :=
  extract_append_low (n := 2) _ p

theorem addN_ov {n : Nat} (a b : BitVec n) : (addN a b).ov = a.saddOverflow b :=
  (BitVec.saddOverflow_eq a b).symm

/-- A difference overflows where its operands differ in sign and it has not the sign of the first. -/
theorem subN_ov {n : Nat} (a b : BitVec n) : (subN a b).ov = a.ssubOverflow b := by
  have hsigns : ∀ x y z : Bool, ((x != y) && (z != x)) = (!x && y && z || x && !y && !z) := by decide
  rw [BitVec.ssubOverflow_eq]
  exact hsigns _ _ _

theorem addN_ov_iff {n : Nat} (a b : BitVec (n + 1)) :
    (addN a b).ov = true ↔ a.toInt + b.toInt < -2 ^ n ∨ 2 ^ n ≤ a.toInt + b.toInt := by
  rw [addN_ov, BitVec.saddOverflow, Bool.or_eq_true, decide_eq_true_iff, decide_eq_true_iff]
  exact or_comm

theorem subN_ov_iff {n : Nat} (a b : BitVec (n + 1)) :
    (subN a b).ov = true ↔ a.toInt - b.toInt < -2 ^ n ∨ 2 ^ n ≤ a.toInt - b.toInt := by
  rw [subN_ov, BitVec.ssubOverflow, Bool.or_eq_true, decide_eq_true_iff, decide_eq_true_iff]
  exact or_comm

/-- Settles O7. -/
theorem sumsAndCarries : Obligations.SumsAndCarries := by
  intro n a b
  refine ⟨⟨BitVec.toNat_add a b, decide_eq_true_iff, addN_ov_iff a b⟩, ⟨?difference, decide_eq_true_iff, subN_ov_iff a b⟩,
    fun x => ⟨cc1_ccOf .., cc2_ccOf .., cc34_ccOf ..⟩⟩
  case difference =>
    rw [subN, BitVec.toNat_sub, Nat.add_comm]

end Sys2Proof.Machine
end

section
/-! Arithmetic and compares on word operands (O5) and division (O9). The results are those of the halfword and immediate forms; a
division either fits, and then its quotient and remainder are words, or changes no register. -/

namespace Sys2Proof.Machine

/-- Settles O5. -/
theorem wordArithmeticAndCompares : Obligations.WordArithmeticAndCompares := by
  intro s r a w u h
  refine ⟨⟨_, withWord_operand h _, u.arithResult_spec r _⟩, ⟨_, withWord_operand h _, u.arithResult_spec r _⟩,
    ⟨_, _, withWord_operand h _, product_toInt _ w, u.multiplyResult_spec r _⟩, ⟨_, withWord_operand h _, ?cw⟩,
    ⟨_, withWord_operand h _, ?cs⟩, ⟨_, withWord_operand h _, ?clr⟩⟩
  case cw =>
    rw [← ccScmp_eq_ccSignInt]
    exact u.writes_setCC _
  case cs =>
    rw [← ccUcmp_eq_ccSignInt]
    exact u.writes_setCC _
  case clr =>
    rw [← ccScmp_eq_ccSignInt, ← ccScmp_eq_ccSignInt]
    exact u.writes_setCC _

/-! ## Division -/

theorem divideOverflows_iff {n d : Int} :
    divideOverflows n d = true ↔ d = 0 ∨ n.tdiv d < -2 ^ 31 ∨ 2 ^ 31 ≤ n.tdiv d := by
  simp only [divideOverflows, Bool.or_eq_true, beq_iff_eq, decide_eq_true_iff]
  omega

/-- An overflow changes no register (R12, R265, R266). -/
theorem State.divideOverflow_spec (s : State) :
    s.Writes s.divideOverflow [] (ccOf (cc1 s.psd.cc) true (cc34 s.psd.cc)) (s.overflowPending true) :=
  (s.writes_setCC _).overflowTrap true

theorem quotient_toInt {n d : Int} (h : ¬divideOverflows n d = true) :
    (BitVec.ofInt 32 (n.tdiv d)).toInt = n.tdiv d := by
  rw [divideOverflows_iff] at h
  exact BitVec.toInt_ofInt_eq_self (by decide) (by omega) (by omega)

/-- A remainder is nearer to 0 than its divisor, so that it fits the divisor's word. -/
theorem remainder_toInt (n : Int) {w : Word} (hw : w.toInt ≠ 0) :
    (BitVec.ofInt 32 (n.tmod w.toInt)).toInt = n.tmod w.toInt := by
  have hlo := w.le_toInt
  have hhi := w.toInt_lt
  have hnear : (n.tmod w.toInt).natAbs < w.toInt.natAbs := by
    rw [Int.natAbs_tmod]
    exact Nat.mod_lt _ (by omega)
  exact BitVec.toInt_ofInt_eq_self (by decide) (by omega) (by omega)

/-- DW's dividend: the pair, or for an odd R the register (R266). -/
def State.dividend (s : State) (r : RegNum) : Int := if r[0] then (s.reg r).toInt else (s.pair r).toInt

/-- DW's result: the quotient q goes to Ru1, for an even R the remainder m to R (R266). -/
def State.divideResult (s : State) (r : RegNum) (q m : Word) : State :=
  (if r[0] then s.setReg r q else (s.setReg r m).setReg (ru1 r) q).setCC234 false (ccSign q)

theorem State.divideResult_spec (s : State) (r : RegNum) (q m : Word) :
    (s.divideResult r q m).reg (ru1 r) = q ∧ (r[0] = false → (s.divideResult r q m).reg r = m) ∧
    s.Writes (s.divideResult r q m) [r, ru1 r] (ccOf (cc1 s.psd.cc) false (ccSign q)) s.trapPending := by
  unfold State.divideResult
  by_cases hr : r[0] = true
  · rw [if_pos hr, ru1_odd hr]
    exact ⟨s.reg_setReg_same r q, fun heven => absurd (heven.symm.trans hr) Bool.false_ne_true,
      (s.writes_setReg_setCC r q _).mono (List.subset_cons_self _ _)⟩
  · have hpair : (s.setReg r m).setReg (ru1 r) q = s.setPair r (m ++ q) := by
      rw [State.setPair, extract_append_high, extract_append_low]
    obtain ⟨hhigh, hlow, hframe⟩ := s.pairResult_spec r (m ++ q) (ccOf (cc1 s.psd.cc) false (ccSign q))
    rw [extract_append_high] at hhigh
    rw [extract_append_low] at hlow
    rw [if_neg hr, hpair]
    exact ⟨hlow, hhigh, hframe⟩

/-- The same in terms of the exact quotient and remainder. -/
theorem State.divideResult_exact (s : State) (r : RegNum) {q m : Word} {i j : Int} (hq : q.toInt = i) (hm : m.toInt = j) :
    ((s.divideResult r q m).reg (ru1 r)).toInt = i ∧ (r[0] = false → ((s.divideResult r q m).reg r).toInt = j) ∧
    s.Writes (s.divideResult r q m) [r, ru1 r] (ccOf (cc1 s.psd.cc) false (ccSignInt i)) s.trapPending := by
  obtain ⟨hlow, hhigh, hframe⟩ := s.divideResult_spec r q m
  rw [ccSign_eq_ccSignInt, hq] at hframe
  exact ⟨by rw [hlow, hq], fun heven => by rw [hhigh heven, hm], hframe⟩

section
variable {s u : State} {a : AddrField} {w : Word} (ho : s.WordOperand a w u) {r : RegNum}
include ho

theorem exec_dw_overflow (h : divideOverflows (u.dividend r) w.toInt = true) :
    exec (.dw r a) s = .next u.divideOverflow :=
  (withWord_operand ho _).trans (if_pos h)

theorem exec_dw_fits (h : ¬divideOverflows (u.dividend r) w.toInt = true) :
    exec (.dw r a) s = .next (u.divideResult r (BitVec.ofInt 32 ((u.dividend r).tdiv w.toInt))
      (BitVec.ofInt 32 ((u.dividend r).tmod w.toInt))) :=
  (withWord_operand ho _).trans (if_neg h)

end

/-- Settles O9. -/
theorem division : Obligations.Division := by
  refine ⟨?half, ?word⟩
  case half =>
    intro s r a h u ho
    by_cases hov : divideOverflows (u.reg r).toInt h.toInt = true
    · refine ⟨_, (withHalf_operand ho _).trans (if_pos hov), ?_⟩
      rw [if_pos (divideOverflows_iff.1 hov)]
      exact u.divideOverflow_spec
    · refine ⟨_, (withHalf_operand ho _).trans (if_neg hov), ?_⟩
      have hq := quotient_toInt hov
      rw [if_neg (mt divideOverflows_iff.2 hov), ← congrArg ccSignInt hq, ← ccSign_eq_ccSignInt]
      exact ⟨(congrArg BitVec.toInt (u.reg_setReg_same r _)).trans hq, u.writes_setReg_setCC r _ _⟩
  case word =>
    rintro s r a w n u ho (rfl : n = u.dividend r)
    by_cases hov : divideOverflows (u.dividend r) w.toInt = true
    · refine ⟨_, exec_dw_overflow ho hov, ?_⟩
      rw [if_pos (divideOverflows_iff.1 hov)]
      exact u.divideOverflow_spec
    · refine ⟨_, exec_dw_fits ho hov, ?_⟩
      have hzero : w.toInt ≠ 0 := fun h0 => hov (divideOverflows_iff.2 (.inl h0))
      rw [if_neg (mt divideOverflows_iff.2 hov)]
      exact u.divideResult_exact r (quotient_toInt hov) (remainder_toInt _ hzero)

end Sys2Proof.Machine
end

section
/-! Atomic read-modify-writes (O11). Each instruction ends with one access that reads the cell at the place of its operand, as the
other agents left it, and stores there; the frame is that of the store, or for XW of two stores. -/

namespace Sys2Proof.Machine

/-! ## What condition codes and traps leave alone -/

@[simp] theorem State.loadByte_setCC (s : State) (c : BitVec 4) (p : Place) (k : BitVec 2) :
    (s.setCC c).loadByte p k = s.loadByte p k := by
  cases p <;> rfl

@[simp] theorem State.loadWord_setCC (s : State) (c : BitVec 4) (p : Place) : (s.setCC c).loadWord p = s.loadWord p := by
  cases p <;> rfl

@[simp] theorem State.loadHalf_raise (s : State) (x : Trap) (p : Place) (k : BitVec 1) :
    (s.raise x).loadHalf p k = s.loadHalf p k := by
  cases p <;> rfl

@[simp] theorem State.loadHalf_overflowTrap (s : State) (ov : Bool) (p : Place) (k : BitVec 1) :
    (s.overflowTrap ov).loadHalf p k = s.loadHalf p k := by
  unfold State.overflowTrap
  split
  · exact s.loadHalf_raise trapOverflow p k
  · rfl

@[simp] theorem State.loadWord_overflowTrap (s : State) (ov : Bool) (p : Place) :
    (s.overflowTrap ov).loadWord p = s.loadWord p := by
  unfold State.overflowTrap
  split
  · exact s.loadWord_raise trapOverflow p
  · rfl

theorem State.Stores.raise {s t : State} {p : Place} {off n : Nat} {cc : BitVec 4} {tp : Option TrapData}
    (h : s.Stores t p off n cc tp) (x : Trap) : s.Stores (t.raise x) p off n cc (some ⟨x.vector, x.cc, false⟩) := by
  obtain ⟨hkept, hcc, -, hrest⟩ := h
  refine ⟨by cases p <;> exact hkept, hcc, rfl, ?_⟩
  unfold State.RestKept at *
  unfold State.raise
  rw [hrest]

/-- The overflow trap comes after a store that leaves AM alone (R250). -/
theorem State.Stores.overflowTrap {s t : State} {p : Place} {off n : Nat} {cc : BitVec 4}
    (h : s.Stores t p off n cc s.trapPending) (ov : Bool) :
    s.Stores (t.overflowTrap ov) p off n cc (s.overflowPending ov) := by
  have ham : t.psd.am = s.psd.am := by
    obtain ⟨-, -, -, hrest⟩ := h
    exact hrest.am
  unfold State.overflowTrap State.overflowPending
  simp only [Bool.and_eq_true, ham]
  split
  · exact h.raise trapOverflow
  · exact h

theorem State.changes_refl (s : State) (reg : RegNum → Prop) (byte : Nat → Prop) :
    s.Changes s reg byte s.psd.cc s.trapPending :=
  ⟨fun _ _ _ => rfl, fun _ _ => rfl, rfl, rfl, rfl⟩

theorem State.Changes.setCC {s t : State} {reg : RegNum → Prop} {byte : Nat → Prop} {cc : BitVec 4}
    {tp : Option TrapData} (h : s.Changes t reg byte cc tp) (c : BitVec 4) : s.Changes (t.setCC c) reg byte c tp := by
  obtain ⟨hregs, hmem, -, htrap, hrest⟩ := h
  refine ⟨hregs, hmem, rfl, htrap, ?_⟩
  unfold State.RestKept at *
  unfold State.setCC
  rw [hrest]

/-! ## The delta of a modify-and-test -/

theorem deltaOf_setWidth (r : RegNum) {n : Nat} (hn : n ≤ 32) : (deltaOf r).setWidth n = r.signExtend n := by
  apply BitVec.eq_of_getLsbD_eq
  intro i hi
  rw [deltaOf, BitVec.getLsbD_setWidth, BitVec.getLsbD_signExtend, BitVec.getLsbD_signExtend]
  simp [hi, hi.trans_le hn]

/-- A cell changes by the signed delta, modulo its width (R133). -/
theorem toNat_add_signExtend {m n : Nat} (v : BitVec n) (d : BitVec m) :
    ((v + d.signExtend n).toNat : Int) = ((v.toNat : Int) + d.toInt) % 2 ^ n := by
  have hd : ((d.signExtend n).toNat : Int) = d.toInt % 2 ^ n := by
    rw [BitVec.signExtend, BitVec.toNat_ofInt, Int.toNat_of_nonneg (Int.emod_nonneg _ (by positivity))]
    push_cast
    rfl
  rw [BitVec.toNat_add]
  push_cast
  rw [hd, Int.add_emod_emod]

/-! ## The accesses -/

section
variable {v : State} {p : Place}

theorem State.modifyByte_place {ea : ByteAddr} (hp : v.resolve (ea.extractLsb' 2 17) .write = .ok p) (delta : Byte) {b : Byte}
    (hb : b = v.others.loadByte p (ea.extractLsb' 0 2)) :
    v.modifyByte ea delta = .ok { addN b delta with ov := false }
      (v.others.storeByte p (ea.extractLsb' 0 2) (b + delta)) := by
  subst hb
  exact State.access_of hp _

theorem State.modifyHalf_place {ea : HalfAddr} (hp : v.resolve (ea.extractLsb' 1 17) .write = .ok p) (delta : Half) {h : Half}
    (hh : h = v.others.loadHalf p (ea.extractLsb' 0 1)) :
    v.modifyHalf ea delta = .ok (addN h delta) (v.others.storeHalf p (ea.extractLsb' 0 1) (h + delta)) := by
  subst hh
  exact State.access_of hp _

theorem State.modifyWord_place {ea : WordAddr} (hp : v.resolve ea .write = .ok p) (delta : Word) :
    v.modifyWord ea delta = .ok (addN (v.others.loadWord p) delta)
      (v.others.storeWord p (v.others.loadWord p + delta)) :=
  State.access_of hp _

theorem State.exchangeWord_place {ea : WordAddr} (hp : v.resolve ea .write = .ok p) (w : Word) :
    v.exchangeWord ea w = .ok (v.others.loadWord p) (v.others.storeWord p w) :=
  State.access_of hp _

end

/-! ## The results -/

/-- A word sum at a place, with `ArithCC` and the overflow trap (R91, R250). -/
def State.wordSumAt (s : State) (p : Place) (delta : Word) : State :=
  ((s.storeWord p (s.loadWord p + delta)).setCC (arithCC (addN (s.loadWord p) delta))).overflowTrap
    (addN (s.loadWord p) delta).ov

theorem State.wordSumAt_spec {s : State} (hwf : s.mem.wf = true) (p : Place) (delta : Word) :
    (s.wordSumAt p delta).loadWord p = s.loadWord p + delta ∧
    s.Stores (s.wordSumAt p delta) p 0 4 (arithCC (addN (s.loadWord p) delta))
      (s.overflowPending (addN (s.loadWord p) delta).ov) := by
  refine ⟨?_, ((s.storeWord_stores p _).setCC _).overflowTrap _⟩
  rw [State.wordSumAt, State.loadWord_overflowTrap, State.loadWord_setCC, State.loadWord_storeWord hwf]

/-- A word exchanged between register r and a place. -/
def State.exchanged (s : State) (p : Place) (r : RegNum) : State := (s.storeWord p (s.reg r)).loadResult r (s.loadWord p)

theorem State.exchanged_spec {s : State} (hwf : s.mem.wf = true) (p : Place) (r : RegNum) :
    (s.exchanged p r).reg r = s.loadWord p ∧ (s.exchanged p r).loadWord p = s.reg r ∧
    s.Changes (s.exchanged p r) (fun i => i = r ∨ p.IsReg 4 i) (p.Covers 4)
      (ccOf (cc1 s.psd.cc) (cc2 s.psd.cc) (ccSign (s.loadWord p))) s.trapPending := by
  have hresult : s.exchanged p r = ((s.storeWord p (s.reg r)).storeWord (.reg r) (s.loadWord p)).setCC
      (ccOf (cc1 s.psd.cc) (cc2 s.psd.cc) (ccSign (s.loadWord p))) := by
    cases p <;> rfl
  have hreg (i : RegNum) (hi : p = .reg i) : i = r ∨ p.IsReg 4 i := by
    rw [hi]
    exact .inr (.inl rfl)
  have hframe := (((s.changes_refl (fun i => i = r ∨ p.IsReg 4 i) (p.Covers 4)).storeWord p (s.reg r) hreg
    fun _ hb => hb).storeWord (.reg r) (s.loadWord p) (fun i hi => .inl (Place.reg.inj hi).symm) fun _ hb => hb.elim).setCC
      (ccOf (cc1 s.psd.cc) (cc2 s.psd.cc) (ccSign (s.loadWord p)))
  rw [hresult]
  refine ⟨State.reg_setReg_same _ r _, ?_, hframe⟩
  rw [State.loadWord_setCC]
  by_cases hp : p = .reg r
  · subst hp
    exact State.reg_setReg_same _ r _
  · rw [State.loadWord_storeWord_ne _ (Ne.symm hp), State.loadWord_storeWord hwf]

/-! ## The instructions -/

section
variable {s u : State} {a : AddrField} {p : Place}

theorem exec_awm_target {ea : WordAddr} (h : s.WordTarget a ea p u) (r : RegNum) :
    exec (.awm r a) s = .next (u.wordSumAt p (u.reg r)) := by
  obtain ⟨v, he, rfl, -, hp⟩ := h
  rw [State.others_resolve] at hp
  show execAwm r a s = _
  rw [execAwm, he, orTrap_ok, State.modifyWord_place hp, orTrap_ok, State.wordSumAt, State.others_reg]

theorem exec_mtw_target {ea : WordAddr} (h : s.WordTarget a ea p u) {r : RegNum} (hr : r ≠ 0#4) :
    exec (.mtw r a) s = .next (u.wordSumAt p (r.signExtend 32)) := by
  obtain ⟨v, he, rfl, -, hp⟩ := h
  rw [State.others_resolve] at hp
  show execMtw r a s = _
  rw [execMtw, he, orTrap_ok, if_neg hr, State.modifyWord_place hp, orTrap_ok, State.wordSumAt, deltaOf]

theorem exec_xw_target {ea : WordAddr} (h : s.WordTarget a ea p u) (r : RegNum) :
    exec (.xw r a) s = .next (u.exchanged p r) := by
  obtain ⟨v, he, rfl, -, hp⟩ := h
  rw [State.others_resolve] at hp
  show execXw r a s = _
  rw [execXw, he, orTrap_ok, State.exchangeWord_place hp, orTrap_ok, State.exchanged, State.others_reg]

theorem exec_mtb_target {ea : ByteAddr} (h : s.ByteTarget a ea p u) {b : Byte}
    (hb : b = u.loadByte p (ea.extractLsb' 0 2)) {r : RegNum} (hr : r ≠ 0#4) :
    exec (.mtb r a) s = .next ((u.storeByte p (ea.extractLsb' 0 2) (b + r.signExtend 8)).setCC
      (ccOf (addN b (r.signExtend 8)).carry false (ccNonzero (b + r.signExtend 8)))) := by
  obtain ⟨v, he, rfl, -, hp⟩ := h
  rw [State.others_resolve] at hp
  show execMtb r a s = _
  rw [execMtb, he, orTrap_ok, if_neg hr, deltaOf_setWidth r (by decide), State.modifyByte_place hp _ hb, orTrap_ok]
  rfl

theorem exec_mth_target {ea : HalfAddr} (h : s.HalfTarget a ea p u) {x : Half}
    (hx : x = u.loadHalf p (ea.extractLsb' 0 1)) {r : RegNum} (hr : r ≠ 0#4) :
    exec (.mth r a) s = .next (((u.storeHalf p (ea.extractLsb' 0 1) (x + r.signExtend 16)).setCC
      (arithCC (addN x (r.signExtend 16)))).overflowTrap (addN x (r.signExtend 16)).ov) := by
  obtain ⟨v, he, rfl, -, hp⟩ := h
  rw [State.others_resolve] at hp
  show execMth r a s = _
  rw [execMth, he, orTrap_ok, if_neg hr, deltaOf_setWidth r (by decide), State.modifyHalf_place hp _ hx, orTrap_ok]

/-- A modify-and-test of delta 0 only reads its cell (R259). -/
theorem exec_mtb_test {b : Byte} (h : s.ByteOperand a b u) :
    exec (.mtb 0#4 a) s = .next (u.setCC (ccOf false false (ccNonzero b))) :=
  withByte_operand h fun b u => .next (u.setCC (ccOf false false (ccNonzero b)))

theorem exec_mth_test {h : Half} (ho : s.HalfOperand a h u) :
    exec (.mth 0#4 a) s = .next (u.setCC (ccOf false false (ccSign h))) :=
  withHalf_operand ho fun h u => .next (u.setCC (ccOf false false (ccSign h)))

theorem exec_mtw_test {w : Word} (h : s.WordOperand a w u) :
    exec (.mtw 0#4 a) s = .next (u.setCC (ccOf false false (ccSign w))) :=
  withWord_operand h fun w u => .next (u.setCC (ccOf false false (ccSign w)))

end

/-- Settles O11. -/
theorem atomicInstructions : Obligations.AtomicInstructions := by
  refine ⟨?word, ?byte, ?half, ?test⟩
  case word =>
    intro s r a ea p u h
    have ⟨_, _, _, hwf, _⟩ := h
    exact ⟨⟨_, exec_awm_target h r, State.wordSumAt_spec hwf p _⟩, ⟨_, exec_xw_target h r, State.exchanged_spec hwf p r⟩,
      fun hr => ⟨_, exec_mtw_target h hr, State.wordSumAt_spec hwf p _⟩⟩
  case byte =>
    intro s r a ea p u b hr h hb
    have ⟨_, _, _, hwf, _⟩ := h
    have hstored := State.loadByte_storeByte hwf p (ea.extractLsb' 0 2) (b + r.signExtend 8)
    refine ⟨_, exec_mtb_target h hb hr, ?_, fun k hk => ?_, ?_⟩
    · rw [State.loadByte_setCC, hstored]
      exact toNat_add_signExtend b r
    · rw [State.loadByte_setCC, u.loadByte_storeByte_ne p _ hk]
    · rw [State.loadByte_setCC, hstored]
      exact (u.storeByte_stores ..).setCC _
  case half =>
    intro s r a ea p u x hr h hx
    have ⟨_, _, _, hwf, _⟩ := h
    refine ⟨_, exec_mth_target h hx hr, ?_, fun k hk => ?_, ((u.storeHalf_stores ..).setCC _).overflowTrap _⟩
    · rw [State.loadHalf_overflowTrap, State.loadHalf_setCC, State.loadHalf_storeHalf hwf]
    · rw [State.loadHalf_overflowTrap, State.loadHalf_setCC, u.loadHalf_storeHalf_ne p _ hk]
  case test =>
    exact fun s a u => ⟨fun b h => ⟨_, exec_mtb_test h, u.writes_setCC _⟩, fun x h => ⟨_, exec_mth_test h, u.writes_setCC _⟩,
      fun w h => ⟨_, exec_mtw_test h, u.writes_setCC _⟩⟩

end Sys2Proof.Machine
end

section
/-! Conversions (O13). CVA's sum wraps exactly where a carry is noted, so that the carries together say whether the exact sum fits;
CVS finds the result bits from the highest down, the remainder before each being the one of the successive subtractions. -/

namespace Sys2Proof.Machine

/-! ## CVA -/

/-- The exact sum of the first n table words `w`, word i where bit n - 1 - i of `v` is 1 (R275). -/
def tableSum (v : Word) (w : Nat → Word) (n : Nat) : Nat :=
  ((List.range n).map fun i => if v.getLsbD (n - 1 - i) then (w i).toNat else 0).sum

theorem tableSum_succ (v : Word) (w : Nat → Word) (n : Nat) :
    tableSum v w (n + 1) = (if v.getLsbD n then (w 0).toNat else 0) + tableSum v (fun i => w (i + 1)) n := by
  simp only [tableSum, List.range_succ_eq_map, List.map_cons, List.map_map, List.sum_cons, Function.comp_def,
    Nat.succ_eq_add_one, Nat.add_sub_cancel, Nat.sub_zero, Nat.sub_sub, Nat.add_comm 1]

/-- A carry now, or one later from the wrapped sum on, says that the exact sum does not fit. -/
theorem carry_or_fits (x y : Word) (m : Nat) :
    ((addN x y).carry || decide (2 ^ 32 ≤ (x + y).toNat + m)) = decide (2 ^ 32 ≤ x.toNat + y.toNat + m) := by
  have hx := x.isLt
  have hy := y.isLt
  rw [addN, ← Bool.decide_or, decide_eq_decide, BitVec.toNat_add]
  omega

theorem convertAdd_all {s : State} {v : Word} {w : Nat → Word} {n : Nat} {ea : WordAddr} (sum : Word) (c : Bool)
    (h : ∀ i, i < n → v.getLsbD (n - 1 - i) = true → s.readWord (ea + BitVec.ofNat 17 i) .read = .ok (w i) s) :
    convertAdd v n ea sum c s = .ok (BitVec.ofNat 32 (sum.toNat + tableSum v w n),
      c || decide (2 ^ 32 ≤ sum.toNat + tableSum v w n)) s := by
  induction n generalizing ea sum c w with
  | zero =>
    have hsum : tableSum v w 0 = 0 := rfl
    simp [convertAdd, hsum, sum.isLt]
  | succ n ih =>
    have hrest (i : Nat) (hi : i < n) (hv : v.getLsbD (n - 1 - i) = true) :
        s.readWord (ea + 1#17 + BitVec.ofNat 17 i) .read = .ok (w (i + 1)) s := by
      rw [offset_succ]
      exact h (i + 1) (by omega) (by rw [← hv]; congr 1; omega)
    rw [convertAdd, tableSum_succ]
    split
    case isTrue hv =>
      have hw := h 0 (by omega) hv
      rw [BitVec.add_zero] at hw
      rw [hw, Res.andThen, ih _ _ hrest, Bool.or_assoc, carry_or_fits, ← Nat.add_assoc]
      congr 2
      apply BitVec.eq_of_toNat_eq
      simp only [BitVec.toNat_ofNat, BitVec.toNat_add, Nat.mod_add_mod]
    case isFalse hv =>
      rw [ih _ _ hrest, Nat.zero_add]

/-! ## CVS -/

theorem getLsbD_or_bit (x : Word) {n k : Nat} (hk : k < 32) :
    (x ||| (1#32 <<< n)).getLsbD k = (x.getLsbD k || decide (k = n)) := by
  rw [BitVec.getLsbD_or, ← BitVec.twoPow_eq, BitVec.getLsbD_twoPow]
  grind

/-- Counted from n + 1 down, the first of the items is item 0, and the others are those after it. -/
theorem decide_lt_succ (P : Nat → Prop) [DecidablePred P] (n k : Nat) :
    decide (k < n + 1 ∧ P (n + 1 - 1 - k)) = (decide (k = n ∧ P 0) || decide (k < n ∧ P (n - 1 - k + 1))) := by
  rw [← Bool.decide_or, decide_eq_decide]
  rcases lt_trichotomy k n with hlt | rfl | hgt
  · have hitem : n - 1 - k + 1 = n - k := by omega
    simp [hitem, hlt, hlt.ne, hlt.trans n.lt_succ_self]
  · simp
  · simp [hgt.ne', hgt.not_gt, show ¬k < n + 1 by omega]

theorem convertSub_all {s : State} {w : Nat → Word} {rem : Nat → Nat} {n : Nat} {ea : WordAddr} (x res : Word)
    (h : ∀ i, i < n → s.readWord (ea + BitVec.ofNat 17 i) .read = .ok (w i) s) (hx : rem 0 = x.toNat)
    (hrem : ∀ i, i < n → rem (i + 1) = if (w i).toNat ≤ rem i then rem i - (w i).toNat else rem i) :
    ∃ y q, convertSub n ea x res s = .ok (y, q) s ∧ y.toNat = rem n ∧
      ∀ k, k < 32 → q.getLsbD k = (res.getLsbD k || decide (k < n ∧ (w (n - 1 - k)).toNat ≤ rem (n - 1 - k))) := by
  induction n generalizing ea x res w rem with
  | zero => exact ⟨x, res, rfl, hx.symm, fun k _ => by simp⟩
  | succ n ih =>
    have hw := h 0 (by omega)
    rw [BitVec.add_zero] at hw
    have hread (i : Nat) (hi : i < n) : s.readWord (ea + 1#17 + BitVec.ofNat 17 i) .read = .ok (w (i + 1)) s := by
      rw [offset_succ]
      exact h (i + 1) (by omega)
    have hfirst := hrem 0 (by omega)
    have hstep (i : Nat) (hi : i < n) := hrem (i + 1) (by omega)
    rw [convertSub, hw, Res.andThen]
    rw [hx] at hfirst
    split
    case isTrue hle =>
      rw [if_pos hle, ← BitVec.toNat_sub_of_le hle] at hfirst
      obtain ⟨y, q, hq, hy, hbits⟩ := ih (rem := fun i => rem (i + 1)) (x - w 0) (res ||| (1#32 <<< n)) hread hfirst hstep
      refine ⟨y, q, hq, hy, fun k hk => ?_⟩
      rw [hbits k hk, getLsbD_or_bit res hk, Bool.or_assoc, decide_lt_succ (fun i => (w i).toNat ≤ rem i)]
      simp only [hx, hle, and_true]
    case isFalse hgt =>
      rw [if_neg hgt] at hfirst
      obtain ⟨y, q, hq, hy, hbits⟩ := ih (rem := fun i => rem (i + 1)) x res hread hfirst hstep
      refine ⟨y, q, hq, hy, fun k hk => ?_⟩
      rw [hbits k hk, decide_lt_succ (fun i => (w i).toNat ≤ rem i)]
      simp only [hx, hgt, and_false, decide_false, Bool.false_or]

/-! ## The statement -/

section
variable {s : State} {a : AddrField} {ea : WordAddr} (he : s.effWord a = .ok ea s)
include he

theorem exec_cva_all {r : RegNum} {x : Word} {c : Bool}
    (h : convertAdd (s.reg (ru1 r)) 32 ea 0#32 false s = .ok (x, c) s) :
    exec (.cva r a) s = .next ((s.setReg r x).setCC (ccOf c (cc2 s.psd.cc) (ccSign x))) := by
  show execCva r a s = _
  rw [execCva, he, orTrap_ok, h, orTrap_ok, State.setCC134_eq, State.setReg_psd]

theorem exec_cvs_all {r : RegNum} {y q : Word} (h : convertSub 32 ea (s.reg (ru1 r)) 0#32 s = .ok (y, q) s) :
    exec (.cvs r a) s =
      .next (((s.setReg (ru1 r) y).setReg r q).setCC (ccOf (cc1 s.psd.cc) (cc2 s.psd.cc) (ccSign q))) := by
  show execCvs r a s = _
  rw [execCvs, he, orTrap_ok, h, orTrap_ok, State.setCC34_eq, State.setReg_psd, State.setReg_psd]

end

/-- CVS's result, after the remainder: an odd R ends with the result (R276). -/
theorem State.convertResult_spec (s : State) (r : RegNum) (y q : Word) (c : BitVec 4) :
    (((s.setReg (ru1 r) y).setReg r q).setCC c).reg r = q ∧
    (r[0] = false → (((s.setReg (ru1 r) y).setReg r q).setCC c).reg (ru1 r) = y) ∧
    s.Writes (((s.setReg (ru1 r) y).setReg r q).setCC c) [r, ru1 r] c s.trapPending := by
  refine ⟨State.reg_setReg_same .., fun heven => ?_, ?_, fun _ => rfl, rfl, rfl, rfl⟩
  · obtain ⟨-, hne⟩ := ru1_even heven
    rw [State.reg_setCC, State.reg_setReg_ne _ _ hne, State.reg_setReg_same]
  · intro b i hi
    refine State.regsKept_trans (s.regsKept_setReg (ru1 r) y) (State.regsKept_setReg _ r q) rfl b i fun hb hmem => hi hb ?_
    exact List.mem_pair.2 (List.mem_pair.1 hmem).symm

/-- Settles O13. -/
theorem conversions : Obligations.Conversions := by
  refine ⟨?add, ?subtract⟩
  case add =>
    intro s r a ea w total _ he hw htotal
    have hsum : tableSum (s.reg (ru1 r)) w 32 = total := by rw [htotal, tableSum]
    have hall := convertAdd_all 0#32 false hw
    rw [hsum, BitVec.toNat_zero, Nat.zero_add, Bool.false_or] at hall
    have hreg := s.reg_setReg_same r (BitVec.ofNat 32 total)
    refine ⟨_, exec_cva_all he hall, ?_, ?_⟩
    · exact (congrArg BitVec.toNat hreg).trans (BitVec.toNat_ofNat ..)
    · rw [State.reg_setCC, hreg]
      exact s.writes_setReg_setCC r _ _
  case subtract =>
    intro s r a ea w rem _ he hw hfirst hrem
    obtain ⟨y, q, hall, hy, hbits⟩ := convertSub_all (s.reg (ru1 r)) 0#32 hw hfirst hrem
    obtain ⟨hres, hleft, hframe⟩ := s.convertResult_spec r y q (ccOf (cc1 s.psd.cc) (cc2 s.psd.cc) (ccSign q))
    refine ⟨_, exec_cvs_all he hall, ?_⟩
    rw [hres]
    refine ⟨fun i hi => ?_, fun heven => (congrArg BitVec.toNat (hleft heven)).trans hy, hframe⟩
    rw [hbits (31 - i) (by omega), show 32 - 1 - (31 - i) = i by omega]
    simp [show 31 - i < 32 by omega]

end Sys2Proof.Machine
end

section
/-! The instruction S (O14). The model shifts by BitVec operations and finds an overflow by looking at the bits that are lost;
the statement is arithmetic (`ShiftsTo`, the exact product). The first two parts join the two views at every width, the last
one follows the instruction. -/

namespace Sys2Proof.Machine

/-! ## The shifted operand -/

/-- Bit j of a word rotated left by k places goes to place j + k, around the end. -/
theorem getLsbD_rotateLeft_add_mod {n j : Nat} (v : BitVec n) (k : Nat) (hj : j < n) :
    (v.rotateLeft k).getLsbD ((j + k) % n) = v.getLsbD j := by
  rw [Nat.add_mod_eq_ite, Nat.mod_eq_of_lt hj, BitVec.getLsbD_rotateLeft]
  have hm : k % n < n := Nat.mod_lt k (by omega)
  split
  next h => simp [show j + k % n - n < k % n by omega, show n - k % n + (j + k % n - n) = j by omega]
  next h => simp [show j + k % n < n by omega]

/-- Bit i of a word rotated right by k places comes from place i + k, around the end. -/
theorem getLsbD_rotateRight_eq_add_mod {n i : Nat} (v : BitVec n) (k : Nat) (hi : i < n) :
    (v.rotateRight k).getLsbD i = v.getLsbD ((i + k) % n) := by
  rw [Nat.add_mod_eq_ite, Nat.mod_eq_of_lt hi, BitVec.getLsbD_rotateRight]
  have hm : k % n < n := Nat.mod_lt k (by omega)
  split
  next h => simp [show ¬i < n - k % n by omega, hi, show i - (n - k % n) = i + k % n - n by omega]
  next h => simp [show i < n - k % n by omega, Nat.add_comm]

section
variable {n : Nat} {kind : Nat} {count : Int} (v : BitVec n)

theorem shifted_left (h : 0 ≤ count) :
    shifted kind count v = if kind = 1 then v.rotateLeft count.natAbs else v <<< count.natAbs := by
  rw [← BitVec.rotateLeft_mod_eq_rotateLeft]
  exact if_pos h

theorem shifted_right_logical (h : ¬0 ≤ count) : shifted 0 count v = v >>> count.natAbs :=
  if_neg h

theorem shifted_right_circular (h : ¬0 ≤ count) : shifted 1 count v = v.rotateRight count.natAbs := by
  rw [← BitVec.rotateRight_mod_eq_rotateRight]
  exact if_neg h

theorem shifted_right_arithmetic (h : ¬0 ≤ count) (h0 : kind ≠ 0) (h1 : kind ≠ 1) :
    shifted kind count v = v.sshiftRight count.natAbs := by
  obtain _ | _ | kind := kind
  · contradiction
  · contradiction
  · exact if_neg h

theorem getLsbD_shifted_circular {j : Nat} (hj : j < n) :
    (shifted 1 count v).getLsbD (((j : Int) + count) % n).toNat = v.getLsbD j := by
  have hn : (0 : Int) < n := by omega
  by_cases h : 0 ≤ count
  · rw [shifted_left v h, if_pos rfl]
    obtain ⟨k, rfl⟩ := Int.eq_ofNat_of_zero_le h
    exact getLsbD_rotateLeft_add_mod v k hj
  · rw [shifted_right_circular v h]
    obtain ⟨k, rfl⟩ := Int.exists_eq_neg_ofNat (Int.le_of_not_le h)
    have hlo := Int.emod_nonneg ((j : Int) + -k) hn.ne'
    have hhi := Int.emod_lt_of_pos ((j : Int) + -k) hn
    have hback : ((((j : Int) + -k) % n).toNat + k) % n = j := by
      zify
      rw [Int.toNat_of_nonneg hlo, Int.emod_add_emod, Int.neg_add_cancel_right, Int.emod_eq_of_lt (by omega) (by omega)]
    rw [getLsbD_rotateRight_eq_add_mod _ _ (by omega), Int.natAbs_neg, Int.natAbs_natCast, hback]

/-- The model's shift is the shift of R303, at every width, kind and count. -/
theorem shiftsTo_shifted : ShiftsTo kind count v (shifted kind count v) := by
  unfold ShiftsTo
  split_ifs with hcircular hleft hlogical
  · subst hcircular
    exact fun j hj => getLsbD_shifted_circular v hj
  · rw [shifted_left v hleft, if_neg hcircular, BitVec.toNat_shiftLeft, Nat.shiftLeft_eq,
      show count.natAbs = count.toNat by omega]
  · rw [hlogical, shifted_right_logical v hleft, BitVec.toNat_ushiftRight, Nat.shiftRight_eq_div_pow]
  · rw [shifted_right_arithmetic v hleft hlogical hcircular, BitVec.toInt_sshiftRight, Int.shiftRight_eq_div_pow]
    norm_cast

/-! ## The overflow of an arithmetic left shift -/

/-- By k < n places to the left, the product fits if the model finds the sign and the k bits below it equal. -/
theorem sshiftRight_uniform_iff {k : Nat} (hk : k < n) :
    v.sshiftRight (n - 1 - k) = 0#n ∨ v.sshiftRight (n - 1 - k) = BitVec.allOnes n ↔
      -2 ^ (n - 1) ≤ v.toInt * 2 ^ k ∧ v.toInt * 2 ^ k < 2 ^ (n - 1) := by
  have hpow : (2 : Int) ^ (n - 1) = 2 ^ (n - 1 - k) * 2 ^ k := by rw [← pow_add]; congr 1; omega
  have hk0 : (0 : Int) < 2 ^ k := by positivity
  have hm0 : (0 : Int) < 2 ^ (n - 1 - k) := by positivity
  have htop : (v.sshiftRight (n - 1 - k)).toInt = v.toInt / 2 ^ (n - 1 - k) := by
    rw [BitVec.toInt_sshiftRight, Int.shiftRight_eq_div_pow]; norm_cast
  have hlo : -1 ≤ v.toInt / 2 ^ (n - 1 - k) ↔ -2 ^ (n - 1) ≤ v.toInt * 2 ^ k := by
    rw [Int.le_ediv_iff_mul_le hm0, hpow, ← neg_mul, mul_le_mul_iff_left₀ hk0, neg_one_mul]
  have hhi : v.toInt / 2 ^ (n - 1 - k) < 1 ↔ v.toInt * 2 ^ k < 2 ^ (n - 1) := by
    rw [Int.ediv_lt_iff_lt_mul hm0, hpow, mul_lt_mul_iff_left₀ hk0, one_mul]
  rw [← BitVec.toInt_inj, ← BitVec.toInt_inj, htop, BitVec.toInt_allOnes, if_pos (by omega),
    BitVec.toInt_zero, ← hlo, ← hhi]
  omega

/-- By n places and more to the left, only 0 fits. -/
theorem eq_zero_iff_shift_fits {k : Nat} (hn : 0 < n) (hk : n ≤ k) :
    v = 0#n ↔ -2 ^ (n - 1) ≤ v.toInt * 2 ^ k ∧ v.toInt * 2 ^ k < 2 ^ (n - 1) := by
  have hpow : (2 : Int) ^ (n - 1) < 2 ^ k := pow_lt_pow_right₀ (by norm_num) (by omega)
  constructor
  · rintro rfl
    simp
  · rintro ⟨hlo, hhi⟩
    have hzero : v.toInt = 0 := by nlinarith
    exact BitVec.toInt_inj.1 (hzero.trans BitVec.toInt_zero.symm)

/-- `ov` of R303: an arithmetic left shift does not fit. -/
theorem shiftOverflow_iff (hn : 0 < n) : shiftOverflow count v = true ↔
    0 < count ∧ (v.toInt * 2 ^ count.toNat < -2 ^ (n - 1) ∨ 2 ^ (n - 1) ≤ v.toInt * 2 ^ count.toNat) := by
  by_cases hleft : count ≤ 0
  · rw [shiftOverflow, if_pos hleft]
    simp [hleft]
  · rw [shiftOverflow, if_neg hleft, and_iff_right (by omega), show count.natAbs = count.toNat by omega,
      ← Int.not_le, ← Int.not_lt (b := 2 ^ (n - 1)), ← not_and_or]
    split_ifs with hwidth
    · rw [bne_iff_ne, ← eq_zero_iff_shift_fits v hn hwidth]
      rfl
    · rw [Bool.and_eq_true, bne_iff_ne, bne_iff_ne, ← sshiftRight_uniform_iff v (by omega), not_or]
      rfl

/-- CC2 of an S of type `type`, where `arithmetic` is the arithmetic type of the operand's width. -/
theorem shiftCC2_iff (hn : 0 < n) {type arithmetic : Nat} (ht : type / 2 = 2 ↔ type = arithmetic) :
    (type / 2 == 2 && shiftOverflow count v) = true ↔ type = arithmetic ∧ 0 < count ∧
      (v.toInt * 2 ^ count.toNat < -2 ^ (n - 1) ∨ 2 ^ (n - 1) ≤ v.toInt * 2 ^ count.toNat) := by
  rw [Bool.and_eq_true, beq_iff_eq, shiftOverflow_iff v hn, ht]

end

/-! ## The instruction -/

section
variable {s u : State} {r : RegNum} {a : AddrField} {ea : WordAddr}

theorem exec_s (r : RegNum) (a : AddrField) (s : State) : exec (.s r a) s = execS r a s := rfl

theorem exec_s_nonexistent (he : s.effWord a = .ok ea u) (ht : shiftType ea = 6 ∨ shiftType ea = 7) :
    exec (.s r a) s = .next (u.raise trapNonexistent) := by
  rw [exec_s, execS, he, orTrap_ok]
  exact if_pos ht

theorem exec_s_word (he : s.effWord a = .ok ea u) (ht : shiftType ea < 6) (heven : shiftType ea % 2 = 0) :
    exec (.s r a) s = .next ((u.draw.setReg r (shifted (shiftType ea / 2) (shiftCount ea) (u.reg r))).setCC12
      (Config.shiftCC1 u.freeCount) (shiftType ea / 2 == 2 && shiftOverflow (shiftCount ea) (u.reg r))) := by
  rw [exec_s, execS, he, orTrap_ok]
  exact (if_neg (by omega)).trans (if_pos heven)

theorem exec_s_pair (he : s.effWord a = .ok ea u) (ht : shiftType ea < 6) (hodd : shiftType ea % 2 = 1) :
    exec (.s r a) s = .next ((u.draw.setPair r (shifted (shiftType ea / 2) (shiftCount ea) (u.pair r))).setCC12
      (Config.shiftCC1 u.freeCount) (shiftType ea / 2 == 2 && shiftOverflow (shiftCount ea) (u.pair r))) := by
  rw [exec_s, execS, he, orTrap_ok]
  exact (if_neg (by omega)).trans (if_neg (by omega))

end

/-- The frame of S on a register: the free value drawn apart, one register and CC1, CC2 change. -/
theorem State.writes_draw_setReg_setCC12 (s : State) (r : RegNum) (v : Word) (c1 c2 : Bool) :
    s.Writes { (s.draw.setReg r v).setCC12 c1 c2 with freeCount := s.freeCount } [r] (ccOf c1 c2 (cc34 s.psd.cc))
      s.trapPending :=
  s.writes_setReg_setCC r v _

/-- The frame of S on a register pair. -/
theorem State.writes_draw_setPair_setCC12 (s : State) (r : RegNum) (d : Double) (c1 c2 : Bool) :
    s.Writes { (s.draw.setPair r d).setCC12 c1 c2 with freeCount := s.freeCount } [r, ru1 r] (ccOf c1 c2 (cc34 s.psd.cc))
      s.trapPending :=
  s.writes_setPair_setCC r d _

/-- Settles O14: the type says which of `exec_s_word`, `exec_s_pair` and `exec_s_nonexistent` runs; what is written is the
shift of R303 by `shiftsTo_shifted`, and CC2 its overflow by `shiftCC2_iff`. -/
theorem shift : Obligations.Shift := by
  rintro s r a ea _ _ u he rfl rfl
  refine ⟨fun htype => ?word, fun htype => ?pair, exec_s_nonexistent he⟩
  case word =>
    have hrun := exec_s_word (r := r) he (by unfold shiftType; omega) (by unfold shiftType; omega)
    refine ⟨_, _, _, hrun, ?_, shiftCC2_iff (u.reg r) (by decide) (by omega), u.writes_draw_setReg_setCC12 r _ _ _⟩
    rw [State.setCC12, State.reg_setCC, State.reg_setReg_same]
    exact shiftsTo_shifted (u.reg r)
  case pair =>
    have hrun := exec_s_pair (r := r) he (by unfold shiftType; omega) (by unfold shiftType; omega)
    obtain ⟨hhigh, hlow⟩ := u.draw.setPair_holds r (shifted (shiftType ea / 2) (shiftCount ea) (u.pair r)) _
    exact ⟨_, _, _, _, hrun, shiftsTo_shifted (u.pair r), hhigh, hlow, shiftCC2_iff (u.pair r) (by decide) (by omega),
      u.writes_draw_setPair_setCC12 r _ _ _⟩

end Sys2Proof.Machine
end

section
/-! Branches (O15) and EXU (O16). Every branch ends in `State.branchIf`, so the statement is read off one description of that
operation. For EXU the point is that the fuel `execSubjects` has left for a nested EXU is what `execExu` would start with on
the state one level deeper: so the subject is executed by `exec` itself. -/

namespace Sys2Proof.Machine

/-! ## What a branch does -/

theorem State.branchIf_decide (s : State) (p : Prop) [Decidable p] (t : WordAddr) :
    s.branchIf (decide p) t =
      { s with psd := { s.psd with ia := if p then t else s.psd.ia }, branchOutcome := some (decide p) } := by
  by_cases h : p <;> simp [State.branchIf, State.setPc, h]

/-- A branch that writes a register first (R342-R344): the register, the pc, the branch outcome, and nothing else. -/
theorem State.setReg_branchIf_spec (s : State) (r : RegNum) (x : Word) (p : Prop) [Decidable p] (t : WordAddr) :
    ((s.setReg r x).branchIf (decide p) t).reg r = x ∧
    ((s.setReg r x).branchIf (decide p) t).psd.ia = (if p then t else s.psd.ia) ∧
    ((s.setReg r x).branchIf (decide p) t).branchOutcome = some (decide p) ∧
    s.Writes { (s.setReg r x).branchIf (decide p) t with
      psd := { ((s.setReg r x).branchIf (decide p) t).psd with ia := s.psd.ia }
      branchOutcome := s.branchOutcome } [r] s.psd.cc s.trapPending := by
  rw [State.branchIf_decide]
  exact ⟨s.reg_setReg_same r x, rfl, rfl, s.regsKept_setReg r x, fun _ => rfl, rfl, rfl, rfl⟩

section
variable {s v : State} {a : AddrField} {t : WordAddr} (he : s.effWord a = .ok t v) (r : RegNum)
include he

theorem exec_bcr_ok : exec (.bcr r a) s = .next (v.branchIf (decide (r &&& v.psd.cc = 0#4)) t) := by
  show execBcr r a s = _
  rw [execBcr, he, orTrap_ok, beq_eq_decide]

theorem exec_bcs_ok : exec (.bcs r a) s = .next (v.branchIf (decide (r &&& v.psd.cc ≠ 0#4)) t) := by
  show execBcs r a s = _
  rw [execBcs, he, orTrap_ok, bne_eq, beq_eq_decide, decide_not]

theorem exec_bal_ok :
    exec (.bal r a) s = .next ((v.setReg r (v.psd.ia.setWidth 32)).branchIf (decide True) t) := by
  show execBal r a s = _
  rw [execBal, he, orTrap_ok, decide_true]

theorem exec_bdr_ok : exec (.bdr r a) s =
    .next ((v.setReg r (v.reg r - 1#32)).branchIf (decide (0 < (v.reg r - 1#32).toInt)) t) := by
  show execBdr r a s = _
  rw [execBdr, he, orTrap_ok]

theorem exec_bir_ok : exec (.bir r a) s =
    .next ((v.setReg r (v.reg r + 1#32)).branchIf (decide ((v.reg r + 1#32).toInt < 0)) t) := by
  show execBir r a s = _
  rw [execBir, he, orTrap_ok]

end

/-- Settles O15. -/
theorem branches : Obligations.Branches := by
  intro s r a t v he
  refine ⟨?bcr, ?bcs, ?bal, ?bdr, ?bir⟩
  case bcr => rw [exec_bcr_ok he, State.branchIf_decide]
  case bcs => rw [exec_bcs_ok he, State.branchIf_decide, ite_not]
  case bal =>
    obtain ⟨hreg, hia, hout, hframe⟩ := v.setReg_branchIf_spec r (v.psd.ia.setWidth 32) True t
    refine ⟨_, exec_bal_ok he r, ?_, hia, hout, hframe⟩
    rw [hreg, BitVec.toNat_setWidth_of_le (by decide)]
  case bdr =>
    obtain ⟨hreg, hia, hout, hframe⟩ :=
      v.setReg_branchIf_spec r (v.reg r - 1#32) (0 < (v.reg r - 1#32).toInt) t
    refine ⟨_, exec_bdr_ok he r, hreg, ?_, ?_, hframe⟩ <;> rwa [hreg]
  case bir =>
    obtain ⟨hreg, hia, hout, hframe⟩ :=
      v.setReg_branchIf_spec r (v.reg r + 1#32) ((v.reg r + 1#32).toInt < 0) t
    refine ⟨_, exec_bir_ok he r, hreg, ?_, ?_, hframe⟩ <;> rwa [hreg]

/-! ## EXU -/

/-- Of the meaning given for EXU, only what it does in the state at hand matters. -/
theorem execWith_congr {f g : RegNum → AddrField → State → Out} {s : State} (h : ∀ r a, f r a s = g r a s) (i : Instr) :
    execWith f i s = execWith g i s := by
  cases i
  case exu r a => exact h r a
  all_goals rfl

/-- With the fuel that `EXU_LIMIT` leaves at the depth of `s`, a subject is executed as if fetched. -/
theorem execWith_execSubjects {s : State} {fuel : Nat} (h : s.config.exuLimit - s.exuDepth = fuel) (i : Instr) :
    execWith (fun _ b t => execSubjects fuel b t) i s = exec i s := by
  rw [exec_eq_execWith]
  subst h
  exact execWith_congr (fun _ _ => rfl) i

section
variable {s x u : State} {a : AddrField} {ea : WordAddr} {w : Word} (he : s.effWord a = .ok ea x)
  (hw : x.readWord ea .execute = .ok w u)
include he hw

/-- Reading the subject changes neither the limit nor the depth. -/
theorem exuFuel_eq : s.config.exuLimit - s.exuDepth = u.config.exuLimit - u.exuDepth := by
  obtain ⟨p, -, -, rfl⟩ := State.readWord_ok.1 hw
  have hkept := (State.effWord_othersOnly he).trans x.othersOnly_others
  rw [hkept.config, hkept.exuDepth]

theorem exec_exu_limit (r : RegNum) (h : u.config.exuLimit ≤ u.exuDepth) :
    exec (.exu r a) s = .next (({ u with exuDepth := u.exuDepth + 1 } : State).raiseFatal .exuLimit) := by
  show execExu r a s = _
  rw [execExu, exuFuel_eq he hw, Nat.sub_eq_zero_of_le h, execSubjects, he, orTrap_ok, hw, orTrap_ok]

theorem exec_exu_below (r : RegNum) (h : u.exuDepth < u.config.exuLimit) : exec (.exu r a) s =
    match decode w with
    | .error _ => .next (({ u with exuDepth := u.exuDepth + 1 } : State).raise trapNonexistent)
    | .ok i => exec i { u with exuDepth := u.exuDepth + 1 } := by
  have hfuel : s.config.exuLimit - s.exuDepth = u.config.exuLimit - (u.exuDepth + 1) + 1 := by
    rw [exuFuel_eq he hw]; omega
  show execExu r a s = _
  rw [execExu, hfuel, execSubjects, he, orTrap_ok, hw, orTrap_ok]
  cases decode w with
  | error e => rfl
  | ok i => exact execWith_execSubjects rfl i

theorem exec_exu_subject (r : RegNum) (h : u.exuDepth < u.config.exuLimit) {i : Instr} (hi : decode w = .ok i) :
    exec (.exu r a) s = exec i { u with exuDepth := u.exuDepth + 1 } := by
  rw [exec_exu_below he hw r h, hi]

theorem exec_exu_undecoded (r : RegNum) (h : u.exuDepth < u.config.exuLimit) {e : DecodeReject}
    (hd : decode w = .error e) :
    exec (.exu r a) s = .next (({ u with exuDepth := u.exuDepth + 1 } : State).raise trapNonexistent) := by
  rw [exec_exu_below he hw r h, hd]

end

/-- LI (R200). -/
theorem exec_li (r : RegNum) (v : BitVec 20) (s : State) : exec (.li r v) s =
    .next ((s.setReg r (v.signExtend 32)).setCC (ccOf (cc1 s.psd.cc) (cc2 s.psd.cc) (ccSign (v.signExtend 32)))) := rfl

/-- Settles O16. -/
theorem execute : Obligations.Execute := by
  intro s r a ea w x u he hw
  refine ⟨?subject, ?immediate, ?undecoded, exec_exu_limit he hw r⟩
  case subject =>
    intro i hlimit hi
    obtain ⟨t, ht, -⟩ := exec_reaches i { u with exuDepth := u.exuDepth + 1 }
    exact ⟨t, (exec_exu_subject he hw r hlimit hi).trans ht, ht⟩
  case immediate =>
    intro q v hlimit hi
    refine ⟨_, (exec_exu_subject he hw r hlimit hi).trans (exec_li q v _), ?_, rfl, u.writes_setReg_setCC q _ _⟩
    rw [State.reg_setCC, State.reg_setReg_same]
  case undecoded => exact fun e hlimit hd => exec_exu_undecoded he hw r hlimit hd

end Sys2Proof.Machine
end

section
/-! Push-down stacks (O17 to O20). Every stack instruction is its limit check on the doubleword it reads, then its transfers,
then the pointer (`pushStack_limit`, `exec_plw_limit` and so on). The transfers of PSW and PSM are those of an STM, the
transfers of PLM those of an LM; what is new is the pointer, which is stored last. -/

namespace Sys2Proof.Machine

/-! ## The stack pointer doubleword (R370) -/

section
variable (d : Double)

theorem spdDecode_pre : (spdDecode d).pre.toNat = d.toNat / 2 ^ 49 := by
  rw [spdDecode, BitVec.extractLsb'_toNat, Nat.shiftRight_eq_div_pow]
  have := d.isLt
  omega

theorem spdDecode_tsa : (spdDecode d).tsa.toNat = d.toNat / 2 ^ 32 % 2 ^ 17 := by
  rw [spdDecode, BitVec.extractLsb'_toNat, Nat.shiftRight_eq_div_pow]

theorem spdDecode_space : (spdDecode d).space.toNat = d.toNat / 2 ^ 16 % 2 ^ 15 := by
  rw [spdDecode, BitVec.extractLsb'_toNat, Nat.shiftRight_eq_div_pow]

theorem spdDecode_words : (spdDecode d).words.toNat = d.toNat % 2 ^ 15 := by
  rw [spdDecode, BitVec.extractLsb'_toNat, Nat.shiftRight_zero]

theorem spdDecode_ts : (spdDecode d).ts = d.getLsbD 31 := (BitVec.getLsbD_eq_getElem _).symm

theorem spdDecode_tw : (spdDecode d).tw = d.getLsbD 15 := (BitVec.getLsbD_eq_getElem _).symm

end

theorem spdEncode_toNat (p : StackPointer) :
    (spdEncode p).toNat = p.pre.toNat * 2 ^ 49 + p.tsa.toNat * 2 ^ 32 + p.ts.toNat * 2 ^ 31 + p.space.toNat * 2 ^ 16 +
      p.tw.toNat * 2 ^ 15 + p.words.toNat := by
  simp only [spdEncode, toNat_append_eq_add, BitVec.toNat_ofBool]
  ring

/-- The fields are all the bits of the doubleword. -/
theorem spdEncode_spdDecode (d : Double) : spdEncode (spdDecode d) = d := by
  apply BitVec.eq_of_toNat_eq
  rw [spdEncode_toNat, spdDecode_pre, spdDecode_tsa, spdDecode_ts, spdDecode_space, spdDecode_tw, spdDecode_words,
    BitVec.getLsbD, BitVec.getLsbD, Nat.toNat_testBit, Nat.toNat_testBit]
  omega

/-! ## The limits (R371) -/

/-- Within the limits no count wraps. -/
theorem spdMove_moved {p : StackPointer} {n : Int} (hs : ¬p.SpaceLimit n) (hw : ¬p.WordLimit n) :
    p.Moved (spdMove p n) n := by
  obtain ⟨hs0, hs1⟩ := not_not.1 hs
  obtain ⟨hw0, hw1⟩ := not_not.1 hw
  refine ⟨rfl, ?space, ?words, rfl, rfl, rfl⟩
  case space =>
    rw [spdMove, BitVec.toNat_sub, BitVec.toNat_ofInt]
    omega
  case words =>
    rw [spdMove, BitVec.toNat_add, BitVec.toNat_ofInt]
    omega

theorem spdCC_eq (p : StackPointer) : spdCC p = p.CC := by
  have hzero (v : BitVec 15) : (v == 0#15) = decide (v.toNat = 0) := by
    rw [Bool.eq_iff_iff, beq_iff_eq, decide_eq_true_eq, ← BitVec.toNat_inj]
    rfl
  rw [spdCC, StackPointer.CC, hzero, hzero]
  cases decide (p.space.toNat = 0) <;> cases decide (p.words.toNat = 0) <;> rfl

theorem ccOf_set_cc1 (c : BitVec 4) : ccOf true (cc2 c) (cc34 c) = c ||| 0b1000#4 := by
  revert c; decide

theorem ccOf_set_cc2 (c : BitVec 4) : ccOf (cc1 c) true (cc34 c) = c ||| 0b0100#4 := by
  revert c; decide

section
variable {p : StackPointer} {n : Int} (s : State) (x : Option Trap) (k : Out)

theorem stackLimit_within (hs : ¬p.SpaceLimit n) (hw : ¬p.WordLimit n) : stackLimit s p n x k = orRaise s x k := by
  rw [stackLimit, if_neg (spaceFail_iff.not.2 hs), if_neg (wordFail_iff.not.2 hw)]

theorem stackLimit_space_inhibited (hs : p.SpaceLimit n) (ht : p.ts = true) :
    stackLimit s p n x k = .next { s with psd := { s.psd with cc := s.psd.cc ||| 0b1000#4 } } := by
  rw [stackLimit, if_pos (spaceFail_iff.2 hs), if_pos ht, State.setCC1_eq, ccOf_set_cc1]
  rfl

theorem stackLimit_words_inhibited (hs : ¬p.SpaceLimit n) (hw : p.WordLimit n) (ht : p.tw = true) :
    stackLimit s p n x k = .next { s with psd := { s.psd with cc := s.psd.cc ||| 0b0100#4 } } := by
  rw [stackLimit, if_neg (spaceFail_iff.not.2 hs), if_pos (wordFail_iff.2 hw), if_pos ht, State.setCC2_eq, ccOf_set_cc2]
  rfl

theorem stackLimit_space_trap (hs : p.SpaceLimit n) (ht : p.ts = false) :
    stackLimit s p n none k = .next { s with trapPending := some ⟨0x42, 0b1000#4, false⟩ } := by
  rw [stackLimit, if_pos (spaceFail_iff.2 hs), ht]
  rfl

theorem stackLimit_words_trap (hs : ¬p.SpaceLimit n) (hw : p.WordLimit n) (ht : p.tw = false) :
    stackLimit s p n none k = .next { s with trapPending := some ⟨0x42, 0b0100#4, false⟩ } := by
  rw [stackLimit, if_neg (spaceFail_iff.not.2 hs), if_pos (wordFail_iff.2 hw), ht]
  rfl

end

/-! ## Each instruction is its limit check on the doubleword it reads -/

theorem State.stackFault_none {s : State} {m : Access} {n : Nat} {low : WordAddr} {ea : DoubleAddr}
    (hw : ∀ k, k < n → ∃ p, s.resolve (low + BitVec.ofNat 17 k) m = .ok p)
    (hq : ∃ q, s.resolve (ea ++ 0#1) .write = .ok q) :
    (s.faultWords m n low).or (s.faultAt (ea ++ 0#1) .write) = none :=
  Option.or_eq_none_iff.2 ⟨(State.faultWords_eq_none ..).2 hw, State.faultAt_eq_none.2 hq⟩

theorem State.psd_of_readDouble {v u : State} {ea : DoubleAddr} {m : Access} {d : Double}
    (h : v.readDouble ea m = .ok d u) : u.psd = v.psd := by
  obtain ⟨-, -, -, rfl⟩ := State.readDouble_ok.1 h
  exact v.others_psd

theorem exec_psw_ok {s v : State} {a : AddrField} {ea : DoubleAddr} (he : s.effDouble a = .ok ea v) (r : RegNum) :
    exec (.psw r a) s = pushStack v ea r 1 := by
  show execPsw r a s = _
  rw [execPsw, he, orTrap_ok]

theorem exec_psm_ok {s v : State} {a : AddrField} {ea : DoubleAddr} (he : s.effDouble a = .ok ea v) (r : RegNum) :
    exec (.psm r a) s = pushStack v ea r (ccCount v.psd.cc) := by
  show execPsm r a s = _
  rw [execPsm, he, orTrap_ok]

section
variable {s v u : State} {r : RegNum} {a : AddrField} {ea : DoubleAddr} {d : Double} (he : s.effDouble a = .ok ea v)
  (hd : v.readDouble ea .read = .ok d u)
include hd

theorem pushStack_limit (n : Nat) :
    pushStack v ea r n =
      stackLimit u (spdDecode d) n
        ((u.faultWords .write n ((spdDecode d).tsa + 1#17)).or (u.faultAt (ea ++ 0#1) .write))
        (orTrap (pushWords n r (spdDecode d).tsa u) fun _ t => movePointer t ea (spdDecode d) n fun t => t) := by
  rw [pushStack, hd, orTrap_ok]

include he

theorem exec_plw_limit :
    exec (.plw r a) s =
      stackLimit u (spdDecode d) (-1) ((u.faultAt (spdDecode d).tsa .read).or (u.faultAt (ea ++ 0#1) .write))
        (orTrap (u.readWord (spdDecode d).tsa .read) fun w t =>
          movePointer t ea (spdDecode d) (-1) fun t => t.setReg r w) := by
  show execPlw r a s = _
  rw [execPlw, he, orTrap_ok, hd, orTrap_ok]

theorem exec_plm_limit {n : Nat} (hn : n = ccCount u.psd.cc) :
    exec (.plm r a) s =
      stackLimit u (spdDecode d) (-(n : Int))
        ((u.faultWords .read n ((spdDecode d).tsa - BitVec.ofNat 17 n + 1#17)).or (u.faultAt (ea ++ 0#1) .write))
        (orTrap (loadWords n r ((spdDecode d).tsa - BitVec.ofNat 17 n + 1#17) u) fun _ t =>
          movePointer t ea (spdDecode d) (-(n : Int)) fun t => t) := by
  show execPlm r a s = _
  rw [execPlm, he, orTrap_ok, hd, orTrap_ok, hn]

theorem exec_msp_zero (h0 : ((u.reg r).extractLsb' 0 16).toInt = 0) :
    exec (.msp r a) s = .next (u.setCC (spdDecode d).CC) := by
  show execMsp r a s = _
  rw [execMsp, he, orTrap_ok, hd, orTrap_ok, ← spdCC_eq]
  exact if_pos h0

theorem exec_msp_limit {m : Int} (hm : m = ((u.reg r).extractLsb' 0 16).toInt) (h0 : m ≠ 0) :
    exec (.msp r a) s =
      stackLimit u (spdDecode d) m (u.faultAt (ea ++ 0#1) .write)
        (movePointer u ea (spdDecode d) m fun t => t) := by
  subst hm
  show execMsp r a s = _
  rw [execMsp, he, orTrap_ok, hd, orTrap_ok]
  exact if_neg h0

/-- All five at once: the check of the change n, and no fault where all the words and the pointer may be accessed. -/
theorem exec_stack_limit {i : Instr} {n : Int}
    (hi : i = .psw r a ∧ n = 1 ∨ i = .psm r a ∧ n = (if u.psd.cc = 0#4 then 16 else (u.psd.cc.toNat : Int)) ∨
      i = .plw r a ∧ n = -1 ∨ i = .plm r a ∧ n = -(if u.psd.cc = 0#4 then 16 else (u.psd.cc.toNat : Int)) ∨
      i = .msp r a ∧ n = ((u.reg r).extractLsb' 0 16).toInt ∧ n ≠ 0) :
    ∃ fault k, exec i s = stackLimit u (spdDecode d) n fault k ∧
      ∀ q : Place, u.resolve (ea ++ 0#1) .write = .ok q →
        (i = .psw r a ∨ i = .psm r a → ∀ k : Nat, (k : Int) < n →
          ∃ p, u.resolve ((spdDecode d).tsa + 1#17 + BitVec.ofNat 17 k) .write = .ok p) →
        (i = .plw r a ∨ i = .plm r a → ∀ k : Nat, (k : Int) < -n →
          ∃ p, u.resolve ((spdDecode d).tsa + BitVec.ofInt 17 n + 1#17 + BitVec.ofNat 17 k) .read = .ok p) →
        fault = none := by
  have hcount : (if u.psd.cc = 0#4 then 16 else (u.psd.cc.toNat : Int)) = (ccCount u.psd.cc : Nat) := by
    rw [ccCount]; split <;> rfl
  rw [hcount] at hi
  obtain ⟨rfl, rfl⟩ | ⟨rfl, rfl⟩ | ⟨rfl, rfl⟩ | ⟨rfl, rfl⟩ | ⟨rfl, hn, h0⟩ := hi
  · exact ⟨_, _, (exec_psw_ok he r).trans (pushStack_limit hd 1), fun q hq hpush _ =>
      State.stackFault_none (fun k hk => hpush (.inl rfl) k (by omega)) ⟨q, hq⟩⟩
  · rw [State.psd_of_readDouble hd]
    exact ⟨_, _, (exec_psm_ok he r).trans (pushStack_limit hd _), fun q hq hpush _ =>
      State.stackFault_none (fun k hk => hpush (.inr rfl) k (by omega)) ⟨q, hq⟩⟩
  · refine ⟨_, _, exec_plw_limit he hd, fun q hq _ hpull =>
      Option.or_eq_none_iff.2 ⟨State.faultAt_eq_none.2 ?_, State.faultAt_eq_none.2 ⟨q, hq⟩⟩⟩
    have hlow : (spdDecode d).tsa + BitVec.ofInt 17 (-1) + 1#17 + BitVec.ofNat 17 0 = (spdDecode d).tsa := by
      rw [BitVec.add_zero, BitVec.add_assoc]
      exact BitVec.add_zero _
    have hread := hpull (.inl rfl) 0 (by decide)
    rwa [hlow] at hread
  · refine ⟨_, _, exec_plm_limit he hd rfl, fun q hq _ hpull =>
      State.stackFault_none (fun k hk => ?_) ⟨q, hq⟩⟩
    have hread := hpull (.inr rfl) k (by omega)
    rwa [BitVec.ofInt_neg, BitVec.ofInt_natCast, ← BitVec.sub_eq_add_neg] at hread
  · exact ⟨_, _, exec_msp_limit he hd hn h0, fun q hq _ _ => State.faultAt_eq_none.2 ⟨q, hq⟩⟩

end

/-- Settles O20. -/
theorem stackLimits : Obligations.StackLimits := by
  refine ⟨fun d => ⟨spdDecode_pre d, spdDecode_tsa d, spdDecode_ts d, spdDecode_space d, spdDecode_tw d, spdDecode_words d,
    spdEncode_spdDecode d⟩, spdEncode_toNat, ?limits⟩
  rintro s r a ea d _ i n v u he hd rfl hi
  obtain ⟨fault, k, hexec, hfault⟩ := exec_stack_limit he hd hi
  refine ⟨fun hs ht => hexec.trans (stackLimit_space_inhibited u fault k hs ht),
    fun hs hw ht => hexec.trans (stackLimit_words_inhibited u fault k hs hw ht), fun q hq hpush hpull => ?traps⟩
  obtain rfl := hfault q hq hpush hpull
  exact ⟨fun hs ht => hexec.trans (stackLimit_space_trap u k hs ht),
    fun hs hw ht => hexec.trans (stackLimit_words_trap u k hs hw ht)⟩

/-! ## The pointer's store -/

/-- A doubleword is stored as its two words. -/
theorem State.storeDouble_eq (s : State) (p : Place) (v : Double) :
    s.storeDouble p v = (s.storeWord p (v.extractLsb' 32 32)).storeWord p.next (v.extractLsb' 0 32) := by
  cases p <;> rfl

theorem Place.Disjoint.ne {p q : Place} (h : p.Disjoint q) : q ≠ p ∧ q.next ≠ p := by
  refine ⟨fun hfirst => ?first, fun hsecond => ?second⟩
  case first =>
    subst hfirst
    cases q <;> exact h.1 rfl
  case second =>
    subst hsecond
    cases q <;> exact h.2 rfl

theorem State.loadWord_storeDouble_disjoint (s : State) {p q : Place} (h : p.Disjoint q) (v : Double) :
    (s.storeDouble q v).loadWord p = s.loadWord p := by
  obtain ⟨hfirst, hsecond⟩ := h.ne
  rw [State.storeDouble_eq, State.loadWord_storeWord_ne _ hsecond, State.loadWord_storeWord_ne _ hfirst]

theorem Place.disjoint_of_not_isReg {i : RegNum} {q : Place} (h : ¬q.IsReg 8 i) : (Place.reg i).Disjoint q := by
  cases q with
  | reg j => exact ⟨fun e => h (.inl e), fun e => h (.inr ⟨rfl, e⟩)⟩
  | real rw => trivial

theorem State.Changes.mono {s t : State} {reg reg' : RegNum → Prop} {byte byte' : Nat → Prop} {cc : BitVec 4}
    {tp : Option TrapData} (h : s.Changes t reg byte cc tp) (hreg : ∀ i, reg i → reg' i)
    (hbyte : ∀ b, byte b → byte' b) : s.Changes t reg' byte' cc tp := by
  obtain ⟨hregs, hmem, hrest⟩ := h
  exact ⟨fun b i hi => hregs b i fun hb h => hi hb (hreg i h), fun b hb => hmem b (mt (hbyte b) hb), hrest⟩

theorem State.Changes.storeDouble {s t : State} {reg : RegNum → Prop} {byte : Nat → Prop} {cc : BitVec 4}
    {tp : Option TrapData} (h : s.Changes t reg byte cc tp) (q : Place) (v : Double) (hreg : ∀ i, q.IsReg 8 i → reg i)
    (hbyte : ∀ b, q.Covers 8 b → byte b) : s.Changes (t.storeDouble q v) reg byte cc tp := by
  rw [State.storeDouble_eq]
  refine (h.storeWord q _ ?_ ?_).storeWord q.next _ ?_ ?_
  · rintro i rfl
    exact hreg i (.inl rfl)
  · cases q with
    | reg j => exact fun b hb => hb.elim
    | real rw => exact fun b ⟨hlo, hhi⟩ => hbyte b ⟨hlo, by omega⟩
  · cases q with
    | reg j => rintro _ ⟨⟩; exact hreg _ (.inr ⟨rfl, rfl⟩)
    | real rw => exact fun i hi => nomatch hi
  · cases q with
    | reg j => exact fun b hb => hb.elim
    | real rw => exact fun b ⟨hlo, hhi⟩ => hbyte b ⟨by omega, by omega⟩

theorem State.holdsDouble_of_loadDouble {t : State} {q : Place} {d : Double} (h : t.loadDouble q = d) :
    t.HoldsDouble q d fun _ => False := by
  subst h
  cases q with
  | reg j => exact ⟨fun _ => (extract_append_high _ _).symm, fun _ => (extract_append_low _ _).symm⟩
  | real rw => rfl

/-- The end of a stack instruction: the new pointer p is stored at the place q, CC set from its counts. -/
def State.withPointer (t : State) (q : Place) (p : StackPointer) : State := (t.storeDouble q (spdEncode p)).setCC p.CC

section
variable {t : State} {q : Place} {p : StackPointer}

theorem State.withPointer_holds (hwf : t.mem.wf = true) : (t.withPointer q p).HoldsDouble q (spdEncode p) fun _ => False := by
  have h := State.holdsDouble_of_loadDouble (State.loadDouble_storeDouble hwf q (spdEncode p))
  cases q <;> exact h

theorem State.loadWord_withPointer {x : Place} (h : x.Disjoint q) : (t.withPointer q p).loadWord x = t.loadWord x := by
  rw [State.withPointer, State.loadWord_setCC, State.loadWord_storeDouble_disjoint _ h]

theorem State.reg_withPointer {i : RegNum} (h : ¬q.IsReg 8 i) : (t.withPointer q p).reg i = t.reg i :=
  State.loadWord_withPointer (Place.disjoint_of_not_isReg h)

theorem State.Changes.withPointer {s : State} {reg : RegNum → Prop} {byte : Nat → Prop} {cc : BitVec 4}
    {tp : Option TrapData} (h : s.Changes t reg byte cc tp) (hreg : ∀ i, q.IsReg 8 i → reg i)
    (hbyte : ∀ b, q.Covers 8 b → byte b) : s.Changes (t.withPointer q p) reg byte p.CC tp :=
  (h.storeDouble q _ hreg hbyte).setCC _

/-- No other agent acting, the pointer is stored where its address leads. -/
theorem movePointer_alone (hb : t.between = []) {ea : DoubleAddr} (hq : t.resolve (ea ++ 0#1) .write = .ok q) (n : Int)
    (k : State → State) :
    movePointer t ea p n k = .next ((k (t.storeDouble q (spdEncode (spdMove p n)))).setCC (spdMove p n).CC) := by
  rw [movePointer, State.writeDouble, State.access_of hq, State.others_nil hb, orTrap_ok, spdCC_eq]

end

/-! ## Pushing (R372, R374) -/

/-- The first k words, no other agent acting, are those an STM of the same registers would store. -/
theorem pushWords_split {s : State} (hb : s.between = []) (p : Nat → Place) (r : RegNum) {top : WordAddr} {k : Nat}
    (h : ∀ j, j < k → s.resolve (top + 1#17 + BitVec.ofNat 17 j) .write = .ok (p j)) (n : Nat) :
    pushWords (k + n) r top s =
      pushWords n (r + BitVec.ofNat 4 k) (top + BitVec.ofNat 17 k) (s.stmDone p r k) := by
  induction k generalizing n with
  | zero => simp [State.stmDone]
  | succ k ih =>
    have hp : (s.stmDone p r k).resolve (top + BitVec.ofNat 17 k + 1#17) .write = .ok (p k) := by
      rw [State.stmDone_eq, State.storedWords_resolve, offset_add_one, ← offset_succ]
      exact h k (by omega)
    have hb' : (s.stmDone p r k).between = [] := by
      rw [State.stmDone_eq, State.storedWords_between, hb]
    rw [show k + 1 + n = k + (n + 1) by omega, ih (fun j hj => h j (by omega)), pushWords, State.writeWord,
      State.access_of hp, State.others_nil hb', Res.andThen, offset_add_one, offset_add_one]
    rfl

section
variable {s : State} {ea : DoubleAddr} {q : Place} {p : Nat → Place} {n : Nat} (hb : s.between = [])
  (hread : s.resolve (ea ++ 0#1) .read = .ok q) (hwrite : s.resolve (ea ++ 0#1) .write = .ok q)
include hb hread hwrite

theorem pushStack_alone {r : RegNum} (hs : ¬(spdDecode (s.loadDouble q)).SpaceLimit n)
    (hw : ¬(spdDecode (s.loadDouble q)).WordLimit n)
    (hp : ∀ k, k < n →
      s.resolve ((spdDecode (s.loadDouble q)).tsa + 1#17 + BitVec.ofNat 17 k) .write = .ok (p k)) :
    pushStack s ea r n =
      .next ((s.stmDone p r n).withPointer q (spdMove (spdDecode (s.loadDouble q)) n)) := by
  have hpush := pushWords_split hb p r hp 0
  have hb' : (s.stmDone p r n).between = [] := by rw [State.stmDone_eq, State.storedWords_between, hb]
  have hq : (s.stmDone p r n).resolve (ea ++ 0#1) .write = .ok q := by
    rw [State.stmDone_eq, State.storedWords_resolve, hwrite]
  rw [Nat.add_zero, pushWords] at hpush
  rw [pushStack_limit (State.readDouble_alone hb hread), stackLimit_within _ _ _ hs hw,
    State.stackFault_none (fun k hk => ⟨_, hp k hk⟩) ⟨q, hwrite⟩, orRaise_none, hpush, orTrap_ok,
    movePointer_alone hb' hq, State.withPointer]

end

/-- Settles O17. -/
theorem stackPush : Obligations.StackPush := by
  rintro s r a ea q _ i n p hb hwf he hread hwrite rfl hi hspace hwords hp
  obtain ⟨hexec, hn⟩ : exec i s = pushStack s ea r n ∧ n ≤ 16 := by
    obtain ⟨rfl, rfl⟩ | ⟨rfl, rfl⟩ := hi
    · exact ⟨exec_psw_ok he r, by omega⟩
    · exact ⟨exec_psm_ok he r, ccCount_le s.psd.cc⟩
  have hs : ¬(spdDecode (s.loadDouble q)).SpaceLimit n := not_not_intro ⟨by omega, by omega⟩
  have hw : ¬(spdDecode (s.loadDouble q)).WordLimit n := not_not_intro ⟨by omega, by omega⟩
  have hdone := s.stmDone_eq p r n
  have hframe := s.storedWords_changes (fun _ => true) p (s.stmWord p r) (le_refl n)
  rw [← hdone] at hframe
  refine ⟨_, _, s.stmWord p r, hexec.trans (pushStack_alone hb hread hwrite hs hw hp), spdMove_moved hs hw,
    State.withPointer_holds ?wf, fun k _ h => State.stmWord_eq_reg hwf p r h,
    fun k m hk => State.stmWord_eq_stmWord hwf r (by omega) fun j hj => hp j (by omega), fun k hk hq hlast => ?word,
    (hframe.mono (fun _ => .inr) fun _ => .inr).withPointer (fun _ => .inl) fun _ => .inl⟩
  case wf => rw [hdone]; exact s.storedWords_wf _ p _ hwf n
  case word =>
    rw [State.loadWord_withPointer hq, hdone]
    exact s.loadWord_storedWords_last p _ hwf hk hlast

/-! ## Pulling (R373, R375) -/

section
variable {s : State} {r : RegNum} {a : AddrField} {ea : DoubleAddr} {q : Place} (hb : s.between = [])
  (he : s.effDouble a = .ok ea s) (hread : s.resolve (ea ++ 0#1) .read = .ok q)
  (hwrite : s.resolve (ea ++ 0#1) .write = .ok q)
include hb he hread hwrite

theorem exec_plw_alone {w : Word} (hs : ¬(spdDecode (s.loadDouble q)).SpaceLimit (-1))
    (hw : ¬(spdDecode (s.loadDouble q)).WordLimit (-1))
    (hword : s.readWord (spdDecode (s.loadDouble q)).tsa .read = .ok w s) :
    exec (.plw r a) s = .next ((s.withPointer q (spdMove (spdDecode (s.loadDouble q)) (-1))).setReg r w) := by
  obtain ⟨p, hp, -⟩ := State.readWord_ok.1 hword
  have hfault : (s.faultAt (spdDecode (s.loadDouble q)).tsa .read).or (s.faultAt (ea ++ 0#1) .write) = none :=
    Option.or_eq_none_iff.2 ⟨State.faultAt_eq_none.2 ⟨p, hp⟩, State.faultAt_eq_none.2 ⟨q, hwrite⟩⟩
  rw [exec_plw_limit he (State.readDouble_alone hb hread), stackLimit_within _ _ _ hs hw, hfault, orRaise_none, hword,
    orTrap_ok, movePointer_alone hb hwrite]
  rfl

theorem exec_plm_alone {p : Nat → Place} {n : Nat} (hn : n = ccCount s.psd.cc)
    (hs : ¬(spdDecode (s.loadDouble q)).SpaceLimit (-(n : Int)))
    (hw : ¬(spdDecode (s.loadDouble q)).WordLimit (-(n : Int)))
    (hp : ∀ k, k < n → s.resolve
      ((spdDecode (s.loadDouble q)).tsa - BitVec.ofNat 17 n + 1#17 + BitVec.ofNat 17 k) .read = .ok (p k)) :
    exec (.plm r a) s =
      .next ((s.loaded p r n).withPointer q (spdMove (spdDecode (s.loadDouble q)) (-(n : Int)))) := by
  have hb' : (s.loaded p r n).between = [] := by rw [State.loaded_frame]; exact hb
  have hq : (s.loaded p r n).resolve (ea ++ 0#1) .write = .ok q := by rw [State.loaded_frame]; exact hwrite
  rw [exec_plm_limit he (State.readDouble_alone hb hread) hn, stackLimit_within _ _ _ hs hw,
    State.stackFault_none (fun k hk => ⟨_, hp k hk⟩) ⟨q, hwrite⟩, orRaise_none, loadWords_all hb hp, orTrap_ok,
    movePointer_alone hb' hq, State.withPointer]

end

/-- Settles O18. -/
theorem stackPull : Obligations.StackPull := by
  refine ⟨?one, ?many⟩
  case one =>
    rintro s r a ea q _ v hb hwf he hread hwrite rfl hwords hspace hword
    have hs : ¬(spdDecode (s.loadDouble q)).SpaceLimit (-1) := not_not_intro ⟨by omega, by omega⟩
    have hw : ¬(spdDecode (s.loadDouble q)).WordLimit (-1) := not_not_intro ⟨by omega, by omega⟩
    refine ⟨_, _, exec_plw_alone hb he hread hwrite hs hw hword, spdMove_moved hs hw, State.reg_setReg_same .., ?holds,
      ?frame⟩
    case holds =>
      have h := State.withPointer_holds (q := q) (p := spdMove (spdDecode (s.loadDouble q)) (-1)) hwf
      cases q with
      | reg j =>
        obtain ⟨hhigh, hlow⟩ := h
        exact ⟨fun hj => (State.reg_setReg_ne _ _ hj).trans (hhigh id),
          fun hj => (State.reg_setReg_ne _ _ hj).trans (hlow id)⟩
      | real rw => exact h
    case frame =>
      refine State.Changes.storeWord (State.Changes.withPointer (s.changes_refl _ _) (fun _ => .inr) fun _ => id) (.reg r) v
        ?_ fun _ h => h.elim
      rintro _ ⟨⟩
      exact .inl rfl
  case many =>
    rintro s r a ea q _ n p hb hwf he hread hwrite rfl (hn : n = ccCount s.psd.cc) hwords hspace hp
    have hle : n ≤ 16 := hn ▸ ccCount_le s.psd.cc
    have hs : ¬(spdDecode (s.loadDouble q)).SpaceLimit (-(n : Int)) := not_not_intro ⟨by omega, by omega⟩
    have hw : ¬(spdDecode (s.loadDouble q)).WordLimit (-(n : Int)) := not_not_intro ⟨by omega, by omega⟩
    refine ⟨_, _, s.lmWord p r, exec_plm_alone hb he hread hwrite hn hs hw hp, spdMove_moved hs hw,
      State.withPointer_holds (by rw [State.loaded_mem]; exact hwf), fun k hk => s.lmWord_eq p r (by omega),
      fun k hk hq => ?register,
      ((s.loaded_changes p r hle).mono (fun _ => .inl) fun _ => False.elim).withPointer (fun _ => .inr) fun _ => id⟩
    have hk' := transfer_sub r (show k < 16 by omega)
    rw [State.reg_withPointer hq, State.reg_loaded s p r hle, hk', if_pos hk]

/-! ## MSP (R376) -/

/-- Settles O19. -/
theorem modifyStackPointer : Obligations.ModifyStackPointer := by
  rintro s r a ea q _ m hb hwf he hread rfl hm
  have hd := State.readDouble_alone hb hread
  refine ⟨fun h0 => ⟨_, exec_msp_zero he hd (hm ▸ h0), s.writes_setCC _⟩, fun h0 hwrite hs0 hs1 hw0 hw1 => ?moves⟩
  have hs : ¬(spdDecode (s.loadDouble q)).SpaceLimit m := not_not_intro ⟨hs0, hs1⟩
  have hw : ¬(spdDecode (s.loadDouble q)).WordLimit m := not_not_intro ⟨hw0, hw1⟩
  have hexec : exec (.msp r a) s = .next (s.withPointer q (spdMove (spdDecode (s.loadDouble q)) m)) := by
    rw [exec_msp_limit he hd hm h0, stackLimit_within _ _ _ hs hw, State.faultAt_eq_none.2 ⟨q, hwrite⟩, orRaise_none,
      movePointer_alone hb hwrite, State.withPointer]
  exact ⟨_, _, hexec, spdMove_moved hs hw, State.withPointer_holds hwf,
    State.Changes.withPointer (s.changes_refl _ _) (fun _ => id) fun _ => id⟩

end Sys2Proof.Machine
end

section
/-! The values of `FLOAT_ARITH` (O22): the words that hold a characteristic and a fraction, the encoding of an exact magnitude
num / den, and the answers of `floatArith` in these terms. -/

namespace Sys2Proof.Machine

/-! ## The word of a sign, a characteristic and a fraction (R390, R391) -/

section
variable {n d c f : Nat} {m : BitVec n}

/-- A characteristic and a fraction leave the sign bit free. -/
theorem two_mul_fields_lt (hn : n = 4 * d + 8) (hc : c ≤ 127) (hf : f < 2 ^ (4 * d)) :
    2 * (c * 2 ^ (4 * d) + f) < 2 ^ n := by
  have hpow : 2 ^ n = 256 * 2 ^ (4 * d) := by rw [hn, Nat.pow_add, Nat.mul_comm]
  have hle : c * 2 ^ (4 * d) ≤ 127 * 2 ^ (4 * d) := Nat.mul_le_mul_right _ hc
  omega

/-- A word with sign bit 0, the word 0 apart, and its complement are not the word with only the sign bit set, and their
absolute value is that word. -/
theorem complementIf_fields (hn : 0 < n) (hmsb : m.msb = false) (h0 : m ≠ 0) (neg : Bool) :
    (if neg then -m else m) ≠ 0 ∧ (if neg then -m else m) ≠ BitVec.intMin n ∧
      (if neg then -m else m).msb = neg ∧ floatAbs (if neg then -m else m) = m := by
  have hmin : m ≠ BitVec.intMin n := by
    rintro rfl
    rw [BitVec.msb_intMin, decide_eq_false_iff_not] at hmsb
    exact hmsb hn
  cases neg with
  | false => exact ⟨h0, hmin, hmsb, by simp [floatAbs, hmsb]⟩
  | true =>
    have hneg : (-m).msb = true := by rw [BitVec.msb_neg_of_ne_intMin_of_ne_zero hmin h0, hmsb]; rfl
    refine ⟨by simpa using h0, fun h => hmin ?_, hneg, by simp [floatAbs, hneg]⟩
    rw [← BitVec.neg_neg (x := m), show -m = _ from h, BitVec.neg_intMin]

/-- A fraction of d digits whose first digit is not 0 (R391). -/
structure NormalFraction (d f : Nat) : Prop where
  lo : 16 ^ (d - 1) ≤ f
  hi : f < 16 ^ d

theorem NormalFraction.pos (h : NormalFraction d f) : 0 < f := (Nat.pow_pos (by decide)).trans_le h.lo

/-- What is read back from a word of `floatWord`: its characteristic and its value; it is not the sign-only word. -/
theorem floatWord_spec (hn : n = 4 * d + 8) (hc : c ≤ 127) (hnorm : NormalFraction d f) (neg : Bool) :
    floatValue (floatWord n neg c f) = (if neg then -((f * 16 ^ c : Nat) : Int) else (f * 16 ^ c : Nat)) ∧
      characteristic (floatWord n neg c f) = c ∧ floatWord n neg c f ≠ BitVec.intMin n := by
  have hd : n - 8 = 4 * d := by omega
  have h0 := hnorm.pos
  have hf : f < 2 ^ (4 * d) := by rw [Nat.pow_mul]; exact hnorm.hi
  obtain ⟨m, hword⟩ : ∃ m, m = BitVec.ofNat n (c * 2 ^ (n - 8) + f) := ⟨_, rfl⟩
  have hlt := two_mul_fields_lt hn hc hf
  have hnat : m.toNat = c * 2 ^ (4 * d) + f := by
    rw [hword, BitVec.toNat_ofNat, hd, Nat.mod_eq_of_lt (by omega)]
  have hm0 : m ≠ 0 := by
    rintro rfl
    have hzero : (0 : BitVec n).toNat = 0 := BitVec.toNat_zero
    omega
  have hsign : m.msb = false := BitVec.msb_eq_false_iff_two_mul_lt.2 (hnat ▸ hlt)
  obtain ⟨hw0, hmin, hmsb, habs⟩ := complementIf_fields (by omega) hsign hm0 neg
  replace hword : floatWord n neg c f = if neg then -m else m := by rw [hword]; rfl
  have hfrac : fraction (floatWord n neg c f) = f := by
    rw [hword, fraction, habs, BitVec.extractLsb'_toNat, hnat, hd, Nat.shiftRight_zero, Nat.mul_add_mod_of_lt hf]
  have hchar : characteristic (floatWord n neg c f) = c := by
    rw [hword, characteristic, if_neg hmin, habs, BitVec.extractLsb'_toNat, hnat, hd, Nat.shiftRight_eq_div_pow,
      Nat.mul_comm c, Nat.mul_add_div (Nat.two_pow_pos _), Nat.div_eq_of_lt hf, Nat.add_zero, Nat.mod_eq_of_lt (by omega)]
  refine ⟨?_, hchar, hword ▸ hmin⟩
  rw [floatValue, hfrac, hchar, hword, if_neg hw0, if_neg hmin, hmsb, pow16_eq]

end

/-! ## The encoding of a magnitude (R392) -/

section
variable {d q c f : Nat}

theorem lt_hexDigits (hq : q ≠ 0) (k : Nat) : k < hexDigits q ↔ 16 ^ k ≤ q := by
  rw [hexDigits, Nat.lt_succ_iff, Nat.le_div_iff_mul_le (by decide), Nat.mul_comm, Nat.le_log2 hq, Nat.pow_mul]

theorem encodeMagnitude_underflow (h : q < 16 ^ (d - 1)) (rest up : Bool) : encodeMagnitude d q rest up = .underflow := by
  rw [encodeMagnitude, pow16_eq, if_pos h]

theorem encodeMagnitude_overflow (h : 16 ^ (127 + d) ≤ q) (rest up : Bool) : encodeMagnitude d q rest up = .overflow := by
  have hle : 16 ^ (d - 1) ≤ q := (Nat.pow_le_pow_right (by decide) (by omega)).trans h
  have hq : q ≠ 0 := (Nat.pow_pos (by decide)).trans_le h |>.ne'
  have hdigits := (lt_hexDigits hq _).2 h
  rw [encodeMagnitude, pow16_eq, if_neg hle.not_gt]
  exact if_pos (by omega)

/-- In range, the characteristic c leaves d digits of the magnitude, those of the fraction f. -/
theorem encodeMagnitude_in_range (hd : 0 < d) (hlo : 16 ^ (d - 1) ≤ q) (hhi : q < 16 ^ (127 + d)) (rest up : Bool) :
    ∃ c f, c ≤ 127 ∧ NormalFraction d f ∧ f * 16 ^ c ≤ q ∧ q < (f + 1) * 16 ^ c ∧
      encodeMagnitude d q rest up = if up && (rest || decide (q ≠ f * 16 ^ c)) then roundUp d c f else .number c f := by
  have hq : q ≠ 0 := ((Nat.pow_pos (by decide)).trans_le hlo).ne'
  obtain ⟨c, hc⟩ : ∃ c, hexDigits q = c + d :=
    ⟨hexDigits q - d, by have := (lt_hexDigits hq _).2 hlo; omega⟩
  have hc127 : c ≤ 127 := by
    have := mt (lt_hexDigits hq _).1 hhi.not_ge
    omega
  have hpos : 0 < 16 ^ c := Nat.pow_pos (by decide)
  have hfirst : 16 ^ (d - 1) * 16 ^ c ≤ q := by
    rw [← Nat.pow_add]
    exact (lt_hexDigits hq _).1 (by omega)
  have hlast : q < 16 ^ d * 16 ^ c := by
    rw [← Nat.pow_add]
    exact not_le.1 (mt (lt_hexDigits hq _).2 (by omega))
  have hmod : q % 16 ^ c ≠ 0 ↔ q ≠ q / 16 ^ c * 16 ^ c := by
    have := Nat.div_add_mod' q (16 ^ c)
    omega
  refine ⟨c, q / 16 ^ c, hc127, ⟨(Nat.le_div_iff_mul_le hpos).2 hfirst, (Nat.div_lt_iff_lt_mul hpos).2 hlast⟩,
    Nat.div_mul_le_self _ _, (Nat.div_lt_iff_lt_mul hpos).1 (Nat.lt_succ_self _), ?_⟩
  simp only [encodeMagnitude, pow16_eq, if_neg hlo.not_gt, hc, Nat.add_sub_cancel, if_neg hc127.not_gt, hmod]

/-- One more in the last digit is a normalized fraction again, at the next characteristic where all digits were 15. -/
theorem roundUp_spec (hd : 0 < d) (hc : c ≤ 127) (hf : NormalFraction d f) :
    ∃ c' f', NormalFraction d f' ∧ f' * 16 ^ c' = (f + 1) * 16 ^ c ∧
      roundUp d c f = if 127 < c' then .overflow else .number c' f' := by
  obtain ⟨hlo, hhi⟩ := hf
  simp only [roundUp, pow16_eq]
  split
  next hlt => exact ⟨c, f + 1, ⟨by omega, hlt⟩, rfl, (if_neg hc.not_gt).symm⟩
  next hge =>
    have hpow : 16 ^ d = 16 ^ (d - 1) * 16 := by rw [← Nat.pow_succ, Nat.succ_eq_add_one, Nat.sub_add_cancel hd]
    have hfull : f + 1 = 16 ^ (d - 1) * 16 := by omega
    exact ⟨c + 1, 16 ^ (d - 1), ⟨le_rfl, by omega⟩, by rw [hfull, Nat.pow_succ]; ring, rfl⟩

end

/-! ## The exact result num / den (R394) -/

section
variable {d N den : Nat}

theorem le_whole_iff (hden : 0 < den) (k : Nat) : k ≤ N / den ↔ den * k ≤ N := by
  rw [Nat.le_div_iff_mul_le hden, Nat.mul_comm]

theorem whole_lt_iff (hden : 0 < den) (k : Nat) : N / den < k ↔ N < den * k := by
  rw [Nat.div_lt_iff_lt_mul hden, Nat.mul_comm]

theorem rest_or_whole_ne (k : Nat) (hden : 0 < den) :
    (decide (N % den ≠ 0) || decide (N / den ≠ k)) = decide (N ≠ den * k) := by
  have hN := Nat.div_add_mod N den
  rw [← Bool.decide_or, decide_eq_decide]
  refine ⟨?_, fun h => ?_⟩
  · rintro h rfl
    simp [hden] at h
  · by_contra! hexact
    obtain ⟨hrest, rfl⟩ := hexact
    omega

/-- The encoding of N / den in range: c and f truncate it, and c' and f' are those or, rounded up, one more. -/
theorem encodeMagnitude_fraction (hd : 0 < d) (hden : 0 < den) (hlo : den * 16 ^ (d - 1) ≤ N)
    (hhi : N < den * 16 ^ (127 + d)) (up : Bool) :
    ∃ c f c' f', c ≤ 127 ∧ NormalFraction d f ∧ den * (f * 16 ^ c) ≤ N ∧ N < den * ((f + 1) * 16 ^ c) ∧
      (up = false ∨ N = den * (f * 16 ^ c) → c' = c ∧ f' = f) ∧
      (up = true → N ≠ den * (f * 16 ^ c) → f' * 16 ^ c' = (f + 1) * 16 ^ c) ∧
      NormalFraction d f' ∧
      encodeMagnitude d (N / den) (decide (N % den ≠ 0)) up = if 127 < c' then .overflow else .number c' f' := by
  have hle := le_whole_iff (N := N) hden
  have hlt := whole_lt_iff (N := N) hden
  obtain ⟨c, f, hc, hf, hbelow, habove, henc⟩ :=
    encodeMagnitude_in_range hd ((hle _).2 hlo) ((hlt _).2 hhi) (decide (N % den ≠ 0)) up
  rw [rest_or_whole_ne _ hden] at henc
  by_cases hround : up = true ∧ N ≠ den * (f * 16 ^ c)
  · obtain ⟨c', f', hf', hnext, hround'⟩ := roundUp_spec hd hc hf
    refine ⟨c, f, c', f', hc, hf, (hle _).1 hbelow, (hlt _).1 habove, fun h => ?_, fun _ _ => hnext, hf', ?_⟩
    · obtain ⟨hup, hne⟩ := hround
      simp [hup, hne] at h
    · rw [henc, if_pos (by simpa using hround), hround']
  · refine ⟨c, f, c, f, hc, hf, (hle _).1 hbelow, (hlt _).1 habove, fun _ => ⟨rfl, rfl⟩,
      fun hup hne => (hround ⟨hup, hne⟩).elim, hf, ?_⟩
    rw [henc, if_neg (by simpa using hround), if_neg hc.not_gt]

end

/-- The exact result of an operation on the values x and y, in quanta, is num / den. -/
structure ExactFraction (d : Nat) (op : FloatOp) (x y num : Int) (den : Nat) : Prop where
  add : op = .add → num = x + y ∧ den = 1
  sub : op = .sub → num = x - y ∧ den = 1
  mul : op = .mul → num = x * y ∧ den = 16 ^ (64 + d)
  div : op = .div → num = (if y < 0 then -x else x) * 16 ^ (64 + d) ∧ den = y.natAbs

section
variable {d den : Nat} {op : FloatOp} {x y num : Int}

theorem ExactFraction.den_pos (h : ExactFraction d op x y num den) (hdiv : ¬(op = .div ∧ y = 0)) : 0 < den := by
  cases op with
  | add => rw [(h.add rfl).2]; exact Nat.one_pos
  | sub => rw [(h.sub rfl).2]; exact Nat.one_pos
  | mul => rw [(h.mul rfl).2]; exact Nat.pow_pos (by decide)
  | div => rw [(h.div rfl).2]; exact Int.natAbs_pos.2 fun hy => hdiv ⟨rfl, hy⟩

theorem ExactFraction.den_of_sum (h : ExactFraction d op x y num den) (hop : op = .add ∨ op = .sub) : den = 1 :=
  hop.elim (fun ho => (h.add ho).2) fun ho => (h.sub ho).2

/-- The sign of a quotient, its numerator written with the divisor's sign. -/
theorem quotient_neg_iff {k : Int} (hx : x ≠ 0) (hk : 0 < k) :
    ((if y < 0 then -x else x) * k < 0) ↔ (decide (x < 0) != decide (y < 0)) = true := by
  have hsign : (if y < 0 then -x else x) * k < 0 ↔ (if y < 0 then -x else x) < 0 := by
    simpa using mul_lt_mul_iff_left₀ hk (b := if y < 0 then -x else x) (c := 0)
  rw [hsign]
  split
  next hy =>
    have hpos : 0 < x ↔ 0 ≤ x := by omega
    simp [hy, hpos]
  next hy => simp [hy]

theorem exactResult_eq (h : ExactFraction d op x y num den) (hdiv : ¬(op = .div ∧ y = 0)) :
    exactResult d op x y =
      if num = 0 then none else some ⟨decide (num < 0), num.natAbs / den, decide (num.natAbs % den ≠ 0)⟩ := by
  cases op with
  | add =>
    obtain ⟨rfl, rfl⟩ := h.add rfl
    simp [exactResult, Nat.mod_one]
  | sub =>
    obtain ⟨rfl, rfl⟩ := h.sub rfl
    simp [exactResult, Nat.mod_one]
  | mul =>
    obtain ⟨rfl, rfl⟩ := h.mul rfl
    simp only [exactResult, exactQuotient, pow16_eq, Int.natAbs_mul]
  | div =>
    obtain ⟨rfl, rfl⟩ := h.div rfl
    have hpow : (0 : Int) < 16 ^ (64 + d) := by positivity
    have habs : ((if y < 0 then -x else x) * 16 ^ (64 + d)).natAbs = x.natAbs * 16 ^ (64 + d) := by
      rw [Int.natAbs_mul, Int.natAbs_pow]
      split
      · rw [Int.natAbs_neg]; rfl
      · rfl
    by_cases hx : x = 0
    · simp [exactResult, hx]
    · have hnum : (if y < 0 then -x else x) * 16 ^ (64 + d) ≠ 0 := by
        rw [← Int.natAbs_ne_zero, habs]
        positivity
      simp only [exactResult, exactQuotient, if_neg hx, if_neg hnum, pow16_eq, habs, quotient_neg_iff hx hpow,
        Bool.decide_eq_true]

end

/-! ## The answers of `floatArith` (R394) -/

theorem isSum_iff (op : FloatOp) : isSum op = true ↔ op = .add ∨ op = .sub := by
  cases op <;> simp [isSum]

theorem fracDigits_eq {n d : Nat} (hn : n = 4 * d + 8) : fracDigits n = d := by
  rw [fracDigits]
  omega

/-- The word an operation returns whose normalized word is w (R394): with FN = 1 an add or subtract may return another. -/
def returnedWord {n : Nat} (op : FloatOp) (fn : Bool) (proposed : Option (BitVec n)) (w : BitVec n) (neg : Bool)
    (q cmax : Nat) : BitVec n :=
  if isSum op && fn then unnormalizedWord proposed w neg q cmax else w

section
variable {n d den : Nat} {op : FloatOp} {a b w : BitVec n} {proposed : Option (BitVec n)} {fs fz fn up neg : Bool}
  {q cmax : Nat} {num : Int}

theorem returnedWord_normalized (h : ¬((op = .add ∨ op = .sub) ∧ fn = true) ∨ proposed = none) :
    returnedWord op fn proposed w neg q cmax = w := by
  rw [returnedWord]
  split
  next hsum =>
    rw [Bool.and_eq_true, isSum_iff] at hsum
    rw [h.resolve_left (not_not_intro hsum)]
    rfl
  next => rfl

theorem returnedWord_proposed (h : (op = .add ∨ op = .sub) ∧ fn = true) (p : BitVec n) :
    returnedWord op fn (some p) w neg q cmax =
      if p ≠ BitVec.intMin n ∧ floatValue p = (if neg then -((q / 16 ^ cmax * 16 ^ cmax : Nat) : Int)
        else (q / 16 ^ cmax * 16 ^ cmax : Nat)) then p else w := by
  rw [returnedWord, if_pos (by rwa [Bool.and_eq_true, isSum_iff]), ← pow16_eq]
  rfl

theorem floatArith_divzero (h : op = .div ∧ floatValue b = 0) : floatArith op a b fs fz fn up proposed = .divzero :=
  if_pos h

section
variable (hn : n = 4 * d + 8) (hdiv : ¬(op = .div ∧ floatValue b = 0))
  (hfrac : ExactFraction d op (floatValue a) (floatValue b) num den)
include hn hdiv hfrac

theorem floatArith_zero (h0 : num = 0) : floatArith op a b fs fz fn up proposed = .ok 0 := by
  rw [floatArith, fracDigits_eq hn, if_neg hdiv, exactResult_eq hfrac hdiv, if_pos h0]

theorem floatArith_overflow (h0 : num ≠ 0)
    (h : encodeMagnitude d (num.natAbs / den) (decide (num.natAbs % den ≠ 0)) up = .overflow) :
    floatArith op a b fs fz fn up proposed = .overflow := by
  rw [floatArith, fracDigits_eq hn, if_neg hdiv, exactResult_eq hfrac hdiv, if_neg h0]
  dsimp only
  rw [h]

theorem floatArith_underflow (h0 : num ≠ 0)
    (h : encodeMagnitude d (num.natAbs / den) (decide (num.natAbs % den ≠ 0)) up = .underflow) :
    floatArith op a b fs fz fn up proposed = if fz then .underflow else .ok 0 := by
  rw [floatArith, fracDigits_eq hn, if_neg hdiv, exactResult_eq hfrac hdiv, if_neg h0]
  dsimp only
  rw [h]

theorem floatArith_number {c f : Nat} {v : BitVec n} (h0 : num ≠ 0)
    (h : encodeMagnitude d (num.natAbs / den) (decide (num.natAbs % den ≠ 0)) up = .number c f)
    (hv : v = returnedWord op fn proposed (floatWord n (decide (num < 0)) c f) (decide (num < 0)) (num.natAbs / den)
      (max (characteristic a) (characteristic b))) :
    floatArith op a b fs fz fn up proposed =
      if (op = .add ∨ op = .sub) ∧ fs = true ∧ characteristic v + 2 < max (characteristic a) (characteristic b) then .sig v
      else .ok v := by
  rw [floatArith, fracDigits_eq hn, if_neg hdiv, exactResult_eq hfrac hdiv, if_neg h0]
  dsimp only
  rw [h]
  dsimp only
  rw [← returnedWord, ← hv]
  simp only [Bool.and_eq_true, isSum_iff, decide_eq_true_eq, and_assoc]

end

end

/-- Settles O22: `encodeMagnitude_fraction` gives the characteristic and the fraction, `floatWord_spec` what the word that
holds them is worth, and `floatArith_number` which word is returned and whether it is marked. -/
theorem floatResults : Obligations.FloatResults := by
  rintro n d op a b proposed fs fz fn up _ _ num den _ hform rfl rfl hadd hsub hmul hquot rfl
  have hn : n = 4 * d + 8 := by omega
  have hd : 0 < d := by omega
  have hfrac : ExactFraction d op (floatValue a) (floatValue b) num den := ⟨hadd, hsub, hmul, hquot⟩
  refine ⟨floatArith_divzero, fun hdiv => ?_⟩
  have hden := hfrac.den_pos hdiv
  have nonzero {k : Nat} (h : den * 16 ^ k ≤ num.natAbs) : num ≠ 0 :=
    Int.natAbs_pos.1 ((Nat.mul_pos hden (Nat.pow_pos (by decide))).trans_le h)
  refine ⟨floatArith_zero hn hdiv hfrac, fun hover => ?overflow, fun h0 hunder => ?underflow, fun hlo hhi => ?number⟩
  case overflow =>
    exact floatArith_overflow hn hdiv hfrac (nonzero hover) (encodeMagnitude_overflow ((le_whole_iff hden _).2 hover) _ _)
  case underflow =>
    exact floatArith_underflow hn hdiv hfrac h0 (encodeMagnitude_underflow ((whole_lt_iff hden _).2 hunder) _ _)
  case number =>
    obtain ⟨c, f, c', f', hc, hf, hbelow, habove, hexact, hup, hf', henc⟩ :=
      encodeMagnitude_fraction hd hden hlo hhi up
    refine ⟨c, f, c', f', hc, hf.lo, hf.hi, hbelow, habove, hexact, fun h h' => ⟨hf'.lo, hf'.hi, hup h h'⟩,
      fun hc' => floatArith_overflow hn hdiv hfrac (nonzero hlo) (by rw [henc, if_pos hc']), fun hc' => ?_⟩
    obtain ⟨hvalue, hchar, hmin⟩ := floatWord_spec hn hc' hf' (decide (num < 0))
    refine ⟨floatWord n (decide (num < 0)) c' f', _, _, by simpa using hvalue, hchar, rfl, hmin, returnedWord_normalized,
      fun p hsum hp => ?_, floatArith_number hn hdiv hfrac (nonzero hlo) (by rw [henc, if_neg hc'.not_gt]) rfl⟩
    obtain rfl := hfrac.den_of_sum hsum.1
    rw [hp, returnedWord_proposed hsum]
    simp only [Nat.div_one, decide_eq_true_eq]

end Sys2Proof.Machine
end

section
/-! Decimal faults (O26, O29). Every decimal instruction is `needsDecimal` of the rest, which is all there is of it without the
option. With it a fault ends the instruction in `State.decimalFault`, of whatever the field or the accumulator is at fault:
the checks of the stores that come before it (R604) stand in the way only with DM = 1. -/

namespace Sys2Proof.Machine

/-- Settles O26: none of the eleven looks at anything before `needsDecimal`. -/
theorem decimalUnimplemented : Obligations.DecimalUnimplemented := by
  intro s r a v i ho
  have habsent (k : Out) : needsDecimal s k = .next { s with trapPending := some ⟨0x41, 0#4, false⟩ } :=
    needsDecimal_absent ho k
  revert i
  simp only [List.forall_mem_cons]
  exact ⟨habsent _, habsent _, habsent _, habsent _, habsent _, habsent _, habsent _, habsent _, habsent _, habsent _,
    habsent _, List.forall_mem_nil _⟩

/-! ## The end by a fault (R443) -/

/-- What a decimal fault of the CC bit c leaves. -/
def State.decimalFaultCC (s : State) (c : BitVec 4) : State :=
  if s.psd.dm then { s with trapPending := some ⟨0x45, 0#4, false⟩ }
  else { s with psd := { s.psd with cc := s.psd.cc ||| c } }

theorem State.decimalFault_illegalDigit (s : State) : s.decimalFault .illegalDigit = s.decimalFaultCC 0b1000#4 := by
  unfold State.decimalFault State.decimalFaultCC
  rw [← ccOf_set_cc1]
  rfl

theorem State.decimalFault_overflow (s : State) : s.decimalFault .overflow = s.decimalFaultCC 0b0100#4 := by
  unfold State.decimalFault State.decimalFaultCC
  rw [← ccOf_set_cc2]
  rfl

/-- Which of the two a length or divide fault is, a free value says. -/
theorem State.decimalFault_lengthOrDivide (s : State) :
    { s.decimalFault .lengthOrDivide with freeCount := s.freeCount } = s.decimalFaultCC 0b1000#4 ∨
    { s.decimalFault .lengthOrDivide with freeCount := s.freeCount } = s.decimalFaultCC 0b0100#4 := by
  rw [← s.decimalFault_illegalDigit, ← s.decimalFault_overflow]
  unfold State.decimalFault
  split
  · exact .inl rfl
  · dsimp only
    split
    · exact .inr rfl
    · exact .inl rfl

theorem endDecimal_of_stores {s : State} {stores : Option Trap} (h : s.psd.dm = true → stores = none) (f : DecimalFault) :
    endDecimal s stores f = .next (s.decimalFault f) := by
  unfold endDecimal
  split
  case isTrue hdm => rw [h hdm, orRaise_none]
  case isFalse => rfl

/-- The checks of a field's stores find nothing, or do not matter. -/
theorem endDecimal_field {s : State} {n : Nat} {ea : ByteAddr}
    (h : s.psd.dm = true → ∀ k, k < n → ∃ p, s.resolve ((ea + BitVec.ofNat 19 k).extractLsb' 2 17) .write = .ok p)
    (f : DecimalFault) : endDecimal s (s.faultBytes .write n ea) f = .next (s.decimalFault f) :=
  endDecimal_of_stores (fun hdm => (State.faultBytes_eq_none ..).2 (h hdm)) f

theorem orIllegal_illegal (s : State) (k : Int → Out) :
    orIllegal s none none k = .next (s.decimalFaultCC 0b1000#4) := by
  rw [← s.decimalFault_illegalDigit]
  exact endDecimal_of_stores (fun _ => rfl) _

theorem withDecimals_illegal {s v u : State} {r : RegNum} {a : AddrField} {ea : ByteAddr} {bs : List Byte}
    (he : s.effByte a = .ok ea v) (hf : readField (decimalLength r) ea v = .ok bs u)
    (h : packedValue bs = none ∨ u.accValue = none) (k : Int → Int → State → Out) :
    withDecimals r a s k = .next (u.decimalFaultCC 0b1000#4) := by
  rw [withDecimals, withField_ok he hf]
  cases hx : u.accValue with
  | none => exact orIllegal_illegal ..
  | some x =>
    rw [h.resolve_right (by simp [hx])]
    exact orIllegal_illegal u (k x · u)

theorem State.decimalResult_overflow {s : State} {v : Int} (h : 10 ^ 31 ≤ v.natAbs) :
    s.decimalResult v = s.decimalFaultCC 0b0100#4 := by
  rw [← s.decimalFault_overflow]
  exact if_pos h

/-! ## Illegal digits and signs (R430, R439) -/

theorem signedValue_eq_none {ds : List (BitVec 4)} {g : BitVec 4} (h : (∃ d ∈ ds, 9 < d.toNat) ∨ g.toNat < 10) :
    signedValue ds g = none := by
  obtain hd | hg := h
  · unfold signedValue
    rw [digitsValue_eq_none hd]
    exact ite_self none
  · exact if_pos hg

/-- A zoned string with an illegal digit, or with a last zone that is no sign, packs to no value. -/
theorem packedValue_zoned_eq_none {zs : List Byte} {r : RegNum} (hl : zs.length = 2 * decimalLength r - 1)
    (h : (∃ b ∈ zs, 9 < (b.extractLsb' 0 4).toNat) ∨ ((zs.getLastD 0#8).extractLsb' 4 4).toNat < 10) :
    packedValue (packNibbles (zonedNibbles zs)) = none := by
  have hpack : packedValue (packNibbles (zonedNibbles zs)) = _ :=
    packedValue_of_nibbles (nibbles_packNibbles (zonedNibbles zs) (packed_zoned_length hl).1)
  rw [hpack]
  exact signedValue_eq_none (h.imp_left fun ⟨b, hb, h9⟩ => ⟨_, List.mem_map_of_mem hb, h9⟩)

/-! ## The instructions -/

section
variable {s v u : State} {r : RegNum} {a : AddrField} {ea : ByteAddr} {bs : List Byte}
  (ho : s.config.decimalOption = true)
include ho

section
variable (he : s.effByte a = .ok ea v) (hf : readField (decimalLength r) ea v = .ok bs u)
include he hf

theorem exec_dl_illegal (h : packedValue bs = none) : exec (.dl r a) s = .next (u.decimalFaultCC 0b1000#4) := by
  show execDl r a s = _
  rw [execDl, needsDecimal_present ho, withField_ok he hf, h]
  exact orIllegal_illegal ..

theorem exec_unpk_illegal (h : packedValue bs = none) (hs : u.psd.dm = true → ∀ k, k < 2 * decimalLength r - 1 →
      ∃ p, u.resolve ((ea + BitVec.ofNat 19 k).extractLsb' 2 17) .write = .ok p) :
    exec (.unpk r a) s = .next (u.decimalFaultCC 0b1000#4) := by
  show execUnpk r a s = _
  rw [execUnpk, needsDecimal_present ho, withField_ok he hf, h, ← u.decimalFault_illegalDigit]
  exact endDecimal_field hs _

theorem exec_decimals_illegal (h : packedValue bs = none ∨ u.accValue = none) :
    ∀ i ∈ [Instr.da r a, .ds r a, .dm r a, .dd r a, .dc r a], exec i s = .next (u.decimalFaultCC 0b1000#4) := by
  have hk (k : Int → Int → State → Out) :
      needsDecimal s (withDecimals r a s k) = .next (u.decimalFaultCC 0b1000#4) :=
    (needsDecimal_present ho _).trans (withDecimals_illegal he hf h k)
  simp only [List.forall_mem_cons]
  exact ⟨hk _, hk _, hk _, hk _, hk _, List.forall_mem_nil _⟩

variable {x y : Int} (hx : u.accValue = some x) (hy : packedValue bs = some y)
include hx hy

theorem exec_da_overflow (h : 10 ^ 31 ≤ (x + y).natAbs) : exec (.da r a) s = .next (u.decimalFaultCC 0b0100#4) := by
  show execDa r a s = _
  rw [execDa, needsDecimal_present ho, withDecimals_ok he hf hx hy, State.decimalResult_overflow h]

theorem exec_ds_overflow (h : 10 ^ 31 ≤ (x - y).natAbs) : exec (.ds r a) s = .next (u.decimalFaultCC 0b0100#4) := by
  show execDs r a s = _
  rw [execDs, needsDecimal_present ho, withDecimals_ok he hf hx hy, State.decimalResult_overflow h]

theorem exec_dm_length (h : 8 < decimalLength r ∨ 10 ^ 16 ≤ x.natAbs) :
    exec (.dm r a) s = .next (u.decimalFault .lengthOrDivide) := by
  show execDm r a s = _
  rw [execDm, needsDecimal_present ho, withDecimals_ok he hf hx hy, if_pos h]

theorem exec_dd_lengthOrDivide (h : 8 < decimalLength r ∨ y = 0 ∨ 10 ^ 15 ≤ (x.tdiv y).natAbs) :
    exec (.dd r a) s = .next (u.decimalFault .lengthOrDivide) := by
  show execDd r a s = _
  rw [execDd, needsDecimal_present ho, withDecimals_ok he hf hx hy, if_pos h]

end

section
variable (he : s.effByte a = .ok ea u) (hs : u.psd.dm = true → ∀ k, k < decimalLength r →
  ∃ p, u.resolve ((ea + BitVec.ofNat 19 k).extractLsb' 2 17) .write = .ok p)
include he hs

theorem exec_dst_illegal (hx : u.accValue = none) : exec (.dst r a) s = .next (u.decimalFaultCC 0b1000#4) := by
  show execDst r a s = _
  rw [execDst, needsDecimal_present ho, he, orTrap_ok, hx, ← u.decimalFault_illegalDigit]
  exact endDecimal_field hs _

theorem exec_dst_overflow {x : Int} (hx : u.accValue = some x) (h : 10 ^ (2 * decimalLength r - 1) ≤ x.natAbs) :
    exec (.dst r a) s = .next (u.decimalFaultCC 0b0100#4) := by
  show execDst r a s = _
  rw [execDst, needsDecimal_present ho, he, orTrap_ok, hx, ← u.decimalFault_overflow]
  exact (if_pos h).trans (endDecimal_field hs _)

end

theorem exec_dsa_illegal {ea : WordAddr} (he : s.effWord a = .ok ea u) (hx : u.accValue = none) :
    exec (.dsa r a) s = .next (u.decimalFaultCC 0b1000#4) := by
  show execDsa r a s = _
  rw [execDsa, needsDecimal_present ho, he, orTrap_ok, hx]
  exact orIllegal_illegal ..

theorem exec_pack_illegal {zs : List Byte} (he : s.effByte a = .ok ea v)
    (hf : readField (2 * decimalLength r - 1) ea v = .ok zs u)
    (hs : u.psd.dm = true → ∀ k, k < decimalLength r →
      ∃ p, u.resolve ((ea + BitVec.ofNat 19 k).extractLsb' 2 17) .write = .ok p)
    (h : (∃ b ∈ zs, 9 < (b.extractLsb' 0 4).toNat) ∨ ((zs.getLastD 0#8).extractLsb' 4 4).toNat < 10) :
    exec (.pack r a) s = .next (u.decimalFaultCC 0b1000#4) := by
  show execPack r a s = _
  rw [execPack, needsDecimal_present ho, withField_ok he hf, packedValue_zoned_eq_none (readField_length hf) h,
    ← u.decimalFault_illegalDigit]
  exact endDecimal_field hs _

end

/-- Settles O29: `fault` is `State.decimalFaultCC`. -/
theorem decimalFaults : Obligations.DecimalFaults := by
  rintro s r a _ fault ho rfl hfault
  obtain rfl : fault = State.decimalFaultCC := funext fun u => funext (hfault u)
  refine ⟨fun ea bs v u he hf => ?field, fun ea u he hs => ?dst, fun ea u => exec_dsa_illegal ho,
    fun ea zs v u => exec_pack_illegal ho⟩
  case field =>
    refine ⟨exec_dl_illegal ho he hf, exec_unpk_illegal ho he hf, exec_decimals_illegal ho he hf, fun x y hx hy => ?_⟩
    refine ⟨exec_da_overflow ho he hf hx hy, exec_ds_overflow ho he hf hx hy, ?_⟩
    rintro i (⟨rfl, h⟩ | ⟨rfl, h⟩)
    · exact ⟨_, exec_dm_length ho he hf hx hy h, u.decimalFault_lengthOrDivide⟩
    · exact ⟨_, exec_dd_lengthOrDivide ho he hf hx hy h, u.decimalFault_lengthOrDivide⟩
  case dst => exact ⟨exec_dst_illegal ho he hs, fun x hx => exec_dst_overflow ho he hs hx⟩

end Sys2Proof.Machine
end

section
/-! Byte strings (O24, O25). A string is done byte by byte; after k of its bytes the state the instruction began in has changed
as `State.StringDone` says, and the instruction is its own loop from there on (`execMbs_after` and its like, each by
induction on k). So an instruction is followed to the byte at which it ends, and ends there by the loop's equations. -/

namespace Sys2Proof.Machine

/-! ## Frames -/

theorem State.RestKept.resolve {s t : State} (h : s.RestKept t) (vw : WordAddr) (m : Access) :
    t.resolve vw m = s.resolve vw m := by
  rw [show t = _ from h]
  rfl

theorem State.RestKept.between {s t : State} (h : s.RestKept t) : t.between = s.between := by
  rw [show t = _ from h]

section
variable {s t : State} {reg : RegNum → Prop} {byte : Nat → Prop} {cc : BitVec 4} {tp : Option TrapData}
  (h : s.Changes t reg byte cc tp)
include h

theorem State.Changes.reg_eq {i : RegNum} (hi : ¬reg i) : t.reg i = s.reg i := by
  obtain ⟨hregs, -, -, -, hrest⟩ := h
  have hrp : t.psd.rp = s.psd.rp := by rw [show t = _ from hrest]
  rw [State.reg_eq_blockReg, hrp]
  exact hregs _ _ fun _ => hi

theorem State.Changes.setReg {i : RegNum} (hi : reg i) (v : Word) : s.Changes (t.setReg i v) reg byte cc tp :=
  h.storeWord (.reg i) v (by rintro _ ⟨⟩; exact hi) fun _ hb => hb.elim

theorem State.Changes.writeByte {a : Nat} (ha : byte a) (v : Byte) :
    s.Changes (t.setMem (t.mem.write a v)) reg byte cc tp := by
  obtain ⟨hregs, hmem, hcc, htrap, hrest⟩ := h
  refine ⟨hregs, fun b hb => ?_, hcc, htrap, ?_⟩
  · have hne : b ≠ a := fun e => hb (e ▸ ha)
    exact (Memory.read_write_ne _ _ hne).trans (hmem b hb)
  · unfold State.RestKept at *
    unfold State.setMem
    rw [hrest]

theorem State.Changes.raise (x : Trap) : s.Changes (t.raise x) reg byte cc (some ⟨x.vector, x.cc, false⟩) := by
  obtain ⟨hregs, hmem, hcc, -, hrest⟩ := h
  refine ⟨hregs, hmem, hcc, rfl, ?_⟩
  unfold State.RestKept at *
  unfold State.raise
  rw [hrest]

theorem State.Changes.putSource {r : RegNum} (hr : r ≠ 0#4 → reg r) (src : ByteAddr) :
    s.Changes (t.putSource r src) reg byte cc tp := by
  unfold State.putSource
  split
  case isTrue => exact h
  case isFalse hr0 => exact h.setReg (hr hr0) _

theorem State.Changes.putDest {r : RegNum} (hr : reg (ru1 r)) (n : Nat) (dst : ByteAddr) :
    s.Changes (t.putDest r n dst) reg byte cc tp := h.setReg hr _

theorem State.Changes.testStop {r : RegNum} (hr : r ≠ 0#4 → reg r) (m : Byte) :
    s.Changes (t.testStop r m) reg byte (t.psd.cc.extractLsb' 1 3 ++ 1#1) tp := by
  unfold State.testStop
  split
  case isTrue => exact h.setCC _
  case isFalse hr0 => exact (h.setReg (hr hr0) _).setCC _

end

/-! ## The fields of a string's registers (R420) -/

/-- The displacement counts modulo 2^19. -/
theorem stringDisp_eq (v : BitVec 20) : stringDisp v = v.setWidth 19 := by
  unfold stringDisp
  ext i hi
  simp [BitVec.getElem_signExtend, show i < 20 by omega, show i < 32 by omega]

theorem stringDisp_add_one (v : BitVec 20) : stringDisp (v + 1#20) = stringDisp v + 1#19 := by
  rw [stringDisp_eq, stringDisp_eq, BitVec.setWidth_add _ _ (by decide)]
  rfl

/-- A word put together from its fields again. -/
theorem dest_fields (w : Word) : w.extractLsb' 24 8 ++ w.extractLsb' 19 5 ++ w.extractLsb' 0 19 = w := by
  apply BitVec.eq_of_toNat_eq
  have := w.isLt
  simp only [toNat_append_eq_add, BitVec.extractLsb'_toNat, Nat.shiftRight_eq_div_pow]
  omega

theorem source_fields (w : Word) : w.extractLsb' 19 13 ++ w.extractLsb' 0 19 = w := by
  apply BitVec.eq_of_toNat_eq
  have := w.isLt
  simp only [toNat_append_eq_add, BitVec.extractLsb'_toNat, Nat.shiftRight_eq_div_pow]
  omega

@[simp] theorem State.putSource_zero (s : State) (src : ByteAddr) : s.putSource 0#4 src = s := if_pos rfl

theorem State.stringSource_zero (s : State) : s.stringSource 0#4 = 0#19 := if_pos rfl

theorem State.stringSource_of_ne (s : State) {r : RegNum} (hr : r ≠ 0#4) :
    s.stringSource r = (s.reg r).extractLsb' 0 19 := if_neg hr

theorem State.stringCount_lt (s : State) (r : RegNum) : s.stringCount r < 2 ^ 8 := BitVec.isLt _

theorem State.reg_putSource_ne (s : State) {r i : RegNum} (hi : i ≠ r) (src : ByteAddr) :
    (s.putSource r src).reg i = s.reg i := by
  unfold State.putSource
  split
  · rfl
  · exact State.reg_setReg_ne _ _ hi

theorem State.reg_putSource (s : State) {r : RegNum} (hr : r ≠ 0#4) (src : ByteAddr) :
    (s.putSource r src).reg r = (s.reg r).extractLsb' 19 13 ++ src := by
  rw [State.putSource, if_neg hr, State.reg_setReg_same]

theorem State.reg_putDest (s : State) (r : RegNum) (n : Nat) (dst : ByteAddr) :
    (s.putDest r n dst).reg (ru1 r) = BitVec.ofNat 8 n ++ (s.reg (ru1 r)).extractLsb' 19 5 ++ dst :=
  State.reg_setReg_same ..

theorem State.reg_putDest_ne (s : State) {r i : RegNum} (hi : i ≠ ru1 r) (n : Nat) (dst : ByteAddr) :
    (s.putDest r n dst).reg i = s.reg i := State.reg_setReg_ne _ _ hi

/-- The source field leaves the bits between count and destination alone, in an odd R too. -/
theorem State.reg_putSource_middle (s : State) (r : RegNum) (src : ByteAddr) :
    ((s.putSource r src).reg (ru1 r)).extractLsb' 19 5 = (s.reg (ru1 r)).extractLsb' 19 5 := by
  by_cases hr : ru1 r = r
  · by_cases hr0 : r = 0#4
    · rw [hr0, State.putSource_zero]
    · rw [hr, s.reg_putSource hr0, extract_append_of_le _ _ (le_refl _)]
      ext i hi
      simp [show i < 13 by omega]
  · rw [s.reg_putSource_ne hr]

/-- Fields read back from a register that describes n bytes at dst. -/
theorem State.string_putDest (s : State) (r : RegNum) {n : Nat} (hn : n < 2 ^ 8) (dst : ByteAddr) :
    (s.putDest r n dst).stringCount r = n ∧ (s.putDest r n dst).stringDest r = dst := by
  unfold State.stringCount State.stringDest
  rw [State.reg_putDest, extract_append_low, extract_append_of_le _ _ (by decide), extract_append_high, BitVec.toNat_ofNat,
    Nat.mod_eq_of_lt hn]
  exact ⟨rfl, rfl⟩

/-! ## Part of a string -/

/-- From s to t the first k bytes of R's string are done: real memory is m, and Ru1 describes the rest (R420). -/
structure State.StringDone (s t : State) (r : RegNum) (k : Nat) (m : Memory) (reg : RegNum → Prop) (byte : Nat → Prop) :
    Prop where
  mem : t.mem = m
  dest : t.reg (ru1 r) = BitVec.ofNat 8 (s.stringCount r - k) ++ (s.reg (ru1 r)).extractLsb' 19 5 ++
    (s.stringDest r + BitVec.ofNat 19 k)
  frame : s.Changes t reg byte s.psd.cc s.trapPending

/-- The source field of R, where R is a register of its own, describes the source after k bytes (R420). -/
def State.SourceDone (s t : State) (r : RegNum) (k : Nat) : Prop :=
  r ≠ 0#4 → r[0] = false → t.reg r = (s.reg r).extractLsb' 19 13 ++ (s.stringSource r + BitVec.ofNat 19 k)

/-- The registers a string whose source advances may change. -/
def StringRegs (r i : RegNum) : Prop := i = ru1 r ∨ i = r ∧ r ≠ 0#4

theorem State.stringDone_zero (s : State) (r : RegNum) (reg : RegNum → Prop) (byte : Nat → Prop) :
    s.StringDone s r 0 s.mem reg byte := by
  refine ⟨rfl, ?_, s.changes_refl reg byte⟩
  rw [State.stringCount, State.stringDest, Nat.sub_zero, BitVec.ofNat_toNat, BitVec.setWidth_eq, BitVec.add_zero,
    dest_fields]

theorem State.sourceDone_zero (s : State) (r : RegNum) : s.SourceDone s r 0 := by
  intro hr0 _
  rw [s.stringSource_of_ne hr0, BitVec.add_zero, source_fields]

/-- Both fields are written, the source first. -/
theorem State.SourceDone.put {s t : State} {r : RegNum} {k : Nat} (h : s.SourceDone t r k) (n : Nat) (dst : ByteAddr) :
    s.SourceDone ((t.putSource r (s.stringSource r + BitVec.ofNat 19 (k + 1))).putDest r n dst) r (k + 1) := by
  intro hr0 heven
  rw [State.reg_putDest_ne _ (ru1_even heven).2.symm, t.reg_putSource hr0, h hr0 heven, extract_append_high]

section
variable {s t : State} {r : RegNum} {k : Nat} {m : Memory} {reg : RegNum → Prop} {byte : Nat → Prop}
  (h : s.StringDone t r k m reg byte)
include h

theorem State.StringDone.resolve (vw : WordAddr) (md : Access) : t.resolve vw md = s.resolve vw md := by
  obtain ⟨-, -, -, -, hrest⟩ := h.frame
  exact hrest.resolve vw md

theorem State.StringDone.between : t.between = s.between := by
  obtain ⟨-, -, -, -, hrest⟩ := h.frame
  exact hrest.between

theorem State.StringDone.cc : t.psd.cc = s.psd.cc := by
  obtain ⟨-, -, hcc, -⟩ := h.frame
  exact hcc

theorem State.StringDone.writeByte {a : Nat} (ha : byte a) (v : Byte) :
    s.StringDone (t.setMem (m.write a v)) r k (m.write a v) reg byte :=
  ⟨rfl, h.dest, h.mem ▸ h.frame.writeByte ha v⟩

/-- One byte more: count and destination are written back. -/
theorem State.StringDone.putDest (hr : reg (ru1 r)) :
    s.StringDone (t.putDest r (s.stringCount r - (k + 1)) (s.stringDest r + BitVec.ofNat 19 (k + 1))) r (k + 1) m reg
      byte := by
  refine ⟨h.mem, ?_, h.frame.putDest hr _ _⟩
  rw [State.reg_putDest, h.dest, extract_append_middle]

/-- One byte more of two strings that both advance. -/
theorem State.StringDone.putBoth (hr : reg (ru1 r)) (hr0 : r ≠ 0#4 → reg r) (src : ByteAddr) :
    s.StringDone ((t.putSource r src).putDest r (s.stringCount r - (k + 1)) (s.stringDest r + BitVec.ofNat 19 (k + 1))) r
      (k + 1) m reg byte := by
  refine ⟨?mem, ?dest, (h.frame.putSource hr0 src).putDest hr _ _⟩
  case mem =>
    rw [← h.mem]
    unfold State.putSource
    split <;> rfl
  case dest => rw [State.reg_putDest, State.reg_putSource_middle, h.dest, extract_append_middle]

/-! The accesses of the bytes that come next, no other agent acting. -/

variable (hb : s.between = [])
include hb

theorem State.StringDone.others : t.others = t := State.others_nil (h.between.trans hb)

theorem State.StringDone.readByte_real {va : ByteAddr} {md : Access} {a : Nat} (ha : s.RealByte va md a) :
    t.readByte va md = .ok (m.read a) t := by
  obtain ⟨rw, hr, rfl⟩ := ha
  refine State.readByte_ok.2 ⟨.real rw, (h.resolve ..).trans hr, ?_, h.others hb⟩
  rw [h.others hb, ← h.mem]
  rfl

theorem State.StringDone.writeByte_real {va : ByteAddr} {a : Nat} (ha : s.RealByte va .write a) (v : Byte) :
    t.writeByte va v = .ok () (t.setMem (m.write a v)) := by
  obtain ⟨rw, hr, rfl⟩ := ha
  refine State.writeByte_ok.2 ⟨.real rw, (h.resolve ..).trans hr, ?_⟩
  rw [h.others hb, ← h.mem]
  rfl

theorem State.StringDone.readByte_trap {va : ByteAddr} {md : Access} {x : Trap}
    (hx : s.resolve (va.extractLsb' 2 17) md = .error x) : t.readByte va md = .trap x t :=
  State.readByte_alone_trap (h.between.trans hb) ((h.resolve ..).trans hx)

theorem State.StringDone.writeByte_trap {va : ByteAddr} {x : Trap}
    (hx : s.resolve (va.extractLsb' 2 17) .write = .error x) (v : Byte) : t.writeByte va v = .trap x t := by
  rw [State.writeByte, State.access_trap ((h.resolve ..).trans hx), h.others hb]

end

theorem bytes_left {n j : Nat} (hj : j < n) : n - j = n - (j + 1) + 1 := by omega

/-! ## MBS (R421) -/

section
variable {s : State} {r : RegNum} {v : BitVec 20} {d e : Nat → Nat} {m : Nat → Memory} {byte : Nat → Prop} {j : Nat}
  (hb : s.between = [])
include hb

/-- MBS after j bytes. -/
theorem execMbs_after (hm : m 0 = s.mem) (hj : j ≤ s.stringCount r)
    (h : ∀ k, k < j → s.RealByte (s.stringSource r + v.setWidth 19 + BitVec.ofNat 19 k) .read (e k) ∧
      s.RealByte (s.stringDest r + BitVec.ofNat 19 k) .write (d k) ∧ m (k + 1) = (m k).write (d k) ((m k).read (e k)))
    (hbyte : ∀ k, k < j → byte (d k)) :
    ∃ t, s.StringDone t r j (m j) (StringRegs r) byte ∧ s.SourceDone t r j ∧
      execMbs r v s = moveBytes r (v.setWidth 19) (s.stringCount r - j) (s.stringSource r + BitVec.ofNat 19 j)
        (s.stringDest r + BitVec.ofNat 19 j) t := by
  induction j with
  | zero =>
    refine ⟨s, hm ▸ s.stringDone_zero .., s.sourceDone_zero r, ?_⟩
    rw [execMbs, stringDisp_eq, BitVec.add_zero, BitVec.add_zero, Nat.sub_zero]
  | succ j ih =>
    obtain ⟨t, done, source, hrun⟩ := ih (by omega) (fun k hk => h k (by omega)) (fun k hk => hbyte k (by omega))
    obtain ⟨he, hd, hmem⟩ := h j (by omega)
    rw [add_right_comm] at he
    rw [hmem]
    have hsource : s.SourceDone (t.setMem ((m j).write (d j) ((m j).read (e j)))) r j := source
    refine ⟨_, (done.writeByte (hbyte j (by omega)) _).putBoth (.inl rfl) (fun hr => .inr ⟨rfl, hr⟩) _,
      hsource.put _ _, ?_⟩
    rw [hrun, bytes_left hj, moveBytes, done.readByte_real hb he,
      orTrap_ok, done.writeByte_real hb hd, orTrap_ok, offset_add_one, offset_add_one]

/-- MBS at a byte that cannot be accessed. -/
theorem moveBytes_trap {t : State} {reg : RegNum → Prop} {mem : Memory} (done : s.StringDone t r j mem reg byte)
    (hj : j < s.stringCount r) {x : Trap} {a : Nat}
    (hx : s.resolve ((s.stringSource r + v.setWidth 19 + BitVec.ofNat 19 j).extractLsb' 2 17) .read = .error x ∨
      s.RealByte (s.stringSource r + v.setWidth 19 + BitVec.ofNat 19 j) .read a ∧
        s.resolve ((s.stringDest r + BitVec.ofNat 19 j).extractLsb' 2 17) .write = .error x) :
    moveBytes r (v.setWidth 19) (s.stringCount r - j) (s.stringSource r + BitVec.ofNat 19 j)
      (s.stringDest r + BitVec.ofNat 19 j) t = .next (t.raise x) := by
  rw [bytes_left hj, moveBytes, add_right_comm]
  obtain hx | ⟨ha, hx⟩ := hx
  · rw [done.readByte_trap hb hx, orTrap_trap]
  · rw [done.readByte_real hb ha, orTrap_ok, done.writeByte_trap hb hx, orTrap_trap]

end

/-- With R = 0 the source is the displacement alone (R420). -/
theorem moveBytes_displaced (disp : ByteAddr) (n : Nat) (src dst : ByteAddr) (s : State) :
    moveBytes 0#4 disp n (src + 1#19) dst s = moveBytes 0#4 (disp + 1#19) n src dst s := by
  induction n generalizing src dst s with
  | zero => rfl
  | succ n ih =>
    simp only [moveBytes, State.putSource_zero, ih, show src + 1#19 + disp = src + (disp + 1#19) by ac_rfl]

/-- MBS done for one byte and run again. -/
theorem execMbs_again {s : State} {r : RegNum} (heven : r[0] = false) (v : BitVec 20) {n : Nat} (hn : n < 2 ^ 8)
    (src dst : ByteAddr) (hsrc : r = 0#4 → src = 0#19) :
    execMbs r (if r = 0#4 then v + 1#20 else v) ((s.putSource r (src + 1#19)).putDest r n dst) =
      moveBytes r (stringDisp v) n (src + 1#19) dst ((s.putSource r (src + 1#19)).putDest r n dst) := by
  obtain ⟨hcount, hdest⟩ := (s.putSource r (src + 1#19)).string_putDest r hn dst
  rw [execMbs, hcount, hdest]
  split
  case isTrue hr0 =>
    subst hr0
    rw [hsrc rfl, State.stringSource_zero, stringDisp_add_one, moveBytes_displaced]
  case isFalse hr0 =>
    rw [State.stringSource_of_ne _ hr0, State.reg_putDest_ne _ (ru1_even heven).2.symm, s.reg_putSource hr0,
      extract_append_low]

/-! ## TBS (R423) -/

section
variable {s : State} {r : RegNum} {v : BitVec 20} {d e : Nat → Nat} {m : Nat → Memory} {byte : Nat → Prop} {j : Nat}
  (hb : s.between = [])
include hb

/-- TBS after j bytes. -/
theorem execTbs_after (hm : m 0 = s.mem) (hj : j ≤ s.stringCount r)
    (h : ∀ k, k < j → s.RealByte (s.stringDest r + BitVec.ofNat 19 k) .read (d k) ∧
      s.RealByte (s.stringDest r + BitVec.ofNat 19 k) .write (d k) ∧
      s.RealByte (s.stringSource r + v.setWidth 19 + ((m k).read (d k)).setWidth 19) .read (e k) ∧
      m (k + 1) = (m k).write (d k) ((m k).read (e k)))
    (hbyte : ∀ k, k < j → byte (d k)) :
    ∃ t, s.StringDone t r j (m j) (· = ru1 r) byte ∧
      execTbs r v s = translateBytes r (s.stringSource r + v.setWidth 19) (s.stringCount r - j)
        (s.stringDest r + BitVec.ofNat 19 j) t := by
  induction j with
  | zero =>
    refine ⟨s, hm ▸ s.stringDone_zero .., ?_⟩
    rw [execTbs, stringDisp_eq, BitVec.add_zero, Nat.sub_zero]
  | succ j ih =>
    obtain ⟨t, done, hrun⟩ := ih (by omega) (fun k hk => h k (by omega)) (fun k hk => hbyte k (by omega))
    obtain ⟨hread, hwrite, htable, hmem⟩ := h j (by omega)
    rw [hmem]
    refine ⟨_, (done.writeByte (hbyte j (by omega)) _).putDest rfl, ?_⟩
    rw [hrun, bytes_left hj, translateBytes,
      done.readByte_real hb hread, orTrap_ok, done.readByte_real hb htable, orTrap_ok, done.writeByte_real hb hwrite,
      orTrap_ok, offset_add_one]

/-- TBS at a byte of which one of the three accesses traps. -/
theorem translateBytes_trap {t : State} {reg : RegNum → Prop} {mem : Memory} (done : s.StringDone t r j mem reg byte)
    (hj : j < s.stringCount r) {x : Trap} {a b : Nat}
    (hx : s.resolve ((s.stringDest r + BitVec.ofNat 19 j).extractLsb' 2 17) .read = .error x ∨
      s.RealByte (s.stringDest r + BitVec.ofNat 19 j) .read a ∧
        (s.resolve ((s.stringSource r + v.setWidth 19 + (mem.read a).setWidth 19).extractLsb' 2 17) .read = .error x ∨
          s.RealByte (s.stringSource r + v.setWidth 19 + (mem.read a).setWidth 19) .read b ∧
            s.resolve ((s.stringDest r + BitVec.ofNat 19 j).extractLsb' 2 17) .write = .error x)) :
    translateBytes r (s.stringSource r + v.setWidth 19) (s.stringCount r - j) (s.stringDest r + BitVec.ofNat 19 j) t =
      .next (t.raise x) := by
  rw [bytes_left hj, translateBytes]
  obtain hx | ⟨ha, hx | ⟨htable, hx⟩⟩ := hx
  · rw [done.readByte_trap hb hx, orTrap_trap]
  · rw [done.readByte_real hb ha, orTrap_ok, done.readByte_trap hb hx, orTrap_trap]
  · rw [done.readByte_real hb ha, orTrap_ok, done.readByte_real hb htable, orTrap_ok, done.writeByte_trap hb hx,
      orTrap_trap]

end

/-- Settles O24: an instruction is followed to the byte at which it ends, and is at its end or traps there. -/
theorem moveAndTranslate : Obligations.MoveAndTranslate := by
  refine ⟨fun s r v h0 => ?empty, fun s r v x u hpos => ?first, fun s r v b u t heven hpos hread hwrite => ?again, ?mbs,
    ?tbs⟩
  case empty =>
    refine ⟨?_, ?_⟩
    · show execMbs r v s = _
      rw [execMbs, h0, moveBytes]
    · show execTbs r v s = _
      rw [execTbs, h0, translateBytes]
  case first =>
    obtain ⟨n, hn⟩ := Nat.exists_eq_add_one_of_ne_zero hpos.ne'
    refine ⟨fun h => ?_, fun h => ?_⟩
    · show execMbs r v s = _
      rw [execMbs, hn, moveBytes]
      obtain h | ⟨b, y, hread, hx, rfl⟩ := h
      · exact orTrap_of_trap h _
      · rw [hread, orTrap_ok]
        exact orTrap_access hx _ _
    · show execTbs r v s = _
      rw [execTbs, hn, translateBytes]
      exact orTrap_of_trap h _
  case again =>
    obtain ⟨n, hn⟩ := Nat.exists_eq_add_one_of_ne_zero hpos.ne'
    have hlt := s.stringCount_lt r
    show execMbs r v s = execMbs r _ _
    rw [hn, Nat.add_sub_cancel, execMbs_again heven v (by omega) _ _ (fun hr0 => hr0 ▸ s.stringSource_zero), execMbs, hn,
      moveBytes, hread, orTrap_ok, hwrite, orTrap_ok]
  case mbs =>
    rintro s r v _ _ _ j d e m trap hb rfl rfl rfl hm h hend
    obtain ⟨t, done, source, hrun⟩ := execMbs_after (byte := fun b => ∃ k, k < j ∧ b = d k) hb hm
      (hend.elim (·.1.le) (·.1.le)) h fun k hk => ⟨k, hk, rfl⟩
    obtain ⟨rfl, rfl⟩ | ⟨hj, x, rfl, hx⟩ := hend
    · refine ⟨t, hrun.trans ?_, done.mem, done.dest, source, done.frame⟩
      rw [State.stringCount, Nat.sub_self, moveBytes]
    · exact ⟨t.raise x, hrun.trans (moveBytes_trap hb done hj hx), done.mem, done.dest, source, done.frame.raise x⟩
  case tbs =>
    rintro s r v _ _ _ j d e m trap hb rfl rfl rfl hm h hend
    obtain ⟨t, done, hrun⟩ := execTbs_after (byte := fun b => ∃ k, k < j ∧ b = d k) hb hm
      (hend.elim (·.1.le) (·.1.le)) h fun k hk => ⟨k, hk, rfl⟩
    obtain ⟨rfl, rfl⟩ | ⟨hj, x, rfl, hx⟩ := hend
    · refine ⟨t, hrun.trans ?_, done.mem, done.dest, done.frame⟩
      rw [State.stringCount, Nat.sub_self, translateBytes]
    · exact ⟨t.raise x, hrun.trans (translateBytes_trap hb done hj hx), done.mem, done.dest, done.frame.raise x⟩

/-! ## CBS (R422) -/

section
variable {s : State} {r : RegNum} {v : BitVec 20} {d e : Nat → Nat} {byte : Nat → Prop} {j : Nat} (hb : s.between = [])
include hb

/-- CBS after j equal pairs. -/
theorem execCbs_after (hj : j ≤ s.stringCount r)
    (h : ∀ k, k < j → s.RealByte (s.stringSource r + v.setWidth 19 + BitVec.ofNat 19 k) .read (e k) ∧
      s.RealByte (s.stringDest r + BitVec.ofNat 19 k) .read (d k) ∧ s.mem.read (e k) = s.mem.read (d k)) :
    ∃ t, s.StringDone t r j s.mem (StringRegs r) (fun _ => False) ∧ s.SourceDone t r j ∧
      execCbs r v s = compareBytes r (v.setWidth 19) (s.stringCount r - j) (s.stringSource r + BitVec.ofNat 19 j)
        (s.stringDest r + BitVec.ofNat 19 j) t := by
  induction j with
  | zero =>
    refine ⟨s, s.stringDone_zero .., s.sourceDone_zero r, ?_⟩
    rw [execCbs, stringDisp_eq, BitVec.add_zero, BitVec.add_zero, Nat.sub_zero]
  | succ j ih =>
    obtain ⟨t, done, source, hrun⟩ := ih (by omega) fun k hk => h k (by omega)
    obtain ⟨he, hd, heq⟩ := h j (by omega)
    rw [add_right_comm] at he
    refine ⟨_, done.putBoth (.inl rfl) (fun hr => .inr ⟨rfl, hr⟩) _, source.put _ _, ?_⟩
    rw [hrun, bytes_left hj, compareBytes, done.readByte_real hb he,
      orTrap_ok, done.readByte_real hb hd, orTrap_ok, if_pos heq, offset_add_one, offset_add_one]

variable {t : State} {reg : RegNum → Prop} (done : s.StringDone t r j s.mem reg byte) (hj : j < s.stringCount r)
include done hj

/-- CBS at a pair that differs. -/
theorem compareBytes_differ {a b : Nat}
    (ha : s.RealByte (s.stringSource r + v.setWidth 19 + BitVec.ofNat 19 j) .read a)
    (hd : s.RealByte (s.stringDest r + BitVec.ofNat 19 j) .read b) (hne : s.mem.read a ≠ s.mem.read b) :
    compareBytes r (v.setWidth 19) (s.stringCount r - j) (s.stringSource r + BitVec.ofNat 19 j)
      (s.stringDest r + BitVec.ofNat 19 j) t = .next (t.setCC34 (ccUcmp (s.mem.read a) (s.mem.read b))) := by
  rw [add_right_comm] at ha
  rw [bytes_left hj, compareBytes, done.readByte_real hb ha, orTrap_ok,
    done.readByte_real hb hd, orTrap_ok, if_neg hne]

/-- CBS at a pair of which a byte cannot be read. -/
theorem compareBytes_trap {x : Trap} {a : Nat}
    (hx : s.resolve ((s.stringSource r + v.setWidth 19 + BitVec.ofNat 19 j).extractLsb' 2 17) .read = .error x ∨
      s.RealByte (s.stringSource r + v.setWidth 19 + BitVec.ofNat 19 j) .read a ∧
        s.resolve ((s.stringDest r + BitVec.ofNat 19 j).extractLsb' 2 17) .read = .error x) :
    compareBytes r (v.setWidth 19) (s.stringCount r - j) (s.stringSource r + BitVec.ofNat 19 j)
      (s.stringDest r + BitVec.ofNat 19 j) t = .next (t.raise x) := by
  rw [bytes_left hj, compareBytes, add_right_comm]
  obtain hx | ⟨ha, hx⟩ := hx
  · rw [done.readByte_trap hb hx, orTrap_trap]
  · rw [done.readByte_real hb ha, orTrap_ok, done.readByte_trap hb hx, orTrap_trap]

end

/-! ## TTBS (R424) -/

section
variable {s : State} {r : RegNum} {v : BitVec 20} {d e : Nat → Nat} {byte : Nat → Prop} {j : Nat} (hb : s.between = [])
include hb

/-- TTBS after j bytes without a bit of the mask. -/
theorem execTtbs_after (hj : j ≤ s.stringCount r)
    (h : ∀ k, k < j → s.RealByte (s.stringDest r + BitVec.ofNat 19 k) .read (d k) ∧
      s.RealByte (s.stringSource r + v.setWidth 19 + (s.mem.read (d k)).setWidth 19) .read (e k) ∧
      s.mem.read (e k) &&& s.stringMask r = 0#8) :
    ∃ t, s.StringDone t r j s.mem (· = ru1 r) (fun _ => False) ∧
      execTtbs r v s = testBytes r (s.stringSource r + v.setWidth 19) (s.stringMask r) (s.stringCount r - j)
        (s.stringDest r + BitVec.ofNat 19 j) t := by
  induction j with
  | zero =>
    refine ⟨s, s.stringDone_zero .., ?_⟩
    rw [execTtbs, stringDisp_eq, BitVec.add_zero, Nat.sub_zero]
  | succ j ih =>
    obtain ⟨t, done, hrun⟩ := ih (by omega) fun k hk => h k (by omega)
    obtain ⟨hread, htable, hmask⟩ := h j (by omega)
    refine ⟨_, done.putDest rfl, ?_⟩
    rw [hrun, bytes_left hj, testBytes,
      done.readByte_real hb hread, orTrap_ok, done.readByte_real hb htable, orTrap_ok, if_pos hmask, offset_add_one]

variable {t : State} {reg : RegNum → Prop} (done : s.StringDone t r j s.mem reg byte) (hj : j < s.stringCount r)
include done hj

/-- TTBS at a byte whose table byte has a bit of the mask. -/
theorem testBytes_found {mask : Byte} {a b : Nat} (ha : s.RealByte (s.stringDest r + BitVec.ofNat 19 j) .read a)
    (htable : s.RealByte (s.stringSource r + v.setWidth 19 + (s.mem.read a).setWidth 19) .read b)
    (hne : s.mem.read b &&& mask ≠ 0#8) :
    testBytes r (s.stringSource r + v.setWidth 19) mask (s.stringCount r - j) (s.stringDest r + BitVec.ofNat 19 j) t =
      .next (t.testStop r (s.mem.read b &&& mask)) := by
  rw [bytes_left hj, testBytes, done.readByte_real hb ha, orTrap_ok,
    done.readByte_real hb htable, orTrap_ok, if_neg hne]

/-- TTBS at a byte that cannot be read or looked up. -/
theorem testBytes_trap {mask : Byte} {x : Trap} {a : Nat}
    (hx : s.resolve ((s.stringDest r + BitVec.ofNat 19 j).extractLsb' 2 17) .read = .error x ∨
      s.RealByte (s.stringDest r + BitVec.ofNat 19 j) .read a ∧
        s.resolve ((s.stringSource r + v.setWidth 19 + (s.mem.read a).setWidth 19).extractLsb' 2 17) .read = .error x) :
    testBytes r (s.stringSource r + v.setWidth 19) mask (s.stringCount r - j) (s.stringDest r + BitVec.ofNat 19 j) t =
      .next (t.raise x) := by
  rw [bytes_left hj, testBytes]
  obtain hx | ⟨ha, hx⟩ := hx
  · rw [done.readByte_trap hb hx, orTrap_trap]
  · rw [done.readByte_real hb ha, orTrap_ok, done.readByte_trap hb hx, orTrap_trap]

end

theorem State.reg_testStop_ne (s : State) {r i : RegNum} (hi : i ≠ r) (m : Byte) : (s.testStop r m).reg i = s.reg i := by
  unfold State.testStop
  split
  · rfl
  · exact State.reg_setReg_ne _ _ hi

theorem State.reg_testStop (s : State) {r : RegNum} (hr : r ≠ 0#4) (m : Byte) :
    (s.testStop r m).reg r = m ++ (s.reg r).extractLsb' 0 24 := by
  rw [State.testStop, if_neg hr]
  exact State.reg_setReg_same ..

/-- A byte laid over the count. -/
theorem append_extract_rest (f n : Byte) (mid : BitVec 5) (dst : ByteAddr) :
    f ++ (n ++ mid ++ dst).extractLsb' 0 24 = f ++ mid ++ dst := by
  apply BitVec.eq_of_toNat_eq
  have hmid := mid.isLt
  have hdst := dst.isLt
  simp only [toNat_append_eq_add, BitVec.extractLsb'_toNat, Nat.shiftRight_eq_div_pow]
  omega

/-- Settles O25: an instruction is followed to the byte at which it ends, and is at its end, stops or traps there. -/
theorem compareAndTest : Obligations.CompareAndTest := by
  refine ⟨?cbs, ?ttbs⟩
  case cbs =>
    rintro s r v _ _ _ j d e cc trap hb rfl rfl rfl h hend
    have hj : j ≤ s.stringCount r := by
      obtain ⟨hj, -⟩ | ⟨hj, -⟩ | ⟨hj, -⟩ := hend
      exacts [hj.le, hj.le, hj.le]
    obtain ⟨t, done, source, hrun⟩ := execCbs_after hb hj h
    obtain ⟨rfl, rfl, rfl⟩ | ⟨hj, rfl, ha, hd, hne, rfl⟩ | ⟨hj, rfl, x, rfl, hx⟩ := hend
    · refine ⟨t.setCC34 0b00#2, hrun.trans ?_, done.dest, source, ?_⟩
      · rw [State.stringCount, Nat.sub_self, compareBytes]
      · rw [← done.cc]
        exact done.frame.setCC _
    · refine ⟨_, hrun.trans (compareBytes_differ hb done hj ha hd hne), done.dest, source, ?_⟩
      rw [ccUcmp, if_neg hne, ← done.cc]
      exact done.frame.setCC _
    · exact ⟨t.raise x, hrun.trans (compareBytes_trap hb done hj hx), done.dest, source, done.frame.raise x⟩
  case ttbs =>
    rintro s r v _ _ _ found _ j d e cc trap hb rfl rfl rfl rfl h hend
    have hj : j ≤ s.stringCount r := by
      obtain ⟨hj, -⟩ | ⟨hj, -⟩ | ⟨hj, -⟩ := hend
      exacts [hj.le, hj.le, hj.le]
    obtain ⟨t, done, hrun⟩ := execTtbs_after hb hj h
    have hsource (heven : r[0] = false) : t.reg r = s.reg r := done.frame.reg_eq (ru1_even heven).2.symm
    have hdest (hodd : r[0] = true) : t.reg r = BitVec.ofNat 8 (s.stringCount r - j) ++ (s.reg r).extractLsb' 19 5 ++
        (s.stringDest r + BitVec.ofNat 19 j) := by
      simpa only [ru1_odd hodd] using done.dest
    have hframe := done.frame.mono (reg' := fun i => i = ru1 r ∨ i = r ∧ r ≠ 0#4) (fun _ hi => .inl hi) fun _ hf => hf
    obtain ⟨rfl, rfl, rfl, rfl⟩ | ⟨hj, rfl, ha, hx, rfl, hne, rfl⟩ | ⟨hj, rfl, rfl, x, rfl, hx⟩ := hend
    · refine ⟨t.setCC4 false, hrun.trans ?_, fun _ => done.dest, fun heven _ => hsource heven, hdest, ?_⟩
      · rw [State.stringCount, Nat.sub_self, testBytes]
      · rw [← done.cc]
        exact hframe.setCC _
    · refine ⟨_, hrun.trans (testBytes_found hb done hj ha hx hne), fun heven => ?even, fun heven hr0 => ?source,
        fun hodd => ?odd, ?frame⟩
      case even => rw [t.reg_testStop_ne (ru1_even heven).2, done.dest]; rfl
      case source => rw [if_neg hne, t.reg_testStop hr0, hsource heven]; rfl
      case odd =>
        rw [if_neg hne, t.reg_testStop (by rintro rfl; simp at hodd), hdest hodd]
        exact append_extract_rest ..
      case frame =>
        rw [← done.cc]
        exact hframe.testStop (fun hr0 => .inr ⟨rfl, hr0⟩) _
    · exact ⟨t.raise x, hrun.trans (testBytes_trap hb done hj hx), fun _ => done.dest, fun heven _ => hsource heven, hdest,
        hframe.raise x⟩

end Sys2Proof.Machine
end

section
/-! Cycles (O49 to O51): every step answers a next state, and for each kind of cycle that takes no trap and no interrupt there
is one equation: at rest, waiting, a fetch that traps, and an instruction. -/

namespace Sys2Proof.Machine

/-! ## Every step goes on -/

theorem State.executeWord_next (s : State) (w : Word) : ∃ t, s.executeWord w = .next t := by
  unfold State.executeWord
  split
  · exact ⟨_, rfl⟩
  · rename_i i _
    obtain ⟨t, ht, -⟩ := exec_reaches i s
    exact ⟨t, ht⟩

theorem State.fetchExecute_next (s : State) : ∃ t, s.fetchExecute = .next t := by
  unfold State.fetchExecute
  split
  · exact ⟨_, rfl⟩
  · rename_i w u _
    obtain ⟨t, ht⟩ := (u.advance w).executeWord_next w
    rw [ht]
    exact ⟨_, rfl⟩

theorem State.cycle_next (s : State) : ∃ t, s.cycle = .next t := by
  unfold State.cycle
  repeat' split
  case isFalse => exact s.beginCycle.fetchExecute_next
  all_goals exact ⟨_, rfl⟩

theorem State.event_next (s : State) {e : AgentEvent} (h : e ≠ .powerOff) : ∃ t, s.event e = .next t := by
  cases e with
  | powerOff => exact absurd rfl h
  | cpuCycle cpu between =>
    by_cases hcpu : cpu < s.config.sizes.nCpu
    · obtain ⟨t, ht⟩ := State.cycle_next { s with between := between }
      exact ⟨t, (if_pos hcpu).trans ht⟩
    · exact ⟨s, if_neg hcpu⟩
  | _ => exact ⟨_, rfl⟩

/-- Settles O49: an empty agenda gives the CPU its cycle, and of the events only power-off stops. -/
theorem stepGoesOn : Obligations.StepGoesOn := by
  intro s
  cases ha : s.agenda with
  | nil =>
    left
    unfold step State.turn
    rw [ha]
    exact s.cycle_next
  | cons e rest =>
    rw [step_event ha]
    by_cases he : e = .powerOff
    · exact .inr ⟨rest, by rw [he], by rw [he]; rfl⟩
    · exact .inl (State.event_next _ he)

/-! ## One equation for each quiet cycle -/

theorem step_cycle {s : State} (ha : s.agenda = []) : step s = s.cycle := by
  unfold step State.turn
  rw [ha]

theorem step_cpuCycle {s : State} {p : Nat} {b : List (List AgentAccess)} {rest : List AgentEvent}
    (ha : s.agenda = .cpuCycle p b :: rest) (hp : p < s.config.sizes.nCpu) :
    step s = ({ s with agenda := rest, between := b } : State).cycle :=
  (step_event ha).trans (if_pos hp)

theorem State.cycle_stopped {s : State} (h : s.fatal ≠ none ∨ s.running = false) : s.cycle = .next s.settle := by
  refine if_pos ?_
  simpa [Option.isSome_iff_ne_none] using h

section
variable {s : State} (hf : s.fatal = none) (hr : s.running = true)
include hf hr

theorem State.cycle_trap {T : TrapData} (ht : s.trapPending = some T) :
    s.cycle = .next (s.beginCycle.takeTrap T).settle := by
  have ht' : s.beginCycle.trapPending = some T := ht
  rw [State.cycle, hf, hr, ht']
  rfl

variable (ht : s.trapPending = none) (hp : s.poll = none)
include ht hp

theorem State.cycle_idle :
    s.cycle = if s.waiting then .next s.beginCycle.waitCycle.settle else s.beginCycle.fetchExecute := by
  have ht' : s.beginCycle.trapPending = none := ht
  have hp' : s.beginCycle.poll = none := hp
  rw [State.cycle, hf, hr, ht']
  dsimp only
  rw [hp']
  rfl

theorem State.cycle_waiting (hw : s.waiting = true) : s.cycle = .next s.beginCycle.waitCycle.settle := by
  rw [State.cycle_idle hf hr ht hp, if_pos hw]

theorem State.cycle_fetch (hw : s.waiting = false) : s.cycle = s.beginCycle.fetchExecute := by
  rw [State.cycle_idle hf hr ht hp, hw]
  rfl

end

theorem State.fetchExecute_fault {s u : State} {x : Trap} (h : s.readWord s.psd.ia .execute = .trap x u) :
    s.fetchExecute = .next ({ u with trapPending := some ⟨x.vector, x.cc, true⟩ } : State).settle := by
  rw [State.fetchExecute, h]

theorem State.fetchExecute_decoded {s u t : State} {w : Word} {i : Instr}
    (h : s.readWord s.psd.ia .execute = .ok w u) (hd : decode w = .ok i) (hx : exec i (u.advance w) = .next t) :
    s.fetchExecute = .next t.finish := by
  rw [State.fetchExecute, h]
  dsimp only
  rw [State.executeWord, hd]
  dsimp only
  rw [hx]

/-! ## The end of an instruction -/

/-- Whether the run mode lets the machine run on after an instruction of the given outcome (R661). -/
def RunMode.goesOn (m : RunMode) (out : Option Bool) : Bool :=
  match m with
  | .free => true
  | .steps n => decide (1 < n)
  | .untilBranchTaken => out != some true
  | .untilBranchNotTaken => out != some false

/-- The run mode after an instruction: a step is counted. -/
def RunMode.counted (m : RunMode) : RunMode :=
  match m with
  | .free => .free
  | .steps n => .steps (n - 1)
  | .untilBranchTaken => .untilBranchTaken
  | .untilBranchNotTaken => .untilBranchNotTaken

theorem State.stepMode_eq (s : State) :
    s.stepMode = { s with running := s.running && s.runMode.goesOn s.outcome, runMode := s.runMode.counted } := by
  have hsame {m : RunMode} (hm : s.runMode = m) (running : Bool) :
      ({ s with running := running } : State) = { s with running := running, runMode := m } := by rw [← hm]
  unfold State.stepMode
  split <;> rename_i hm
  · rw [hm, RunMode.goesOn, Bool.and_true]
    exact hsame hm s.running
  · rw [hm]
    rfl
  · rw [hsame hm, hm]
    rfl
  · rw [hsame hm, hm]
    rfl

theorem State.outcome_eq (s : State) :
    s.outcome = if s.trapPending = none then s.branchOutcome else some Config.trapIsTaken := by
  unfold State.outcome
  cases s.trapPending <;> rfl

/-- The other agents that act at the end of an instruction look at no run mode and change no outcome. -/
theorem State.finish_eq (t : State) : t.finish = { t.settle with
    exuDepth := 0
    running := t.running && t.runMode.goesOn t.outcome
    runMode := t.runMode.counted } := by
  have hkept := t.othersOnly_settle
  have hout : ({ t.settle with exuDepth := 0 } : State).outcome = t.outcome := by
    rw [State.outcome_eq, State.outcome_eq]
    dsimp only
    rw [hkept.trapPending, hkept.branchOutcome]
  rw [State.finish, State.stepMode_eq, hout]
  dsimp only
  rw [hkept.running, hkept.runMode]

/-- Settles O50: the turn is the CPU's, the cycle fetches, and what is fetched decodes. -/
theorem stepRunsDecoded : Obligations.StepRunsDecoded := by
  rintro s u t v rest b w i out hturn hf hr ht hp hw hfetch hdecode hexec rfl rfl
  have hcycle : step s = ({ s with agenda := rest, between := b } : State).cycle := by
    obtain ⟨ha, rfl, rfl⟩ | ⟨p, hcpu, ha⟩ := hturn
    · rw [step_cycle ha, ← ha]
    · exact step_cpuCycle ha hcpu
  have hfetch' := State.cycle_fetch (s := { s with agenda := rest, between := b }) hf hr ht hp hw
  have hdecoded := State.fetchExecute_decoded (s := { s with agenda := rest, between := b }.beginCycle) hfetch hdecode hexec
  rw [hcycle, hfetch', hdecoded, State.finish_eq, State.outcome_eq]
  rfl

/-- Settles O51: each kind of cycle stops at its own branch, before an instruction runs. -/
theorem quietCycles : Obligations.QuietCycles := by
  refine ⟨?fault, ?stopped, ?waiting, ?absent⟩
  case fault =>
    intro s u x ha hf hr ht hp hw hfetch
    refine ⟨?_, fun hb => ?_⟩
    · rw [step_cycle ha, State.cycle_fetch hf hr ht hp hw]
      exact State.fetchExecute_fault hfetch
    · rw [← State.others_of_readWord_trap hfetch]
      exact State.others_nil hb
  case stopped =>
    intro s ha h
    have hstep : step s = .next s.settle := (step_cycle ha).trans (State.cycle_stopped h)
    refine ⟨hstep, fun hb => ?_⟩
    rw [hstep, State.settle_nil hb]
  case waiting =>
    intro s ha hb hf hr ht hp hw
    refine ⟨s.beginCycle.waitCycle, !Config.waitEnds s.freeCount, ?_, rfl⟩
    rw [step_cycle ha, State.cycle_waiting hf hr ht hp hw, State.settle_nil (s := s.beginCycle.waitCycle) hb]
  case absent => exact fun s p b rest ha hp => (step_event ha).trans (if_neg (Nat.not_lt.2 hp))

end Sys2Proof.Machine
end

section
/-! The interrupt scan (O53), and posts and level control by other agents (O56). The scan is read off the entry it finds and the
lowest active level; a post is its place in the queue, and where an entry stands is said so that later posts keep it. -/

namespace Sys2Proof.Machine

/-! ## The order of the queue (R620) -/

theorem precedes_iff {e f : IntEntry} :
    e.precedes f = true ↔ e.level < f.level ∨ e.level = f.level ∧ e.priority < f.priority := by
  simp [IntEntry.precedes]

theorem precedes_eq_false_iff {e f : IntEntry} :
    e.precedes f = false ↔ f.level < e.level ∨ f.level = e.level ∧ f.priority ≤ e.priority := by
  rw [← Bool.not_eq_true, precedes_iff]
  omega

theorem precedes_irrefl (e : IntEntry) : e.precedes e = false :=
  precedes_eq_false_iff.2 (.inr ⟨rfl, le_refl _⟩)

/-- Before f is before all that does not come before f. -/
theorem precedes_of_precedes {e f g : IntEntry} (h1 : e.precedes f = true) (h2 : g.precedes f = false) :
    e.precedes g = true := by
  rw [precedes_iff] at h1 ⊢
  rw [precedes_eq_false_iff] at h2
  omega

/-- The entry stands in the queue before all that it precedes and after all else. -/
def IntEntry.StandsIn (e : IntEntry) (q : List IntEntry) : Prop :=
  ∃ before after, q = before ++ e :: after ∧ (∀ x ∈ before, e.precedes x = false) ∧ ∀ x ∈ after, e.precedes x = true

/-- Where a new entry goes in a queue in order (R625). -/
theorem insertEntry_split (e : IntEntry) {q : List IntEntry} (h : q.Pairwise fun a b => b.precedes a = false) :
    ∃ before after, q = before ++ after ∧ insertEntry e q = before ++ e :: after ∧
      (∀ x ∈ before, e.precedes x = false) ∧ ∀ x ∈ after, e.precedes x = true := by
  induction q with
  | nil => exact ⟨[], [], rfl, rfl, nofun, nofun⟩
  | cons f q ih =>
    obtain ⟨hf, hq⟩ := List.pairwise_cons.1 h
    rw [insertEntry]
    split <;> rename_i hef
    · refine ⟨[], f :: q, rfl, rfl, nofun, List.forall_mem_cons.2 ⟨hef, fun x hx => ?_⟩⟩
      exact precedes_of_precedes hef (hf x hx)
    · obtain ⟨before, after, hsplit, hins, hbefore, hafter⟩ := ih hq
      refine ⟨f :: before, after, by rw [hsplit]; rfl, by rw [hins]; rfl, ?_, hafter⟩
      exact List.forall_mem_cons.2 ⟨Bool.eq_false_iff.2 hef, hbefore⟩

theorem standsIn_insertEntry (e : IntEntry) {q : List IntEntry} (h : q.Pairwise fun a b => b.precedes a = false) :
    e.StandsIn (insertEntry e q) := by
  obtain ⟨before, after, -, hins, hbefore, hafter⟩ := insertEntry_split e h
  exact ⟨before, after, hins, hbefore, hafter⟩

/-- A new entry goes into the first part of a queue, or into the rest. -/
theorem insertEntry_append (e : IntEntry) (p q : List IntEntry) :
    (∃ x ∈ p, e.precedes x = true) ∧ insertEntry e (p ++ q) = insertEntry e p ++ q ∨
    insertEntry e (p ++ q) = p ++ insertEntry e q := by
  induction p with
  | nil => exact .inr rfl
  | cons f p ih =>
    rw [List.cons_append, insertEntry, insertEntry]
    split <;> rename_i hef
    · exact .inl ⟨⟨f, List.mem_cons_self, hef⟩, rfl⟩
    · refine ih.imp ?_ ?_
      · rintro ⟨⟨x, hx, hex⟩, h⟩
        exact ⟨⟨x, List.mem_cons_of_mem _ hx, hex⟩, by rw [h]; rfl⟩
      · rintro h
        rw [h]
        rfl

/-- An entry keeps its standing where one of another level goes in. -/
theorem IntEntry.StandsIn.insertEntry {e f : IntEntry} {q : List IntEntry} (h : e.StandsIn q) (hf : f.level ≠ e.level) :
    e.StandsIn (insertEntry f q) := by
  obtain ⟨before, after, rfl, hbefore, hafter⟩ := h
  obtain ⟨⟨x, hx, hfx⟩, hins⟩ | hins := insertEntry_append f before (e :: after)
  · refine ⟨_, after, hins, fun y hy => ?_, hafter⟩
    obtain rfl | hy := mem_insertEntry.1 hy
    · exact precedes_trans_not hfx (hbefore x hx)
    · exact hbefore y hy
  · rw [Machine.insertEntry] at hins
    split at hins <;> rename_i hfe
    · refine ⟨before ++ [f], after, by rw [hins, List.append_assoc]; rfl, fun y hy => ?_, hafter⟩
      obtain hy | hy := List.mem_append.1 hy
      · exact hbefore y hy
      · rw [List.mem_singleton.1 hy]
        exact precedes_asymm hfe
    · refine ⟨before, _, hins, hbefore, fun y hy => ?_⟩
      obtain rfl | hy := mem_insertEntry.1 hy
      · rw [Bool.not_eq_true, precedes_eq_false_iff] at hfe
        exact precedes_iff.2 (.inl (by omega))
      · exact hafter y hy

/-! ## The scan (R622, R624) -/

theorem State.inhibited_iff {s : State} {L : Fin 32} : s.inhibited L = true ↔
    s.config.levelClass[L] = .counter ∧ s.psd.ci = true ∨ s.config.levelClass[L] = .ioPanel ∧ s.psd.ii = true ∨
      s.config.levelClass[L] = .external ∧ s.psd.ei = true := by
  unfold State.inhibited
  cases s.config.levelClass[L] <;> simp

theorem IntCtl.highestActive_eq_some {ic : IntCtl} {h : Fin 32} :
    ic.highestActive = some h ↔ ic.active[h] = true ∧ ∀ L : Fin 32, L < h → ic.active[L] = false := by
  rw [IntCtl.highestActive, List.find?_eq_some_iff_getElem]
  simp only [List.getElem_finRange, Bool.not_eq_true']
  refine and_congr_right fun _ => ⟨?_, fun hlow => ?_⟩
  · rintro ⟨i, hi, rfl, hlow⟩ L hL
    exact hlow L.val hL
  · exact ⟨h.val, by simp, rfl, fun j hj => hlow ⟨j, by omega⟩ hj⟩

/-- A level of the same or a lower number is active. -/
theorem IntCtl.blocks_iff {ic : IntCtl} {M : Fin 32} :
    (ic.highestActive.map fun h => decide (h ≤ M)).getD false = true ↔ ∃ L : Fin 32, ic.active[L] = true ∧ L ≤ M := by
  cases hh : ic.highestActive with
  | none =>
    refine iff_of_false Bool.false_ne_true ?_
    rintro ⟨L, hL, -⟩
    exact Bool.false_ne_true ((IntCtl.highestActive_none hh L).symm.trans hL)
  | some h =>
    obtain ⟨hact, hlow⟩ := IntCtl.highestActive_eq_some.1 hh
    rw [Option.map_some, Option.getD_some, decide_eq_true_eq]
    refine ⟨fun hM => ⟨h, hact, hM⟩, fun ⟨L, hL, hLM⟩ => le_trans (not_lt.1 fun hlt => ?_) hLM⟩
    exact Bool.false_ne_true ((hlow L hlt).symm.trans hL)

theorem State.poll_off {s : State} (h : s.intSuppress ≠ 0 ∨ (s.psd.ci = true ∧ s.psd.ii = true ∧ s.psd.ei = true)) :
    s.poll = none := by
  refine if_neg ?_
  obtain h | ⟨hc, hi, he⟩ := h
  · simp [h]
  · simp [hc, hi, he]

theorem State.poll_on {s : State} (h : s.intSuppress = 0)
    (hi : ¬(s.psd.ci = true ∧ s.psd.ii = true ∧ s.psd.ei = true)) : s.poll = s.newActive := by
  have hall : (s.psd.ci && s.psd.ii && s.psd.ei) = false :=
    Bool.eq_false_iff.2 (by simpa only [ne_eq, Bool.and_eq_true, and_assoc] using hi)
  rw [State.poll, h, hall]
  rfl

section
variable {s : State} {before after : List IntEntry} {e : IntEntry} (hq : s.ic.queue = before ++ e :: after)
  (hbefore : ∀ x ∈ before, ¬s.takeable x = true) (he : s.takeable e = true)
include hq hbefore he

theorem State.find_first : s.ic.queue.find? s.takeable = some e := by
  rw [hq, List.find?_append, List.find?_eq_none.2 hbefore, Option.none_or, List.find?_cons_of_pos he]

theorem State.newActive_blocked (h : ∃ L : Fin 32, s.ic.active[L] = true ∧ L ≤ e.level) : s.newActive = none := by
  rw [State.newActive, State.find_first hq hbefore he]
  exact if_pos (IntCtl.blocks_iff.2 h)

theorem State.newActive_taken (h : ∀ L : Fin 32, s.ic.active[L] = true → e.level < L) :
    s.newActive = some (e.level, { s.ic with
      queue := before ++ after
      active := s.ic.active.set e.level true
      fireCount := s.ic.fireCount.set e.level (s.ic.fireCount[e.level] + 1) }) := by
  have herase : s.ic.queue.eraseP s.takeable = before ++ after := by
    rw [hq, List.eraseP_append_right _ hbefore, List.eraseP_cons_of_pos he]
  rw [State.newActive, State.find_first hq hbefore he, herase]
  refine if_neg ?_
  rw [IntCtl.blocks_iff]
  rintro ⟨L, hL, hle⟩
  exact absurd (h L hL) (not_lt.2 hle)

end

/-- Settles O53: what may be taken is what the statement calls ready, and the scan takes the first such entry unless a level
blocks it. -/
theorem interruptScan : Obligations.InterruptScan := by
  intro s ready hready
  have htake (e : IntEntry) : s.takeable e = true ↔ ready e := by
    rw [hready, ← State.inhibited_iff, State.takeable, Bool.and_eq_true, Bool.not_eq_true', Bool.not_eq_true]
  refine ⟨State.poll_off, fun hsup hinh => ?_⟩
  simp only [State.poll_on hsup hinh, ← htake]
  refine ⟨fun before after e hq hbefore he => ⟨State.newActive_blocked hq hbefore he, fun h =>
    ⟨State.newActive_taken hq hbefore he h, fun hsorted x hx hxtake => ?highest⟩⟩, fun hnone => ?none⟩
  case highest =>
    rw [IntCtl.Sorted, hq, List.pairwise_append, List.pairwise_cons] at hsorted
    obtain ⟨-, ⟨hafter, -⟩, -⟩ := hsorted
    rw [hq, List.mem_append, List.mem_cons] at hx
    obtain hx | rfl | hx := hx
    · exact absurd hxtake (hbefore x hx)
    · exact precedes_irrefl x
    · exact hafter x hx
  case none => rw [State.newActive, List.find?_eq_none.2 hnone]

/-! ## Posts (R625) -/

theorem IntCtl.isWaiting_iff {ic : IntCtl} {L : Fin 32} : ic.isWaiting L = true ↔ ∃ e ∈ ic.queue, e.level = L := by
  simp [IntCtl.isWaiting]

theorem IntCtl.waitingCount_pos {ic : IntCtl} {L : Fin 32} : 0 < ic.waitingCount L ↔ ic.isWaiting L = true := by
  rw [IntCtl.waitingCount, List.countP_pos_iff, IntCtl.isWaiting_iff]
  simp only [beq_iff_eq]

theorem IntCtl.post?_dropped {ic : IntCtl} {c : Config} {e : IntEntry} (h : ic.armed[e.level] = false ∨
    c.coalesce[e.level] = true ∧ (ic.active[e.level] = true ∨ ic.isWaiting e.level = true)) : ic.post? c e = none := by
  obtain ⟨hnone, -⟩ | ⟨-, -, harm, hco⟩ := ic.post?_cases c e
  · exact hnone
  · obtain h | ⟨hc, h⟩ := h
    · exact absurd (h.symm.trans harm) Bool.false_ne_true
    · obtain ⟨hact, hwait⟩ := hco hc
      rw [hact, hwait] at h
      simp at h

theorem IntCtl.post?_queued {ic : IntCtl} {c : Config} {e : IntEntry} (hL : e.level.val < c.sizes.nLevels)
    (harm : ic.armed[e.level] = true)
    (hco : ¬(c.coalesce[e.level] = true ∧ (ic.active[e.level] = true ∨ ic.isWaiting e.level = true))) :
    ic.post? c e = some { ic with queue := insertEntry e ic.queue } := by
  obtain ⟨-, h | h | h⟩ | ⟨hsome, -⟩ := ic.post?_cases c e
  · exact absurd hL (Nat.not_lt.2 h)
  · exact absurd (h.symm.trans harm) Bool.false_ne_true
  · exact absurd h hco
  · exact hsome

section
variable {s : State} {L : Fin 32} (pr : Nat) (o : Origin) (l : Option Nat) (ch : Option Byte)

/-- A post to a disarmed level, or to a coalescing one that is active or waiting, changes nothing. -/
theorem State.post_dropped (h : s.ic.armed[L] = false ∨
    s.config.coalesce[L] = true ∧ (s.ic.active[L] = true ∨ s.ic.isWaiting L = true)) : s.post L pr o l ch = s := by
  rw [State.post, IntCtl.post?_dropped h]

/-- Any other adds its entry. -/
theorem State.post_queued (hL : L.val < s.config.sizes.nLevels) (harm : s.ic.armed[L] = true)
    (hco : ¬(s.config.coalesce[L] = true ∧ (s.ic.active[L] = true ∨ s.ic.isWaiting L = true))) :
    s.post L pr o l ch = { s with
      ic := { s.ic with queue := insertEntry ⟨Config.timestamp s.freeCount, L, pr, o, l, ch⟩ s.ic.queue }
      freeCount := s.freeCount + 1 } := by
  rw [State.post, IntCtl.post?_queued (by exact hL) harm hco]

end

/-- Settles O56: a post that is not dropped splits the queue where its entry goes. -/
theorem postsAndLevels : Obligations.PostsAndLevels := by
  refine ⟨fun s rest L priority origin line char ha => ?post, fun s rest L => ⟨fun h => step_event h, fun h => step_event h,
    fun h => step_event h, fun h => step_event h⟩⟩
  have hstep : step s = .next (({ s with agenda := rest } : State).post L priority origin line char) := step_event ha
  refine ⟨fun h => ?dropped, fun hL hsorted harm hco => ?queued⟩
  case dropped =>
    rw [← IntCtl.isWaiting_iff] at h
    rw [hstep, State.post_dropped (s := { s with agenda := rest }) _ _ _ _ h]
  case queued =>
    have hfree : ¬(s.config.coalesce[L] = true ∧ (s.ic.active[L] = true ∨ s.ic.isWaiting L = true)) := by
      rw [IntCtl.isWaiting_iff]
      rintro ⟨hc, hact | ⟨e, he, heL⟩⟩
      · exact absurd ((hco hc).1.symm.trans hact) Bool.false_ne_true
      · exact (hco hc).2 e he heL
    obtain ⟨before, after, hsplit, hins, hbefore, hafter⟩ :=
      insertEntry_split ⟨Config.timestamp s.freeCount, L, priority, origin, line, char⟩ hsorted
    refine ⟨_, ⟨Config.timestamp s.freeCount, L, priority, origin, line, char⟩, before, after,
      hstep.trans (congrArg _ (State.post_queued (s := { s with agenda := rest }) priority origin line char hL harm hfree)),
      rfl, rfl, rfl, rfl, rfl, hsplit, fun x hx => precedes_eq_false_iff.1 (hbefore x hx), fun x hx => ?_, ?_⟩
    · exact (precedes_iff.1 (hafter x hx)).imp_right (.imp_left Eq.symm)
    · rw [← hins]

end Sys2Proof.Machine
end

section
/-! Taking a trap (O52) and an interrupt (O54). Both enter through `State.exchange`, so what the exchange does is said once:
where it finds its doublewords, that it is fatal if they cannot be used, and what it leaves if they can. -/

namespace Sys2Proof.Machine

/-! ## The exchange of the PSD (R608) -/

/-- The PSD stored at real doubleword a, with the instruction address sIA. -/
def State.storePsd (s : State) (a : Nat) (sIA : WordAddr) : State :=
  s.setMem (s.mem.writeDouble (8 * a) (Psd.encode { s.psd with ia := sIA }))

section
variable {s : State} (hz : s.config.sizes = Sizes.standard) (hb : s.between = [])
include hz hb

theorem State.exchangeAddress_absent {f : Fields} (hi : f.ind = true)
    (h : s.config.memPages * 2048 ≤ 4 * f.ref.toNat) : s.exchangeAddress f = (none, s) := by
  rw [State.exchangeAddress, hi, State.others_nil hb, State.realWord_absent hz h]
  rfl

/-- The doubleword address of the XPSD is the one the rule gives. -/
theorem State.exchangeAddress_of_exchangeAt {f : Fields} {a : Nat} (h : s.ExchangeAt f a) :
    ∃ ea : DoubleAddr, s.exchangeAddress f = (some ea, s) ∧ ea.toNat = a := by
  obtain ⟨ref, href, rfl⟩ := h
  refine ⟨(ref + (s.index f.x <<< 1).setWidth 17).extractLsb' 1 16, ?_, ?_⟩
  · obtain ⟨hi, rfl⟩ | ⟨hi, hex, rfl⟩ := href
    · rw [State.exchangeAddress, hi]
      rfl
    · rw [State.exchangeAddress, hi, State.others_nil hb, State.realWord_present hz hex]
      rfl
  · rw [doubleAddress_toNat, State.indexAt_eq]

variable {w : Word} {cc : BitVec 4} {sIA : WordAddr}

theorem State.exchange_noAddress (hi : (decodeFields w).ind = true)
    (h : s.config.memPages * 2048 ≤ 4 * (decodeFields w).ref.toNat) :
    s.exchange w cc sIA = s.Halted .exchangeAddress := by
  rw [State.exchange, State.exchangeAddress_absent hz hb hi h]
  rfl

variable {a : Nat} (ha : s.ExchangeAt (decodeFields w) a)
include ha

theorem State.exchange_noAccess
    (h : s.config.memPages * 2048 < 8 * a + 16 ∨ s.writeAllowed (8 * a / 2048) = false) :
    s.exchange w cc sIA = s.Halted .exchangeAccess := by
  obtain ⟨ea, hea, rfl⟩ := State.exchangeAddress_of_exchangeAt hz hb ha
  rw [State.exchange, hea]
  refine if_pos ?_
  rw [State.memBytes_standard hz, State.pageBytes_standard hz]
  simpa using h

theorem State.exchange_exchanges (hwf : s.mem.wf = true) (h : 8 * a + 16 ≤ s.config.memPages * 2048)
    (hw : s.writeAllowed (8 * a / 2048) = true) :
    State.Exchanges s (s.exchange w cc sIA) (decodeFields w) sIA cc a := by
  obtain ⟨ea, hea, rfl⟩ := State.exchangeAddress_of_exchangeAt hz hb ha
  have hok : ¬(decide (s.memBytes < 8 * ea.toNat + 16) || !s.writeAllowed (8 * ea.toNat / s.pageBytes)) = true := by
    rw [State.memBytes_standard hz, State.pageBytes_standard hz, hw]
    simpa using h
  have hexchange : s.exchange w cc sIA = (s.storePsd ea.toNat sIA).installExchange
      (Psd.decode ((s.storePsd ea.toNat sIA).mem.readDouble (8 * ea.toNat + 8))) (decodeFields w).r cc := by
    rw [State.exchange, hea]
    refine (if_neg hok).trans ?_
    rw [State.others_nil hb]
    exact congrArg (fun t : State => t.installExchange (Psd.decode (t.mem.readDouble (8 * ea.toNat + 8))) _ cc)
      (State.others_nil (s := s.storePsd ea.toNat sIA) hb)
  have hnew : (s.storePsd ea.toNat sIA).mem.readDouble (8 * ea.toNat + 8) = s.mem.readDouble (8 * ea.toNat + 8) :=
    Memory.readDouble_congr fun b _ _ => Memory.read_writeDouble_ne _ _ (by omega)
  rw [hexchange, hnew]
  refine ⟨?_, Memory.readDouble_writeDouble hwf .., fun b hbyte => Memory.read_writeDouble_ne _ _ hbyte⟩
  rw [State.installExchange, show (s.storePsd ea.toNat sIA).config.sizes = Sizes.standard from hz, Psd.install]
  simp only [blockOf_standard]
  rfl

end

/-! ## The end of an entry (R601) -/

/-- An entry ends a WAIT unless it is fatal. -/
def State.entered (t : State) : State := if t.fatal.isSome then t else { t with waiting := false }

theorem State.halted_entered {e : State} (hb : e.between = []) (x : FatalCause) :
    (e.Halted x).entered.settle = e.Halted x :=
  State.settle_nil (s := e.Halted x) hb

theorem State.Exchanges.entered {e t : State} {f : Fields} {sIA : WordAddr} {cc : BitVec 4} {a : Nat}
    (h : State.Exchanges e t f sIA cc a) (hf : e.fatal = none) (hb : e.between = []) :
    State.Exchanges { e with waiting := false } t.entered.settle f sIA cc a := by
  obtain ⟨ht, hstored, hkept⟩ := h
  have hfatal : t.fatal = none := by rw [ht]; exact hf
  have hbetween : t.between = [] := by rw [ht]; exact hb
  have hawake : t.entered = { t with waiting := false } := by
    rw [State.entered, hfatal]
    rfl
  rw [hawake, State.settle_nil (s := { t with waiting := false }) hbetween]
  exact ⟨congrArg (fun x : State => { x with waiting := false }) ht, hstored, hkept⟩

/-! ## Traps (R601 step 1, R607) -/

theorem State.savedIA_eq (s : State) (T : TrapData) : s.savedIA T =
    if T.fetchTrap = true ∨ (s.config.calSavesNext = true ∧ 0x48 ≤ T.vector ∧ T.vector ≤ 0x4B) then s.psd.ia
    else s.psd.ia - 1#17 := by
  simp only [State.savedIA, Bool.or_eq_true, Bool.and_eq_true, decide_eq_true_eq]

theorem State.trapEntry_vector {s : State} (hz : s.config.sizes = Sizes.standard) (hb : s.between = []) {v : Nat}
    (hv : 4 * v < s.config.memPages * 2048) {w : Word} (hw : w = s.mem.readWord (4 * v)) (cc : BitVec 4) (sIA : WordAddr) :
    s.trapEntry v cc sIA =
      if (decodeFields w).op = 0x0F#7 then s.exchange w cc sIA else s.Halted .malformedTrapVector := by
  rw [State.trapEntry, State.others_nil hb, State.realWord_present hz hv, ← hw]
  rfl

theorem State.takeTrap_eq (s : State) (T : TrapData) : s.beginCycle.takeTrap T =
    (({ s.beginCycle with trapPending := none } : State).trapEntry T.vector T.cc (s.savedIA T)).entered := rfl

/-- Settles O52: the entry is an exchange or is fatal, by the word at the vector and the doublewords it names. -/
theorem trapEntry : Obligations.TrapEntry := by
  rintro s e T w _ hz hagenda hb hfatal hrun htrap hv hw rfl he
  have hze : e.config.sizes = Sizes.standard := by rw [he]; exact hz
  have hbe : e.between = [] := by rw [he]; exact hb
  have hfe : e.fatal = none := by rw [he]; exact hfatal
  have hme : e.mem = s.mem := by rw [he]
  have hpages : e.config.memPages = s.config.memPages := by rw [he]
  have hlock (p : Nat) : e.writeAllowed p = s.writeAllowed p := by rw [he]; rfl
  have hstep : step s = .next (e.trapEntry T.vector T.cc (s.savedIA T)).entered.settle := by
    rw [step_cycle hagenda, State.cycle_trap hfatal hrun htrap, State.takeTrap_eq, he]
    rfl
  have hentry := State.trapEntry_vector hze hbe (by rw [hpages]; exact hv) (hw.trans (by rw [hme])) T.cc (s.savedIA T)
  have hhalt {x : FatalCause} (h : e.trapEntry T.vector T.cc (s.savedIA T) = e.Halted x) :
      step s = .next (e.Halted x) := by
    rw [hstep, h, State.halted_entered hbe]
  rw [← hpages, ← hme]
  refine ⟨fun hop => hhalt (hentry.trans (if_neg hop)), fun hop hi habs => hhalt ?noAddress,
    fun a hop ha => ⟨fun h => hhalt ?noAccess, fun sIA hwf hin hallow hsIA => ⟨_, hstep, ?exchanges⟩⟩⟩
  all_goals rw [if_pos hop] at hentry
  case noAddress => exact hentry.trans (State.exchange_noAddress hze hbe hi habs)
  case noAccess =>
    rw [← hlock] at h
    exact hentry.trans (State.exchange_noAccess hze hbe ha h)
  case exchanges =>
    rw [← hlock] at hallow
    rw [hentry, State.savedIA_eq, ← hsIA]
    exact (State.exchange_exchanges hze hbe ha hwf hin hallow).entered hfe hbe

/-! ## Interrupts (R601 step 2, R628) -/

theorem State.interruptEntry_exchange {s : State} (hz : s.config.sizes = Sizes.standard) (hb : s.between = []) {L : Fin 32}
    {w : Word} (hL : 4 * (0x50 + L.val) < s.config.memPages * 2048) (hw : w = s.mem.readWord (4 * (0x50 + L.val)))
    (hop : (decodeFields w).op = 0x0F#7) : s.interruptEntry L = s.exchange w 0#4 s.psd.ia := by
  rw [State.interruptEntry, State.others_nil hb, State.realWord_present hz hL, ← hw]
  exact if_pos hop

theorem State.interruptEntry_malformed {s : State} (hz : s.config.sizes = Sizes.standard) (hb : s.between = [])
    {L : Fin 32} {w : Word} (hL : 4 * (0x50 + L.val) < s.config.memPages * 2048)
    (hw : w = s.mem.readWord (4 * (0x50 + L.val))) (hop : (decodeFields w).op ≠ 0x0F#7)
    (h : mtxWidth (decodeFields w).op = none ∨ isCountPulse L = false) :
    s.interruptEntry L = s.Halted .malformedInterruptVector := by
  rw [State.interruptEntry, State.others_nil hb, State.realWord_present hz hL, ← hw]
  refine (if_neg hop).trans ?_
  split
  · rename_i width hm
    rw [hm] at h
    exact if_neg (Bool.eq_false_iff.1 (h.resolve_left nofun))
  · rfl

theorem State.takeInterrupt_eq (s : State) (L : Fin 32) (ic : IntCtl) :
    s.takeInterrupt L ic = ((s.setIc ic).interruptEntry L).entered := rfl

/-- Settles O54: the same of the level that is polled, whose vector is always in memory. -/
theorem interruptEntry : Obligations.InterruptEntry := by
  rintro s e L ic w _ hz hagenda hb hfatal hrun htrap hpoll hone hw rfl he
  have hze : e.config.sizes = Sizes.standard := by rw [he]; exact hz
  have hbe : e.between = [] := by rw [he]; exact hb
  have hfe : e.fatal = none := by rw [he]; exact hfatal
  have hme : e.mem = s.mem := by rw [he]
  have hpages : e.config.memPages = s.config.memPages := by rw [he]
  have hpc : e.psd.ia = s.psd.ia := by rw [he]
  have hlock (p : Nat) : e.writeAllowed p = s.writeAllowed p := by rw [he]; rfl
  have hvector : 4 * (0x50 + L.val) < e.config.memPages * 2048 := by omega
  have hword : w = e.mem.readWord (4 * (0x50 + L.val)) := hw.trans (by rw [hme])
  have hstep : step s = .next (e.interruptEntry L).entered.settle := by
    rw [step_interrupt hagenda hfatal hrun htrap hpoll, State.takeInterrupt_eq, he]
    rfl
  have hhalt {x : FatalCause} (h : e.interruptEntry L = e.Halted x) : step s = .next (e.Halted x) := by
    rw [hstep, h, State.halted_entered hbe]
  rw [← hpages, ← hme]
  refine ⟨fun hop h => hhalt (State.interruptEntry_malformed hze hbe hvector hword hop ?malformed),
    fun hop hi habs => hhalt ?noAddress,
    fun a hop ha => ⟨fun h => hhalt ?noAccess, fun hwf hin hallow => ⟨_, hstep, ?exchanges⟩⟩⟩
  case malformed =>
    refine h.imp mtxWidth_eq_none fun hL => ?_
    rw [isCountPulse, decide_eq_false_iff_not]
    omega
  case noAddress =>
    exact (State.interruptEntry_exchange hze hbe hvector hword hop).trans (State.exchange_noAddress hze hbe hi habs)
  case noAccess =>
    rw [← hlock] at h
    exact (State.interruptEntry_exchange hze hbe hvector hword hop).trans (State.exchange_noAccess hze hbe ha h)
  case exchanges =>
    rw [← hlock] at hallow
    rw [State.interruptEntry_exchange hze hbe hvector hword hop, hpc]
    exact (State.exchange_exchanges hze hbe ha hwf hin hallow).entered hfe hbe

end Sys2Proof.Machine
end

section
/-! LPSD, XPSD and LRP (O31). LPSD is an installation after an operation on the highest active level, which is said first; for
XPSD the point is that its two doublewords share no byte, so that what it loads is what stood there before its store. -/

namespace Sys2Proof.Machine

/-! ## The highest active level (R627) -/

theorem IntCtl.clearHighestActive_idle {ic : IntCtl} (h : ∀ L : Fin 32, ic.active[L] = false) (armAfter : Bool) :
    ic.clearHighestActive armAfter = ic := by
  have hnone : ic.highestActive = none := List.find?_eq_none.2 fun L _ => Bool.eq_false_iff.1 (h L)
  rw [IntCtl.clearHighestActive, hnone]

theorem IntCtl.clearHighestActive_active {ic : IntCtl} {h : Fin 32} (hact : ic.active[h] = true)
    (hlow : ∀ L : Fin 32, L < h → ic.active[L] = false) (armAfter : Bool) :
    ic.clearHighestActive armAfter = { ic with
      active := ic.active.set h false
      armed := ic.armed.set h armAfter
      queue := if armAfter then ic.queue else ic.queue.filter fun e => e.level != h } := by
  rw [IntCtl.clearHighestActive, IntCtl.highestActive_eq_some.2 ⟨hact, hlow⟩]
  cases armAfter with
  | true => rfl
  | false => simp [IntCtl.disarm, IntCtl.deactivate]

/-! ## Installing a PSD (R461, R462) -/

theorem State.loadPsd_standard {s : State} (hz : s.config.sizes = Sizes.standard) (n : Psd) (b : Bool) :
    s.loadPsd n b = { s with psd := { n with rp := if b then n.rp else s.psd.rp } } := by
  rw [State.loadPsd, hz, Psd.install, blockOf_standard]

/-- As an instruction XPSD brings no condition code of a trap. -/
theorem State.installExchange_zero {s : State} (hz : s.config.sizes = Sizes.standard) (n : Psd) (r : RegNum) :
    s.installExchange n r 0#4 = { s with psd := { n with rp := if r[3] then n.rp else s.psd.rp } } := by
  rw [State.installExchange, hz, Psd.install, blockOf_standard]
  simp

theorem State.with_psd_self {s t : State} (h : t.psd = s.psd) : ({ t with psd := s.psd } : State) = t := by
  rw [← h]

/-! ## The doublewords of an XPSD -/

/-- R10's pages are 512 words, so translation keeps a word's place in its page. -/
theorem State.translate_mod {s : State} (hz : s.config.sizes = Sizes.standard) {vw : WordAddr} {m : Access} {rw : Nat}
    (h : s.translate vw m = .ok rw) : rw % 512 = vw.toNat % 512 := by
  unfold State.translate at h
  split at h
  · rw [State.mapWord_standard hz] at h
    split at h <;> cases h
    omega
  · split at h <;> cases h
    · rw [toNat_append_eq_add, BitVec.extractLsb'_toNat]
      omega
    · rw [State.virtualWord_standard hz]

/-- A doubleword and the one after it share no word. -/
theorem State.loadDouble_storeDouble_next {s : State} (hz : s.config.sizes = Sizes.standard) {ea : DoubleAddr}
    {p q : Place} (hp : s.resolve (ea ++ 0#1) .write = .ok p) (hq : s.resolve ((ea + 1#16) ++ 0#1) .read = .ok q)
    (d : Double) : (s.storeDouble p d).loadDouble q = s.loadDouble q := by
  have hnext : (ea + 1#16).toNat = (ea.toNat + 1) % 2 ^ 16 := BitVec.toNat_add ..
  cases p with
  | reg i =>
    cases q with
    | real rw => rfl
    | reg j =>
      obtain ⟨-, rfl⟩ := State.resolve_reg hp
      obtain ⟨-, rfl⟩ := State.resolve_reg hq
      have hj : ((ea + 1#16) ++ 0#1).extractLsb' 0 4 = (ea ++ 0#1).extractLsb' 0 4 + 2#4 := by
        apply BitVec.eq_of_toNat_eq
        simp only [BitVec.extractLsb'_toNat, toNat_append_zero, hnext, BitVec.toNat_add, BitVec.toNat_ofNat,
          Nat.shiftRight_zero]
        omega
      have hne (i : RegNum) : i + 2#4 ≠ i ∧ i + 2#4 ≠ i + 1#4 ∧ i + 2#4 + 1#4 ≠ i ∧ i + 2#4 + 1#4 ≠ i + 1#4 := by
        revert i; decide
      rw [hj]
      generalize (ea ++ 0#1).extractLsb' 0 4 = i
      obtain ⟨h1, h2, h3, h4⟩ := hne i
      simp only [State.storeDouble, State.loadDouble, State.reg_setReg, h1, h2, h3, h4, if_false]
  | real x =>
    cases q with
    | reg j => rfl
    | real y =>
      obtain ⟨-, hx, -, -⟩ := State.resolve_real hp
      obtain ⟨-, hy, -, -⟩ := State.resolve_real hq
      have hxmod := State.translate_mod hz hx
      have hymod := State.translate_mod hz hy
      rw [toNat_append_zero] at hxmod hymod
      rw [hnext] at hymod
      exact Memory.readDouble_congr fun b _ _ => Memory.read_writeDouble_ne _ _ (by omega)

/-! ## The instructions -/

section
variable {s : State} (hm : s.psd.ms = false) {r : RegNum} {a : AddrField}
include hm

theorem exec_lpsd_master {d : Double} {u : State} (h : s.DoubleOperand a d u) : exec (.lpsd r a) s =
    .next ((if r[1] then u.setIc (u.ic.clearHighestActive r[0]) else u).loadPsd (Psd.decode d) r[3]) := by
  show execLpsd r a s = _
  rw [execLpsd, privileged_master hm, withDouble_operand h]

theorem exec_xpsd_master {ea : DoubleAddr} {p q : Place} (hz : s.config.sizes = Sizes.standard) (hb : s.between = [])
    (he : s.effDouble a = .ok ea s) (hp : s.resolve (ea ++ 0#1) .write = .ok p)
    (hq : s.resolve ((ea + 1#16) ++ 0#1) .read = .ok q) : exec (.xpsd r a) s =
      .next ((s.storeDouble p (Psd.encode s.psd)).installExchange (Psd.decode (s.loadDouble q)) r 0#4) := by
  have hfault : (s.faultAt (ea ++ 0#1) .write).or (s.faultAt ((ea + 1#16) ++ 0#1) .read) = none :=
    Option.or_eq_none_iff.2 ⟨State.faultAt_eq_none.2 ⟨p, hp⟩, State.faultAt_eq_none.2 ⟨q, hq⟩⟩
  have hstore : s.writeDouble ea (Psd.encode s.psd) = .ok () (s.storeDouble p (Psd.encode s.psd)) :=
    State.writeDouble_ok.2 ⟨p, hp, by rw [State.others_nil hb]⟩
  have hquiet : (s.storeDouble p (Psd.encode s.psd)).others = s.storeDouble p (Psd.encode s.psd) :=
    State.others_nil ((State.storeDouble_between ..).trans hb)
  have hload : (s.storeDouble p (Psd.encode s.psd)).readDouble (ea + 1#16) .read =
      .ok (s.loadDouble q) (s.storeDouble p (Psd.encode s.psd)) :=
    State.readDouble_ok.2 ⟨q, by rw [State.resolve_storeDouble, hq],
      by rw [hquiet, State.loadDouble_storeDouble_next hz hp hq], hquiet⟩
  show execXpsd r a s = _
  rw [execXpsd, privileged_master hm, he, orTrap_ok, hfault, orRaise_none, hstore, orTrap_ok, hload, orTrap_ok]

theorem exec_lrp_master {w : Word} {u : State} (h : s.WordOperand a w u) : exec (.lrp r a) s =
    .next { u with psd := { u.psd with rp := blockOf u.config.sizes (w.extractLsb' 4 4) } } := by
  show execLrp r a s = _
  rw [execLrp, privileged_master hm, withWord_operand h]

end

/-- Settles O31, from what loading and exchanging a PSD give with the standard sizes. -/
theorem psdInstructions : Obligations.PsdInstructions := by
  refine ⟨?lpsd, ?xpsd, ?lrp⟩
  case lpsd =>
    intro s r a d u hm hz hop
    have hzu : u.config.sizes = Sizes.standard := by rw [hop.othersOnly.config, hz]
    refine ⟨_, exec_lpsd_master hm hop, ?_, fun h => ?_, fun h hr hact hlow => ?_⟩
    · split
      · exact State.loadPsd_standard (s := u.setIc (u.ic.clearHighestActive r[0])) hzu _ _
      · exact State.loadPsd_standard hzu _ _
    · obtain hr | hidle := h
      · simp [hr, State.loadPsd]
      · rw [IntCtl.clearHighestActive_idle hidle]
        split <;> rfl
    · rw [if_pos hr, IntCtl.clearHighestActive_active hact hlow]
      rfl
  case xpsd =>
    intro s r a ea p q hb hwf hm hz he hp hq
    have hpsd := State.storeDouble_psd s p (Psd.encode s.psd)
    refine ⟨_, _, exec_xpsd_master hm hz hb he hp hq, rfl, ?_⟩
    rw [State.installExchange_zero ((State.storeDouble_config ..).symm ▸ hz), hpsd]
    dsimp only
    rw [State.with_psd_self hpsd]
    exact ⟨rfl, State.loadDouble_storeDouble hwf p _, s.storeDouble_stores p _⟩
  case lrp =>
    intro s r a w u hm hz hop
    have hzu : u.config.sizes = Sizes.standard := by rw [hop.othersOnly.config, hz]
    rw [exec_lrp_master hm hop, hzu, blockOf_standard]

end Sys2Proof.Machine
end

section
/-! CAL1 to CAL4, WAIT, INT and ANLZ (O33), and the requests of the host (O34). ANLZ is the address of the class of the word
analyzed, and the classes are a table of opcodes; a request is recorded, and its answer goes to registers and CC. -/

namespace Sys2Proof.Machine

/-! ## INT (R473) -/

/-- INT's two fields are the halves of a doubleword result. -/
theorem exec_int_operand {s u : State} {a : AddrField} {w : Word} (h : s.WordOperand a w u) (r : RegNum) :
    exec (.int r a) s = .next ((u.setPair r ((w.extractLsb' 16 12).setWidth 32 ++ (w.extractLsb' 0 16).setWidth 32)).setCC
      (w.extractLsb' 28 4)) := by
  show execInt r a s = _
  rw [execInt, withWord_operand h, State.setPair, extract_append_high, extract_append_low]

/-! ## ANLZ (R474) -/

theorem analyzeClass_noAddress : ∀ op : BitVec 7,
    op.toNat ∈ immediateOpcodes ∨ op.toNat ∈ [0x04, 0x05, 0x06, 0x07, 0x2E] → analyzeClass op = .noAddress := by
  decide

theorem analyzeClass_byte : ∀ op : BitVec 7, 0x70 ≤ op.toNat → analyzeClass op = .byte := by
  decide

theorem analyzeClass_half : ∀ op : BitVec 7,
    op.toNat ∈ [0x50, 0x51, 0x52, 0x53, 0x55, 0x56, 0x57, 0x58, 0x5A, 0x5B] → analyzeClass op = .half := by
  decide

theorem analyzeClass_double : ∀ op : BitVec 7,
    op.toNat ∈ [0x08, 0x09, 0x0A, 0x0B, 0x0E, 0x0F, 0x10, 0x11, 0x12, 0x13, 0x15, 0x18, 0x19, 0x1A, 0x1B, 0x1C, 0x1D,
      0x1E, 0x1F] → analyzeClass op = .double := by
  decide

theorem analyzeClass_word : ∀ op : BitVec 7,
    op.toNat ∈ [0x24, 0x25, 0x28, 0x29, 0x2A, 0x2B, 0x2F, 0x30, 0x31, 0x32, 0x33, 0x35, 0x36, 0x37, 0x38, 0x39, 0x3A, 0x3B,
      0x3C, 0x3D, 0x3E, 0x3F, 0x44, 0x45, 0x46, 0x47, 0x48, 0x49, 0x4A, 0x4B, 0x4C, 0x4D, 0x4E, 0x4F, 0x64, 0x65,
      0x66, 0x67, 0x68, 0x69, 0x6A, 0x6B, 0x6C, 0x6D, 0x6E] ∨ op.toNat ∈ unassignedOpcodes → analyzeClass op = .word := by
  decide

section
variable {s u : State} {a b : AddrField} {w : Word} (h : s.WordOperand a w u)
  (hb : b = ⟨w[31], w.extractLsb' 17 3, w.extractLsb' 0 17⟩) {c : AnalyzeClass}
  (hc : analyzeClass (w.extractLsb' 24 7) = c) (r : RegNum)
include h hb hc

/-- A class that has no address leaves the register. -/
theorem exec_anlz_noAddress {v : State} (ha : u.analyzedAddress c b = .ok none v) :
    ∃ t, exec (.anlz r a) s = .next t ∧ v.Writes t [] (c.code ++ BitVec.ofBool b.ind) v.trapPending := by
  subst hb hc
  refine ⟨_, ?_, v.writes_setCC _⟩
  show execAnlz r a s = _
  rw [execAnlz, withWord_operand h]
  dsimp only [decodeFields]
  rw [ha, orTrap_ok]

/-- Of any other class the register takes the address. -/
theorem exec_anlz_address {n : Nat} {ea : BitVec n} (hn : n ≤ 32) {v : State}
    (ha : u.analyzedAddress c b = .ok (some (ea.setWidth 32)) v) :
    ∃ t, exec (.anlz r a) s = .next t ∧ (t.reg r).toNat = ea.toNat ∧
      v.Writes t [r] (c.code ++ BitVec.ofBool b.ind) v.trapPending := by
  subst hb hc
  refine ⟨(v.setCC ((analyzeClass (w.extractLsb' 24 7)).code ++ BitVec.ofBool w[31])).setReg r (ea.setWidth 32), ?_, ?_,
    State.regsKept_setReg (v.setCC _) r _, fun _ => rfl, rfl, rfl, rfl⟩
  · show execAnlz r a s = _
    rw [execAnlz, withWord_operand h]
    dsimp only [decodeFields]
    rw [ha, orTrap_ok]
  · rw [State.reg_setReg_same, BitVec.toNat_setWidth_of_le hn]

end

/-- Settles O33: INT by the two halves of its result, ANLZ by the class of the analyzed opcode. -/
theorem callsWaitInterpretAnalyze : Obligations.CallsWaitInterpretAnalyze := by
  refine ⟨fun s r a => ⟨rfl, rfl, rfl, rfl⟩, fun s r a hm => privileged_master hm _, fun s r a w u hop => ⟨?int, ?anlz⟩⟩
  case int =>
    obtain ⟨hhigh, hlow, hframe⟩ := u.pairResult_spec r
      ((w.extractLsb' 16 12).setWidth 32 ++ (w.extractLsb' 0 16).setWidth 32) (w.extractLsb' 28 4)
    refine ⟨_, exec_int_operand hop r, fun heven => ?_, ?_, hframe⟩
    · rw [hhigh heven, extract_append_high, BitVec.toNat_setWidth_of_le (by decide), BitVec.extractLsb'_toNat,
        Nat.shiftRight_eq_div_pow]
    · rw [hlow, extract_append_low, BitVec.toNat_setWidth_of_le (by decide), BitVec.extractLsb'_toNat, Nat.shiftRight_zero]
  case anlz =>
    rintro _ b rfl hb
    refine ⟨fun hc => exec_anlz_noAddress hop hb (analyzeClass_noAddress _ hc) r rfl,
      fun hc ea v he => exec_anlz_address hop hb (analyzeClass_byte _ hc) r (by decide) ?_,
      fun hc ea v he => exec_anlz_address hop hb (analyzeClass_half _ hc) r (by decide) ?_,
      fun hc ea v he => exec_anlz_address hop hb (analyzeClass_double _ hc) r (by decide) ?_,
      fun hc ea v he => exec_anlz_address hop hb (analyzeClass_word _ hc) r (by decide) ?_⟩
    all_goals
      rw [State.analyzedAddress, he]
      rfl

/-! ## Requests of the host (R470, R471, R500) -/

/-- A field of the low part of an address. -/
theorem extract_low_extract {n : Nat} (x : BitVec n) {k m len : Nat} (h : k + m ≤ len) :
    (x.extractLsb' 0 len).extractLsb' k m = x.extractLsb' k m := by
  apply BitVec.eq_of_getLsbD_eq
  intro i hi
  simp [hi, show k + i < len by omega]

section
variable {s u : State} (hm : s.psd.ms = false) {a : AddrField} {ea : WordAddr} (he : s.effWord a = .ok ea u) (r : RegNum)
include hm he

theorem exec_rd_master : exec (.rd r a) s = .next
    ((if r = 0#4 then u.callHost (.readDirect (ea.extractLsb' 0 16))
      else (u.callHost (.readDirect (ea.extractLsb' 0 16))).setReg r (Config.readDirect u.freeCount (ea.extractLsb' 0 16)).1).setCC
        (Config.readDirect u.freeCount (ea.extractLsb' 0 16)).2) := by
  show execRd r a s = _
  rw [execRd, privileged_master hm, he, orTrap_ok]

theorem exec_wd_master : exec (.wd r a) s =
    if ea.extractLsb' 12 4 = 1#4 then
      .next (u.interruptControl (ea.extractLsb' 0 16) (if r = 0#4 then 0#32 else u.reg r))
    else .next ((u.callHost (.writeDirect (ea.extractLsb' 0 16) (if r = 0#4 then 0#32 else u.reg r))).setCC
      (Config.writeDirect u.freeCount (ea.extractLsb' 0 16) (if r = 0#4 then 0#32 else u.reg r))) := by
  show execWd r a s = _
  rw [execWd, privileged_master hm, he, orTrap_ok]
  dsimp only
  rw [extract_low_extract _ (by decide)]

theorem callBridge_master (op : IoOp) : callBridge op r a s = .next
    ((u.callHost (.bridge op ea (u.reg 0#4))).ioResult r (Config.bridge u.freeCount op ea (u.reg 0#4))) := by
  rw [callBridge, privileged_master hm, he, orTrap_ok]

end

/-- The answer to a read direct, in its register and CC. -/
theorem State.readDirect_spec (s : State) (c : HostCall) (r : RegNum) (v : Word) (cc : BitVec 4) {t : State}
    (ht : t = (if r = 0#4 then s.callHost c else (s.callHost c).setReg r v).setCC cc) :
    (r ≠ 0#4 → t.reg r = v) ∧ t.hostCalls = c :: s.hostCalls ∧
    s.Writes { t with freeCount := s.freeCount, hostCalls := s.hostCalls } (if r = 0#4 then [] else [r]) cc
      s.trapPending := by
  subst ht
  by_cases hr : r = 0#4
  · simp only [if_pos hr]
    exact ⟨fun hne => absurd hr hne, rfl, s.regsKept_refl [], fun _ => rfl, rfl, rfl, rfl⟩
  · simp only [if_neg hr]
    exact ⟨fun _ => State.reg_setReg_same _ r v, rfl, s.regsKept_setReg r v, fun _ => rfl, rfl, rfl, rfl⟩

theorem State.ioResult_spec (s : State) (c : HostCall) (r : RegNum) (ans : BitVec 4 × Word × Word) :
    (r ≠ 0#4 → (r[0] = false → ((s.callHost c).ioResult r ans).reg r = ans.2.1) ∧
      ((s.callHost c).ioResult r ans).reg (ru1 r) = ans.2.2) ∧
    ((s.callHost c).ioResult r ans).hostCalls = c :: s.hostCalls ∧
    s.Writes { (s.callHost c).ioResult r ans with freeCount := s.freeCount, hostCalls := s.hostCalls }
      (if r = 0#4 then [] else [r, ru1 r]) ans.1 s.trapPending := by
  unfold State.ioResult
  by_cases hr : r = 0#4
  · simp only [if_pos hr]
    exact ⟨fun hne => absurd hr hne, rfl, s.regsKept_refl [], fun _ => rfl, rfl, rfl, rfl⟩
  · simp only [if_neg hr]
    refine ⟨fun _ => ⟨fun heven => ?_, ?_⟩, rfl, ?_, fun _ => rfl, rfl, rfl, rfl⟩
    · rw [State.reg_setCC, State.reg_setReg_ne _ _ (ru1_even heven).2.symm, State.reg_setReg_same]
    · rw [State.reg_setCC, State.reg_setReg_same]
    · exact State.regsKept_trans (s.regsKept_setReg r ans.2.1) (State.regsKept_setReg _ (ru1 r) ans.2.2) rfl

/-- Settles O34: each form calls the host once, and the answer goes to CC and the registers it names. -/
theorem hostRequests : Obligations.HostRequests := by
  intro s r a ea u hm he
  refine ⟨?rd, fun hda => ?wd, fun i op hi => ?bridge⟩
  case rd => exact ⟨_, _, _, exec_rd_master hm he r, u.readDirect_spec _ r _ _ rfl⟩
  case wd =>
    exact ⟨_, _, (exec_wd_master hm he r).trans (if_neg hda), rfl, u.regsKept_refl [], fun _ => rfl, rfl, rfl, rfl⟩
  case bridge =>
    have hexec : exec i s = callBridge op r a s := by
      simp only [List.mem_cons, Prod.mk.injEq, List.not_mem_nil, or_false] at hi
      obtain ⟨rfl, rfl⟩ | ⟨rfl, rfl⟩ | ⟨rfl, rfl⟩ | ⟨rfl, rfl⟩ | ⟨rfl, rfl⟩ := hi <;> rfl
    exact ⟨_, _, _, _, hexec.trans (callBridge_master hm he r op), u.ioResult_spec _ r _⟩

end Sys2Proof.Machine
end

section
/-! MMC (O32). The image is a list of words, and what a function makes of it a list of entries, the k-th of which is an extract
of word k / per; a table takes them page by page, so that of those for one page the last stands. -/

namespace Sys2Proof.Machine

/-! ## The image (R464) -/

theorem readImage_all {s : State} {n : Nat} {ia : WordAddr} {w : Nat → Word}
    (h : ∀ i, i < n → s.readWord (ia + BitVec.ofNat 17 i) .read = .ok (w i) s) :
    readImage n ia s = .ok ((List.range n).map w) s := by
  induction n generalizing ia w with
  | zero => rfl
  | succ n ih =>
    have hfirst : s.readWord ia .read = .ok (w 0) s := by simpa using h 0 (Nat.succ_pos n)
    have hrest : readImage n (ia + 1#17) s = .ok ((List.range n).map fun i => w (i + 1)) s :=
      ih fun i hi => by rw [offset_succ]; exact h (i + 1) (Nat.succ_lt_succ hi)
    rw [readImage, hfirst, Res.andThen, hrest, Res.andThen, List.range_succ_eq_map, List.map_cons, List.map_map]
    rfl

/-- Words of `per` parts each, one after the other. -/
theorem flatMap_parts {α β : Type} {w : Nat → α} {parts : α → List β} {per : Nat} {part : α → Nat → β}
    (hparts : ∀ x, parts x = (List.range per).map (part x)) (hper : 0 < per) (n : Nat) :
    ((List.range n).map w).flatMap parts = (List.range (n * per)).map fun k => part (w (k / per)) (k % per) := by
  induction n with
  | zero => rw [Nat.zero_mul]; rfl
  | succ n ih =>
    rw [List.range_succ, List.map_append, List.flatMap_append, ih, Nat.succ_mul, List.range_add, List.map_append, List.map_map,
      List.map_singleton, List.flatMap_singleton, hparts]
    refine congrArg _ (List.map_congr_left fun j hj => ?_)
    have hj : j < per := List.mem_range.1 hj
    rw [Function.comp_apply, Nat.mul_comm n per, Nat.mul_add_div hper, Nat.mul_add_mod, Nat.div_eq_of_lt hj, Nat.mod_eq_of_lt hj,
      Nat.add_zero]

theorem imageCodes_standard (w : Word) :
    imageCodes Sizes.standard w = (List.range 16).map fun j => w.extractLsb' (30 - 2 * j) 2 :=
  List.map_congr_left fun j _ => congrArg (w.extractLsb' · 2) (show 32 - 2 * (j + 1) = 30 - 2 * j by omega)

theorem imageMap_standard (w : Word) :
    imageMap Sizes.standard w = (List.range 4).map fun j => (w.extractLsb' (24 - 8 * j) 8).setWidth 13 :=
  List.map_congr_left fun j _ =>
    congrArg (fun k => (w.extractLsb' k 8).setWidth 13) (show 32 - 8 * (j + 1) = 24 - 8 * j by omega)

theorem imageMapWide_standard (w : Word) :
    imageMapWide Sizes.standard w = (List.range 2).map fun j => w.extractLsb' (16 - 16 * j) 13 := by
  have hwidth (x : BitVec 13) : x.setWidth 13 = x := BitVec.setWidth_eq x
  rw [imageMapWide]
  dsimp only
  rw [hwidth, hwidth]
  rfl

/-! ## The tables (R464) -/

theorem getElem_setPage_byte {m : Nat} (t : PageTable m) (p : Byte) (v : BitVec m) (q : Byte) :
    (setPage t p v)[q.toNat] = if q = p then v else t[q.toNat] := by
  simp only [setPage, Vector.getElem_set, BitVec.toNat_inj, eq_comm]

theorem nextPage_standard (p : Byte) : BitVec.ofNat 8 ((p.toNat + 1) % Sizes.standard.vPages) = p + 1#8 := by
  revert p; decide

/-- A page that no entry is for keeps its own. -/
theorem getElem_setPages_ne {m : Nat} {sp p : Byte} {l : List (BitVec m)}
    (h : ∀ k, k < l.length → p ≠ sp + BitVec.ofNat 8 k) (t : PageTable m) :
    (setPages Sizes.standard t sp l)[p.toNat] = t[p.toNat] := by
  induction l generalizing sp t with
  | nil => rfl
  | cons v vs ih =>
    have hne : p ≠ sp := by simpa using h 0 (Nat.succ_pos _)
    rw [setPages, nextPage_standard, ih, getElem_setPage_byte, if_neg hne]
    intro k hk
    rw [offset_succ]
    exact h (k + 1) (Nat.succ_lt_succ hk)

/-- The page of entry k has it unless one of the later entries is for that page too. -/
theorem getElem_setPages {m : Nat} {sp : Byte} {l : List (BitVec m)} {k : Nat} (hk : k < l.length)
    (hlast : l.length ≤ k + 256) (t : PageTable m) :
    (setPages Sizes.standard t sp l)[(sp + BitVec.ofNat 8 k).toNat] = l[k] := by
  induction l generalizing sp t k with
  | nil => exact absurd hk (Nat.not_lt_zero k)
  | cons v vs ih =>
    rw [setPages, nextPage_standard]
    cases k with
    | zero =>
      have hlater (j : Nat) (hj : j < vs.length) : sp + BitVec.ofNat 8 0 ≠ sp + 1#8 + BitVec.ofNat 8 j := by
        rw [List.length_cons] at hlast
        rw [offset_succ, Ne, BitVec.add_right_inj, ← BitVec.toNat_inj, BitVec.toNat_ofNat, BitVec.toNat_ofNat]
        omega
      rw [getElem_setPages_ne hlater, getElem_setPage_byte, if_pos (BitVec.add_zero sp)]
      rfl
    | succ k =>
      simp only [List.length_cons] at hk hlast
      simp only [← offset_succ sp k]
      exact ih (by omega) (by omega) _

/-- A table after an image of m entries. -/
theorem setPages_entries {w m : Nat} (t : PageTable w) (sp : Byte) (v : Nat → BitVec w) :
    (∀ k, k < m → m ≤ k + 256 →
      (setPages Sizes.standard t sp ((List.range m).map v))[(sp + BitVec.ofNat 8 k).toNat] = v k) ∧
    ∀ p : Byte, (∀ k, k < m → p ≠ sp + BitVec.ofNat 8 k) →
      (setPages Sizes.standard t sp ((List.range m).map v))[p.toNat] = t[p.toNat] := by
  refine ⟨fun k hk hlast => ?_, fun p hp => getElem_setPages_ne (by simpa using hp) t⟩
  rw [getElem_setPages (by simpa using hk) (by simpa using hlast)]
  simp

theorem State.applyImage_frame (s : State) (f : BitVec 3) (p : Byte) (img : List Word) :
    s.applyImage f p img = { s with
      acc := (s.applyImage f p img).acc, locks := (s.applyImage f p img).locks, map := (s.applyImage f p img).map } := by
  unfold State.applyImage
  repeat' split
  all_goals rfl

section
variable {s : State} (hz : s.config.sizes = Sizes.standard) (sp : Byte) (n : Nat) (w : Nat → Word)
include hz

theorem State.applyImage_acc : s.applyImage 1#3 sp ((List.range n).map w) = { s with
    acc := setPages Sizes.standard s.acc sp
      ((List.range (n * 16)).map fun k => (w (k / 16)).extractLsb' (30 - 2 * (k % 16)) 2) } := by
  rw [State.applyImage, if_pos rfl, hz, flatMap_parts imageCodes_standard (by decide)]

theorem State.applyImage_locks : s.applyImage 2#3 sp ((List.range n).map w) = { s with
    locks := setPages Sizes.standard s.locks sp
      ((List.range (n * 16)).map fun k => (w (k / 16)).extractLsb' (30 - 2 * (k % 16)) 2) } := by
  rw [State.applyImage, if_neg (by decide), if_pos rfl, hz, flatMap_parts imageCodes_standard (by decide)]

theorem State.applyImage_map : s.applyImage 4#3 sp ((List.range n).map w) = { s with
    map := setPages Sizes.standard s.map sp
      ((List.range (n * 4)).map fun k => ((w (k / 4)).extractLsb' (24 - 8 * (k % 4)) 8).setWidth 13) } := by
  rw [State.applyImage, if_neg (by decide), if_neg (by decide), if_pos rfl, hz, flatMap_parts imageMap_standard (by decide)]

theorem State.applyImage_mapWide : s.applyImage 5#3 sp ((List.range n).map w) = { s with
    map := setPages Sizes.standard s.map sp
      ((List.range (n * 2)).map fun k => (w (k / 2)).extractLsb' (16 - 16 * (k % 2)) 13) } := by
  rw [State.applyImage, if_neg (by decide), if_neg (by decide), if_neg (by decide), hz,
    flatMap_parts imageMapWide_standard (by decide)]

/-- What an image does to the tables: the entries of the function's own, and no other table. -/
theorem State.applyImage_tables {f : BitVec 3} {per : Nat}
    (hf : f = 1#3 ∧ per = 16 ∨ f = 2#3 ∧ per = 16 ∨ f = 4#3 ∧ per = 4 ∨ f = 5#3 ∧ per = 2) {u : State}
    (hu : u = s.applyImage f sp ((List.range n).map w)) :
    (∀ k, k < n * per → n * per ≤ k + 256 →
      (f = 1#3 → u.acc[(sp + BitVec.ofNat 8 k).toNat] = (w (k / 16)).extractLsb' (30 - 2 * (k % 16)) 2) ∧
      (f = 2#3 → u.locks[(sp + BitVec.ofNat 8 k).toNat] = (w (k / 16)).extractLsb' (30 - 2 * (k % 16)) 2) ∧
      (f = 4#3 → u.map[(sp + BitVec.ofNat 8 k).toNat] = ((w (k / 4)).extractLsb' (24 - 8 * (k % 4)) 8).setWidth 13) ∧
      (f = 5#3 → u.map[(sp + BitVec.ofNat 8 k).toNat] = (w (k / 2)).extractLsb' (16 - 16 * (k % 2)) 13)) ∧
    (∀ p : Byte, (∀ k, k < n * per → p ≠ sp + BitVec.ofNat 8 k) →
      u.acc[p.toNat] = s.acc[p.toNat] ∧ u.locks[p.toNat] = s.locks[p.toNat] ∧ u.map[p.toNat] = s.map[p.toNat]) ∧
    (f ≠ 1#3 → u.acc = s.acc) ∧ (f ≠ 2#3 → u.locks = s.locks) ∧ (f = 1#3 ∨ f = 2#3 → u.map = s.map) := by
  subst hu
  obtain ⟨rfl, rfl⟩ | ⟨rfl, rfl⟩ | ⟨rfl, rfl⟩ | ⟨rfl, rfl⟩ := hf
  case inl =>
    rw [State.applyImage_acc hz]
    obtain ⟨hin, hout⟩ := setPages_entries s.acc sp fun k => (w (k / 16)).extractLsb' (30 - 2 * (k % 16)) 2
    exact ⟨fun k hk hlast => ⟨fun _ => hin k hk hlast, fun h => absurd h (by decide), fun h => absurd h (by decide),
      fun h => absurd h (by decide)⟩, fun p hp => ⟨hout p hp, rfl, rfl⟩, fun h => absurd rfl h, fun _ => rfl, fun _ => rfl⟩
  case inr.inl =>
    rw [State.applyImage_locks hz]
    obtain ⟨hin, hout⟩ := setPages_entries s.locks sp fun k => (w (k / 16)).extractLsb' (30 - 2 * (k % 16)) 2
    exact ⟨fun k hk hlast => ⟨fun h => absurd h (by decide), fun _ => hin k hk hlast, fun h => absurd h (by decide),
      fun h => absurd h (by decide)⟩, fun p hp => ⟨rfl, hout p hp, rfl⟩, fun _ => rfl, fun h => absurd rfl h, fun _ => rfl⟩
  case inr.inr.inl =>
    rw [State.applyImage_map hz]
    obtain ⟨hin, hout⟩ := setPages_entries s.map sp fun k => ((w (k / 4)).extractLsb' (24 - 8 * (k % 4)) 8).setWidth 13
    exact ⟨fun k hk hlast => ⟨fun h => absurd h (by decide), fun h => absurd h (by decide), fun _ => hin k hk hlast,
      fun h => absurd h (by decide)⟩, fun p hp => ⟨rfl, rfl, hout p hp⟩, fun _ => rfl, fun _ => rfl,
      fun h => absurd h (by decide)⟩
  case inr.inr.inr =>
    rw [State.applyImage_mapWide hz]
    obtain ⟨hin, hout⟩ := setPages_entries s.map sp fun k => (w (k / 2)).extractLsb' (16 - 16 * (k % 2)) 13
    exact ⟨fun k hk hlast => ⟨fun h => absurd h (by decide), fun h => absurd h (by decide), fun h => absurd h (by decide),
      fun _ => hin k hk hlast⟩, fun p hp => ⟨rfl, rfl, hout p hp⟩, fun _ => rfl, fun _ => rfl,
      fun h => absurd h (by decide)⟩

end

/-! ## The registers (R464) -/

theorem State.mmcAdvance_writes (s : State) (r : RegNum) (ia : WordAddr) (page : Byte) :
    s.Writes (s.mmcAdvance r ia page) [r, ru1 r] s.psd.cc s.trapPending :=
  ⟨State.regsKept_trans (s.regsKept_setReg r _) (State.regsKept_setReg _ (ru1 r) _) rfl, fun _ => rfl, rfl, rfl, rfl⟩

/-- Parts of a register whose low 17 bits are replaced. -/
theorem extract_high_append (x : Word) (ia : WordAddr) :
    (x.extractLsb' 17 15 ++ ia).extractLsb' 17 7 = x.extractLsb' 17 7 ∧
    (x.extractLsb' 17 15 ++ ia).extractLsb' 0 9 = ia.extractLsb' 0 9 := by
  refine ⟨?_, extract_append_of_add_le _ _ (by decide)⟩
  rw [extract_append_of_le _ _ (le_refl 17)]
  apply BitVec.eq_of_getLsbD_eq
  intro i hi
  simp [hi, show i < 15 by omega]

/-- The registers after MMC: with R odd the one register is both. -/
theorem State.mmcAdvance_reg (s : State) (r : RegNum) (ia : WordAddr) (page : Byte) :
    (r[0] = false → (s.mmcAdvance r ia page).reg r = (s.reg r).extractLsb' 17 15 ++ ia) ∧
    (s.mmcAdvance r ia page).reg (ru1 r) = 0#8 ++ (s.reg (ru1 r)).extractLsb' 17 7 ++ page ++
      (if r[0] then ia.extractLsb' 0 9 else (s.reg (ru1 r)).extractLsb' 0 9) := by
  unfold State.mmcAdvance
  refine ⟨fun heven => ?_, ?_⟩
  · rw [State.reg_setReg_ne _ _ (ru1_even heven).2.symm, State.reg_setReg_same]
  · rw [State.reg_setReg_same]
    cases hr : r[0] with
    | true =>
      obtain ⟨hmid, hlow⟩ := extract_high_append (s.reg r) ia
      rw [ru1_odd hr, State.reg_setReg_same, hmid, hlow]
      rfl
    | false =>
      rw [State.reg_setReg_ne _ _ (ru1_even hr).2]
      rfl

/-! ## The instruction -/

theorem exec_mmc_master {s : State} {r : RegNum} {f : BitVec 3} {z : BitVec 17} {n per : Nat} {w : Nat → Word}
    (hz : s.config.sizes = Sizes.standard) (hm : s.psd.ms = false)
    (hf : f = 1#3 ∧ per = 16 ∨ f = 2#3 ∧ per = 16 ∨ f = 4#3 ∧ per = 4 ∨ f = 5#3 ∧ per = 2) (hn : n = s.mmcCount r)
    (hw : ∀ i, i < n → s.readWord ((s.reg r).extractLsb' 0 17 + BitVec.ofNat 17 i) .read = .ok (w i) s) :
    exec (.mmc r f z) s = .next ((s.applyImage f (s.mmcPage r) ((List.range n).map w)).mmcAdvance r
      ((s.reg r).extractLsb' 0 17 + BitVec.ofNat 17 n) (s.mmcPage r + BitVec.ofNat 8 (n * per))) := by
  have hassigned : mmcFunctionAssigned f = true ∧ mmcPages Sizes.standard f = per := by
    obtain ⟨rfl, rfl⟩ | ⟨rfl, rfl⟩ | ⟨rfl, rfl⟩ | ⟨rfl, rfl⟩ := hf <;> decide
  have hpage : BitVec.ofNat 8 (((s.mmcPage r).toNat + n * per) % Sizes.standard.vPages) =
      s.mmcPage r + BitVec.ofNat 8 (n * per) := by
    apply BitVec.eq_of_toNat_eq
    simp only [BitVec.toNat_ofNat, BitVec.toNat_add]
    omega
  show execMmc r f z s = _
  rw [execMmc, if_pos hassigned.1, privileged_master hm]
  dsimp only
  rw [← hn, readImage_all hw, orTrap_ok, hz, hassigned.2, hpage]

/-- Settles O32: the tables are those of the image, the registers those of the advance, and neither touches the other. -/
theorem memoryControl : Obligations.MemoryControl := by
  rintro s r f z n per _ _ w hz hb hm rfl rfl hn hf hw
  refine ⟨_, exec_mmc_master hz hm hf hn hw, ?_⟩
  obtain ⟨hentries, hother, hacc, hlocks, hmap⟩ := State.applyImage_tables hz (s.mmcPage r) n w hf rfl
  have hframe := s.applyImage_frame f (s.mmcPage r) ((List.range n).map w)
  obtain ⟨hreg, hru1⟩ := s.mmcAdvance_reg r ((s.reg r).extractLsb' 0 17 + BitVec.ofNat 17 n)
    (s.mmcPage r + BitVec.ofNat 8 (n * per))
  have hwrites := s.mmcAdvance_writes r ((s.reg r).extractLsb' 0 17 + BitVec.ofNat 17 n)
    (s.mmcPage r + BitVec.ofNat 8 (n * per))
  refine ⟨hentries, hother, hacc, hlocks, hmap, ?_⟩
  rw [hframe]
  exact ⟨hreg, hru1, hwrites⟩

end Sys2Proof.Machine
end

section
/-! WD interrupt control (O35). The function is done to one level after another; what it does to one leaves every other level as
it is (`State.LevelKept`), so that at each level the whole does what the function does there, once. -/

namespace Sys2Proof.Machine

/-! ## What an operation leaves of a level -/

/-- The entries of a level, in queue order. -/
def IntCtl.entriesOf (ic : IntCtl) (M : Fin 32) : List IntEntry := ic.queue.filter fun e => e.level == M

theorem IntCtl.waitingCount_eq (ic : IntCtl) (M : Fin 32) : ic.waitingCount M = (ic.entriesOf M).length :=
  List.countP_eq_length_filter

theorem IntCtl.mem_entriesOf {ic : IntCtl} {M : Fin 32} {e : IntEntry} : e ∈ ic.entriesOf M ↔ e ∈ ic.queue ∧ e.level = M := by
  rw [IntCtl.entriesOf, List.mem_filter, beq_iff_eq]

/-- Only the controller's flags and queue differ, and the free values drawn. -/
def State.ControlOnly (s t : State) : Prop :=
  t = { s with ic := t.ic, freeCount := t.freeCount } ∧ t.ic.fireCount = s.ic.fireCount

theorem State.ControlOnly.trans {s t u : State} (h : s.ControlOnly t) (g : t.ControlOnly u) : s.ControlOnly u := by
  obtain ⟨ht, hfire⟩ := h
  obtain ⟨hu, hfire'⟩ := g
  refine ⟨?_, hfire'.trans hfire⟩
  rw [hu, ht]

theorem State.ControlOnly.config {s t : State} (h : s.ControlOnly t) : t.config = s.config := by
  obtain ⟨ht, -⟩ := h
  rw [ht]

/-- From s to t level M is as it was: its flags and its entries, and where an entry of it stands in a queue in order. -/
structure State.LevelKept (M : Fin 32) (s t : State) : Prop where
  frame : s.ControlOnly t
  armed : t.ic.armed[M] = s.ic.armed[M]
  enabled : t.ic.enabled[M] = s.ic.enabled[M]
  active : t.ic.active[M] = s.ic.active[M]
  entries : t.ic.entriesOf M = s.ic.entriesOf M
  sorted : s.ic.Sorted → t.ic.Sorted
  stands : ∀ e : IntEntry, e.level = M → e.StandsIn s.ic.queue → e.StandsIn t.ic.queue

theorem State.LevelKept.refl (M : Fin 32) (s : State) : State.LevelKept M s s :=
  ⟨⟨rfl, rfl⟩, rfl, rfl, rfl, rfl, id, fun _ _ => id⟩

theorem State.LevelKept.trans {M : Fin 32} {s t u : State} (h : State.LevelKept M s t) (g : State.LevelKept M t u) :
    State.LevelKept M s u :=
  ⟨h.frame.trans g.frame, g.armed.trans h.armed, g.enabled.trans h.enabled, g.active.trans h.active,
    g.entries.trans h.entries, fun hs => g.sorted (h.sorted hs), fun e he hs => g.stands e he (h.stands e he hs)⟩

theorem State.LevelKept.waitingCount {M : Fin 32} {s t : State} (h : State.LevelKept M s t) :
    t.ic.waitingCount M = s.ic.waitingCount M := by
  rw [IntCtl.waitingCount_eq, IntCtl.waitingCount_eq, h.entries]

theorem State.LevelKept.mem_queue {s t : State} {e : IntEntry} (h : State.LevelKept e.level s t) :
    e ∈ t.ic.queue ↔ e ∈ s.ic.queue := by
  have hmem : e ∈ t.ic.entriesOf e.level ↔ e ∈ s.ic.entriesOf e.level := by rw [h.entries]
  simpa only [IntCtl.mem_entriesOf, and_true] using hmem

theorem IntEntry.StandsIn.filter {e : IntEntry} {q : List IntEntry} (h : e.StandsIn q) {p : IntEntry → Bool}
    (hp : p e = true) : e.StandsIn (q.filter p) := by
  obtain ⟨before, after, rfl, hbefore, hafter⟩ := h
  refine ⟨before.filter p, after.filter p, by rw [List.filter_append, List.filter_cons_of_pos hp],
    fun x hx => hbefore x (List.mem_of_mem_filter hx), fun x hx => hafter x (List.mem_of_mem_filter hx)⟩

theorem filter_insertEntry_of_neg {p : IntEntry → Bool} {e : IntEntry} (h : p e = false) (q : List IntEntry) :
    (insertEntry e q).filter p = q.filter p := by
  have he : ¬p e = true := Bool.eq_false_iff.1 h
  induction q with
  | nil => rw [insertEntry, List.filter_cons_of_neg he]
  | cons f q ih =>
    rw [insertEntry]
    split
    · rw [List.filter_cons_of_neg he]
    · rw [List.filter_cons, ih, List.filter_cons]

theorem sublist_insertEntry (e : IntEntry) (q : List IntEntry) : q.Sublist (insertEntry e q) := by
  induction q with
  | nil => exact List.nil_sublist _
  | cons f q ih =>
    rw [insertEntry]
    split
    · exact List.sublist_cons_self e _
    · exact ih.cons_cons f

/-- A post changes nothing or adds its entry. -/
theorem State.post_eq (s : State) (L : Fin 32) (pr : Nat) (o : Origin) (l : Option Nat) (ch : Option Byte) :
    s.post L pr o l ch = s ∨ s.post L pr o l ch = { s with
      ic := { s.ic with queue := insertEntry ⟨Config.timestamp s.freeCount, L, pr, o, l, ch⟩ s.ic.queue }
      freeCount := s.freeCount + 1 } := by
  obtain ⟨h, -⟩ | ⟨h, -⟩ := s.ic.post?_cases s.config ⟨Config.timestamp s.freeCount, L, pr, o, l, ch⟩
  · exact .inl (by rw [State.post, h])
  · exact .inr (by rw [State.post, h])

section
variable {L M : Fin 32} (hne : M ≠ L) (s : State)
include hne

theorem getElem_set_level {α : Type} (v : Vector α 32) (x : α) : (v.set L x)[M] = v[M] :=
  Vector.getElem_set_ne _ _ fun h => hne (Fin.ext h.symm)

theorem State.levelKept_arm : State.LevelKept M s (s.setIc (s.ic.arm L)) :=
  ⟨⟨rfl, rfl⟩, getElem_set_level hne _ _, rfl, rfl, rfl, id, fun _ _ => id⟩

theorem State.levelKept_enable : State.LevelKept M s (s.setIc (s.ic.enable L)) :=
  ⟨⟨rfl, rfl⟩, rfl, getElem_set_level hne _ _, rfl, rfl, id, fun _ _ => id⟩

theorem State.levelKept_disable : State.LevelKept M s (s.setIc (s.ic.disable L)) :=
  ⟨⟨rfl, rfl⟩, rfl, getElem_set_level hne _ _, rfl, rfl, id, fun _ _ => id⟩

theorem State.levelKept_disarm : State.LevelKept M s (s.setIc (s.ic.disarm L)) := by
  refine ⟨⟨rfl, rfl⟩, getElem_set_level hne _ _, rfl, getElem_set_level hne _ _, ?_,
    fun h => List.Pairwise.filter _ h, fun e he h => h.filter (by rw [he, bne_iff_ne]; exact hne)⟩
  show (s.ic.queue.filter _).filter _ = s.ic.queue.filter _
  rw [List.filter_filter]
  refine List.filter_congr fun e _ => ?_
  by_cases he : e.level = M
  · simp [he, hne]
  · simp [he]

theorem State.levelKept_post (pr : Nat) (o : Origin) (l : Option Nat) (ch : Option Byte) :
    State.LevelKept M s (s.post L pr o l ch) := by
  obtain h | h := s.post_eq L pr o l ch
  · rw [h]
    exact State.LevelKept.refl M s
  · rw [h]
    exact ⟨⟨rfl, rfl⟩, rfl, rfl, rfl,
      filter_insertEntry_of_neg (p := fun e => e.level == M) (beq_eq_false_iff_ne.2 (Ne.symm hne)) _, insertEntry_sorted,
      fun e he hs => hs.insertEntry (he ▸ Ne.symm hne)⟩

/-- What WD does to one level it does to no other. -/
theorem State.levelKept_wdLevel (fn : BitVec 3) (sel : Bool) : State.LevelKept M s (s.wdLevel fn sel L) := by
  unfold State.wdLevel
  split
  · split
    · exact s.levelKept_disarm hne
    · exact (s.levelKept_arm hne).trans (State.levelKept_enable hne _)
    · exact (s.levelKept_arm hne).trans (State.levelKept_disable hne _)
    · exact s.levelKept_enable hne
    · exact s.levelKept_disable hne
    · exact s.levelKept_enable hne
    · exact s.levelKept_post hne ..
    · exact State.LevelKept.refl M s
  · split
    · exact s.levelKept_disable hne
    · exact State.LevelKept.refl M s

end

/-! ## What the function does to a level (R472) -/

/-- A post to level M is not dropped (R625). -/
def State.TakesPost (s : State) (M : Fin 32) : Prop :=
  s.ic.armed[M] = true ∧ ¬(s.config.coalesce[M] = true ∧ (s.ic.active[M] = true ∨ 0 < s.ic.waitingCount M))

theorem State.LevelKept.takesPost {M : Fin 32} {s t : State} (h : State.LevelKept M s t) :
    t.TakesPost M ↔ s.TakesPost M := by
  unfold State.TakesPost
  rw [h.armed, h.active, h.waitingCount, h.frame.config]

/-- The entry that a trigger posts. -/
def State.triggered (s : State) (M : Fin 32) : IntEntry := ⟨Config.timestamp s.freeCount, M, 0, .cpu, none, none⟩

theorem State.post_of_takesPost {s : State} {M : Fin 32} (hz : s.config.sizes = Sizes.standard) (h : s.TakesPost M) :
    (s.post M 0 .cpu none none).ic.queue = insertEntry (s.triggered M) s.ic.queue := by
  obtain ⟨harm, hco⟩ := h
  rw [IntCtl.waitingCount_pos] at hco
  rw [State.post_queued _ _ _ _ (by rw [hz]; exact M.isLt) harm hco]
  rfl

theorem State.post_of_not_takesPost {s : State} {M : Fin 32} (h : ¬s.TakesPost M) : s.post M 0 .cpu none none = s := by
  refine State.post_dropped _ _ _ _ ?_
  rw [← IntCtl.waitingCount_pos, ← Bool.not_eq_true]
  unfold State.TakesPost at h
  tauto

theorem State.post_flags (s : State) (L : Fin 32) (pr : Nat) (o : Origin) (l : Option Nat) (ch : Option Byte) :
    (s.post L pr o l ch).ic = { s.ic with queue := (s.post L pr o l ch).ic.queue } := by
  obtain h | h := s.post_eq L pr o l ch <;> rw [h]

section
variable (s : State) (fn : BitVec 3) (sel : Bool) (M : Fin 32)

theorem State.wdLevel_controlOnly : s.ControlOnly (s.wdLevel fn sel M) := by
  obtain ⟨K, hK⟩ : ∃ K : Fin 32, K ≠ M := by revert M; decide
  exact (s.levelKept_wdLevel hK fn sel).frame

theorem State.wdLevel_flags :
    ((s.wdLevel fn sel M).ic.armed[M] = true ↔
      sel = true ∧ (fn.toNat = 2 ∨ fn.toNat = 3) ∨ ¬(sel = true ∧ fn.toNat = 1) ∧ s.ic.armed[M] = true) ∧
    ((s.wdLevel fn sel M).ic.active[M] = true ↔ ¬(sel = true ∧ fn.toNat = 1) ∧ s.ic.active[M] = true) ∧
    ((s.wdLevel fn sel M).ic.enabled[M] = true ↔ sel = true ∧ (fn.toNat = 2 ∨ fn.toNat = 4 ∨ fn.toNat = 6) ∨
      ¬(sel = true ∧ (fn.toNat = 3 ∨ fn.toNat = 5)) ∧ ¬(¬sel = true ∧ fn.toNat = 6) ∧ s.ic.enabled[M] = true) := by
  have hfn : fn = 0#3 ∨ fn = 1#3 ∨ fn = 2#3 ∨ fn = 3#3 ∨ fn = 4#3 ∨ fn = 5#3 ∨ fn = 6#3 ∨ fn = 7#3 := by
    revert fn; decide
  have hpost := s.post_flags M 0 .cpu none none
  obtain rfl | rfl | rfl | rfl | rfl | rfl | rfl | rfl := hfn
  case inr.inr.inr.inr.inr.inr.inr =>
    cases sel with
    | false => simp [State.wdLevel]
    | true =>
      have htrigger : (s.wdLevel 7#3 true M).ic = { s.ic with queue := (s.post M 0 .cpu none none).ic.queue } := hpost
      simp [htrigger]
  all_goals
    cases sel <;> simp [State.wdLevel, IntCtl.arm, IntCtl.disarm, IntCtl.enable, IntCtl.disable]

theorem State.wdLevel_queue (h : fn.toNat ≠ 7) : (s.wdLevel fn sel M).ic.queue =
    if sel = true ∧ fn.toNat = 1 then s.ic.queue.filter fun e => e.level != M else s.ic.queue := by
  unfold State.wdLevel
  cases sel with
  | false =>
    simp only [Bool.false_eq_true, if_false, false_and]
    split <;> rfl
  | true =>
    simp only [if_true, true_and]
    split
    · exact (if_pos ‹_›).symm
    case h_7 => contradiction
    all_goals exact (if_neg (by omega)).symm

theorem State.wdLevel_mem (h : fn.toNat ≠ 7) (e : IntEntry) : e ∈ (s.wdLevel fn sel M).ic.queue ↔
    e ∈ s.ic.queue ∧ ¬(fn.toNat = 1 ∧ sel = true ∧ e.level = M) := by
  rw [s.wdLevel_queue fn sel M h]
  split <;> rename_i hdisarm
  · rw [List.mem_filter, bne_iff_ne, and_iff_right hdisarm.2, and_iff_right hdisarm.1]
  · exact (and_iff_left fun ⟨hfn, hsel, _⟩ => hdisarm ⟨hsel, hfn⟩).symm

theorem State.wdLevel_trigger (h : fn.toNat = 7) :
    s.wdLevel fn sel M = if sel then s.post M 0 .cpu none none else s := by
  obtain rfl : fn = 7#3 := BitVec.eq_of_toNat_eq h
  rfl

/-- A trigger that is not dropped adds an entry. -/
theorem State.wdLevel_count_triggered (hz : s.config.sizes = Sizes.standard) (h : fn.toNat = 7) (hsel : sel = true)
    (htakes : s.TakesPost M) : (s.wdLevel fn sel M).ic.waitingCount M = s.ic.waitingCount M + 1 := by
  rw [s.wdLevel_trigger fn sel M h, if_pos hsel, IntCtl.waitingCount, State.post_of_takesPost hz htakes,
    countP_insertEntry, if_pos (show ((s.triggered M).level == M) = true from beq_self_eq_true M)]
  rfl

/-- But for a disarming, nothing else changes how many entries there are. -/
theorem State.wdLevel_count_kept (h : ¬(sel = true ∧ fn.toNat = 7 ∧ s.TakesPost M)) (hdisarm : ¬(sel = true ∧ fn.toNat = 1)) :
    (s.wdLevel fn sel M).ic.waitingCount M = s.ic.waitingCount M := by
  by_cases hfn : fn.toNat = 7
  · rw [s.wdLevel_trigger fn sel M hfn]
    split
    · rw [State.post_of_not_takesPost fun htakes => h ⟨‹_›, hfn, htakes⟩]
    · rfl
  · rw [IntCtl.waitingCount, s.wdLevel_queue fn sel M hfn, if_neg hdisarm]
    rfl

end

/-! ## All the levels of the group -/

section
variable (fn : BitVec 3) (sel : Fin 32 → Bool) {M : Fin 32}

theorem levelKept_foldl_wdLevel {l : List (Fin 32)} (hM : M ∉ l) (s : State) :
    State.LevelKept M s (l.foldl (fun t L => t.wdLevel fn (sel L) L) s) :=
  List.foldlRecOn l _ (State.LevelKept.refl M s) fun t ht L hL =>
    ht.trans (t.levelKept_wdLevel (ne_of_mem_of_not_mem hL hM).symm fn (sel L))

/-- At a level of the list, what is done is what is done there, once. -/
theorem foldl_wdLevel_at {l : List (Fin 32)} (hl : l.Nodup) (hM : M ∈ l) (s : State) :
    ∃ t, State.LevelKept M s t ∧
      State.LevelKept M (t.wdLevel fn (sel M) M) (l.foldl (fun t L => t.wdLevel fn (sel L) L) s) := by
  obtain ⟨before, after, rfl⟩ := List.append_of_mem hM
  obtain ⟨-, hafter, hdisj⟩ := List.nodup_append.1 hl
  have hbefore : M ∉ before := fun h => hdisj M h M List.mem_cons_self rfl
  rw [List.foldl_append, List.foldl_cons]
  exact ⟨_, levelKept_foldl_wdLevel fn sel hbefore s, levelKept_foldl_wdLevel fn sel (List.nodup_cons.1 hafter).1 _⟩

end

theorem mem_wdGroup_standard {g : BitVec 4} {M : Fin 32} : M ∈ wdGroup Sizes.standard g ↔ M.val / 16 = g.toNat := by
  simp [wdGroup]

theorem nodup_wdGroup (z : Sizes) (g : BitVec 4) : (wdGroup z g).Nodup := (List.nodup_finRange _).filter _

section
variable {s : State} (hz : s.config.sizes = Sizes.standard) (da : BitVec 16) (v : Word) (M : Fin 32)

theorem State.interruptControl_controlOnly (s : State) (da : BitVec 16) (v : Word) :
    s.ControlOnly (s.interruptControl da v) :=
  List.foldlRecOn (motive := s.ControlOnly) _ _ ⟨rfl, rfl⟩ fun t ht L _ => ht.trans (t.wdLevel_controlOnly _ _ L)

include hz

theorem State.interruptControl_at (hM : M.val / 16 = (da.extractLsb' 0 4).toNat) : ∃ t, State.LevelKept M s t ∧
    State.LevelKept M (t.wdLevel (da.extractLsb' 8 3) (wdSelects v (da.extractLsb' 0 4) M) M)
      (s.interruptControl da v) := by
  rw [State.interruptControl, hz]
  exact foldl_wdLevel_at _ _ (nodup_wdGroup ..) (mem_wdGroup_standard.2 hM) s

theorem State.interruptControl_elsewhere (hM : M.val / 16 ≠ (da.extractLsb' 0 4).toNat) :
    State.LevelKept M s (s.interruptControl da v) := by
  rw [State.interruptControl, hz]
  exact levelKept_foldl_wdLevel _ _ (fun h => hM (mem_wdGroup_standard.1 h)) s

end

/-- Settles O35: a level of the group sees its own step only, any other level none. -/
theorem interruptControlByWd : Obligations.InterruptControlByWd := by
  intro s r a ea v fn g sel added u hz hm he hdirect hv hfn hg hsel hadded
  have hzu : u.config.sizes = Sizes.standard := by rw [(State.effWord_othersOnly he).config, hz]
  have hfn' : ((ea.extractLsb' 0 16).extractLsb' 8 3).toNat = fn := by rw [extract_low_extract _ (by decide), hfn]
  have hg' : ((ea.extractLsb' 0 16).extractLsb' 0 4).toNat = g := by rw [extract_low_extract _ (by decide), hg]
  have hsel' (L : Fin 32) : wdSelects v ((ea.extractLsb' 0 16).extractLsb' 0 4) L = true ↔ sel L := by
    rw [hsel, wdSelects, hg', Bool.and_eq_true, decide_eq_true_eq]
  have hexec : exec (.wd r a) s = .next (u.interruptControl (ea.extractLsb' 0 16) v) := by
    rw [exec_wd_master hm he, if_pos hdirect, hv]
  obtain ⟨hframe, hfire⟩ := u.interruptControl_controlOnly (ea.extractLsb' 0 16) v
  have helsewhere {L : Fin 32} (hL : L.val / 16 ≠ g) := State.interruptControl_elsewhere hzu (ea.extractLsb' 0 16) v L
    (hg'.symm ▸ hL)
  have hat {L : Fin 32} (hL : L.val / 16 = g) := State.interruptControl_at hzu (ea.extractLsb' 0 16) v L (hL.trans hg'.symm)
  have hgroup {L : Fin 32} (h : sel L) : L.val / 16 = g := ((hsel L).1 h).1
  refine ⟨_, hexec, hframe, hfire, fun L => ?level, fun e hne => ?member, fun hne => ?shrinks, fun heq => ?grows,
    fun L hL hsorted => ?stands⟩
  case level =>
    by_cases hL : L.val / 16 = g
    · obtain ⟨t, hpre, hpost⟩ := hat hL
      obtain ⟨harm, hact, hen⟩ := t.wdLevel_flags ((ea.extractLsb' 0 16).extractLsb' 8 3)
        (wdSelects v ((ea.extractLsb' 0 16).extractLsb' 0 4) L) L
      rw [hfn', hsel', ← hpost.armed, hpre.armed] at harm
      rw [hfn', hsel', ← hpost.active, hpre.active] at hact
      rw [hfn', hsel', ← hpost.enabled, hpre.enabled] at hen
      refine ⟨harm, hact, by simpa only [hL, true_and] using hen, fun hadds => ?_, fun hadds hdisarm => ?_⟩
      · obtain ⟨hselL, hseven, htakes⟩ := (hadded L).1 hadds
        have hzt : t.config.sizes = Sizes.standard := by rw [hpre.frame.config, hzu]
        rw [hpost.waitingCount, t.wdLevel_count_triggered _ _ L hzt (hfn'.trans hseven) ((hsel' L).2 hselL)
          (hpre.takesPost.2 htakes), hpre.waitingCount]
      · rw [hpost.waitingCount, t.wdLevel_count_kept, hpre.waitingCount]
        · rw [hfn', hsel', hpre.takesPost]
          exact fun h => hadds ((hadded L).2 h)
        · rwa [hfn', hsel']
    · have hkept := helsewhere hL
      have hnot : ¬sel L := fun h => hL (hgroup h)
      rw [hkept.armed, hkept.active, hkept.enabled, hkept.waitingCount, hadded]
      simp [hnot, hL]
  case member =>
    rw [← hfn'] at hne ⊢
    by_cases hL : e.level.val / 16 = g
    · obtain ⟨t, hpre, hpost⟩ := hat hL
      rw [hpost.mem_queue, t.wdLevel_mem _ _ _ hne, hpre.mem_queue, hsel', and_iff_left (a := sel e.level) rfl]
    · have hnot : ¬sel e.level := fun h => hL (hgroup h)
      rw [(helsewhere hL).mem_queue]
      simp [hnot]
  case shrinks =>
    refine List.foldlRecOn (motive := fun t : State => t.ic.queue.Sublist u.ic.queue) _ _ (List.Sublist.refl _)
      fun t ht L _ => List.Sublist.trans ?_ ht
    rw [State.wdLevel_queue _ _ _ _ (hfn'.symm ▸ hne)]
    split
    · exact List.filter_sublist
    · exact List.Sublist.refl _
  case grows =>
    refine List.foldlRecOn (motive := fun t : State => u.ic.queue.Sublist t.ic.queue) _ _ (List.Sublist.refl _)
      fun t ht L _ => ht.trans ?_
    rw [State.wdLevel_trigger _ _ _ _ (hfn'.trans heq)]
    split
    · obtain h | h := t.post_eq L 0 .cpu none none <;> rw [h]
      exact sublist_insertEntry _ _
    · exact List.Sublist.refl _
  case stands =>
    obtain ⟨hselL, hseven, htakes⟩ := (hadded L).1 hL
    obtain ⟨t, hpre, hpost⟩ := hat (hgroup hselL)
    have hzt : t.config.sizes = Sizes.standard := by rw [hpre.frame.config, hzu]
    rw [State.wdLevel_trigger _ _ _ _ (hfn'.trans hseven), if_pos ((hsel' L).2 hselL)] at hpost
    have hstands : (t.triggered L).StandsIn (t.post L 0 .cpu none none).ic.queue := by
      rw [State.post_of_takesPost hzt (hpre.takesPost.2 htakes)]
      exact standsIn_insertEntry _ (hpre.sorted hsorted)
    obtain ⟨before, after, hqueue, hbefore, hafter⟩ := hpost.stands _ rfl hstands
    refine ⟨t.triggered L, before, after, hqueue, rfl, rfl, rfl, rfl, rfl, fun x hx => ?_, fun x hx => ?_⟩
    · exact (precedes_eq_false_iff.1 (hbefore x hx)).imp_right (.imp_right Nat.le_zero.1)
    · exact (precedes_iff.1 (hafter x hx)).imp_right (.imp_left Eq.symm)

end Sys2Proof.Machine
end
